-- ==== Sys2Proof/Word.lean ====
section
/-! DEFINITION. The widths the spec gives bytes, addresses and the picture unit's address registers (R6). -/

namespace Sys2Proof

/-- An 8-bit value: a register, a bus byte (R6, R33). -/
abbrev Byte := BitVec 8

/-- A 16-bit value: the program counter, a CPU address (R6, R26). -/
abbrev Word := BitVec 16

/-- A 15-bit loopy address, `v` or `t` (R6, R168). -/
abbrev Loopy := BitVec 15

end Sys2Proof
end

