-- ==== Sys2Proof/Machine/Bits.lean ====
section
/-! DEFINITION. Byte order, sign extension and bit fields: the helpers the decoder and the machine share. -/

namespace Sys2Proof

/-- The 16-bit value of two bytes, the first the low one (R34, R67). -/
def mkWord (lo hi : Byte) : Word := hi ++ lo

/-- Bits 7 to 0 of a 16-bit value. -/
def loByte (w : Word) : Byte := w.setWidth 8

/-- Bits 15 to 8 of a 16-bit value: of an address, its page (R34; glossary "page"). -/
def hiByte (w : Word) : Byte := (w >>> 8).setWidth 8

/-- `sext_8`, to the width of an address (R67, R86). -/
def sext8 (b : Byte) : Word := b.signExtend 16

/-- `zext_16` (00_scope.md section 5). -/
def zext16 (b : Byte) : Word := b.setWidth 16

/-- `v[lo + n - 1 : lo]`, as a value of `n` bits (00_scope.md section 5). -/
def bitField (n lo : Nat) {w : Nat} (v : BitVec w) : BitVec n := v.extractLsb' lo n

/-- `v[lo + n - 1 : lo] <- f`: the field replaced, every other bit kept (00_scope.md section 5). -/
def setBitField {w n : Nat} (lo : Nat) (f : BitVec n) (v : BitVec w) : BitVec w :=
  (v &&& ~~~((BitVec.allOnes n).setWidth w <<< lo)) ||| (f.setWidth w <<< lo)

/-- A byte from its eight bits, bit 7 first. -/
def byteOfBits (b7 b6 b5 b4 b3 b2 b1 b0 : Bool) : Byte :=
  BitVec.ofNat 8 (128 * b7.toNat + 64 * b6.toNat + 32 * b5.toNat + 16 * b4.toNat
    + 8 * b3.toNat + 4 * b2.toNat + 2 * b1.toNat + b0.toNat)

end Sys2Proof
end

