-- ==== Sys2Proof/Syntax.lean ====
section
/-! DEFINITION. The instruction set: one constructor per row of spec/opcode_table.json (R2, R69), operands as decoded (R67). -/

namespace Sys2Proof

/-- The 151 documented opcodes (R2, R69), in the order of the spec's instruction rules. A constructor is the mnemonic and,
where the mnemonic has several rows, the addressing mode of R68. The operand of a memory form is the byte or the 16-bit value the
encoding holds, before indexing (R67); of a branch, the raw offset byte, read as signed by the machine (R86). -/
inductive Instr where
  | ldaIndx (a : Byte)      -- A1 LDA indx (R90)
  | ldaZp (a : Byte)        -- A5 LDA zp (R90)
  | ldaImm (v : Byte)       -- A9 LDA imm (R90)
  | ldaAbs (a : Word)       -- AD LDA abs (R90)
  | ldaIndy (a : Byte)      -- B1 LDA indy (R90)
  | ldaZpx (a : Byte)       -- B5 LDA zpx (R90)
  | ldaAbsy (a : Word)      -- B9 LDA absy (R90)
  | ldaAbsx (a : Word)      -- BD LDA absx (R90)
  | ldxImm (v : Byte)       -- A2 LDX imm (R91)
  | ldxZp (a : Byte)        -- A6 LDX zp (R91)
  | ldxAbs (a : Word)       -- AE LDX abs (R91)
  | ldxZpy (a : Byte)       -- B6 LDX zpy (R91)
  | ldxAbsy (a : Word)      -- BE LDX absy (R91)
  | ldyImm (v : Byte)       -- A0 LDY imm (R92)
  | ldyZp (a : Byte)        -- A4 LDY zp (R92)
  | ldyAbs (a : Word)       -- AC LDY abs (R92)
  | ldyZpx (a : Byte)       -- B4 LDY zpx (R92)
  | ldyAbsx (a : Word)      -- BC LDY absx (R92)
  | staIndx (a : Byte)      -- 81 STA indx (R93)
  | staZp (a : Byte)        -- 85 STA zp (R93)
  | staAbs (a : Word)       -- 8D STA abs (R93)
  | staIndy (a : Byte)      -- 91 STA indy (R93)
  | staZpx (a : Byte)       -- 95 STA zpx (R93)
  | staAbsy (a : Word)      -- 99 STA absy (R93)
  | staAbsx (a : Word)      -- 9D STA absx (R93)
  | stxZp (a : Byte)        -- 86 STX zp (R94)
  | stxAbs (a : Word)       -- 8E STX abs (R94)
  | stxZpy (a : Byte)       -- 96 STX zpy (R94)
  | styZp (a : Byte)        -- 84 STY zp (R95)
  | styAbs (a : Word)       -- 8C STY abs (R95)
  | styZpx (a : Byte)       -- 94 STY zpx (R95)
  | tax                     -- AA TAX imp (R96)
  | tay                     -- A8 TAY imp (R97)
  | tsx                     -- BA TSX imp (R98)
  | txa                     -- 8A TXA imp (R99)
  | txs                     -- 9A TXS imp (R100)
  | tya                     -- 98 TYA imp (R101)
  | adcIndx (a : Byte)      -- 61 ADC indx (R104)
  | adcZp (a : Byte)        -- 65 ADC zp (R104)
  | adcImm (v : Byte)       -- 69 ADC imm (R104)
  | adcAbs (a : Word)       -- 6D ADC abs (R104)
  | adcIndy (a : Byte)      -- 71 ADC indy (R104)
  | adcZpx (a : Byte)       -- 75 ADC zpx (R104)
  | adcAbsy (a : Word)      -- 79 ADC absy (R104)
  | adcAbsx (a : Word)      -- 7D ADC absx (R104)
  | sbcIndx (a : Byte)      -- E1 SBC indx (R105)
  | sbcZp (a : Byte)        -- E5 SBC zp (R105)
  | sbcImm (v : Byte)       -- E9 SBC imm (R105)
  | sbcAbs (a : Word)       -- ED SBC abs (R105)
  | sbcIndy (a : Byte)      -- F1 SBC indy (R105)
  | sbcZpx (a : Byte)       -- F5 SBC zpx (R105)
  | sbcAbsy (a : Word)      -- F9 SBC absy (R105)
  | sbcAbsx (a : Word)      -- FD SBC absx (R105)
  | andIndx (a : Byte)      -- 21 AND indx (R106)
  | andZp (a : Byte)        -- 25 AND zp (R106)
  | andImm (v : Byte)       -- 29 AND imm (R106)
  | andAbs (a : Word)       -- 2D AND abs (R106)
  | andIndy (a : Byte)      -- 31 AND indy (R106)
  | andZpx (a : Byte)       -- 35 AND zpx (R106)
  | andAbsy (a : Word)      -- 39 AND absy (R106)
  | andAbsx (a : Word)      -- 3D AND absx (R106)
  | oraIndx (a : Byte)      -- 01 ORA indx (R107)
  | oraZp (a : Byte)        -- 05 ORA zp (R107)
  | oraImm (v : Byte)       -- 09 ORA imm (R107)
  | oraAbs (a : Word)       -- 0D ORA abs (R107)
  | oraIndy (a : Byte)      -- 11 ORA indy (R107)
  | oraZpx (a : Byte)       -- 15 ORA zpx (R107)
  | oraAbsy (a : Word)      -- 19 ORA absy (R107)
  | oraAbsx (a : Word)      -- 1D ORA absx (R107)
  | eorIndx (a : Byte)      -- 41 EOR indx (R108)
  | eorZp (a : Byte)        -- 45 EOR zp (R108)
  | eorImm (v : Byte)       -- 49 EOR imm (R108)
  | eorAbs (a : Word)       -- 4D EOR abs (R108)
  | eorIndy (a : Byte)      -- 51 EOR indy (R108)
  | eorZpx (a : Byte)       -- 55 EOR zpx (R108)
  | eorAbsy (a : Word)      -- 59 EOR absy (R108)
  | eorAbsx (a : Word)      -- 5D EOR absx (R108)
  | bitZp (a : Byte)        -- 24 BIT zp (R109)
  | bitAbs (a : Word)       -- 2C BIT abs (R109)
  | cmpIndx (a : Byte)      -- C1 CMP indx (R110)
  | cmpZp (a : Byte)        -- C5 CMP zp (R110)
  | cmpImm (v : Byte)       -- C9 CMP imm (R110)
  | cmpAbs (a : Word)       -- CD CMP abs (R110)
  | cmpIndy (a : Byte)      -- D1 CMP indy (R110)
  | cmpZpx (a : Byte)       -- D5 CMP zpx (R110)
  | cmpAbsy (a : Word)      -- D9 CMP absy (R110)
  | cmpAbsx (a : Word)      -- DD CMP absx (R110)
  | cpxImm (v : Byte)       -- E0 CPX imm (R111)
  | cpxZp (a : Byte)        -- E4 CPX zp (R111)
  | cpxAbs (a : Word)       -- EC CPX abs (R111)
  | cpyImm (v : Byte)       -- C0 CPY imm (R112)
  | cpyZp (a : Byte)        -- C4 CPY zp (R112)
  | cpyAbs (a : Word)       -- CC CPY abs (R112)
  | incZp (a : Byte)        -- E6 INC zp (R113)
  | incAbs (a : Word)       -- EE INC abs (R113)
  | incZpx (a : Byte)       -- F6 INC zpx (R113)
  | incAbsx (a : Word)      -- FE INC absx (R113)
  | decZp (a : Byte)        -- C6 DEC zp (R114)
  | decAbs (a : Word)       -- CE DEC abs (R114)
  | decZpx (a : Byte)       -- D6 DEC zpx (R114)
  | decAbsx (a : Word)      -- DE DEC absx (R114)
  | inx                     -- E8 INX imp (R115)
  | iny                     -- C8 INY imp (R116)
  | dex                     -- CA DEX imp (R117)
  | dey                     -- 88 DEY imp (R118)
  | aslZp (a : Byte)        -- 06 ASL zp (R119)
  | aslAcc                  -- 0A ASL acc (R119)
  | aslAbs (a : Word)       -- 0E ASL abs (R119)
  | aslZpx (a : Byte)       -- 16 ASL zpx (R119)
  | aslAbsx (a : Word)      -- 1E ASL absx (R119)
  | lsrZp (a : Byte)        -- 46 LSR zp (R120)
  | lsrAcc                  -- 4A LSR acc (R120)
  | lsrAbs (a : Word)       -- 4E LSR abs (R120)
  | lsrZpx (a : Byte)       -- 56 LSR zpx (R120)
  | lsrAbsx (a : Word)      -- 5E LSR absx (R120)
  | rolZp (a : Byte)        -- 26 ROL zp (R121)
  | rolAcc                  -- 2A ROL acc (R121)
  | rolAbs (a : Word)       -- 2E ROL abs (R121)
  | rolZpx (a : Byte)       -- 36 ROL zpx (R121)
  | rolAbsx (a : Word)      -- 3E ROL absx (R121)
  | rorZp (a : Byte)        -- 66 ROR zp (R122)
  | rorAcc                  -- 6A ROR acc (R122)
  | rorAbs (a : Word)       -- 6E ROR abs (R122)
  | rorZpx (a : Byte)       -- 76 ROR zpx (R122)
  | rorAbsx (a : Word)      -- 7E ROR absx (R122)
  | jmpAbs (a : Word)       -- 4C JMP abs (R123)
  | jmpInd (a : Word)       -- 6C JMP ind (R123)
  | jsr (a : Word)          -- 20 JSR abs (R124)
  | rts                     -- 60 RTS imp (R125)
  | bcc (off : Byte)        -- 90 BCC rel (R127)
  | bcs (off : Byte)        -- B0 BCS rel (R128)
  | beq (off : Byte)        -- F0 BEQ rel (R129)
  | bmi (off : Byte)        -- 30 BMI rel (R130)
  | bne (off : Byte)        -- D0 BNE rel (R131)
  | bpl (off : Byte)        -- 10 BPL rel (R132)
  | bvc (off : Byte)        -- 50 BVC rel (R133)
  | bvs (off : Byte)        -- 70 BVS rel (R134)
  | brk                     -- 00 BRK imp (R135)
  | rti                     -- 40 RTI imp (R136)
  | pha                     -- 48 PHA imp (R137)
  | php                     -- 08 PHP imp (R138)
  | pla                     -- 68 PLA imp (R139)
  | plp                     -- 28 PLP imp (R140)
  | clc                     -- 18 CLC imp (R141)
  | sec                     -- 38 SEC imp (R142)
  | cli                     -- 58 CLI imp (R143)
  | sei                     -- 78 SEI imp (R144)
  | cld                     -- D8 CLD imp (R145)
  | sed                     -- F8 SED imp (R146)
  | clv                     -- B8 CLV imp (R147)
  | nop                     -- EA NOP imp (R148)
deriving DecidableEq, Repr

end Sys2Proof
end

