-- ==== Sys2Proof/Decode.lean ====
section
/-! DEFINITION. The encoding (R65 to R71): the opcode table, the decoder over bytes, and the encoder. -/

namespace Sys2Proof

/-- What an opcode byte selects (R66): a whole instruction, or an instruction that waits for its 1-byte or its 2-byte operand
(R65, R67). The operand's width is the addressing mode's (R68). -/
inductive Form where
  | plain (i : Instr)
  | byte (f : Byte → Instr)
  | word (f : Word → Instr)

/-- How many operand bytes a form has (R65, R68). -/
def Form.operandBytes : Form → Nat
  | .plain _ => 0
  | .byte _ => 1
  | .word _ => 2

/-- A row of the opcode map: the opcode byte and what it selects. -/
structure OpcodeRow where
  op   : Byte
  form : Form

/-- Row 0x of the opcode map (R69). -/
def opcodeRow0 : List OpcodeRow := [
  ⟨0x00#8, .plain .brk⟩, ⟨0x01#8, .byte .oraIndx⟩, ⟨0x05#8, .byte .oraZp⟩,
  ⟨0x06#8, .byte .aslZp⟩, ⟨0x08#8, .plain .php⟩, ⟨0x09#8, .byte .oraImm⟩,
  ⟨0x0A#8, .plain .aslAcc⟩, ⟨0x0D#8, .word .oraAbs⟩, ⟨0x0E#8, .word .aslAbs⟩]

/-- Row 1x of the opcode map (R69). -/
def opcodeRow1 : List OpcodeRow := [
  ⟨0x10#8, .byte .bpl⟩, ⟨0x11#8, .byte .oraIndy⟩, ⟨0x15#8, .byte .oraZpx⟩,
  ⟨0x16#8, .byte .aslZpx⟩, ⟨0x18#8, .plain .clc⟩, ⟨0x19#8, .word .oraAbsy⟩,
  ⟨0x1D#8, .word .oraAbsx⟩, ⟨0x1E#8, .word .aslAbsx⟩]

/-- Row 2x of the opcode map (R69). -/
def opcodeRow2 : List OpcodeRow := [
  ⟨0x20#8, .word .jsr⟩, ⟨0x21#8, .byte .andIndx⟩, ⟨0x24#8, .byte .bitZp⟩,
  ⟨0x25#8, .byte .andZp⟩, ⟨0x26#8, .byte .rolZp⟩, ⟨0x28#8, .plain .plp⟩,
  ⟨0x29#8, .byte .andImm⟩, ⟨0x2A#8, .plain .rolAcc⟩, ⟨0x2C#8, .word .bitAbs⟩,
  ⟨0x2D#8, .word .andAbs⟩, ⟨0x2E#8, .word .rolAbs⟩]

/-- Row 3x of the opcode map (R69). -/
def opcodeRow3 : List OpcodeRow := [
  ⟨0x30#8, .byte .bmi⟩, ⟨0x31#8, .byte .andIndy⟩, ⟨0x35#8, .byte .andZpx⟩,
  ⟨0x36#8, .byte .rolZpx⟩, ⟨0x38#8, .plain .sec⟩, ⟨0x39#8, .word .andAbsy⟩,
  ⟨0x3D#8, .word .andAbsx⟩, ⟨0x3E#8, .word .rolAbsx⟩]

/-- Row 4x of the opcode map (R69). -/
def opcodeRow4 : List OpcodeRow := [
  ⟨0x40#8, .plain .rti⟩, ⟨0x41#8, .byte .eorIndx⟩, ⟨0x45#8, .byte .eorZp⟩,
  ⟨0x46#8, .byte .lsrZp⟩, ⟨0x48#8, .plain .pha⟩, ⟨0x49#8, .byte .eorImm⟩,
  ⟨0x4A#8, .plain .lsrAcc⟩, ⟨0x4C#8, .word .jmpAbs⟩, ⟨0x4D#8, .word .eorAbs⟩,
  ⟨0x4E#8, .word .lsrAbs⟩]

/-- Row 5x of the opcode map (R69). -/
def opcodeRow5 : List OpcodeRow := [
  ⟨0x50#8, .byte .bvc⟩, ⟨0x51#8, .byte .eorIndy⟩, ⟨0x55#8, .byte .eorZpx⟩,
  ⟨0x56#8, .byte .lsrZpx⟩, ⟨0x58#8, .plain .cli⟩, ⟨0x59#8, .word .eorAbsy⟩,
  ⟨0x5D#8, .word .eorAbsx⟩, ⟨0x5E#8, .word .lsrAbsx⟩]

/-- Row 6x of the opcode map (R69). -/
def opcodeRow6 : List OpcodeRow := [
  ⟨0x60#8, .plain .rts⟩, ⟨0x61#8, .byte .adcIndx⟩, ⟨0x65#8, .byte .adcZp⟩,
  ⟨0x66#8, .byte .rorZp⟩, ⟨0x68#8, .plain .pla⟩, ⟨0x69#8, .byte .adcImm⟩,
  ⟨0x6A#8, .plain .rorAcc⟩, ⟨0x6C#8, .word .jmpInd⟩, ⟨0x6D#8, .word .adcAbs⟩,
  ⟨0x6E#8, .word .rorAbs⟩]

/-- Row 7x of the opcode map (R69). -/
def opcodeRow7 : List OpcodeRow := [
  ⟨0x70#8, .byte .bvs⟩, ⟨0x71#8, .byte .adcIndy⟩, ⟨0x75#8, .byte .adcZpx⟩,
  ⟨0x76#8, .byte .rorZpx⟩, ⟨0x78#8, .plain .sei⟩, ⟨0x79#8, .word .adcAbsy⟩,
  ⟨0x7D#8, .word .adcAbsx⟩, ⟨0x7E#8, .word .rorAbsx⟩]

/-- Row 8x of the opcode map (R69). -/
def opcodeRow8 : List OpcodeRow := [
  ⟨0x81#8, .byte .staIndx⟩, ⟨0x84#8, .byte .styZp⟩, ⟨0x85#8, .byte .staZp⟩,
  ⟨0x86#8, .byte .stxZp⟩, ⟨0x88#8, .plain .dey⟩, ⟨0x8A#8, .plain .txa⟩,
  ⟨0x8C#8, .word .styAbs⟩, ⟨0x8D#8, .word .staAbs⟩, ⟨0x8E#8, .word .stxAbs⟩]

/-- Row 9x of the opcode map (R69). -/
def opcodeRow9 : List OpcodeRow := [
  ⟨0x90#8, .byte .bcc⟩, ⟨0x91#8, .byte .staIndy⟩, ⟨0x94#8, .byte .styZpx⟩,
  ⟨0x95#8, .byte .staZpx⟩, ⟨0x96#8, .byte .stxZpy⟩, ⟨0x98#8, .plain .tya⟩,
  ⟨0x99#8, .word .staAbsy⟩, ⟨0x9A#8, .plain .txs⟩, ⟨0x9D#8, .word .staAbsx⟩]

/-- Row Ax of the opcode map (R69). -/
def opcodeRowA : List OpcodeRow := [
  ⟨0xA0#8, .byte .ldyImm⟩, ⟨0xA1#8, .byte .ldaIndx⟩, ⟨0xA2#8, .byte .ldxImm⟩,
  ⟨0xA4#8, .byte .ldyZp⟩, ⟨0xA5#8, .byte .ldaZp⟩, ⟨0xA6#8, .byte .ldxZp⟩,
  ⟨0xA8#8, .plain .tay⟩, ⟨0xA9#8, .byte .ldaImm⟩, ⟨0xAA#8, .plain .tax⟩,
  ⟨0xAC#8, .word .ldyAbs⟩, ⟨0xAD#8, .word .ldaAbs⟩, ⟨0xAE#8, .word .ldxAbs⟩]

/-- Row Bx of the opcode map (R69). -/
def opcodeRowB : List OpcodeRow := [
  ⟨0xB0#8, .byte .bcs⟩, ⟨0xB1#8, .byte .ldaIndy⟩, ⟨0xB4#8, .byte .ldyZpx⟩,
  ⟨0xB5#8, .byte .ldaZpx⟩, ⟨0xB6#8, .byte .ldxZpy⟩, ⟨0xB8#8, .plain .clv⟩,
  ⟨0xB9#8, .word .ldaAbsy⟩, ⟨0xBA#8, .plain .tsx⟩, ⟨0xBC#8, .word .ldyAbsx⟩,
  ⟨0xBD#8, .word .ldaAbsx⟩, ⟨0xBE#8, .word .ldxAbsy⟩]

/-- Row Cx of the opcode map (R69). -/
def opcodeRowC : List OpcodeRow := [
  ⟨0xC0#8, .byte .cpyImm⟩, ⟨0xC1#8, .byte .cmpIndx⟩, ⟨0xC4#8, .byte .cpyZp⟩,
  ⟨0xC5#8, .byte .cmpZp⟩, ⟨0xC6#8, .byte .decZp⟩, ⟨0xC8#8, .plain .iny⟩,
  ⟨0xC9#8, .byte .cmpImm⟩, ⟨0xCA#8, .plain .dex⟩, ⟨0xCC#8, .word .cpyAbs⟩,
  ⟨0xCD#8, .word .cmpAbs⟩, ⟨0xCE#8, .word .decAbs⟩]

/-- Row Dx of the opcode map (R69). -/
def opcodeRowD : List OpcodeRow := [
  ⟨0xD0#8, .byte .bne⟩, ⟨0xD1#8, .byte .cmpIndy⟩, ⟨0xD5#8, .byte .cmpZpx⟩,
  ⟨0xD6#8, .byte .decZpx⟩, ⟨0xD8#8, .plain .cld⟩, ⟨0xD9#8, .word .cmpAbsy⟩,
  ⟨0xDD#8, .word .cmpAbsx⟩, ⟨0xDE#8, .word .decAbsx⟩]

/-- Row Ex of the opcode map (R69). -/
def opcodeRowE : List OpcodeRow := [
  ⟨0xE0#8, .byte .cpxImm⟩, ⟨0xE1#8, .byte .sbcIndx⟩, ⟨0xE4#8, .byte .cpxZp⟩,
  ⟨0xE5#8, .byte .sbcZp⟩, ⟨0xE6#8, .byte .incZp⟩, ⟨0xE8#8, .plain .inx⟩,
  ⟨0xE9#8, .byte .sbcImm⟩, ⟨0xEA#8, .plain .nop⟩, ⟨0xEC#8, .word .cpxAbs⟩,
  ⟨0xED#8, .word .sbcAbs⟩, ⟨0xEE#8, .word .incAbs⟩]

/-- Row Fx of the opcode map (R69). -/
def opcodeRowF : List OpcodeRow := [
  ⟨0xF0#8, .byte .beq⟩, ⟨0xF1#8, .byte .sbcIndy⟩, ⟨0xF5#8, .byte .sbcZpx⟩,
  ⟨0xF6#8, .byte .incZpx⟩, ⟨0xF8#8, .plain .sed⟩, ⟨0xF9#8, .word .sbcAbsy⟩,
  ⟨0xFD#8, .word .sbcAbsx⟩, ⟨0xFE#8, .word .incAbsx⟩]

/-- The opcode map (R69): the 151 defined opcodes in byte order. -/
def opcodeTable : List OpcodeRow :=
  opcodeRow0 ++ opcodeRow1 ++ opcodeRow2 ++ opcodeRow3 ++ opcodeRow4 ++ opcodeRow5 ++ opcodeRow6 ++ opcodeRow7
  ++ opcodeRow8 ++ opcodeRow9 ++ opcodeRowA ++ opcodeRowB ++ opcodeRowC ++ opcodeRowD ++ opcodeRowE ++ opcodeRowF

/-- The look-up of R66: the row of an opcode byte, by comparing the byte whole, never by its fields. -/
def findForm (op : Byte) : List OpcodeRow → Option Form
  | [] => none
  | r :: rs => if r.op = op then some r.form else findForm op rs

/-- What the table gives for an opcode byte; `none` for the 105 invalid ones (R66, R70). -/
def opcodeForm (op : Byte) : Option Form := findForm op opcodeTable

/-- Why bytes are no instruction: no byte at all, an opcode byte without an entry (R70), or too few operand bytes (R65). -/
inductive DecodeError where
  | noBytes
  | invalidOpcode (op : Byte)
  | missingOperand (op : Byte)
deriving DecidableEq, Repr

/-- Completing a form with the operand bytes, little-endian (R67); the bytes after the instruction are returned. -/
def Form.complete (op : Byte) : Form → List Byte → Except DecodeError (Instr × List Byte)
  | .plain i, rest => .ok (i, rest)
  | .byte f, b1 :: rest => .ok (f b1, rest)
  | .word f, b1 :: b2 :: rest => .ok (f (mkWord b1 b2), rest)
  | .byte _, [] => .error (.missingOperand op)
  | .word _, _ => .error (.missingOperand op)

/-- The decoder, total on any bytes (R65, R66): the instruction at the front and the bytes after it, or why there is none. -/
def decode : List Byte → Except DecodeError (Instr × List Byte)
  | [] => .error .noBytes
  | op :: rest =>
    match opcodeForm op with
    | none => .error (.invalidOpcode op)
    | some form => form.complete op rest

/-- Two operand bytes of a 16-bit value, low byte first (R67, R34). -/
def wordBytes (w : Word) : List Byte := [loByte w, hiByte w]

/-- The encoder (R65, R69): the bytes of an instruction, the opcode first. -/
def encode : Instr → List Byte
  | .ldaIndx a => [0xA1#8, a]
  | .ldaZp a => [0xA5#8, a]
  | .ldaImm v => [0xA9#8, v]
  | .ldaAbs a => 0xAD#8 :: wordBytes a
  | .ldaIndy a => [0xB1#8, a]
  | .ldaZpx a => [0xB5#8, a]
  | .ldaAbsy a => 0xB9#8 :: wordBytes a
  | .ldaAbsx a => 0xBD#8 :: wordBytes a
  | .ldxImm v => [0xA2#8, v]
  | .ldxZp a => [0xA6#8, a]
  | .ldxAbs a => 0xAE#8 :: wordBytes a
  | .ldxZpy a => [0xB6#8, a]
  | .ldxAbsy a => 0xBE#8 :: wordBytes a
  | .ldyImm v => [0xA0#8, v]
  | .ldyZp a => [0xA4#8, a]
  | .ldyAbs a => 0xAC#8 :: wordBytes a
  | .ldyZpx a => [0xB4#8, a]
  | .ldyAbsx a => 0xBC#8 :: wordBytes a
  | .staIndx a => [0x81#8, a]
  | .staZp a => [0x85#8, a]
  | .staAbs a => 0x8D#8 :: wordBytes a
  | .staIndy a => [0x91#8, a]
  | .staZpx a => [0x95#8, a]
  | .staAbsy a => 0x99#8 :: wordBytes a
  | .staAbsx a => 0x9D#8 :: wordBytes a
  | .stxZp a => [0x86#8, a]
  | .stxAbs a => 0x8E#8 :: wordBytes a
  | .stxZpy a => [0x96#8, a]
  | .styZp a => [0x84#8, a]
  | .styAbs a => 0x8C#8 :: wordBytes a
  | .styZpx a => [0x94#8, a]
  | .tax => [0xAA#8]
  | .tay => [0xA8#8]
  | .tsx => [0xBA#8]
  | .txa => [0x8A#8]
  | .txs => [0x9A#8]
  | .tya => [0x98#8]
  | .adcIndx a => [0x61#8, a]
  | .adcZp a => [0x65#8, a]
  | .adcImm v => [0x69#8, v]
  | .adcAbs a => 0x6D#8 :: wordBytes a
  | .adcIndy a => [0x71#8, a]
  | .adcZpx a => [0x75#8, a]
  | .adcAbsy a => 0x79#8 :: wordBytes a
  | .adcAbsx a => 0x7D#8 :: wordBytes a
  | .sbcIndx a => [0xE1#8, a]
  | .sbcZp a => [0xE5#8, a]
  | .sbcImm v => [0xE9#8, v]
  | .sbcAbs a => 0xED#8 :: wordBytes a
  | .sbcIndy a => [0xF1#8, a]
  | .sbcZpx a => [0xF5#8, a]
  | .sbcAbsy a => 0xF9#8 :: wordBytes a
  | .sbcAbsx a => 0xFD#8 :: wordBytes a
  | .andIndx a => [0x21#8, a]
  | .andZp a => [0x25#8, a]
  | .andImm v => [0x29#8, v]
  | .andAbs a => 0x2D#8 :: wordBytes a
  | .andIndy a => [0x31#8, a]
  | .andZpx a => [0x35#8, a]
  | .andAbsy a => 0x39#8 :: wordBytes a
  | .andAbsx a => 0x3D#8 :: wordBytes a
  | .oraIndx a => [0x01#8, a]
  | .oraZp a => [0x05#8, a]
  | .oraImm v => [0x09#8, v]
  | .oraAbs a => 0x0D#8 :: wordBytes a
  | .oraIndy a => [0x11#8, a]
  | .oraZpx a => [0x15#8, a]
  | .oraAbsy a => 0x19#8 :: wordBytes a
  | .oraAbsx a => 0x1D#8 :: wordBytes a
  | .eorIndx a => [0x41#8, a]
  | .eorZp a => [0x45#8, a]
  | .eorImm v => [0x49#8, v]
  | .eorAbs a => 0x4D#8 :: wordBytes a
  | .eorIndy a => [0x51#8, a]
  | .eorZpx a => [0x55#8, a]
  | .eorAbsy a => 0x59#8 :: wordBytes a
  | .eorAbsx a => 0x5D#8 :: wordBytes a
  | .bitZp a => [0x24#8, a]
  | .bitAbs a => 0x2C#8 :: wordBytes a
  | .cmpIndx a => [0xC1#8, a]
  | .cmpZp a => [0xC5#8, a]
  | .cmpImm v => [0xC9#8, v]
  | .cmpAbs a => 0xCD#8 :: wordBytes a
  | .cmpIndy a => [0xD1#8, a]
  | .cmpZpx a => [0xD5#8, a]
  | .cmpAbsy a => 0xD9#8 :: wordBytes a
  | .cmpAbsx a => 0xDD#8 :: wordBytes a
  | .cpxImm v => [0xE0#8, v]
  | .cpxZp a => [0xE4#8, a]
  | .cpxAbs a => 0xEC#8 :: wordBytes a
  | .cpyImm v => [0xC0#8, v]
  | .cpyZp a => [0xC4#8, a]
  | .cpyAbs a => 0xCC#8 :: wordBytes a
  | .incZp a => [0xE6#8, a]
  | .incAbs a => 0xEE#8 :: wordBytes a
  | .incZpx a => [0xF6#8, a]
  | .incAbsx a => 0xFE#8 :: wordBytes a
  | .decZp a => [0xC6#8, a]
  | .decAbs a => 0xCE#8 :: wordBytes a
  | .decZpx a => [0xD6#8, a]
  | .decAbsx a => 0xDE#8 :: wordBytes a
  | .inx => [0xE8#8]
  | .iny => [0xC8#8]
  | .dex => [0xCA#8]
  | .dey => [0x88#8]
  | .aslZp a => [0x06#8, a]
  | .aslAcc => [0x0A#8]
  | .aslAbs a => 0x0E#8 :: wordBytes a
  | .aslZpx a => [0x16#8, a]
  | .aslAbsx a => 0x1E#8 :: wordBytes a
  | .lsrZp a => [0x46#8, a]
  | .lsrAcc => [0x4A#8]
  | .lsrAbs a => 0x4E#8 :: wordBytes a
  | .lsrZpx a => [0x56#8, a]
  | .lsrAbsx a => 0x5E#8 :: wordBytes a
  | .rolZp a => [0x26#8, a]
  | .rolAcc => [0x2A#8]
  | .rolAbs a => 0x2E#8 :: wordBytes a
  | .rolZpx a => [0x36#8, a]
  | .rolAbsx a => 0x3E#8 :: wordBytes a
  | .rorZp a => [0x66#8, a]
  | .rorAcc => [0x6A#8]
  | .rorAbs a => 0x6E#8 :: wordBytes a
  | .rorZpx a => [0x76#8, a]
  | .rorAbsx a => 0x7E#8 :: wordBytes a
  | .jmpAbs a => 0x4C#8 :: wordBytes a
  | .jmpInd a => 0x6C#8 :: wordBytes a
  | .jsr a => 0x20#8 :: wordBytes a
  | .rts => [0x60#8]
  | .bcc off => [0x90#8, off]
  | .bcs off => [0xB0#8, off]
  | .beq off => [0xF0#8, off]
  | .bmi off => [0x30#8, off]
  | .bne off => [0xD0#8, off]
  | .bpl off => [0x10#8, off]
  | .bvc off => [0x50#8, off]
  | .bvs off => [0x70#8, off]
  | .brk => [0x00#8]
  | .rti => [0x40#8]
  | .pha => [0x48#8]
  | .php => [0x08#8]
  | .pla => [0x68#8]
  | .plp => [0x28#8]
  | .clc => [0x18#8]
  | .sec => [0x38#8]
  | .cli => [0x58#8]
  | .sei => [0x78#8]
  | .cld => [0xD8#8]
  | .sed => [0xF8#8]
  | .clv => [0xB8#8]
  | .nop => [0xEA#8]

/-- How many bytes an instruction has: 1, 2 or 3 (R65). -/
def Instr.length (i : Instr) : Nat := (encode i).length

/-- The bytes of a table word: bit 0 of `w` is bit 0 of the first byte; every bit above `nbits` is 0; as many bytes as the longest
instruction has (R65). -/
def tableBytes (nbits w : Nat) : List Byte :=
  let u := w % 2 ^ nbits
  [BitVec.ofNat 8 u, BitVec.ofNat 8 (u / 256), BitVec.ofNat 8 (u / 65536)]

/-- The instruction the decoder reads from a word numbered as spec/opcode_table.json numbers it. -/
def decodeTableWord (nbits w : Nat) : Option Instr :=
  match decode (tableBytes nbits w) with
  | .ok (i, _) => some i
  | .error _ => none

end Sys2Proof
end

