-- ==== Sys2Proof/Config.lean ====
section
/-! DEFINITION. What the launch fixes (the spec's named parameters, R8) and the free values nothing constrains. -/

namespace Sys2Proof

/-- UNDEF_READ: the value of the k-th read of a write-only register or of undriven bits (R8, R27, R170, R199, R215).
A free draw: no body, so nothing can be proved of a value of it. DESIGN CHOICE of form, safe (log entry 4). -/
opaque Config.undefRead : Nat → Byte

/-- IRQ_LINE: the level of the k-th sample of the IRQ input that the state's own list of driven levels does not give
(R8, R23, R154). A free draw. DESIGN CHOICE of form, safe (log entry 5). -/
opaque Config.irqLine : Nat → Bool

namespace Machine

/-- What a frame-sequencer count fires (R200): a quarter event alone, or a quarter event and then a half event. That no count of any
schedule fires a half event alone is the model's: DESIGN CHOICE, unsafe (log entry 27). -/
inductive SeqEvent where
  | quarter
  | quarterHalf
deriving DecidableEq, Repr

/-- One mode of FRAME_SEQ_SCHEDULE (R200): the counts with an event, and the count at which `fs` returns to 0. -/
structure SeqMode where
  events : List (Nat × SeqEvent)
  wrap   : Nat
deriving DecidableEq, Repr

/-- The named parameters that have a default (R8; 93_implementation_defined.md section 3). They are fixed at the launch;
no step changes them (log entry 7). The defaults stand in `Params.default` (Machine/Tables.lean). -/
structure Params where
  /-- BRK_MASKED_BY_I (R135) -/
  brkMaskedByI : Bool
  /-- SPRITE_Y_OFFSET (R182, R190) -/
  spriteYOffset : Nat
  /-- NMI_ON_ENABLE_IN_VBLANK (R171) -/
  nmiOnEnableInVblank : Bool
  /-- FRAME_SEQ_SCHEDULE, 4-step mode (R200) -/
  seq4 : SeqMode
  /-- FRAME_SEQ_SCHEDULE, 5-step mode (R200) -/
  seq5 : SeqMode
  /-- NOISE_PERIODS (R197) -/
  noisePeriods : List Nat
  /-- DMC_RATES (R197) -/
  dmcRates : List Nat
  /-- SWEEP1_ONES_COMPLEMENT (R204) -/
  sweep1OnesComplement : Bool
  /-- CTRL_AFTER_8 (R215) -/
  ctrlAfter8 : Bool
deriving DecidableEq, Repr

/-- MIX_WEIGHTS (R211): the four weights of the linear mix, over any number type `R`. The spec leaves them open, so they are
an argument of `Mix.amp` and every statement about an amplitude holds for every choice (log entry 11). -/
structure MixWeights (R : Type) where
  pulse : R
  tri   : R
  noise : R
  dmc   : R

end Machine

end Sys2Proof
end

