-- ==== Sys2Proof/Machine/Tables.lean ====
section
/-! DEFINITION. The fixed tables of the audio unit and the spec's default of every named parameter that has one. -/

namespace Sys2Proof.Machine

/-- LENGTH (R197). -/
def lengthTable : List Nat :=
  [10, 254, 20, 2, 40, 4, 80, 6, 160, 8, 60, 10, 14, 12, 26, 14,
   12, 16, 24, 18, 48, 20, 96, 22, 192, 24, 72, 26, 16, 28, 32, 30]

/-- DUTY (R197): for each duty setting, the eight outputs in the order the duty step visits them. -/
def dutyTable : List (List Bool) :=
  [[false, true, false, false, false, false, false, false],
   [false, true, true, false, false, false, false, false],
   [false, true, true, true, true, false, false, false],
   [true, false, false, true, true, true, true, true]]

/-- TRI (R197): 15 down to 0, then 0 up to 15. -/
def triangleTable : List Nat :=
  [15, 14, 13, 12, 11, 10, 9, 8, 7, 6, 5, 4, 3, 2, 1, 0,
   0, 1, 2, 3, 4, 5, 6, 7, 8, 9, 10, 11, 12, 13, 14, 15]

/-- NOISE_PERIODS, the default (R197). -/
def defaultNoisePeriods : List Nat :=
  [4, 8, 16, 32, 64, 96, 128, 160, 202, 254, 380, 508, 762, 1016, 2034, 4068]

/-- DMC_RATES, the default (R197). -/
def defaultDmcRates : List Nat :=
  [428, 380, 340, 320, 286, 254, 226, 214, 190, 160, 142, 128, 106, 84, 72, 54]

/-- FRAME_SEQ_SCHEDULE, the default 4-step mode (R200). -/
def defaultSeq4 : SeqMode :=
  { events := [(7457, .quarter), (14913, .quarterHalf), (22371, .quarter), (29829, .quarterHalf)], wrap := 29830 }

/-- FRAME_SEQ_SCHEDULE, the default 5-step mode (R200). -/
def defaultSeq5 : SeqMode :=
  { events := [(7457, .quarter), (14913, .quarterHalf), (22371, .quarter), (37281, .quarterHalf)], wrap := 37282 }

/-- The default of every named parameter that has one (R8; 93_implementation_defined.md section 3). -/
def Params.default : Params :=
  { brkMaskedByI := false
    spriteYOffset := 1
    nmiOnEnableInVblank := false
    seq4 := defaultSeq4
    seq5 := defaultSeq5
    noisePeriods := defaultNoisePeriods
    dmcRates := defaultDmcRates
    sweep1OnesComplement := true
    ctrlAfter8 := true }

end Sys2Proof.Machine
end

