-- ==== Sys2Proof/Machine/State.lean ====
section
/-! DEFINITION. Everything the spec gives the machine, as plain data; the machine right after reset; why a step can stop. -/

namespace Sys2Proof.Machine

/-- A memory: (address, byte) cells, addresses strictly rising, no cell equal to what an unlisted address reads as
(`Memory.wf`, Machine/Memory.lean). -/
abbrev Memory := List Host.Cell

/-- A 256 x 240 pixel buffer: (line, pixels of the line) for the lines rendered so far, lines strictly rising (R167;
log entry 13). -/
abbrev Lines (α : Type) := List (Nat × List α)

/-- The six status flags (R13). No break flag and no bit 5 is stored. -/
structure Flags where
  c : Bool
  z : Bool
  i : Bool
  d : Bool
  v : Bool
  n : Bool
deriving DecidableEq, Repr

/-- What `halted` records: the invalid opcode byte and the address it was fetched from (R24, R150). -/
structure BadOpcode where
  op   : Byte
  addr : Word
deriving DecidableEq, Repr

/-- The CPU (R9 to R24). -/
structure Cpu where
  /-- accumulator (R9) -/
  a : Byte
  /-- index register X (R10) -/
  x : Byte
  /-- index register Y (R10) -/
  y : Byte
  /-- stack pointer (R11) -/
  sp : Byte
  /-- program counter (R12): between steps, the next opcode's address; inside an instruction's meaning, the address after it -/
  pc : Word
  /-- status flags (R13) -/
  flags : Flags
  /-- CPU cycles since reset, never wrapping (R20) -/
  cycles : Nat
  /-- pending extra cycles of the step in progress (R21) -/
  extra : Nat
  /-- NMI latch (R22) -/
  nmiPending : Bool
  /-- the fatal execution error (R24) -/
  halted : Option BadOpcode
deriving DecidableEq, Repr

/-- Nametable mirroring: the header's three modes (R47) and mapper 1's one-screen modes (R60, R180). -/
inductive Mirroring where
  | horizontal
  | vertical
  | fourScreen
  | oneScreenLower
  | oneScreenUpper
deriving DecidableEq, Repr

/-- The loaded image (R45 to R50): launch configuration, which no step changes (R25). -/
structure Image where
  /-- PRG page count, 16 KB units (R45) -/
  nPrg : Nat
  /-- CHR page count, 8 KB units; 0 means CHR-RAM (R45) -/
  nChr : Nat
  /-- the header's mirroring mode (R47) -/
  mirroring : Mirroring
  /-- PRG_RAM_PRESENT (R50) -/
  prgRamPresent : Bool
  /-- PRG-ROM, page k at 16384 * k (R46) -/
  prgRom : Memory
  /-- CHR-ROM (R46) -/
  chrRom : Memory
deriving DecidableEq, Repr

/-- Mapper 1's registers (R57). -/
structure Mmc1 where
  sr      : BitVec 5
  control : BitVec 5
  chr0    : BitVec 5
  chr1    : BitVec 5
  prg     : BitVec 5
deriving DecidableEq, Repr

/-- Which mapper is in the cartridge (R48), with its registers: mapper 0 has none (R54). -/
inductive MapperRegs where
  | mapper0
  | mapper1 (r : Mmc1)
deriving DecidableEq, Repr

/-- The cartridge's mutable state: mapper registers, PRG-RAM (R50), CHR-RAM (R52). -/
structure Mapper where
  regs   : MapperRegs
  prgRam : Memory
  chrRam : Memory
deriving DecidableEq, Repr

/-- A resolved colour, held as the arguments `Resolve` applies MASTER_PALETTE and COLOR_TRANSFORM to (R193): the palette
entry, the grayscale bit and the emphasis bits. `Pixel.colour` gives the colour for any palette and transform (log entry 10). -/
structure Pixel where
  entry    : BitVec 6
  gray     : Bool
  emphasis : BitVec 3
deriving DecidableEq, Repr

/-- The picture unit (R167). -/
structure Ppu where
  ctrl     : Byte
  mask     : Byte
  vblank   : Bool
  s0hit    : Bool
  ovf      : Bool
  oamaddr  : Byte
  v        : Loopy
  t        : Loopy
  x        : BitVec 3
  w        : Bool
  rbuf     : Byte
  ntRam    : Memory
  pal      : Memory
  oam      : Memory
  cycle    : Nat
  scanline : Int
  frame    : Nat
  bgidx    : Lines (BitVec 2)
  fb       : Lines Pixel
  sprites  : List Nat
deriving DecidableEq, Repr

/-- An envelope's state (R202). -/
structure Envelope where
  start : Bool
  div   : BitVec 4
  decay : BitVec 4
deriving DecidableEq, Repr

/-- A pulse channel (R196, R202 to R205). -/
structure Pulse where
  /-- register 0x4000 / 0x4004 -/
  reg : Byte
  /-- sweep register 0x4001 / 0x4005 -/
  sweep : Byte
  /-- period T -/
  period : BitVec 11
  /-- timer counter ct -/
  ct : Nat
  /-- duty step q -/
  q : BitVec 3
  /-- length counter -/
  len : Byte
  env : Envelope
  sweepDiv : BitVec 3
  sweepReload : Bool
  enabled : Bool
deriving DecidableEq, Repr

/-- The triangle channel (R196, R203, R206, R207). -/
structure Triangle where
  /-- register 0x4008 -/
  reg : Byte
  period : BitVec 11
  ct : Nat
  q : BitVec 5
  len : Byte
  /-- linear counter -/
  lc : BitVec 7
  /-- linear reload flag -/
  lr : Bool
  enabled : Bool
deriving DecidableEq, Repr

/-- The noise channel (R196, R202, R203, R208). -/
structure Noise where
  /-- register 0x400C -/
  reg : Byte
  /-- register 0x400E -/
  mode : Byte
  sr : BitVec 15
  ct : Nat
  len : Byte
  env : Envelope
  enabled : Bool
deriving DecidableEq, Repr

/-- The delta-modulation channel (R196, R209). -/
structure Dmc where
  /-- register 0x4010 -/
  reg : Byte
  level : BitVec 7
  sampleAddr : Word
  sampleLen : BitVec 12
  curAddr : Word
  bytesRemaining : BitVec 12
  buf : Byte
  bufEmpty : Bool
  dsr : Byte
  bitsLeft : Nat
  silence : Bool
  ct : Nat
deriving DecidableEq, Repr

/-- The audio unit: five channels, the frame sequencer (R200, R201) and the sample counter (R211). -/
structure Apu where
  pulse1 : Pulse
  pulse2 : Pulse
  triangle : Triangle
  noise : Noise
  dmc : Dmc
  fs : Nat
  fiveStep : Bool
  irqInhibit : Bool
  sc : Nat
deriving DecidableEq, Repr

/-- One controller port (R213). -/
structure Pad where
  buttons : Byte
  csr     : Byte
deriving DecidableEq, Repr

/-- Both controller ports and the shared strobe (R213). -/
structure Pads where
  pad0   : Pad
  pad1   : Pad
  strobe : Bool
deriving DecidableEq, Repr

/-- The channel outputs a sample mixes (R211): the two pulses' sum, and the other three. `Mix.amp` weighs them (log entry 11). -/
structure Mix where
  pulse : Nat
  tri   : Nat
  noise : Nat
  dmc   : Nat
deriving DecidableEq, Repr

/-- An output event (R219): `onFrame(fb)` (R194) or `onSample` (R211). -/
inductive Output where
  | frame (fb : Lines Pixel)
  | sample (m : Mix)
deriving DecidableEq, Repr

/-- The model's own record of the environment: what the outside drives in, which free draws were taken, what came out.
None of it is the spec's machine state (R23, R219; log entries 4, 5, 12). -/
structure Env where
  /-- the IRQ levels of the coming CPU steps, the next step's first; past its end the level is a free draw (log entry 5) -/
  irqIn : List Bool
  /-- free IRQ_LINE draws taken so far -/
  irqDraws : Nat
  /-- free UNDEF_READ draws taken so far (log entry 4) -/
  undefDraws : Nat
  /-- output events, newest first (log entry 12) -/
  out : List Output
deriving DecidableEq, Repr

/-- The whole CORE (R4; the map of all state, 10_state.md section 5), with the launch configuration it runs under. -/
structure State where
  cpu    : Cpu
  ram    : Memory
  image  : Image
  mapper : Mapper
  ppu    : Ppu
  apu    : Apu
  pads   : Pads
  params : Params
  env    : Env
deriving DecidableEq, Repr

/-- Why the machine stops. -/
inductive Fault where
  /-- Raised by a step of a machine whose `halted` is set (R149 "no step exists (the machine has stopped)", R150): an invalid
  opcode was fetched. The spec's own fatal error; safe. -/
  | invalidOpcode (op : Byte) (addr : Word)
deriving DecidableEq, Repr

/-- Why the model gives no meaning. -/
inductive Refusal where
  /-- Raised by an arm of `exec` whose instruction has no meaning yet; safe. No arm raises it now. -/
  | notModelled (mnemonic : String)
deriving DecidableEq, Repr

/-- What a step answers. -/
abbrev Result := Host.Outcome State Fault Refusal

/-- Registers and flags at reset (R223). A, X, Y, C, Z, D, V, N are RESET_REGS, which is open: 0 here, DESIGN CHOICE, unsafe
(log entry 1); `cycles` is the default of RESET_CYCLE_COUNT. PC is the reset vector of the blank cartridge (log entry 3). -/
def Cpu.reset : Cpu :=
  { a := 0, x := 0, y := 0, sp := 0xFD, pc := 0x0000
    flags := { c := false, z := false, i := true, d := false, v := false, n := false }
    cycles := 0, extra := 0, nmiPending := false, halted := none }

/-- The cartridge of `State.reset`: mapper 0, one PRG and one CHR page, no byte listed. The image is launch configuration,
which the spec does not fix. DESIGN CHOICE, unsafe (log entry 3). -/
def Image.blank : Image :=
  { nPrg := 1, nChr := 1, mirroring := .horizontal, prgRamPresent := false, prgRom := [], chrRom := [] }

/-- Mapper 1's registers at power-on (R57). -/
def Mmc1.reset : Mmc1 := { sr := 0x10, control := 0x0C, chr0 := 0, chr1 := 0, prg := 0 }

/-- The picture unit at reset (R167, R195). -/
def Ppu.reset : Ppu :=
  { ctrl := 0, mask := 0, vblank := false, s0hit := false, ovf := false, oamaddr := 0, v := 0, t := 0, x := 0, w := false
    rbuf := 0, ntRam := [], pal := [], oam := [], cycle := 0, scanline := -1, frame := 0, bgidx := [], fb := [], sprites := [] }

def Envelope.reset : Envelope := { start := false, div := 0, decay := 0 }

def Pulse.reset : Pulse :=
  { reg := 0, sweep := 0, period := 0, ct := 0, q := 0, len := 0, env := .reset, sweepDiv := 0, sweepReload := false
    enabled := false }

/-- The audio unit at reset (R212). -/
def Apu.reset : Apu :=
  { pulse1 := .reset
    pulse2 := .reset
    triangle := { reg := 0, period := 0, ct := 0, q := 0, len := 0, lc := 0, lr := false, enabled := false }
    noise := { reg := 0, mode := 0, sr := 1, ct := 0, len := 0, env := .reset, enabled := false }
    dmc := { reg := 0, level := 0, sampleAddr := 0xC000, sampleLen := 1, curAddr := 0xC000, bytesRemaining := 0, buf := 0
             bufEmpty := true, dsr := 0, bitsLeft := 8, silence := true, ct := 0 }
    fs := 0, fiveStep := false, irqInhibit := false, sc := 0 }

/-- The controllers at reset (R213). -/
def Pads.reset : Pads :=
  { pad0 := { buttons := 0, csr := 0 }, pad1 := { buttons := 0, csr := 0 }, strobe := false }

def Env.reset : Env := { irqIn := [], irqDraws := 0, undefDraws := 0, out := [] }

/-- The machine right after reset (R222 to R224) with the blank cartridge, every parameter at the spec's default and every RAM
byte, which the spec leaves open as INIT_MEM, reading 0 (DESIGN CHOICE, unsafe; log entries 1, 2, 3, 7). -/
def State.reset : State :=
  { cpu := .reset
    ram := []
    image := .blank
    mapper := { regs := .mapper0, prgRam := [], chrRam := [] }
    ppu := .reset
    apu := .reset
    pads := .reset
    params := .default
    env := .reset }

end Sys2Proof.Machine
end

