-- ==== Sys2Proof/Machine/AudioUnits.lean ====
section
/-! DEFINITION. The audio unit's channel units (R202 to R209), their outputs, and the frame sequencer's events (R200). -/

namespace Sys2Proof.Machine

/-- The k-th period of a table, `NOISE_PERIODS` or `DMC_RATES`; an index past an ill-formed table's end gives 1
(no well-formed `Params` has one; log entry 21). -/
def periodOf (table : List Nat) (k : Nat) : Nat := table.getD k 1

/-- The envelope on a quarter event (R202), with the channel's register. -/
def Envelope.quarter (reg : Byte) (e : Envelope) : Envelope :=
  let p := bitField 4 0 reg
  if e.start then { start := false, decay := 15, div := p }
  else if e.div = 0 then
    { e with div := p, decay := if 0 < e.decay.toNat then e.decay - 1 else if reg.getLsbD 5 then 15 else e.decay }
  else { e with div := e.div - 1 }

/-- The channel's volume (R202). -/
def Envelope.volume (reg : Byte) (e : Envelope) : Nat :=
  if reg.getLsbD 4 then (bitField 4 0 reg).toNat else e.decay.toNat

/-- A length counter on a half event (R203). -/
def lengthHalf (halt : Bool) (len : Byte) : Byte := if 0 < len.toNat && !halt then len - 1 else len

/-- The length counter a length-load write gives an enabled channel, `LENGTH[d[7:3]]` (R196, R197). -/
def lengthLoad (d : Byte) : Byte := BitVec.ofNat 8 (lengthTable.getD (bitField 5 3 d).toNat 0)

/-- The sweep's target period (R204), exact; `ones` is whether negation subtracts the extra 1. -/
def Pulse.target (ones : Bool) (p : Pulse) : Int :=
  let t : Int := p.period.toNat
  let change : Int := (p.period >>> (bitField 3 0 p.sweep).toNat).toNat
  if p.sweep.getLsbD 3 then t - change - (if ones then 1 else 0) else t + change

/-- `mute` (R204): evaluated continuously, whether or not the sweep is enabled. -/
def Pulse.mute (ones : Bool) (p : Pulse) : Bool :=
  p.period.toNat < 8 || (!p.sweep.getLsbD 3 && 0x7FF < p.target ones)

/-- The sweep on a half event (R204). -/
def Pulse.sweepHalf (ones : Bool) (p : Pulse) : Pulse :=
  let update := p.sweepDiv = 0 ∧ p.sweep.getLsbD 7 ∧ bitField 3 0 p.sweep ≠ 0 ∧ ¬ p.mute ones
  { p with
    period := if update then BitVec.ofInt 11 (p.target ones) else p.period
    sweepDiv := if p.sweepDiv = 0 ∨ p.sweepReload then bitField 3 4 p.sweep else p.sweepDiv - 1
    sweepReload := if p.sweepDiv = 0 ∨ p.sweepReload then false else p.sweepReload }

/-- A pulse channel's length counter and sweep on a half event (R200). -/
def Pulse.half (ones : Bool) (p : Pulse) : Pulse :=
  Pulse.sweepHalf ones { p with len := lengthHalf (p.reg.getLsbD 5) p.len }

/-- A pulse timer on an audio tick (R205). -/
def Pulse.tick (p : Pulse) : Pulse :=
  if p.ct = 0 then { p with ct := 2 * p.period.toNat + 1, q := p.q + 1 } else { p with ct := p.ct - 1 }

/-- The duty bit the pulse outputs now (R197, R205). -/
def Pulse.duty (p : Pulse) : Bool := (dutyTable.getD (bitField 2 6 p.reg).toNat []).getD p.q.toNat false

/-- A pulse channel's output (R205). -/
def Pulse.output (ones : Bool) (p : Pulse) : Nat :=
  if p.len = 0 || p.mute ones || !p.duty then 0 else p.env.volume p.reg

/-- The triangle's linear counter on a quarter event (R206). -/
def Triangle.quarter (c : Triangle) : Triangle :=
  { c with
    lc := if c.lr then bitField 7 0 c.reg else if 0 < c.lc.toNat then c.lc - 1 else c.lc
    lr := if c.reg.getLsbD 7 then c.lr else false }

/-- The triangle's length counter on a half event (R203). -/
def Triangle.half (c : Triangle) : Triangle := { c with len := lengthHalf (c.reg.getLsbD 7) c.len }

/-- The triangle's timer on an audio tick (R207). -/
def Triangle.tick (c : Triangle) : Triangle :=
  if c.ct = 0 then
    { c with ct := c.period.toNat, q := if 0 < c.lc.toNat ∧ 0 < c.len.toNat then c.q + 1 else c.q }
  else { c with ct := c.ct - 1 }

/-- The triangle's output (R207). -/
def Triangle.output (c : Triangle) : Nat := if c.len = 0 then 0 else triangleTable.getD c.q.toNat 0

/-- The noise shift register's next value (R208): tap bit 6 in mode 1, bit 1 in mode 0. -/
def noiseNext (mode : Bool) (sr : BitVec 15) : BitVec 15 :=
  (sr >>> 1) ||| (BitVec.ofNat 15 (sr.getLsbD 0 ^^ (if mode then sr.getLsbD 6 else sr.getLsbD 1)).toNat <<< 14)

/-- The noise channel's timer on an audio tick (R208). -/
def Noise.tick (periods : List Nat) (c : Noise) : Noise :=
  if c.ct = 0 then
    { c with ct := periodOf periods (bitField 4 0 c.mode).toNat - 1, sr := noiseNext (c.mode.getLsbD 7) c.sr }
  else { c with ct := c.ct - 1 }

/-- The noise channel's envelope on a quarter event (R200, R202). -/
def Noise.quarter (c : Noise) : Noise := { c with env := c.env.quarter c.reg }

/-- The noise channel's length counter on a half event (R203). -/
def Noise.half (c : Noise) : Noise := { c with len := lengthHalf (c.reg.getLsbD 5) c.len }

/-- The noise channel's output (R208). -/
def Noise.output (c : Noise) : Nat := if c.len = 0 || c.sr.getLsbD 0 then 0 else c.env.volume c.reg

/-- The level after one output bit (R209). -/
def dmcLevel (up : Bool) (level : BitVec 7) : BitVec 7 :=
  if up then (if level.toNat ≤ 125 then level + 2 else level)
  else (if 2 ≤ level.toNat then level - 2 else level)

/-- The end of an 8-bit cycle of the output unit (R209): the next buffer, or silence. -/
def Dmc.nextByte (c : Dmc) : Dmc :=
  if c.bufEmpty then { c with bitsLeft := 8, silence := true }
  else { c with bitsLeft := 8, silence := false, dsr := c.buf, bufEmpty := true }

/-- One bit of the output unit (R209). -/
def Dmc.outputBit (c : Dmc) : Dmc :=
  let c1 := { c with
    level := if c.silence then c.level else dmcLevel (c.dsr.getLsbD 0) c.level
    dsr := c.dsr >>> 1
    bitsLeft := c.bitsLeft - 1 }
  if c1.bitsLeft = 0 then c1.nextByte else c1

/-- The DMC timer and output unit on an audio tick (R209), before the sample reader. -/
def Dmc.tick (rates : List Nat) (c : Dmc) : Dmc :=
  if c.ct = 0 then Dmc.outputBit { c with ct := periodOf rates (bitField 4 0 c.reg).toNat - 1 }
  else { c with ct := c.ct - 1 }

/-- The sample reader has a byte to fetch (R209). -/
def Dmc.wantsByte (c : Dmc) : Bool := c.bufEmpty && 0 < c.bytesRemaining.toNat

/-- The sample restarts (R198, R209). -/
def Dmc.restart (c : Dmc) : Dmc := { c with curAddr := c.sampleAddr, bytesRemaining := c.sampleLen }

/-- The sample reader takes the byte it read (R209). -/
def Dmc.takeByte (b : Byte) (c : Dmc) : Dmc :=
  let c1 := { c with
    buf := b
    bufEmpty := false
    curAddr := if c.curAddr = 0xFFFF then 0x8000 else c.curAddr + 1
    bytesRemaining := c.bytesRemaining - 1 }
  if c1.bytesRemaining = 0 ∧ c1.reg.getLsbD 6 then c1.restart else c1

/-- A quarter event (R200): the three envelopes and the triangle's linear counter. -/
def Apu.quarter (a : Apu) : Apu :=
  { a with
    pulse1 := { a.pulse1 with env := a.pulse1.env.quarter a.pulse1.reg }
    pulse2 := { a.pulse2 with env := a.pulse2.env.quarter a.pulse2.reg }
    triangle := a.triangle.quarter
    noise := a.noise.quarter }

/-- A half event (R200): the four length counters and the two sweeps; only pulse 1 subtracts the extra 1 (R204). -/
def Apu.half (ones : Bool) (a : Apu) : Apu :=
  { a with
    pulse1 := a.pulse1.half ones
    pulse2 := a.pulse2.half false
    triangle := a.triangle.half
    noise := a.noise.half }

/-- What a scheduled event clocks (R200): in a quarter-and-half event the quarter clocks come first. -/
def Apu.fire (ones : Bool) (e : SeqEvent) (a : Apu) : Apu :=
  match e with
  | .quarter => a.quarter
  | .quarterHalf => a.quarter.half ones

/-- The schedule of the current mode (R200). -/
def Apu.schedule (ps : Params) (a : Apu) : SeqMode := if a.fiveStep then ps.seq5 else ps.seq4

/-- The event at a count, if any (R200). Of a count listed twice only the first event fires: DESIGN CHOICE, unsafe (log entry 27). -/
def eventAt (k : Nat) : List (Nat × SeqEvent) → Option SeqEvent
  | [] => none
  | (c, e) :: rest => if c = k then some e else eventAt k rest

/-- What the sequencer's new count fires (R200). -/
def Apu.sequencerFire (ps : Params) (a : Apu) : Apu :=
  match eventAt a.fs (a.schedule ps).events with
  | some e => a.fire ps.sweep1OnesComplement e
  | none => a

/-- The wrap of the sequencer's count (R200). -/
def Apu.sequencerWrap (ps : Params) (a : Apu) : Apu := if a.fs = (a.schedule ps).wrap then { a with fs := 0 } else a

/-- The frame sequencer on an audio tick (R200): count, then the new value's event, then the wrap. -/
def Apu.sequencerTick (ps : Params) (a : Apu) : Apu :=
  Apu.sequencerWrap ps (Apu.sequencerFire ps { a with fs := a.fs + 1 })

/-- The five timers on an audio tick (R210), before the DMC's sample reader. -/
def Apu.timersTick (ps : Params) (a : Apu) : Apu :=
  { a with
    pulse1 := a.pulse1.tick
    pulse2 := a.pulse2.tick
    triangle := a.triangle.tick
    noise := a.noise.tick ps.noisePeriods
    dmc := a.dmc.tick ps.dmcRates }

/-- The channel outputs a sample mixes (R211). -/
def Apu.mix (ps : Params) (a : Apu) : Mix :=
  { pulse := a.pulse1.output ps.sweep1OnesComplement + a.pulse2.output false
    tri := a.triangle.output
    noise := a.noise.output
    dmc := a.dmc.level.toNat }

/-- `amp` of R211, for any weights (MIX_WEIGHTS is open). -/
def Mix.amp {R : Type} [Add R] [Mul R] [NatCast R] (w : MixWeights R) (m : Mix) : R :=
  w.pulse * (m.pulse : R) + w.tri * (m.tri : R) + w.noise * (m.noise : R) + w.dmc * (m.dmc : R)

end Sys2Proof.Machine
end

