-- ==== Sys2Proof/Machine/Regs.lean ====
section
/-! DEFINITION. The one place that writes each CPU register, and the other parts of State. -/

namespace Sys2Proof.Machine

def State.setA (v : Byte) (s : State) : State := { s with cpu := { s.cpu with a := v } }
def State.setX (v : Byte) (s : State) : State := { s with cpu := { s.cpu with x := v } }
def State.setY (v : Byte) (s : State) : State := { s with cpu := { s.cpu with y := v } }
def State.setSp (v : Byte) (s : State) : State := { s with cpu := { s.cpu with sp := v } }
def State.setPc (v : Word) (s : State) : State := { s with cpu := { s.cpu with pc := v } }
def State.setFlags (f : Flags) (s : State) : State := { s with cpu := { s.cpu with flags := f } }

/-- `nmi_pending <- b` (R22). -/
def State.setNmi (b : Bool) (s : State) : State := { s with cpu := { s.cpu with nmiPending := b } }

/-- `extra <- extra + n` (R21). -/
def State.addExtra (n : Nat) (s : State) : State := { s with cpu := { s.cpu with extra := s.cpu.extra + n } }

/-- `extra <- 0` at the start of a CPU step (R149). -/
def State.clearExtra (s : State) : State := { s with cpu := { s.cpu with extra := 0 } }

/-- The end of a CPU step (R20, R21, R149): `cycles <- cycles + base + extra; extra <- 0`. -/
def State.retire (base : Nat) (s : State) : State :=
  { s with cpu := { s.cpu with cycles := s.cpu.cycles + base + s.cpu.extra, extra := 0 } }

/-- The invalid opcode halt (R150): `halted` set, PC back at the opcode's address. -/
def State.halt (h : BadOpcode) (s : State) : State := { s with cpu := { s.cpu with pc := h.addr, halted := some h } }

def State.setRam (m : Memory) (s : State) : State := { s with ram := m }
def State.setMapper (m : Mapper) (s : State) : State := { s with mapper := m }
def State.setPpu (p : Ppu) (s : State) : State := { s with ppu := p }
def State.setApu (a : Apu) (s : State) : State := { s with apu := a }
def State.setPads (p : Pads) (s : State) : State := { s with pads := p }

/-- An output event joins the trace (R219). -/
def State.emit (o : Output) (s : State) : State := { s with env := { s.env with out := o :: s.env.out } }

/-- A fresh UNDEF_READ draw (R8, R27): the drawn byte, and the state with the draw counted. -/
def State.drawUndef (s : State) : Byte × State :=
  (Config.undefRead s.env.undefDraws, { s with env := { s.env with undefDraws := s.env.undefDraws + 1 } })

/-- The level of `irq_line` at this CPU step (R23, R154): what the outside drives, else a free draw (log entry 5). -/
def State.irqLevel (s : State) : Bool :=
  match s.env.irqIn with
  | b :: _ => b
  | [] => Config.irqLine s.env.irqDraws

/-- The state once this step's level is sampled (R149). -/
def State.irqSampled (s : State) : State :=
  match s.env.irqIn with
  | _ :: rest => { s with env := { s.env with irqIn := rest } }
  | [] => { s with env := { s.env with irqDraws := s.env.irqDraws + 1 } }

end Sys2Proof.Machine
end

