-- ==== Sys2Proof/Machine/AudioRegs.lean ====
section
/-! DEFINITION. The audio unit's CPU-visible registers (R196, R198, R199, R201). -/

namespace Sys2Proof.Machine

/-- The length load of a pulse channel, R196's "if enabled" and all it lists after it: of a disabled channel it has no effect (R198,
R231). How far the condition reaches is DEDUCED, unsafe (log entry 26). -/
def Pulse.loadLength (d : Byte) (p : Pulse) : Pulse :=
  if p.enabled then { p with len := lengthLoad d, env := { p.env with start := true }, q := 0 } else p

/-- A write to a pulse channel's register `k` = 0..3 (R196): the period's high bits are written whether or not it is enabled. -/
def Pulse.writeReg (k : Nat) (d : Byte) (p : Pulse) : Pulse :=
  match k with
  | 0 => { p with reg := d }
  | 1 => { p with sweep := d, sweepReload := true }
  | 2 => { p with period := setBitField 0 d p.period }
  | _ => Pulse.loadLength d { p with period := setBitField 8 (bitField 3 0 d) p.period }

/-- The length load of the triangle, as `Pulse.loadLength` (R196, R231; log entry 26). -/
def Triangle.loadLength (d : Byte) (c : Triangle) : Triangle :=
  if c.enabled then { c with len := lengthLoad d, lr := true } else c

/-- A write to the triangle's register `k` = 0..3, 0x4008 to 0x400B (R196). -/
def Triangle.writeReg (k : Nat) (d : Byte) (c : Triangle) : Triangle :=
  match k with
  | 0 => { c with reg := d }
  | 2 => { c with period := setBitField 0 d c.period }
  | 3 => Triangle.loadLength d { c with period := setBitField 8 (bitField 3 0 d) c.period }
  | _ => c

/-- The length load of the noise channel, as `Pulse.loadLength` (R196, R231; log entry 26). -/
def Noise.loadLength (d : Byte) (c : Noise) : Noise :=
  if c.enabled then { c with len := lengthLoad d, env := { c.env with start := true } } else c

/-- A write to the noise channel's register `k` = 0..3, 0x400C to 0x400F (R196); bits not listed there are ignored. -/
def Noise.writeReg (k : Nat) (d : Byte) (c : Noise) : Noise :=
  match k with
  | 0 => { c with reg := d &&& 0x3F }
  | 2 => { c with mode := d &&& 0x8F }
  | 3 => c.loadLength d
  | _ => c

/-- A write to the DMC's register `k` = 0..3, 0x4010 to 0x4013 (R196); bits not listed there are ignored. -/
def Dmc.writeReg (k : Nat) (d : Byte) (c : Dmc) : Dmc :=
  match k with
  | 0 => { c with reg := d &&& 0xCF }
  | 1 => { c with level := bitField 7 0 d }
  | 2 => { c with sampleAddr := 0xC000 + (zext16 d <<< 6) }
  | _ => { c with sampleLen := (d.setWidth 12 <<< 4) + 1 }

/-- The length counter a 0x4015 write leaves: 0 at once where the enable bit is 0 (R198). -/
def lengthEnable (enable : Bool) (len : Byte) : Byte := if enable then len else 0

/-- The DMC's part of a 0x4015 write (R198). -/
def Dmc.enable (on : Bool) (c : Dmc) : Dmc :=
  if !on then { c with bytesRemaining := 0 } else if c.bytesRemaining = 0 then c.restart else c

/-- A write to 0x4015 (R198). -/
def Apu.writeEnable (d : Byte) (a : Apu) : Apu :=
  { a with
    pulse1 := { a.pulse1 with enabled := d.getLsbD 0, len := lengthEnable (d.getLsbD 0) a.pulse1.len }
    pulse2 := { a.pulse2 with enabled := d.getLsbD 1, len := lengthEnable (d.getLsbD 1) a.pulse2.len }
    triangle := { a.triangle with enabled := d.getLsbD 2, len := lengthEnable (d.getLsbD 2) a.triangle.len }
    noise := { a.noise with enabled := d.getLsbD 3, len := lengthEnable (d.getLsbD 3) a.noise.len }
    dmc := a.dmc.enable (d.getLsbD 4) }

/-- A write to 0x4017 (R201): the mode, the stored bit 6, the count to 0, and at once a quarter and a half event. -/
def Apu.writeSequencer (ones : Bool) (d : Byte) (a : Apu) : Apu :=
  Apu.fire ones .quarterHalf { a with fiveStep := d.getLsbD 7, irqInhibit := d.getLsbD 6, fs := 0 }

/-- A CPU write to an audio register, by address (R196): 0x4000 to 0x4013, 0x4015, 0x4017. -/
def Apu.write (ones : Bool) (addr : Nat) (d : Byte) (a : Apu) : Apu :=
  if addr < 0x4004 then { a with pulse1 := a.pulse1.writeReg (addr % 4) d }
  else if addr < 0x4008 then { a with pulse2 := a.pulse2.writeReg (addr % 4) d }
  else if addr < 0x400C then { a with triangle := a.triangle.writeReg (addr % 4) d }
  else if addr < 0x4010 then { a with noise := a.noise.writeReg (addr % 4) d }
  else if addr < 0x4014 then { a with dmc := a.dmc.writeReg (addr % 4) d }
  else if addr = 0x4015 then a.writeEnable d
  else if addr = 0x4017 then a.writeSequencer ones d
  else a

/-- The byte a 0x4015 read gives (R199): five status bits under three drawn bits. -/
def Apu.status (draw : Byte) (a : Apu) : Byte :=
  byteOfBits false false false (0 < a.dmc.bytesRemaining.toNat) (0 < a.noise.len.toNat) (0 < a.triangle.len.toNat)
    (0 < a.pulse2.len.toNat) (0 < a.pulse1.len.toNat) ||| (draw &&& 0xE0)

/-- A read of 0x4015 (R199): no side effect on the audio unit. -/
def audioStatusRead (s : State) : Byte × State := (s.apu.status s.drawUndef.1, s.drawUndef.2)

/-- A CPU write to an audio register on the whole machine (R196). -/
def audioWrite (addr : Nat) (d : Byte) (s : State) : State :=
  s.setApu (s.apu.write s.params.sweep1OnesComplement addr d)

end Sys2Proof.Machine
end

