-- ==== Sys2Proof/Machine/Controllers.lean ====
section
/-! DEFINITION. The controller ports (R213 to R216). -/

namespace Sys2Proof.Machine

/-- The port latches its buttons (R214). -/
def Pad.latch (p : Pad) : Pad := { p with csr := p.buttons }

/-- A write to 0x4016 (R214). While the strobe is 1, up to and including the write that clears it, both ports follow their
buttons. -/
def Pads.write (d : Byte) (p : Pads) : Pads :=
  if p.strobe || d.getLsbD 0 then { pad0 := p.pad0.latch, pad1 := p.pad1.latch, strobe := d.getLsbD 0 }
  else { p with strobe := d.getLsbD 0 }

/-- The bit a port read gives (R215). -/
def Pad.bit (strobe : Bool) (p : Pad) : Bool := if strobe then p.buttons.getLsbD 0 else p.csr.getLsbD 0

/-- The port after a read (R215): with the strobe clear the register shifts, CTRL_AFTER_8 entering at bit 7. -/
def Pad.shift (after8 strobe : Bool) (p : Pad) : Pad :=
  if strobe then p else { p with csr := (p.csr >>> 1) ||| (BitVec.ofNat 8 after8.toNat <<< 7) }

/-- The byte a port read gives: the bit under seven drawn bits (R215). -/
def padByte (bit : Bool) (draw : Byte) : Byte := BitVec.ofNat 8 bit.toNat ||| (draw &&& 0xFE)

/-- A read of 0x4016, port 0 (R215). -/
def pad0Read (s : State) : Byte × State :=
  (padByte (s.pads.pad0.bit s.pads.strobe) s.drawUndef.1,
   s.drawUndef.2.setPads { s.pads with pad0 := s.pads.pad0.shift s.params.ctrlAfter8 s.pads.strobe })

/-- A read of 0x4017, port 1 (R215). -/
def pad1Read (s : State) : Byte × State :=
  (padByte (s.pads.pad1.bit s.pads.strobe) s.drawUndef.1,
   s.drawUndef.2.setPads { s.pads with pad1 := s.pads.pad1.shift s.params.ctrlAfter8 s.pads.strobe })

/-- Bit `id` of the buttons set or cleared (R216). -/
def Pad.press (id : Nat) (pressed : Bool) (p : Pad) : Pad :=
  { p with buttons := setBitField id (BitVec.ofBool pressed) p.buttons }

/-- `setButton(p, id, pressed)` (R216): refused out of range; with the strobe 1 the press is latched at once. -/
def Pads.setButton (port id : Nat) (pressed : Bool) (p : Pads) : Option Pads :=
  if 8 ≤ id then none
  else match port with
    | 0 =>
      let pad := p.pad0.press id pressed
      some { p with pad0 := if p.strobe then pad.latch else pad }
    | 1 =>
      let pad := p.pad1.press id pressed
      some { p with pad1 := if p.strobe then pad.latch else pad }
    | _ => none

end Sys2Proof.Machine
end

