-- ==== Sys2Proof/Machine/Flags.lean ====
section
/-! DEFINITION. The status byte and every flag computation of the instruction rules. -/

namespace Sys2Proof.Machine

/-- `Pack(brk)` (R15): N V 1 brk D I Z C from bit 7 down. -/
def Flags.pack (brk : Bool) (f : Flags) : Byte := byteOfBits f.n f.v true brk f.d f.i f.z f.c

/-- `Unpack(b)` (R16): bits 4 and 5 are discarded. -/
def Flags.unpack (b : Byte) : Flags :=
  { c := b.getLsbD 0, z := b.getLsbD 1, i := b.getLsbD 2, d := b.getLsbD 3, v := b.getLsbD 6, n := b.getLsbD 7 }

/-- `SetZN(r)` (R17). -/
def Flags.setZN (r : Byte) (f : Flags) : Flags := { f with z := r == 0, n := r.getLsbD 7 }

/-- The exact sum of R104, 0 to 511. -/
def adcSum (a m : Byte) (c : Bool) : Nat := a.toNat + m.toNat + c.toNat

/-- `r` of ADC (R104); D has no effect (R103). -/
def adcResult (a m : Byte) (c : Bool) : Byte := BitVec.ofNat 8 (adcSum a m c)

/-- `V` of ADC (R104): both inputs of one sign, the result of the other. -/
def adcOverflow (a m : Byte) (c : Bool) : Bool :=
  let r := adcResult a m c
  ((a ^^^ r) &&& (m ^^^ r)).getLsbD 7

/-- The flags of ADC (R104): C, V, then Z and N from the result. -/
def Flags.adc (a m : Byte) (f : Flags) : Flags :=
  Flags.setZN (adcResult a m f.c) { f with c := 0xFF < adcSum a m f.c, v := adcOverflow a m f.c }

/-- The flags of a compare of register `r` with `m` (R110 to R112): C is the unsigned `r >= m`; Z, N from `r - m`. -/
def Flags.compare (r m : Byte) (f : Flags) : Flags := Flags.setZN (r - m) { f with c := m.toNat ≤ r.toNat }

/-- The flags of BIT (R109): Z from `A & m`, N and V from `m`. -/
def Flags.bitTest (a m : Byte) (f : Flags) : Flags :=
  { f with z := (a &&& m) == 0, n := m.getLsbD 7, v := m.getLsbD 6 }

/-- ASL (R119): the result and the new C. -/
def aslByte (v : Byte) : Byte × Bool := (v <<< 1, v.getLsbD 7)

/-- LSR (R120). -/
def lsrByte (v : Byte) : Byte × Bool := (v >>> 1, v.getLsbD 0)

/-- ROL (R121), with the carry in. -/
def rolByte (cin : Bool) (v : Byte) : Byte × Bool := ((v <<< 1) ||| BitVec.ofNat 8 cin.toNat, v.getLsbD 7)

/-- ROR (R122), with the carry in. -/
def rorByte (cin : Bool) (v : Byte) : Byte × Bool := ((v >>> 1) ||| (BitVec.ofNat 8 cin.toNat <<< 7), v.getLsbD 0)

/-- C, and Z and N from the result: the flags of every shift and rotate (R119 to R122). -/
def Flags.shifted (r : Byte × Bool) (f : Flags) : Flags := Flags.setZN r.1 { f with c := r.2 }

end Sys2Proof.Machine
end

