-- ==== Sys2Proof/Machine/Memory.lean ====
section
/-! DEFINITION. The byte memories: what an unlisted address reads as, reading, writing in canonical form, the form itself. -/

namespace Sys2Proof.Machine

/-- What a memory reads at an address it does not list. The spec gives no power-on contents (INIT_MEM, R28): DESIGN CHOICE,
unsafe (log entry 2). -/
def unlistedByte : Byte := 0

/-- The byte at an address. -/
def Memory.read : Memory → Nat → Byte
  | [], _ => unlistedByte
  | (k, b) :: rest, a => if k = a then b else Memory.read rest a

/-- The byte at an address replaced; the canonical form is kept: rising addresses, no listed `unlistedByte`. -/
def Memory.write : Memory → Nat → Byte → Memory
  | [], a, v => if v = unlistedByte then [] else [(a, v)]
  | (k, b) :: rest, a, v =>
    if a < k then (if v = unlistedByte then (k, b) :: rest else (a, v) :: (k, b) :: rest)
    else if a = k then (if v = unlistedByte then rest else (a, v) :: rest)
    else (k, b) :: Memory.write rest a v

/-- Every listed address is `lo` or above, the addresses rise strictly, and no cell lists `unlistedByte`. -/
def Memory.wfFrom : Nat → Memory → Bool
  | _, [] => true
  | lo, (k, b) :: rest => lo ≤ k && b != unlistedByte && Memory.wfFrom (k + 1) rest

/-- The canonical form. -/
def Memory.wf (m : Memory) : Bool := Memory.wfFrom 0 m

/-- Every listed address is below `n`: the memory is an array of `n` bytes. -/
def Memory.below (n : Nat) (m : Memory) : Bool := m.all fun c => c.1 < n

/-- An array of `n` bytes in canonical form. -/
def Memory.isArray (n : Nat) (m : Memory) : Bool := m.wf && m.below n

/-- The memory whose bytes, from address `at` on, are those of a list: an image region (R46), in canonical form. -/
def Memory.ofBytesFrom : Nat → List Byte → Memory
  | _, [] => []
  | at', b :: rest =>
    if b = unlistedByte then Memory.ofBytesFrom (at' + 1) rest else (at', b) :: Memory.ofBytesFrom (at' + 1) rest

/-- The line of a pixel buffer replaced; lines rise strictly. -/
def Lines.set {α : Type} : Lines α → Nat → List α → Lines α
  | [], s, row => [(s, row)]
  | (k, old) :: rest, s, row =>
    if s < k then (s, row) :: (k, old) :: rest
    else if s = k then (s, row) :: rest
    else (k, old) :: Lines.set rest s row

/-- The pixels of a line; no pixels for a line not rendered yet, which nothing observes (R195). -/
def Lines.row {α : Type} : Lines α → Nat → List α
  | [], _ => []
  | (k, row) :: rest, s => if k = s then row else Lines.row rest s

/-- Lines are `lo` or above, rise strictly, lie on the screen and have 256 pixels (R6, R167). -/
def Lines.wfFrom {α : Type} : Nat → Lines α → Bool
  | _, [] => true
  | lo, (k, row) :: rest => lo ≤ k && k < 240 && row.length == 256 && Lines.wfFrom (k + 1) rest

def Lines.wf {α : Type} (ls : Lines α) : Bool := Lines.wfFrom 0 ls

end Sys2Proof.Machine
end

