-- ==== Sys2Proof/Machine/Cartridge.lean ====
section
/-! DEFINITION. The cartridge on both buses: mapper 0 (R54 to R56), mapper 1 (R57 to R63), PRG-RAM and CHR memory. -/

namespace Sys2Proof.Machine

/-- PRG mode, `control[3:2]` (R60). -/
def Mmc1.prgMode (r : Mmc1) : Nat := (bitField 2 2 r.control).toNat

/-- `prg & 0x0F`; bit 4 is ignored (R61). -/
def Mmc1.prgBank (r : Mmc1) : Nat := r.prg.toNat % 16

/-- `P(a)` of R61, for a in 0x8000 to 0xFFFF, before the reduction mod nPRG. -/
def Mmc1.prgPage (nPrg : Nat) (r : Mmc1) (a : Nat) : Nat :=
  let p := r.prgBank
  match r.prgMode with
  | 2 => if a < 0xC000 then 0 else p
  | 3 => if a < 0xC000 then p else nPrg - 1
  | _ => if a < 0xC000 then p / 2 * 2 else p / 2 * 2 + 1

/-- The PRG-ROM byte a CPU address in 0x8000 to 0xFFFF reaches (R54, R61). -/
def prgIndex (img : Image) (regs : MapperRegs) (a : Nat) : Nat :=
  match regs with
  | .mapper0 => (if a < 0xC000 then 0 else img.nPrg - 1) * 0x4000 + a % 0x4000
  | .mapper1 r => r.prgPage img.nPrg a % img.nPrg * 0x4000 + a % 0x4000

/-- `cpuRead(a)` for a in 0x4020 to 0xFFFF (R50, R51, R54, R61): an undecoded address reads 0 (R30). -/
def cartRead (img : Image) (m : Mapper) (a : Nat) : Byte :=
  if 0x8000 ≤ a then img.prgRom.read (prgIndex img m.regs a)
  else if 0x6000 ≤ a && img.prgRamPresent then m.prgRam.read (a - 0x6000)
  else 0

/-- The register a completed mapper 1 load goes to, by address bits 14 to 13 (R59). -/
def Mmc1.load (a : Nat) (v : BitVec 5) (r : Mmc1) : Mmc1 :=
  if a < 0xA000 then { r with control := v }
  else if a < 0xC000 then { r with chr0 := v }
  else if a < 0xE000 then { r with chr1 := v }
  else { r with prg := v }

/-- The shift register after one serial write (R58). -/
def Mmc1.shiftIn (d : Byte) (r : Mmc1) : BitVec 5 := (r.sr >>> 1) ||| (BitVec.ofNat 5 (d.getLsbD 0).toNat <<< 4)

/-- A write to 0x8000 to 0xFFFF on mapper 1 (R58). -/
def Mmc1.write (a : Nat) (d : Byte) (r : Mmc1) : Mmc1 :=
  if d.getLsbD 7 then { r with sr := 0x10, control := 0x0C }
  else if r.sr.getLsbD 0 then { r.load a (r.shiftIn d) with sr := 0x10 }
  else { r with sr := r.shiftIn d }

/-- The mapper registers after a write to 0x8000 to 0xFFFF: mapper 0 discards it (R55). -/
def MapperRegs.write (a : Nat) (d : Byte) : MapperRegs → MapperRegs
  | .mapper0 => .mapper0
  | .mapper1 r => .mapper1 (r.write a d)

/-- `cpuWrite(a, v)` for a in 0x4020 to 0xFFFF (R50, R51, R55, R58). -/
def cartWrite (img : Image) (a : Nat) (d : Byte) (m : Mapper) : Mapper :=
  if 0x8000 ≤ a then { m with regs := m.regs.write a d }
  else if 0x6000 ≤ a && img.prgRamPresent then { m with prgRam := m.prgRam.write (a - 0x6000) d }
  else m

/-- `B(a)` of R62, before the reduction mod nB. -/
def Mmc1.chrBank (r : Mmc1) (a : Nat) : Nat :=
  if r.control.getLsbD 4 then (if a < 0x1000 then r.chr0.toNat else r.chr1.toNat)
  else (if a < 0x1000 then r.chr0.toNat / 2 * 2 else r.chr0.toNat / 2 * 2 + 1)

/-- `nB` of R62: the number of 4 KB CHR banks. -/
def Image.chrBanks (img : Image) : Nat := if img.nChr = 0 then 2 else 2 * img.nChr

/-- The CHR byte a picture address in 0x0000 to 0x1FFF reaches (R56, R62). -/
def chrIndex (img : Image) (regs : MapperRegs) (a : Nat) : Nat :=
  match regs with
  | .mapper0 => a
  | .mapper1 r => r.chrBank a % img.chrBanks * 0x1000 + a % 0x1000

/-- `ppuRead(a)` (R52, R56, R62). -/
def chrRead (img : Image) (m : Mapper) (a : Nat) : Byte :=
  if img.nChr = 0 then m.chrRam.read (chrIndex img m.regs a) else img.chrRom.read (chrIndex img m.regs a)

/-- `ppuWrite(a, v)`: discarded for CHR-ROM (R52, R62). -/
def chrWrite (img : Image) (a : Nat) (d : Byte) (m : Mapper) : Mapper :=
  if img.nChr = 0 then { m with chrRam := m.chrRam.write (chrIndex img m.regs a) d } else m

/-- The mirroring output (R51): the header's mode for mapper 0 (R56), `control[1:0]` for mapper 1 (R60, R63). -/
def mirroringOf (img : Image) : MapperRegs → Mirroring
  | .mapper0 => img.mirroring
  | .mapper1 r =>
    match (bitField 2 0 r.control).toNat with
    | 0 => .oneScreenLower
    | 1 => .oneScreenUpper
    | 2 => .vertical
    | _ => .horizontal

/-- The picture unit's scanline tick: mappers 0 and 1 ignore it (R53). -/
def scanlineTick (m : Mapper) : Mapper := m

end Sys2Proof.Machine
end

