-- ==== Sys2Proof/Machine/PictureBus.lean ====
section
/-! DEFINITION. The picture unit's 16 KB bus (R179 to R181) and the loopy address fields (R168, R185). -/

namespace Sys2Proof.Machine

/-- The physical 1 KB page of logical nametable `q` (R180). -/
def nametablePage (m : Mirroring) (q : Nat) : Nat :=
  match m with
  | .horizontal => q / 2
  | .vertical => q % 2
  | .fourScreen => q
  | .oneScreenLower => 0
  | .oneScreenUpper => 1

/-- The nametable RAM cell of a picture address in 0x2000 to 0x3EFF (R179, R180). -/
def nametableCell (m : Mirroring) (a : Nat) : Nat :=
  let n := (a - 0x2000) % 0x1000
  0x400 * nametablePage m (n / 0x400) + n % 0x400

/-- Palette index aliasing (R181). -/
def paletteAlias (i : Nat) : Nat :=
  if i = 0x10 ∨ i = 0x14 ∨ i = 0x18 ∨ i = 0x1C then i - 0x10 else i

/-- `PPURead(a)` (R179). -/
def ppuRead (img : Image) (m : Mapper) (p : Ppu) (a : Nat) : Byte :=
  let a := a % 0x4000
  if a < 0x2000 then chrRead img m a
  else if a < 0x3F00 then p.ntRam.read (nametableCell (mirroringOf img m.regs) a)
  else p.pal.read (paletteAlias (a % 0x20))

/-- The picture unit's memories after `PPUWrite(a, d)` (R179). -/
def ppuWriteMem (img : Image) (m : Mapper) (a : Nat) (d : Byte) (p : Ppu) : Ppu :=
  let a := a % 0x4000
  if a < 0x2000 then p
  else if a < 0x3F00 then { p with ntRam := p.ntRam.write (nametableCell (mirroringOf img m.regs) a) d }
  else { p with pal := p.pal.write (paletteAlias (a % 0x20)) d }

/-- The cartridge after `PPUWrite(a, d)`: pattern memory goes to the mapper (R179). -/
def ppuWriteCart (img : Image) (a : Nat) (d : Byte) (m : Mapper) : Mapper :=
  let a := a % 0x4000
  if a < 0x2000 then chrWrite img a d m else m

/-- `coarseX` (R168). -/
def Loopy.coarseX (v : Loopy) : BitVec 5 := bitField 5 0 v
/-- `coarseY` (R168). -/
def Loopy.coarseY (v : Loopy) : BitVec 5 := bitField 5 5 v
/-- `ntX` (R168). -/
def Loopy.ntX (v : Loopy) : Bool := v.getLsbD 10
/-- `ntY` (R168). -/
def Loopy.ntY (v : Loopy) : Bool := v.getLsbD 11
/-- `fineY` (R168). -/
def Loopy.fineY (v : Loopy) : BitVec 3 := bitField 3 12 v

/-- `IncY(v)` (R185). -/
def Loopy.incY (v : Loopy) : Loopy :=
  if (Loopy.fineY v).toNat < 7 then setBitField 12 (Loopy.fineY v + 1) v
  else
    let v := setBitField 12 (0 : BitVec 3) v
    if (Loopy.coarseY v).toNat = 29 then setBitField 11 (BitVec.ofBool (!Loopy.ntY v)) (setBitField 5 (0 : BitVec 5) v)
    else if (Loopy.coarseY v).toNat = 31 then setBitField 5 (0 : BitVec 5) v
    else setBitField 5 (Loopy.coarseY v + 1) v

/-- `CopyX(v, t)` (R185). -/
def Loopy.copyX (t v : Loopy) : Loopy := setBitField 10 (bitField 1 10 t) (setBitField 0 (bitField 5 0 t) v)

/-- `CopyY(v, t)` (R185). -/
def Loopy.copyY (t v : Loopy) : Loopy := setBitField 11 (bitField 4 11 t) (setBitField 5 (bitField 5 5 t) v)

end Sys2Proof.Machine
end

