-- ==== Sys2Proof/Machine/PictureRegs.lean ====
section
/-! DEFINITION. The eight CPU-visible picture-unit registers (R170 to R178), by register number. -/

namespace Sys2Proof.Machine

/-- Rendering is enabled: `mask[3]` or `mask[4]` (R169). -/
def Ppu.rendering (p : Ppu) : Bool := p.mask.getLsbD 3 || p.mask.getLsbD 4

/-- PPUCTRL write (R171): the byte stored, its low two bits copied into `t[11:10]`. -/
def Ppu.writeCtrl (d : Byte) (p : Ppu) : Ppu := { p with ctrl := d, t := setBitField 10 (bitField 2 0 d) p.t }

/-- PPUMASK write (R172). -/
def Ppu.writeMask (d : Byte) (p : Ppu) : Ppu := { p with mask := d }

/-- PPUSTATUS read, the byte (R173): three flags over five drawn bits. -/
def Ppu.status (draw : Byte) (p : Ppu) : Byte :=
  byteOfBits p.vblank p.s0hit p.ovf false false false false false ||| (draw &&& 0x1F)

/-- PPUSTATUS read, the side effect (R173). -/
def Ppu.statusRead (p : Ppu) : Ppu := { p with vblank := false, w := false }

/-- OAMADDR write (R174). -/
def Ppu.writeOamAddr (d : Byte) (p : Ppu) : Ppu := { p with oamaddr := d }

/-- OAMDATA write (R175). -/
def Ppu.writeOamData (d : Byte) (p : Ppu) : Ppu :=
  { p with oam := p.oam.write p.oamaddr.toNat d, oamaddr := p.oamaddr + 1 }

/-- OAMDATA read (R175). -/
def Ppu.readOamData (p : Ppu) : Byte := p.oam.read p.oamaddr.toNat

/-- PPUSCROLL write (R176). -/
def Ppu.writeScroll (d : Byte) (p : Ppu) : Ppu :=
  if p.w then { p with t := setBitField 5 (bitField 5 3 d) (setBitField 12 (bitField 3 0 d) p.t), w := false }
  else { p with t := setBitField 0 (bitField 5 3 d) p.t, x := bitField 3 0 d, w := true }

/-- PPUADDR write (R177). -/
def Ppu.writeAddr (d : Byte) (p : Ppu) : Ppu :=
  if p.w then
    let t := setBitField 0 d p.t
    { p with t := t, v := t, w := false }
  else { p with t := setBitField 14 (0 : BitVec 1) (setBitField 8 (bitField 6 0 d) p.t), w := true }

/-- The picture address of a PPUDATA access, `v[13:0]` (R168, R178). -/
def Ppu.dataAddr (p : Ppu) : Nat := p.v.toNat % 0x4000

/-- `v <- (v + inc) & 0x7FFF`, inc by `ctrl[2]` (R171, R178). -/
def Ppu.advance (p : Ppu) : Ppu := { p with v := p.v + (if p.ctrl.getLsbD 2 then 32 else 1) }

/-- PPUDATA read, the byte (R178): the buffer below the palette, the cell itself in it. -/
def readDataByte (img : Image) (m : Mapper) (p : Ppu) : Byte :=
  if p.dataAddr < 0x3F00 then p.rbuf else ppuRead img m p p.dataAddr

/-- PPUDATA read, the side effects (R178): the buffer refilled, `v` advanced. -/
def readDataEffect (img : Image) (m : Mapper) (p : Ppu) : Ppu :=
  let a := p.dataAddr
  Ppu.advance { p with rbuf := if a < 0x3F00 then ppuRead img m p a else ppuRead img m p (a - 0x1000) }

/-- A CPU read of picture register `n` (R170): a write-only register gives a fresh draw and has no side effect. -/
def pictureRead (n : Nat) (s : State) : Byte × State :=
  match n with
  | 2 => (s.ppu.status s.drawUndef.1, s.drawUndef.2.setPpu s.ppu.statusRead)
  | 4 => (s.ppu.readOamData, s)
  | 7 => (readDataByte s.image s.mapper s.ppu, s.setPpu (readDataEffect s.image s.mapper s.ppu))
  | _ => s.drawUndef

/-- A PPUCTRL write on the whole machine (R171): with NMI_ON_ENABLE_IN_VBLANK, enabling the NMI inside vblank signals it. -/
def writeCtrl (d : Byte) (s : State) : State :=
  if s.params.nmiOnEnableInVblank && !s.ppu.ctrl.getLsbD 7 && d.getLsbD 7 && s.ppu.vblank then
    (s.setPpu (s.ppu.writeCtrl d)).setNmi true
  else s.setPpu (s.ppu.writeCtrl d)

/-- A PPUDATA write on the whole machine (R178): `PPUWrite(v[13:0], d)`, then `v` advanced. -/
def writeData (d : Byte) (s : State) : State :=
  (s.setPpu (ppuWriteMem s.image s.mapper s.ppu.dataAddr d s.ppu).advance).setMapper
    (ppuWriteCart s.image s.ppu.dataAddr d s.mapper)

/-- A CPU write of picture register `n` (R170): a write to PPUSTATUS is discarded. -/
def pictureWrite (n : Nat) (d : Byte) (s : State) : State :=
  match n with
  | 0 => writeCtrl d s
  | 1 => s.setPpu (s.ppu.writeMask d)
  | 3 => s.setPpu (s.ppu.writeOamAddr d)
  | 4 => s.setPpu (s.ppu.writeOamData d)
  | 5 => s.setPpu (s.ppu.writeScroll d)
  | 6 => s.setPpu (s.ppu.writeAddr d)
  | 7 => writeData d s
  | _ => s

end Sys2Proof.Machine
end

