-- ==== Sys2Proof/Machine/Ops.lean ====
section
/-! DEFINITION. The shared operations of the CPU: bus reads and writes (R27 to R33), OAM DMA (R41, R42), the stack (R18, R19),
interrupt entry and return (R157, R136). -/

namespace Sys2Proof.Machine

/-- `MemRead(a, 1)` (R27, R31): the byte, and the state after the read's side effect. -/
def busRead (addr : Word) (s : State) : Byte × State :=
  let a := addr.toNat
  if a < 0x2000 then (s.ram.read (a % 0x800), s)
  else if a < 0x4000 then pictureRead (a % 8) s
  else if a < 0x4015 then s.drawUndef
  else if a = 0x4015 then audioStatusRead s
  else if a = 0x4016 then pad0Read s
  else if a = 0x4017 then pad1Read s
  else if a < 0x4020 then (0, s)
  else (cartRead s.image s.mapper a, s)

/-- The byte a bus read of `addr` would give, without the side effect. -/
def peek (addr : Word) (s : State) : Byte := (busRead addr s).1

/-- `MemRead(a, 2)` (R33): two byte reads, the low one first, the address wrapping. -/
def busRead16 (addr : Word) (s : State) : Word × State :=
  let lo := busRead addr s
  let hi := busRead (addr + 1) lo.2
  (mkWord lo.1 hi.1, hi.2)

/-- The address of byte `i` of a CPU page (R41). -/
def pageByte (page : Byte) (i : Nat) : Word := mkWord (BitVec.ofNat 8 i) page

/-- Byte `i` of an OAM DMA (R41): one bus read, stored at `oam[(OAMADDR + i) & 0xFF]`. -/
def dmaByte (page : Byte) (i : Nat) (s : State) : State :=
  let r := busRead (pageByte page i) s
  r.2.setPpu { r.2.ppu with oam := r.2.ppu.oam.write (r.2.ppu.oamaddr + BitVec.ofNat 8 i).toNat r.1 }

/-- The first `k` bytes of an OAM DMA, in order (R41). -/
def dmaBytes (page : Byte) : Nat → State → State
  | 0, s => s
  | k + 1, s => dmaByte page k (dmaBytes page k s)

/-- The stall of an OAM DMA (R42): 513 cycles, one more when the write falls on an odd cycle. -/
def dmaStall (base : Nat) (s : State) : Nat := 513 + (s.cpu.cycles + base) % 2

/-- A write to 0x4014 (R41, R42), by an instruction whose base cycle count is `base`. -/
def oamDma (base : Nat) (page : Byte) (s : State) : State := (dmaBytes page 256 s).addExtra (dmaStall base s)

/-- `MemWrite(a, 1, d)` (R27, R32), by an instruction whose base cycle count is `base` (R42). -/
def busWrite (base : Nat) (addr : Word) (d : Byte) (s : State) : State :=
  let a := addr.toNat
  if a < 0x2000 then s.setRam (s.ram.write (a % 0x800) d)
  else if a < 0x4000 then pictureWrite (a % 8) d s
  else if a = 0x4014 then oamDma base d s
  else if a = 0x4016 then s.setPads (s.pads.write d)
  else if a < 0x4018 then audioWrite a d s
  else if a < 0x4020 then s
  else s.setMapper (cartWrite s.image a d s.mapper)

/-- "Sets Z, N from r" (R17, R89). -/
def State.setZN (r : Byte) (s : State) : State := s.setFlags (s.cpu.flags.setZN r)

/-- The stack byte `sp` names, `0x0100 | SP` (R11). -/
def stackAddr (sp : Byte) : Word := mkWord sp 0x01

/-- `Push(v)` (R18): write, then decrement. The stack lies in CPU RAM, so `base` has no part in it. -/
def push (base : Nat) (v : Byte) (s : State) : State :=
  (busWrite base (stackAddr s.cpu.sp) v s).setSp (s.cpu.sp - 1)

/-- `Pull()` (R19): increment, then read. -/
def pull (s : State) : Byte × State := busRead (stackAddr (s.cpu.sp + 1)) (s.setSp (s.cpu.sp + 1))

/-- A 16-bit value pushed, high byte first (R124, R157). -/
def pushWord (base : Nat) (w : Word) (s : State) : State := push base (loByte w) (push base (hiByte w) s)

/-- A 16-bit value pulled, low byte first (R125, R136). -/
def pullWord (s : State) : Word × State :=
  let lo := pull s
  let hi := pull lo.2
  (mkWord lo.1 hi.1, hi.2)

/-- The three events of `Entry` (R157). -/
inductive IntKind where
  | nmi
  | irq
  | brk
deriving DecidableEq, Repr

/-- The vector (R43, R152). -/
def IntKind.vector : IntKind → Word
  | .nmi => 0xFFFA
  | .irq => 0xFFFE
  | .brk => 0xFFFE

/-- Bit 4 of the pushed status byte (R15, R152). -/
def IntKind.brkBit : IntKind → Bool
  | .nmi => false
  | .irq => false
  | .brk => true

/-- The cost of an entry (R7, R157). -/
def entryCycles : Nat := 7

/-- `Entry(kind, brk)` (R157) with `ret` the address to return to: PC and the status pushed, I set, PC from the vector. -/
def enterInterrupt (kind : IntKind) (ret : Word) (s : State) : State :=
  let s1 := pushWord entryCycles ret s
  let s2 := push entryCycles (s1.cpu.flags.pack kind.brkBit) s1
  let s3 := s2.setFlags { s2.cpu.flags with i := true }
  let r := busRead16 kind.vector s3
  r.2.setPc r.1

/-- The return from an interrupt (R136): the status, then PC, pulled. -/
def returnFromInterrupt (s : State) : State :=
  let p := pull s
  let r := pullWord (p.2.setFlags (Flags.unpack p.1))
  r.2.setPc r.1

end Sys2Proof.Machine
end

