-- ==== Sys2Proof/Machine/Operands.lean ====
section
/-! DEFINITION. The addressing modes (R73 to R88). The operand bytes are already in the instruction; PC is `PC_next`. -/

namespace Sys2Proof.Machine

/-- The memory modes (R77 to R82, R84, R85), with the operand as encoded. -/
inductive MemMode where
  | zp (b : Byte)
  | zpx (b : Byte)
  | zpy (b : Byte)
  | abs (a : Word)
  | absx (a : Word)
  | absy (a : Word)
  | indx (b : Byte)
  | indy (b : Byte)
deriving DecidableEq, Repr

/-- The modes of an instruction of operand kind "value" (R87): immediate (R76) or a memory mode. -/
inductive ValueMode where
  | imm (v : Byte)
  | mem (m : MemMode)
deriving DecidableEq, Repr

/-- The 16-bit pointer at a zero-page byte, its high byte from the next zero-page byte, wrapping (R84, R85). The zero page is
CPU RAM (R43), whose reads have no side effect (R28). -/
def zpPointer (b : Byte) (s : State) : Word := mkWord (peek (zext16 b) s) (peek (zext16 (b + 1)) s)

/-- The address a mode indexes: `base` of R81, R82, R85; the effective address itself for the other modes. -/
def MemMode.base (m : MemMode) (s : State) : Word :=
  match m with
  | .zp b => zext16 b
  | .zpx b => zext16 (b + s.cpu.x)
  | .zpy b => zext16 (b + s.cpu.y)
  | .abs a => a
  | .absx a => a
  | .absy a => a
  | .indx b => zpPointer (b + s.cpu.x) s
  | .indy b => zpPointer b s

/-- What a mode adds to its base address (R81, R82, R85). -/
def MemMode.index (m : MemMode) (s : State) : Word :=
  match m with
  | .absx _ => zext16 s.cpu.x
  | .absy _ => zext16 s.cpu.y
  | .indy _ => zext16 s.cpu.y
  | _ => 0

/-- The effective address (R77 to R85). -/
def MemMode.ea (m : MemMode) (s : State) : Word := m.base s + m.index s

/-- `cross` (R81, R82, R85): indexing changed the page. Only absx, absy and indy index; the others never cross. -/
def MemMode.cross (m : MemMode) (s : State) : Bool := hiByte (m.base s) != hiByte (m.ea s)

/-- The page-cross penalty of a read-kind instruction (R88). -/
def ValueMode.penalty (m : ValueMode) (s : State) : Nat :=
  match m with
  | .imm _ => 0
  | .mem m => if m.cross s then 1 else 0

/-- `Value()` (R87), with the page-cross penalty (R88): the operand and the state after reading it. -/
def readValue (m : ValueMode) (s : State) : Byte × State :=
  match m with
  | .imm v => (v, s)
  | .mem mm => busRead (mm.ea s) (s.addExtra (m.penalty s))

/-- The pointer read of JMP indirect (R83): the high byte comes from the pointer's own page. -/
def indirectTarget (ptr : Word) (s : State) : Word × State :=
  let lo := busRead ptr s
  let hi := busRead (mkWord (loByte ptr + 1) (hiByte ptr)) lo.2
  (mkWord lo.1 hi.1, hi.2)

/-- The target of relative mode, from `PC_next` (R86). -/
def branchTarget (off : Byte) (s : State) : Word := s.cpu.pc + sext8 off

/-- `cross` of relative mode: the target is on another page than `PC_next` (R86). -/
def branchCross (off : Byte) (s : State) : Bool := hiByte s.cpu.pc != hiByte (branchTarget off s)

end Sys2Proof.Machine
end

