-- ==== Sys2Proof/Machine/Arith.lean ====
section
/-! DEFINITION. ADC and SBC (R102 to R105). A meaning runs with PC at `PC_next` (R73) and ends its CPU step (R89). -/

namespace Sys2Proof.Machine

/-- ADC of an operand already read (R104). -/
def adcWith (m : Byte) (s : State) : State :=
  (s.setA (adcResult s.cpu.a m s.cpu.flags.c)).setFlags (s.cpu.flags.adc s.cpu.a m)

/-- ADC (R104). -/
def addOp (m : ValueMode) (base : Nat) (s : State) : Result :=
  let r := readValue m s
  .next ((adcWith r.1 r.2).retire base)

/-- SBC: ADC of the operand's one's complement (R105). -/
def subOp (m : ValueMode) (base : Nat) (s : State) : Result :=
  let r := readValue m s
  .next ((adcWith (r.1 ^^^ 0xFF) r.2).retire base)

/-- ADC 61 indx 6 (R104). -/
def execAdcIndx (a : Byte) (s : State) : Result := addOp (.mem (.indx a)) 6 s

/-- ADC 65 zp 3 (R104). -/
def execAdcZp (a : Byte) (s : State) : Result := addOp (.mem (.zp a)) 3 s

/-- ADC 69 imm 2 (R104). -/
def execAdcImm (v : Byte) (s : State) : Result := addOp (.imm v) 2 s

/-- ADC 6D abs 4 (R104). -/
def execAdcAbs (a : Word) (s : State) : Result := addOp (.mem (.abs a)) 4 s

/-- ADC 71 indy 5+p (R104). -/
def execAdcIndy (a : Byte) (s : State) : Result := addOp (.mem (.indy a)) 5 s

/-- ADC 75 zpx 4 (R104). -/
def execAdcZpx (a : Byte) (s : State) : Result := addOp (.mem (.zpx a)) 4 s

/-- ADC 79 absy 4+p (R104). -/
def execAdcAbsy (a : Word) (s : State) : Result := addOp (.mem (.absy a)) 4 s

/-- ADC 7D absx 4+p (R104). -/
def execAdcAbsx (a : Word) (s : State) : Result := addOp (.mem (.absx a)) 4 s

/-- SBC E1 indx 6 (R105). -/
def execSbcIndx (a : Byte) (s : State) : Result := subOp (.mem (.indx a)) 6 s

/-- SBC E5 zp 3 (R105). -/
def execSbcZp (a : Byte) (s : State) : Result := subOp (.mem (.zp a)) 3 s

/-- SBC E9 imm 2 (R105). -/
def execSbcImm (v : Byte) (s : State) : Result := subOp (.imm v) 2 s

/-- SBC ED abs 4 (R105). -/
def execSbcAbs (a : Word) (s : State) : Result := subOp (.mem (.abs a)) 4 s

/-- SBC F1 indy 5+p (R105). -/
def execSbcIndy (a : Byte) (s : State) : Result := subOp (.mem (.indy a)) 5 s

/-- SBC F5 zpx 4 (R105). -/
def execSbcZpx (a : Byte) (s : State) : Result := subOp (.mem (.zpx a)) 4 s

/-- SBC F9 absy 4+p (R105). -/
def execSbcAbsy (a : Word) (s : State) : Result := subOp (.mem (.absy a)) 4 s

/-- SBC FD absx 4+p (R105). -/
def execSbcAbsx (a : Word) (s : State) : Result := subOp (.mem (.absx a)) 4 s

end Sys2Proof.Machine
end

