-- ==== Sys2Proof/Machine/Branch.lean ====
section
/-! DEFINITION. The eight branches (R126 to R134). A meaning runs with PC at `PC_next` (R73) and ends its CPU step (R89). -/

namespace Sys2Proof.Machine

/-- Branch mechanics (R126): taken costs one cycle more, and another one to another page. -/
def branchIf (cond : Bool) (off : Byte) (s : State) : Result :=
  if cond then
    .next (((s.addExtra (if branchCross off s then 2 else 1)).setPc (branchTarget off s)).retire 2)
  else .next (s.retire 2)

/-- BCC 90 rel 2 (R127). -/
def execBcc (off : Byte) (s : State) : Result := branchIf (!s.cpu.flags.c) off s

/-- BCS B0 rel 2 (R128). -/
def execBcs (off : Byte) (s : State) : Result := branchIf (s.cpu.flags.c) off s

/-- BEQ F0 rel 2 (R129). -/
def execBeq (off : Byte) (s : State) : Result := branchIf (s.cpu.flags.z) off s

/-- BMI 30 rel 2 (R130). -/
def execBmi (off : Byte) (s : State) : Result := branchIf (s.cpu.flags.n) off s

/-- BNE D0 rel 2 (R131). -/
def execBne (off : Byte) (s : State) : Result := branchIf (!s.cpu.flags.z) off s

/-- BPL 10 rel 2 (R132). -/
def execBpl (off : Byte) (s : State) : Result := branchIf (!s.cpu.flags.n) off s

/-- BVC 50 rel 2 (R133). -/
def execBvc (off : Byte) (s : State) : Result := branchIf (!s.cpu.flags.v) off s

/-- BVS 70 rel 2 (R134). -/
def execBvs (off : Byte) (s : State) : Result := branchIf (s.cpu.flags.v) off s

end Sys2Proof.Machine
end

