-- ==== Sys2Proof/Machine/Compare.lean ====
section
/-! DEFINITION. CMP, CPX, CPY (R110 to R112). A meaning runs with PC at `PC_next` (R73) and ends its CPU step (R89). -/

namespace Sys2Proof.Machine

/-- A compare (R110 to R112): flags only. -/
def compareReg (get : Cpu → Byte) (m : ValueMode) (base : Nat) (s : State) : Result :=
  let r := readValue m s
  .next ((r.2.setFlags (r.2.cpu.flags.compare (get r.2.cpu) r.1)).retire base)

/-- CMP C1 indx 6 (R110). -/
def execCmpIndx (a : Byte) (s : State) : Result := compareReg Cpu.a (.mem (.indx a)) 6 s

/-- CMP C5 zp 3 (R110). -/
def execCmpZp (a : Byte) (s : State) : Result := compareReg Cpu.a (.mem (.zp a)) 3 s

/-- CMP C9 imm 2 (R110). -/
def execCmpImm (v : Byte) (s : State) : Result := compareReg Cpu.a (.imm v) 2 s

/-- CMP CD abs 4 (R110). -/
def execCmpAbs (a : Word) (s : State) : Result := compareReg Cpu.a (.mem (.abs a)) 4 s

/-- CMP D1 indy 5+p (R110). -/
def execCmpIndy (a : Byte) (s : State) : Result := compareReg Cpu.a (.mem (.indy a)) 5 s

/-- CMP D5 zpx 4 (R110). -/
def execCmpZpx (a : Byte) (s : State) : Result := compareReg Cpu.a (.mem (.zpx a)) 4 s

/-- CMP D9 absy 4+p (R110). -/
def execCmpAbsy (a : Word) (s : State) : Result := compareReg Cpu.a (.mem (.absy a)) 4 s

/-- CMP DD absx 4+p (R110). -/
def execCmpAbsx (a : Word) (s : State) : Result := compareReg Cpu.a (.mem (.absx a)) 4 s

/-- CPX E0 imm 2 (R111). -/
def execCpxImm (v : Byte) (s : State) : Result := compareReg Cpu.x (.imm v) 2 s

/-- CPX E4 zp 3 (R111). -/
def execCpxZp (a : Byte) (s : State) : Result := compareReg Cpu.x (.mem (.zp a)) 3 s

/-- CPX EC abs 4 (R111). -/
def execCpxAbs (a : Word) (s : State) : Result := compareReg Cpu.x (.mem (.abs a)) 4 s

/-- CPY C0 imm 2 (R112). -/
def execCpyImm (v : Byte) (s : State) : Result := compareReg Cpu.y (.imm v) 2 s

/-- CPY C4 zp 3 (R112). -/
def execCpyZp (a : Byte) (s : State) : Result := compareReg Cpu.y (.mem (.zp a)) 3 s

/-- CPY CC abs 4 (R112). -/
def execCpyAbs (a : Word) (s : State) : Result := compareReg Cpu.y (.mem (.abs a)) 4 s

end Sys2Proof.Machine
end

