-- ==== Sys2Proof/Machine/Control.lean ====
section
/-! DEFINITION. JMP, JSR, RTS, BRK, RTI (R123 to R125, R135, R136). A meaning runs with PC at `PC_next` (R73) and ends its CPU step (R89). -/

namespace Sys2Proof.Machine

/-- JMP 4C abs 3 (R123). -/
def execJmpAbs (a : Word) (s : State) : Result := .next ((s.setPc a).retire 3)

/-- JMP 6C ind 5 (R123). -/
def execJmpInd (a : Word) (s : State) : Result :=
  let t := indirectTarget a s
  .next ((t.2.setPc t.1).retire 5)

/-- JSR 20 abs 6 (R124): the pushed value is `PC_next - 1`, high byte first. -/
def execJsr (a : Word) (s : State) : Result := .next (((pushWord 6 (s.cpu.pc - 1) s).setPc a).retire 6)

/-- RTS 60 imp 6 (R125). -/
def execRts (s : State) : Result :=
  let r := pullWord s
  .next ((r.2.setPc (r.1 + 1)).retire 6)

/-- BRK 00 imp 7 (R135): `ret` is BRK's address + 2, which is `PC_next + 1`; BRK_MASKED_BY_I as the rule says. -/
def execBrk (s : State) : Result :=
  let ret := s.cpu.pc + 1
  if s.params.brkMaskedByI && s.cpu.flags.i then .next ((s.setPc ret).retire entryCycles)
  else .next ((enterInterrupt .brk ret s).retire entryCycles)

/-- RTI 40 imp 6 (R136). -/
def execRti (s : State) : Result := .next ((returnFromInterrupt s).retire 6)

end Sys2Proof.Machine
end

