-- ==== Sys2Proof/Machine/FlagOps.lean ====
section
/-! DEFINITION. The flag instructions and NOP (R141 to R148). A meaning runs with PC at `PC_next` (R73) and ends its CPU step (R89). -/

namespace Sys2Proof.Machine

/-- A flag instruction (R141 to R147): 2 cycles. -/
def flagOp (f : Flags → Flags) (s : State) : Result := .next ((s.setFlags (f s.cpu.flags)).retire 2)

/-- CLC 18 imp 2 (R141). -/
def execClc (s : State) : Result := flagOp (fun f => { f with c := false }) s

/-- SEC 38 imp 2 (R142). -/
def execSec (s : State) : Result := flagOp (fun f => { f with c := true }) s

/-- CLI 58 imp 2 (R143). -/
def execCli (s : State) : Result := flagOp (fun f => { f with i := false }) s

/-- SEI 78 imp 2 (R144). -/
def execSei (s : State) : Result := flagOp (fun f => { f with i := true }) s

/-- CLD D8 imp 2 (R145). -/
def execCld (s : State) : Result := flagOp (fun f => { f with d := false }) s

/-- SED F8 imp 2 (R146). -/
def execSed (s : State) : Result := flagOp (fun f => { f with d := true }) s

/-- CLV B8 imp 2 (R147). -/
def execClv (s : State) : Result := flagOp (fun f => { f with v := false }) s

/-- NOP EA imp 2 (R148). -/
def execNop (s : State) : Result := .next (s.retire 2)

end Sys2Proof.Machine
end

