-- ==== Sys2Proof/Machine/IncDec.lean ====
section
/-! DEFINITION. INC, DEC, INX, INY, DEX, DEY (R113 to R118). A meaning runs with PC at `PC_next` (R73) and ends its CPU step (R89). -/

namespace Sys2Proof.Machine

/-- A memory increment or decrement (R113, R114): one read and one write at the effective address (R38), Z and N. -/
def modifyMem (delta : Byte) (m : MemMode) (base : Nat) (s : State) : Result :=
  let ea := m.ea s
  let r := busRead ea s
  let v := r.1 + delta
  .next (((busWrite base ea v r.2).setZN v).retire base)

/-- A register increment or decrement (R115 to R118): Z and N, 2 cycles. -/
def countReg (get : Cpu → Byte) (set : Byte → State → State) (delta : Byte) (s : State) : Result :=
  let v := get s.cpu + delta
  .next (((set v s).setZN v).retire 2)

/-- INC E6 zp 5 (R113). -/
def execIncZp (a : Byte) (s : State) : Result := modifyMem 1 (.zp a) 5 s

/-- INC EE abs 6 (R113). -/
def execIncAbs (a : Word) (s : State) : Result := modifyMem 1 (.abs a) 6 s

/-- INC F6 zpx 6 (R113). -/
def execIncZpx (a : Byte) (s : State) : Result := modifyMem 1 (.zpx a) 6 s

/-- INC FE absx 7 (R113). -/
def execIncAbsx (a : Word) (s : State) : Result := modifyMem 1 (.absx a) 7 s

/-- DEC C6 zp 5 (R114). -/
def execDecZp (a : Byte) (s : State) : Result := modifyMem (-1) (.zp a) 5 s

/-- DEC CE abs 6 (R114). -/
def execDecAbs (a : Word) (s : State) : Result := modifyMem (-1) (.abs a) 6 s

/-- DEC D6 zpx 6 (R114). -/
def execDecZpx (a : Byte) (s : State) : Result := modifyMem (-1) (.zpx a) 6 s

/-- DEC DE absx 7 (R114). -/
def execDecAbsx (a : Word) (s : State) : Result := modifyMem (-1) (.absx a) 7 s

/-- INX E8 imp 2 (R115). -/
def execInx (s : State) : Result := countReg Cpu.x State.setX 1 s

/-- INY C8 imp 2 (R116). -/
def execIny (s : State) : Result := countReg Cpu.y State.setY 1 s

/-- DEX CA imp 2 (R117). -/
def execDex (s : State) : Result := countReg Cpu.x State.setX (-1) s

/-- DEY 88 imp 2 (R118). -/
def execDey (s : State) : Result := countReg Cpu.y State.setY (-1) s

end Sys2Proof.Machine
end

