-- ==== Sys2Proof/Machine/LoadStore.lean ====
section
/-! DEFINITION. Loads and stores (R90 to R95). A meaning runs with PC at `PC_next` (R73) and ends its CPU step (R89). -/

namespace Sys2Proof.Machine

/-- A load (R90 to R92): the operand into a register, Z and N from it. -/
def loadReg (set : Byte → State → State) (m : ValueMode) (base : Nat) (s : State) : Result :=
  let r := readValue m s
  .next (((set r.1 r.2).setZN r.1).retire base)

/-- A store (R93 to R95): the effective address is written and not read first; no flag. -/
def storeReg (get : Cpu → Byte) (m : MemMode) (base : Nat) (s : State) : Result :=
  .next ((busWrite base (m.ea s) (get s.cpu) s).retire base)

/-- LDA A1 indx 6 (R90). -/
def execLdaIndx (a : Byte) (s : State) : Result := loadReg State.setA (.mem (.indx a)) 6 s

/-- LDA A5 zp 3 (R90). -/
def execLdaZp (a : Byte) (s : State) : Result := loadReg State.setA (.mem (.zp a)) 3 s

/-- LDA A9 imm 2 (R90). -/
def execLdaImm (v : Byte) (s : State) : Result := loadReg State.setA (.imm v) 2 s

/-- LDA AD abs 4 (R90). -/
def execLdaAbs (a : Word) (s : State) : Result := loadReg State.setA (.mem (.abs a)) 4 s

/-- LDA B1 indy 5+p (R90). -/
def execLdaIndy (a : Byte) (s : State) : Result := loadReg State.setA (.mem (.indy a)) 5 s

/-- LDA B5 zpx 4 (R90). -/
def execLdaZpx (a : Byte) (s : State) : Result := loadReg State.setA (.mem (.zpx a)) 4 s

/-- LDA B9 absy 4+p (R90). -/
def execLdaAbsy (a : Word) (s : State) : Result := loadReg State.setA (.mem (.absy a)) 4 s

/-- LDA BD absx 4+p (R90). -/
def execLdaAbsx (a : Word) (s : State) : Result := loadReg State.setA (.mem (.absx a)) 4 s

/-- LDX A2 imm 2 (R91). -/
def execLdxImm (v : Byte) (s : State) : Result := loadReg State.setX (.imm v) 2 s

/-- LDX A6 zp 3 (R91). -/
def execLdxZp (a : Byte) (s : State) : Result := loadReg State.setX (.mem (.zp a)) 3 s

/-- LDX AE abs 4 (R91). -/
def execLdxAbs (a : Word) (s : State) : Result := loadReg State.setX (.mem (.abs a)) 4 s

/-- LDX B6 zpy 4 (R91). -/
def execLdxZpy (a : Byte) (s : State) : Result := loadReg State.setX (.mem (.zpy a)) 4 s

/-- LDX BE absy 4+p (R91). -/
def execLdxAbsy (a : Word) (s : State) : Result := loadReg State.setX (.mem (.absy a)) 4 s

/-- LDY A0 imm 2 (R92). -/
def execLdyImm (v : Byte) (s : State) : Result := loadReg State.setY (.imm v) 2 s

/-- LDY A4 zp 3 (R92). -/
def execLdyZp (a : Byte) (s : State) : Result := loadReg State.setY (.mem (.zp a)) 3 s

/-- LDY AC abs 4 (R92). -/
def execLdyAbs (a : Word) (s : State) : Result := loadReg State.setY (.mem (.abs a)) 4 s

/-- LDY B4 zpx 4 (R92). -/
def execLdyZpx (a : Byte) (s : State) : Result := loadReg State.setY (.mem (.zpx a)) 4 s

/-- LDY BC absx 4+p (R92). -/
def execLdyAbsx (a : Word) (s : State) : Result := loadReg State.setY (.mem (.absx a)) 4 s

/-- STA 81 indx 6 (R93). -/
def execStaIndx (a : Byte) (s : State) : Result := storeReg Cpu.a (.indx a) 6 s

/-- STA 85 zp 3 (R93). -/
def execStaZp (a : Byte) (s : State) : Result := storeReg Cpu.a (.zp a) 3 s

/-- STA 8D abs 4 (R93). -/
def execStaAbs (a : Word) (s : State) : Result := storeReg Cpu.a (.abs a) 4 s

/-- STA 91 indy 6 (R93). -/
def execStaIndy (a : Byte) (s : State) : Result := storeReg Cpu.a (.indy a) 6 s

/-- STA 95 zpx 4 (R93). -/
def execStaZpx (a : Byte) (s : State) : Result := storeReg Cpu.a (.zpx a) 4 s

/-- STA 99 absy 5 (R93). -/
def execStaAbsy (a : Word) (s : State) : Result := storeReg Cpu.a (.absy a) 5 s

/-- STA 9D absx 5 (R93). -/
def execStaAbsx (a : Word) (s : State) : Result := storeReg Cpu.a (.absx a) 5 s

/-- STX 86 zp 3 (R94). -/
def execStxZp (a : Byte) (s : State) : Result := storeReg Cpu.x (.zp a) 3 s

/-- STX 8E abs 4 (R94). -/
def execStxAbs (a : Word) (s : State) : Result := storeReg Cpu.x (.abs a) 4 s

/-- STX 96 zpy 4 (R94). -/
def execStxZpy (a : Byte) (s : State) : Result := storeReg Cpu.x (.zpy a) 4 s

/-- STY 84 zp 3 (R95). -/
def execStyZp (a : Byte) (s : State) : Result := storeReg Cpu.y (.zp a) 3 s

/-- STY 8C abs 4 (R95). -/
def execStyAbs (a : Word) (s : State) : Result := storeReg Cpu.y (.abs a) 4 s

/-- STY 94 zpx 4 (R95). -/
def execStyZpx (a : Byte) (s : State) : Result := storeReg Cpu.y (.zpx a) 4 s

end Sys2Proof.Machine
end

