-- ==== Sys2Proof/Machine/Logic.lean ====
section
/-! DEFINITION. AND, ORA, EOR, BIT (R106 to R109). A meaning runs with PC at `PC_next` (R73) and ends its CPU step (R89). -/

namespace Sys2Proof.Machine

/-- AND, ORA, EOR (R106 to R108): the operation of A and the operand into A, Z and N from it. -/
def logicOp (f : Byte → Byte → Byte) (m : ValueMode) (base : Nat) (s : State) : Result :=
  let r := readValue m s
  let v := f r.2.cpu.a r.1
  .next (((r.2.setA v).setZN v).retire base)

/-- BIT (R109): flags only. -/
def bitOp (m : ValueMode) (base : Nat) (s : State) : Result :=
  let r := readValue m s
  .next ((r.2.setFlags (r.2.cpu.flags.bitTest r.2.cpu.a r.1)).retire base)

/-- AND 21 indx 6 (R106). -/
def execAndIndx (a : Byte) (s : State) : Result := logicOp (· &&& ·) (.mem (.indx a)) 6 s

/-- AND 25 zp 3 (R106). -/
def execAndZp (a : Byte) (s : State) : Result := logicOp (· &&& ·) (.mem (.zp a)) 3 s

/-- AND 29 imm 2 (R106). -/
def execAndImm (v : Byte) (s : State) : Result := logicOp (· &&& ·) (.imm v) 2 s

/-- AND 2D abs 4 (R106). -/
def execAndAbs (a : Word) (s : State) : Result := logicOp (· &&& ·) (.mem (.abs a)) 4 s

/-- AND 31 indy 5+p (R106). -/
def execAndIndy (a : Byte) (s : State) : Result := logicOp (· &&& ·) (.mem (.indy a)) 5 s

/-- AND 35 zpx 4 (R106). -/
def execAndZpx (a : Byte) (s : State) : Result := logicOp (· &&& ·) (.mem (.zpx a)) 4 s

/-- AND 39 absy 4+p (R106). -/
def execAndAbsy (a : Word) (s : State) : Result := logicOp (· &&& ·) (.mem (.absy a)) 4 s

/-- AND 3D absx 4+p (R106). -/
def execAndAbsx (a : Word) (s : State) : Result := logicOp (· &&& ·) (.mem (.absx a)) 4 s

/-- ORA 01 indx 6 (R107). -/
def execOraIndx (a : Byte) (s : State) : Result := logicOp (· ||| ·) (.mem (.indx a)) 6 s

/-- ORA 05 zp 3 (R107). -/
def execOraZp (a : Byte) (s : State) : Result := logicOp (· ||| ·) (.mem (.zp a)) 3 s

/-- ORA 09 imm 2 (R107). -/
def execOraImm (v : Byte) (s : State) : Result := logicOp (· ||| ·) (.imm v) 2 s

/-- ORA 0D abs 4 (R107). -/
def execOraAbs (a : Word) (s : State) : Result := logicOp (· ||| ·) (.mem (.abs a)) 4 s

/-- ORA 11 indy 5+p (R107). -/
def execOraIndy (a : Byte) (s : State) : Result := logicOp (· ||| ·) (.mem (.indy a)) 5 s

/-- ORA 15 zpx 4 (R107). -/
def execOraZpx (a : Byte) (s : State) : Result := logicOp (· ||| ·) (.mem (.zpx a)) 4 s

/-- ORA 19 absy 4+p (R107). -/
def execOraAbsy (a : Word) (s : State) : Result := logicOp (· ||| ·) (.mem (.absy a)) 4 s

/-- ORA 1D absx 4+p (R107). -/
def execOraAbsx (a : Word) (s : State) : Result := logicOp (· ||| ·) (.mem (.absx a)) 4 s

/-- EOR 41 indx 6 (R108). -/
def execEorIndx (a : Byte) (s : State) : Result := logicOp (· ^^^ ·) (.mem (.indx a)) 6 s

/-- EOR 45 zp 3 (R108). -/
def execEorZp (a : Byte) (s : State) : Result := logicOp (· ^^^ ·) (.mem (.zp a)) 3 s

/-- EOR 49 imm 2 (R108). -/
def execEorImm (v : Byte) (s : State) : Result := logicOp (· ^^^ ·) (.imm v) 2 s

/-- EOR 4D abs 4 (R108). -/
def execEorAbs (a : Word) (s : State) : Result := logicOp (· ^^^ ·) (.mem (.abs a)) 4 s

/-- EOR 51 indy 5+p (R108). -/
def execEorIndy (a : Byte) (s : State) : Result := logicOp (· ^^^ ·) (.mem (.indy a)) 5 s

/-- EOR 55 zpx 4 (R108). -/
def execEorZpx (a : Byte) (s : State) : Result := logicOp (· ^^^ ·) (.mem (.zpx a)) 4 s

/-- EOR 59 absy 4+p (R108). -/
def execEorAbsy (a : Word) (s : State) : Result := logicOp (· ^^^ ·) (.mem (.absy a)) 4 s

/-- EOR 5D absx 4+p (R108). -/
def execEorAbsx (a : Word) (s : State) : Result := logicOp (· ^^^ ·) (.mem (.absx a)) 4 s

/-- BIT 24 zp 3 (R109). -/
def execBitZp (a : Byte) (s : State) : Result := bitOp (.mem (.zp a)) 3 s

/-- BIT 2C abs 4 (R109). -/
def execBitAbs (a : Word) (s : State) : Result := bitOp (.mem (.abs a)) 4 s

end Sys2Proof.Machine
end

