-- ==== Sys2Proof/Machine/Shift.lean ====
section
/-! DEFINITION. ASL, LSR, ROL, ROR (R119 to R122). A meaning runs with PC at `PC_next` (R73) and ends its CPU step (R89). -/

namespace Sys2Proof.Machine

/-- An accumulator shift (R119 to R122): `f` is given the carry in. 2 cycles. -/
def shiftAcc (f : Bool → Byte → Byte × Bool) (s : State) : Result :=
  let r := f s.cpu.flags.c s.cpu.a
  .next (((s.setA r.1).setFlags (s.cpu.flags.shifted r)).retire 2)

/-- A memory shift (R119 to R122): one read and one write at the effective address (R38). -/
def shiftMem (f : Bool → Byte → Byte × Bool) (m : MemMode) (base : Nat) (s : State) : Result :=
  let ea := m.ea s
  let v := busRead ea s
  let r := f v.2.cpu.flags.c v.1
  let t := busWrite base ea r.1 v.2
  .next ((t.setFlags (t.cpu.flags.shifted r)).retire base)

/-- ASL 06 zp 5 (R119). -/
def execAslZp (a : Byte) (s : State) : Result := shiftMem (fun _ => aslByte) (.zp a) 5 s

/-- ASL 0A acc 2 (R119). -/
def execAslAcc (s : State) : Result := shiftAcc (fun _ => aslByte) s

/-- ASL 0E abs 6 (R119). -/
def execAslAbs (a : Word) (s : State) : Result := shiftMem (fun _ => aslByte) (.abs a) 6 s

/-- ASL 16 zpx 6 (R119). -/
def execAslZpx (a : Byte) (s : State) : Result := shiftMem (fun _ => aslByte) (.zpx a) 6 s

/-- ASL 1E absx 7 (R119). -/
def execAslAbsx (a : Word) (s : State) : Result := shiftMem (fun _ => aslByte) (.absx a) 7 s

/-- LSR 46 zp 5 (R120). -/
def execLsrZp (a : Byte) (s : State) : Result := shiftMem (fun _ => lsrByte) (.zp a) 5 s

/-- LSR 4A acc 2 (R120). -/
def execLsrAcc (s : State) : Result := shiftAcc (fun _ => lsrByte) s

/-- LSR 4E abs 6 (R120). -/
def execLsrAbs (a : Word) (s : State) : Result := shiftMem (fun _ => lsrByte) (.abs a) 6 s

/-- LSR 56 zpx 6 (R120). -/
def execLsrZpx (a : Byte) (s : State) : Result := shiftMem (fun _ => lsrByte) (.zpx a) 6 s

/-- LSR 5E absx 7 (R120). -/
def execLsrAbsx (a : Word) (s : State) : Result := shiftMem (fun _ => lsrByte) (.absx a) 7 s

/-- ROL 26 zp 5 (R121). -/
def execRolZp (a : Byte) (s : State) : Result := shiftMem rolByte (.zp a) 5 s

/-- ROL 2A acc 2 (R121). -/
def execRolAcc (s : State) : Result := shiftAcc rolByte s

/-- ROL 2E abs 6 (R121). -/
def execRolAbs (a : Word) (s : State) : Result := shiftMem rolByte (.abs a) 6 s

/-- ROL 36 zpx 6 (R121). -/
def execRolZpx (a : Byte) (s : State) : Result := shiftMem rolByte (.zpx a) 6 s

/-- ROL 3E absx 7 (R121). -/
def execRolAbsx (a : Word) (s : State) : Result := shiftMem rolByte (.absx a) 7 s

/-- ROR 66 zp 5 (R122). -/
def execRorZp (a : Byte) (s : State) : Result := shiftMem rorByte (.zp a) 5 s

/-- ROR 6A acc 2 (R122). -/
def execRorAcc (s : State) : Result := shiftAcc rorByte s

/-- ROR 6E abs 6 (R122). -/
def execRorAbs (a : Word) (s : State) : Result := shiftMem rorByte (.abs a) 6 s

/-- ROR 76 zpx 6 (R122). -/
def execRorZpx (a : Byte) (s : State) : Result := shiftMem rorByte (.zpx a) 6 s

/-- ROR 7E absx 7 (R122). -/
def execRorAbsx (a : Word) (s : State) : Result := shiftMem rorByte (.absx a) 7 s

end Sys2Proof.Machine
end

