-- ==== Sys2Proof/Machine/Stack.lean ====
section
/-! DEFINITION. PHA, PHP, PLA, PLP (R137 to R140). A meaning runs with PC at `PC_next` (R73) and ends its CPU step (R89). -/

namespace Sys2Proof.Machine

/-- PHA 48 imp 3 (R137). -/
def execPha (s : State) : Result := .next ((push 3 s.cpu.a s).retire 3)

/-- PHP 08 imp 3 (R138): `Pack(1)`. -/
def execPhp (s : State) : Result := .next ((push 3 (s.cpu.flags.pack true) s).retire 3)

/-- PLA 68 imp 4 (R139). -/
def execPla (s : State) : Result :=
  let r := pull s
  .next (((r.2.setA r.1).setZN r.1).retire 4)

/-- PLP 28 imp 4 (R140). -/
def execPlp (s : State) : Result :=
  let r := pull s
  .next ((r.2.setFlags (Flags.unpack r.1)).retire 4)

end Sys2Proof.Machine
end

