-- ==== Sys2Proof/Machine/Transfer.lean ====
section
/-! DEFINITION. Register transfers (R96 to R101). A meaning runs with PC at `PC_next` (R73) and ends its CPU step (R89). -/

namespace Sys2Proof.Machine

/-- A transfer with flags (R96 to R99, R101): 2 cycles. -/
def transfer (get : Cpu → Byte) (set : Byte → State → State) (s : State) : Result :=
  .next (((set (get s.cpu) s).setZN (get s.cpu)).retire 2)

/-- TAX AA imp 2 (R96). -/
def execTax (s : State) : Result := transfer Cpu.a State.setX s

/-- TAY A8 imp 2 (R97). -/
def execTay (s : State) : Result := transfer Cpu.a State.setY s

/-- TSX BA imp 2 (R98). -/
def execTsx (s : State) : Result := transfer Cpu.sp State.setX s

/-- TXA 8A imp 2 (R99). -/
def execTxa (s : State) : Result := transfer Cpu.x State.setA s

/-- TXS 9A imp 2 (R100). -/
def execTxs (s : State) : Result := .next ((s.setSp s.cpu.x).retire 2)

/-- TYA 98 imp 2 (R101). -/
def execTya (s : State) : Result := transfer Cpu.y State.setA s

end Sys2Proof.Machine
end

