-- ==== Sys2Proof/Machine/Fetch.lean ====
section
/-! DEFINITION. The CPU step (R149): interrupt recognition, fetch (R36, R73), decode (R66), execution, the invalid opcode (R150);
and placing an instruction's bytes where the next fetch finds them. -/

namespace Sys2Proof.Machine

/-- One fetched byte (R36, R73): a bus read at PC with its side effect, PC advanced with 16-bit wrap. -/
def fetchByte (s : State) : Byte × State :=
  let r := busRead s.cpu.pc s
  (r.1, r.2.setPc (s.cpu.pc + 1))

/-- `k` fetched bytes, in address order (R73). -/
def fetchBytes : Nat → State → List Byte × State
  | 0, s => ([], s)
  | k + 1, s =>
    let b := fetchByte s
    let r := fetchBytes k b.2
    (b.1 :: r.1, r.2)

/-- The instruction part of a CPU step (R149): opcode fetch, table look-up, operand fetch, execution. An invalid opcode halts the
machine (R150): PC is back at the opcode, nothing else changes but the fetch's own read side effect, no cycle is counted. -/
def runInstruction (s : State) : Result :=
  let op := fetchByte s
  match opcodeForm op.1 with
  | none => .next (op.2.halt { op := op.1, addr := s.cpu.pc })
  | some (.plain i) => exec i op.2
  | some (.byte f) =>
    let b1 := fetchByte op.2
    exec (f b1.1) b1.2
  | some (.word f) =>
    let b1 := fetchByte op.2
    let b2 := fetchByte b1.2
    exec (f (mkWord b1.1 b2.1)) b2.2

/-- An interrupt entry as a CPU step of its own (R149, R157, R158): PC is the address to return to. -/
def takeInterrupt (kind : IntKind) (s : State) : State := (enterInterrupt kind s.cpu.pc s).retire entryCycles

/-- An IRQ is recognised (R154): the level is 1 and I is 0. -/
def irqTaken (s : State) : Bool := !s.cpu.flags.i && s.irqLevel

/-- The start of a CPU step (R149): `extra` is 0, and the IRQ level is sampled. -/
def stepStart (s : State) : State := s.clearExtra.irqSampled

/-- One CPU step (R149, R155, R156): NMI first, then IRQ, else the next instruction; no step exists once halted. -/
def cpuStep (s : State) : Result :=
  match s.cpu.halted with
  | some h => .fault (.invalidOpcode h.op h.addr)
  | none =>
    if s.cpu.nmiPending then .next (takeInterrupt .nmi ((stepStart s).setNmi false))
    else if irqTaken s then .next (takeInterrupt .irq (stepStart s))
    else runInstruction (stepStart s)

/-- A byte put where a fetch at `addr` reads it; `none` where a fetch reads a register or nothing at all. -/
def placeByte (addr : Word) (b : Byte) (s : State) : Option State :=
  let a := addr.toNat
  if a < 0x2000 then some (s.setRam (s.ram.write (a % 0x800) b))
  else if 0x8000 ≤ a then
    some { s with image := { s.image with prgRom := s.image.prgRom.write (prgIndex s.image s.mapper.regs a) b } }
  else if 0x6000 ≤ a && s.image.prgRamPresent then
    some (s.setMapper { s.mapper with prgRam := s.mapper.prgRam.write (a - 0x6000) b })
  else none

/-- Bytes put at consecutive addresses. -/
def placeBytes : Word → List Byte → State → Option State
  | _, [], s => some s
  | a, b :: rest, s =>
    match placeByte a b s with
    | none => none
    | some s1 => placeBytes (a + 1) rest s1

/-- The machine runs, and its next step takes no interrupt: the next step fetches an instruction. -/
def readyToFetch (s : State) : State :=
  let s1 := { s with cpu := { s.cpu with halted := none, nmiPending := false } }
  if s.cpu.flags.i then s1 else { s1 with env := { s1.env with irqIn := false :: s1.env.irqIn.tail } }

/-- An instruction's bytes where the next step fetches: at PC, or, where a fetch at PC reads no memory, at address 0 with PC
there (log entry 17). -/
def placeInstruction (bytes : List Byte) (s : State) : State :=
  let s1 := readyToFetch s
  match placeBytes s1.cpu.pc bytes s1 with
  | some s2 => s2
  | none => (placeBytes 0 bytes (s1.setPc 0)).getD s1

end Sys2Proof.Machine
end

