-- ==== Sys2Proof/Machine/Render.lean ====
section
/-! DEFINITION. Rendering one line (R188 to R193): background, sprite evaluation, sprites. -/

namespace Sys2Proof.Machine

/-- `Resolve(e)` at a line's render tick (R193): the palette cell's low six bits and the mask's grayscale and emphasis bits. -/
def Ppu.resolve (p : Ppu) (e : Byte) : Pixel :=
  { entry := bitField 6 0 e, gray := p.mask.getLsbD 0, emphasis := bitField 3 5 p.mask }

/-- The colour of a resolved pixel, for any MASTER_PALETTE and COLOR_TRANSFORM, which are open (R193). -/
def Pixel.colour {C : Type} (palette : BitVec 6 → C) (transform : C → Bool → BitVec 3 → C) (px : Pixel) : C :=
  transform (palette px.entry) px.gray px.emphasis

/-- The palette cell at an index, through the aliases (R181). -/
def Ppu.palette (p : Ppu) (i : Nat) : Byte := p.pal.read (paletteAlias i)

/-- The backdrop colour, `Resolve(pal[0x00])` (R188, R189). -/
def Ppu.backdrop (p : Ppu) : Pixel := p.resolve (p.pal.read 0)

/-- Bit `b` of a pattern row's two planes: the 2-bit colour index (R189, R191). -/
def colourIndex (lo hi : Byte) (b : Nat) : BitVec 2 := BitVec.ofNat 2 (2 * (hi.getLsbD b).toNat + (lo.getLsbD b).toNat)

/-- Where a background pixel comes from (R189): nametable base, tile column, and pixel column inside the tile. -/
structure TilePos where
  base : Nat
  cx   : Nat
  fx   : Nat

/-- The tile of pixel `px`, walked from `v` and fine x across the nametable edge (R189). -/
def Ppu.tilePos (p : Ppu) (px : Nat) : TilePos :=
  let sx := px + p.x.toNat
  let cx := (Loopy.coarseX p.v).toNat + sx / 8
  let nx := Loopy.ntX p.v ^^ decide (cx / 32 % 2 = 1)
  { base := 0x2000 + 0x800 * (Loopy.ntY p.v).toNat + 0x400 * nx.toNat, cx := cx % 32, fx := sx % 8 }

/-- The palette id of a tile (R189): the quadrant's two bits of the attribute byte. -/
def paletteId (attr : Byte) (cx cy : Nat) : Nat :=
  let shift := 4 * (cy / 2 % 2) + 2 * (cx / 2 % 2)
  attr.toNat / 2 ^ shift % 4

/-- One background pixel (R189): its colour index and its colour. -/
def backgroundPixel (img : Image) (m : Mapper) (p : Ppu) (px : Nat) : BitVec 2 × Pixel :=
  if !p.mask.getLsbD 3 || (px < 8 && !p.mask.getLsbD 1) then (0, p.backdrop)
  else
    let tp := p.tilePos px
    let cy := (Loopy.coarseY p.v).toNat
    let fy := (Loopy.fineY p.v).toNat
    let tile := (ppuRead img m p (tp.base + 32 * cy + tp.cx)).toNat
    let attr := ppuRead img m p (tp.base + 0x3C0 + 8 * (cy / 4) + tp.cx / 4)
    let pt := if p.ctrl.getLsbD 4 then 0x1000 else 0
    let lo := ppuRead img m p (pt + 16 * tile + fy)
    let hi := ppuRead img m p (pt + 16 * tile + fy + 8)
    let ci := colourIndex lo hi (7 - tp.fx)
    (ci, if ci = 0 then p.backdrop else p.resolve (p.palette (4 * paletteId attr tp.cx cy + ci.toNat)))

/-- `Background(s)` (R189): the line's 256 pixels. -/
def backgroundLine (img : Image) (m : Mapper) (p : Ppu) : List (BitVec 2 × Pixel) :=
  (List.range 256).map (backgroundPixel img m p)

/-- Sprite height, 8 or 16 (R190). -/
def Ppu.spriteHeight (p : Ppu) : Nat := if p.ctrl.getLsbD 5 then 16 else 8

/-- Byte `k` of OAM entry `n` (R182). -/
def Ppu.oamByte (p : Ppu) (n k : Nat) : Byte := p.oam.read (4 * n + k)

/-- OAM entry `n` covers line `s` (R190): `0 <= s - (Y + SPRITE_Y_OFFSET) < h`. -/
def Ppu.onLine (yOffset : Nat) (p : Ppu) (s n : Nat) : Bool :=
  let top := (p.oamByte n 0).toNat + yOffset
  top ≤ s && s < top + p.spriteHeight

/-- One entry of the evaluation (R190): the selection so far and the overflow flag. -/
def evaluateOne (yOffset : Nat) (p : Ppu) (s : Nat) (acc : List Nat × Bool) (n : Nat) : List Nat × Bool :=
  if p.onLine yOffset s n then (if acc.1.length < 8 then (acc.1 ++ [n], acc.2) else (acc.1, true)) else acc

/-- `Evaluate(s)` (R190): the selected sprites and the overflow flag. -/
def evaluateLine (yOffset : Nat) (p : Ppu) (s : Nat) : List Nat × Bool :=
  (List.range 64).foldl (evaluateOne yOffset p s) ([], p.ovf)

/-- The picture address of a sprite's pattern row (R191), `row` already flipped. -/
def Ppu.spriteRowAddr (p : Ppu) (tile row : Nat) : Nat :=
  if p.spriteHeight = 8 then (if p.ctrl.getLsbD 3 then 0x1000 else 0) + 16 * tile + row
  else 0x1000 * (tile % 2) + 16 * (tile / 2 * 2 + row / 8) + row % 8

/-- The row of a sprite on line `s`, after the vertical flip (R191). -/
def Ppu.spriteRow (yOffset : Nat) (p : Ppu) (s n : Nat) : Nat :=
  let row := s - ((p.oamByte n 0).toNat + yOffset)
  if (p.oamByte n 2).getLsbD 7 then p.spriteHeight - 1 - row else row

/-- The colour index of column `col` of sprite `n` on line `s` (R191). -/
def spriteIndex (img : Image) (m : Mapper) (yOffset : Nat) (p : Ppu) (s n col : Nat) : BitVec 2 :=
  let addr := p.spriteRowAddr (p.oamByte n 1).toNat (p.spriteRow yOffset s n)
  colourIndex (ppuRead img m p addr) (ppuRead img m p (addr + 8))
    (if (p.oamByte n 2).getLsbD 6 then col else 7 - col)

/-- A line being drawn: its background indices, its pixels, and the sprite-zero flag. -/
structure LineDraw where
  idx  : List (BitVec 2)
  px   : List Pixel
  s0   : Bool

/-- One column of one sprite (R191, R192). -/
def drawColumn (img : Image) (m : Mapper) (yOffset : Nat) (p : Ppu) (s n : Nat) (d : LineDraw) (col : Nat) : LineDraw :=
  let px := (p.oamByte n 3).toNat + col
  let ci := spriteIndex img m yOffset p s n col
  let at' := p.oamByte n 2
  if 255 < px then d
  else if !p.mask.getLsbD 4 || (px < 8 && !p.mask.getLsbD 2) then d
  else if ci = 0 then d
  else
    let bgop := d.idx.getD px 0 != 0
    { d with
      s0 := d.s0 || (n == 0 && bgop && p.mask.getLsbD 3 && p.mask.getLsbD 4)
      px := if !at'.getLsbD 5 || !bgop then
          d.px.set px (p.resolve (p.pal.read (0x10 + 4 * (bitField 2 0 at').toNat + ci.toNat)))
        else d.px }

/-- One sprite, column by column (R191). -/
def drawSprite (img : Image) (m : Mapper) (yOffset : Nat) (p : Ppu) (s : Nat) (d : LineDraw) (n : Nat) : LineDraw :=
  (List.range 8).foldl (drawColumn img m yOffset p s n) d

/-- `Sprites(s)` (R191): the selected sprites, the last selected drawn first. -/
def drawSprites (img : Image) (m : Mapper) (yOffset : Nat) (p : Ppu) (s : Nat) (d : LineDraw) : LineDraw :=
  p.sprites.reverse.foldl (drawSprite img m yOffset p s) d

/-- A line with rendering disabled (R188): the backdrop, no evaluation. -/
def blankLine (s : Nat) (p : Ppu) : Ppu :=
  { p with
    bgidx := Lines.set p.bgidx s (List.replicate 256 0)
    fb := Lines.set p.fb s (List.replicate 256 p.backdrop)
    sprites := [] }

/-- A line with rendering enabled (R188): background, evaluation, sprites. -/
def drawnLine (img : Image) (m : Mapper) (yOffset : Nat) (s : Nat) (p : Ppu) : Ppu :=
  let bg := backgroundLine img m p
  let ev := evaluateLine yOffset p s
  let p1 := { p with sprites := ev.1, ovf := ev.2 }
  let d := drawSprites img m yOffset p1 s { idx := bg.map Prod.fst, px := bg.map Prod.snd, s0 := p1.s0hit }
  { p1 with bgidx := Lines.set p.bgidx s d.idx, fb := Lines.set p.fb s d.px, s0hit := d.s0 }

/-- Rendering line `s` (R188). -/
def renderLine (img : Image) (m : Mapper) (yOffset : Nat) (s : Nat) (p : Ppu) : Ppu :=
  if p.rendering then drawnLine img m yOffset s p else blankLine s p

end Sys2Proof.Machine
end

