-- ==== Sys2Proof/Machine/Ticks.lean ====
section
/-! DEFINITION. One picture-unit tick (R183 to R187), one audio-unit tick (R209 to R211), and many of each. -/

namespace Sys2Proof.Machine

/-- Vblank start (R187): the flag, and the NMI where PPUCTRL bit 7 enables it. -/
def vblankStart (s : State) : State :=
  let s1 := s.setPpu { s.ppu with vblank := true }
  if s.ppu.ctrl.getLsbD 7 then s1.setNmi true else s1

/-- Pre-render cycle 1 (R184): the three status flags cleared. -/
def clearStatus (p : Ppu) : Ppu := { p with vblank := false, s0hit := false, ovf := false }

/-- The events of the current position (R184). Positions differ in their cycle or in their scanline, so at most one line of the
table applies. -/
def pictureEvents (s : State) : State :=
  let p := s.ppu
  let line := p.scanline
  let c := p.cycle
  if c = 0 then
    if 0 ≤ line ∧ line ≤ 239 then s.setPpu (renderLine s.image s.mapper s.params.spriteYOffset line.toNat p) else s
  else if c = 1 then
    if line = -1 then s.setPpu (clearStatus p) else if line = 241 then vblankStart s else s
  else if !p.rendering || 239 < line then s
  else if c = 256 then s.setPpu { p with v := Loopy.incY p.v }
  else if c = 257 then s.setPpu { p with v := Loopy.copyX p.t p.v }
  else if c = 260 then s.setMapper (scanlineTick s.mapper)
  else if line = -1 ∧ 280 ≤ c ∧ c ≤ 304 then s.setPpu { p with v := Loopy.copyY p.t p.v }
  else s

/-- The position advanced (R183, R194): at the frame's end `frame` counts and the frame is put out. -/
def advancePosition (s : State) : State :=
  let p := s.ppu
  if p.cycle + 1 = 341 then
    if p.scanline + 1 = 261 then
      (s.setPpu { p with cycle := 0, scanline := -1, frame := p.frame + 1 }).emit (.frame p.fb)
    else s.setPpu { p with cycle := 0, scanline := p.scanline + 1 }
  else s.setPpu { p with cycle := p.cycle + 1 }

/-- One picture-unit tick (R183). -/
def pictureTick (s : State) : State := advancePosition (pictureEvents s)

/-- `k` picture-unit ticks. -/
def pictureTicks : Nat → State → State
  | 0, s => s
  | k + 1, s => pictureTicks k (pictureTick s)

/-- The DMC's sample reader (R209): a bus read, where it wants a byte. -/
def sampleReader (s : State) : State :=
  if s.apu.dmc.wantsByte then
    let r := busRead s.apu.dmc.curAddr s
    r.2.setApu { r.2.apu with dmc := r.2.apu.dmc.takeByte r.1 }
  else s

/-- The sample counter (R211): every 20th tick puts a sample out. -/
def sampleTick (s : State) : State :=
  if s.apu.sc + 1 = 20 then (s.setApu { s.apu with sc := 0 }).emit (.sample (s.apu.mix s.params))
  else s.setApu { s.apu with sc := s.apu.sc + 1 }

/-- One audio-unit tick (R210): the frame sequencer, the timers with the sample reader, the sample counter. -/
def audioTick (s : State) : State :=
  let s1 := s.setApu ((s.apu.sequencerTick s.params).timersTick s.params)
  sampleTick (sampleReader s1)

/-- `k` audio-unit ticks. -/
def audioTicks : Nat → State → State
  | 0, s => s
  | k + 1, s => audioTicks k (audioTick s)

/-- The device ticks a CPU step of `n` cycles pays for (R217, R218): 3n picture ticks, then n audio ticks. -/
def deviceTicks (n : Nat) (s : State) : State := audioTicks n (pictureTicks (3 * n) s)

end Sys2Proof.Machine
end

