-- ==== Sys2Proof/Machine/Step.lean ====
section
/-! DEFINITION. One step of the machine: one turn of the driving loop (R217); and a word placed where the next step fetches. -/

namespace Sys2Proof.Machine

/-- One turn of the driving loop (R217): the CPU step, then the device ticks its cycles pay for. A halting step counts no cycle
(R150), so no device ticks. -/
def step (s : State) : Host.Outcome State Fault Refusal :=
  match cpuStep s with
  | .next t => .next (deviceTicks (t.cpu.cycles - s.cpu.cycles) t)
  | .fault r => .fault r
  | .refused r => .refused r

/-- The instruction word `w`, numbered as the opcode table numbers it, stored where the next step fetches (log entry 17). -/
def State.withFetchWord (s : State) (nbits w : Nat) : State := placeInstruction (tableBytes nbits w) s

end Sys2Proof.Machine
end

