-- ==== Sys2Proof/Machine/HostIo.lean ====
section
/-! DEFINITION. What the host does between steps (R216, R220, R221), and the driving loop (R217). -/

namespace Sys2Proof.Machine

/-- `setButton(p, id, pressed)` on the machine (R216); `none` is the refusal, which changes nothing. -/
def State.setButton (port id : Nat) (pressed : Bool) (s : State) : Option State :=
  (s.pads.setButton port id pressed).map fun p => s.setPads p

/-- A save state (R220): the whole machine state. The image and the parameters are the launch configuration, and the
environment record is no machine state (log entry 23). The two presence bits are part of its shape: which of the cartridge's
RAMs the machine it was taken from has (R50, R52). -/
structure Snapshot where
  cpu    : Cpu
  ram    : Memory
  ppu    : Ppu
  apu    : Apu
  pads   : Pads
  mapper : Mapper
  hasPrgRam : Bool
  hasChrRam : Bool
deriving DecidableEq, Repr

/-- The cartridge has CHR-RAM (R52). -/
def Image.hasChrRam (img : Image) : Bool := img.nChr == 0

/-- `getSaveState()` (R220): it mutates nothing. -/
def State.getSaveState (s : State) : Snapshot :=
  { cpu := s.cpu, ram := s.ram, ppu := s.ppu, apu := s.apu, pads := s.pads, mapper := s.mapper
    hasPrgRam := s.image.prgRamPresent, hasChrRam := s.image.hasChrRam }

/-- Both are the same mapper variant (R221). -/
def MapperRegs.sameVariant : MapperRegs → MapperRegs → Bool
  | .mapper0, .mapper0 => true
  | .mapper1 _, .mapper1 _ => true
  | .mapper0, .mapper1 _ => false
  | .mapper1 _, .mapper0 => false

/-- The mapper part of a snapshot has this cartridge's shape (R221): the same variant, PRG-RAM and CHR-RAM in both or in neither
(R50, R52), each of its size. -/
def Snapshot.fitsMapper (s : State) (n : Snapshot) : Bool :=
  n.mapper.regs.sameVariant s.mapper.regs && n.hasPrgRam == s.image.prgRamPresent && n.hasChrRam == s.image.hasChrRam
    && n.mapper.prgRam.isArray 0x2000 && n.mapper.chrRam.isArray 0x2000

/-- The picture unit of a snapshot has R167's sizes: three memories, two line buffers, at most 8 sprites, each an OAM index. -/
def Snapshot.fitsPicture (n : Snapshot) : Bool :=
  n.ppu.ntRam.isArray 0x1000 && n.ppu.pal.isArray 0x20 && n.ppu.oam.isArray 0x100 && n.ppu.bgidx.wf && n.ppu.fb.wf
    && n.ppu.sprites.length ≤ 8 && n.ppu.sprites.all (· < 64)

/-- A snapshot has this machine's shape (R221; log entry 23). -/
def Snapshot.fits (s : State) (n : Snapshot) : Bool := n.fitsMapper s && n.fitsPicture && n.ram.isArray 0x800

/-- Every component restored together (R221). -/
def Snapshot.restore (s : State) (n : Snapshot) : State :=
  { s with cpu := n.cpu, ram := n.ram, ppu := n.ppu, apu := n.apu, pads := n.pads, mapper := n.mapper }

/-- `setSaveState(n)` (R221): refused, with nothing changed, where the shape differs, and on a halted machine: `halted` is never
cleared except by a new load (R24, R150), and R217 makes the call only while the machine is not halted. DEDUCED, unsafe (log
entry 25). -/
def State.setSaveState (n : Snapshot) (s : State) : Option State :=
  if s.cpu.halted.isNone && n.fits s then some (n.restore s) else none

/-! ## The driving loop -/

/-- A host input the driving loop allows before a CPU step (R217). -/
inductive HostInput where
  | setButton (port id : Nat) (pressed : Bool)
  | getSaveState
  | setSaveState (n : Snapshot)
deriving DecidableEq, Repr

/-- A machine with its host: the snapshots taken so far, newest first, are the host's. -/
structure Session where
  machine : State
  saved   : List Snapshot
deriving DecidableEq, Repr

/-- One host input (R216, R220, R221): a refused one changes nothing. -/
def HostInput.apply (h : Session) : HostInput → Session
  | .setButton port id pressed => { h with machine := (h.machine.setButton port id pressed).getD h.machine }
  | .getSaveState => { h with saved := h.machine.getSaveState :: h.saved }
  | .setSaveState n => { h with machine := (h.machine.setSaveState n).getD h.machine }

/-- The host inputs of one turn, in their order. -/
def Session.inputs (l : List HostInput) (h : Session) : Session := l.foldl HostInput.apply h

/-- One turn of the driving loop (R217) past its test: the host inputs, then `step`, which is the CPU step with its device ticks.
Where an input restored a halted machine no step exists and no tick happens (R24, R149). -/
def Session.turn (l : List HostInput) (h : Session) : Host.Outcome Session Fault Refusal :=
  if (h.inputs l).machine.cpu.halted.isSome then .next (h.inputs l)
  else match step (h.inputs l).machine with
  | .next t => .next { h.inputs l with machine := t }
  | .fault r => .fault r
  | .refused r => .refused r

/-- The driving loop (R217), one turn for each entry of a list of host inputs: it stops where the machine is halted or
END_CONDITION (open: any predicate) holds, before the turn's inputs. -/
def drive (stop : Session → Bool) : List (List HostInput) → Session → Host.Outcome Session Fault Refusal
  | [], h => .next h
  | l :: rest, h =>
    if h.machine.cpu.halted.isSome || stop h then .next h
    else match h.turn l with
      | .next h' => drive stop rest h'
      | .fault r => .fault r
      | .refused r => .refused r

/-- The output trace in the order the events happened (R219). -/
def State.outputs (s : State) : List Output := s.env.out.reverse

end Sys2Proof.Machine
end

