-- ==== Sys2Proof/Machine/Load.lean ====
section
/-! DEFINITION. Loading a cartridge image (R45 to R50), and the machine a load starts (R222, R223). -/

namespace Sys2Proof.Machine

/-- Why a load is refused (R45, R46, R48, R49): no state is created. -/
inductive LoadError where
  | badSignature
  | noPrg
  | truncated
  | unsupportedMapper (id : Nat)
deriving DecidableEq, Repr

/-- RESET_REGS (R8, R223). -/
structure ResetRegs where
  a : Byte
  x : Byte
  y : Byte
  c : Bool
  z : Bool
  d : Bool
  v : Bool
  n : Bool
deriving DecidableEq, Repr

/-- INIT_MEM (R8): the power-on contents of every RAM. -/
structure InitMem where
  cpuRam : Memory
  prgRam : Memory
  chrRam : Memory
  ntRam  : Memory
  pal    : Memory
  oam    : Memory
deriving DecidableEq, Repr

/-- What a load is given beside the image (R8): every named parameter. -/
structure LaunchParams where
  params     : Params
  resetRegs  : ResetRegs
  /-- RESET_CYCLE_COUNT -/
  resetCycles : Nat
  initMem    : InitMem
  /-- PRG_RAM_PRESENT; `none` is its default, the header's bit (R50) -/
  prgRamPresent : Option Bool
deriving DecidableEq, Repr

/-- RESET_REGS as `State.reset` takes them (log entry 1). -/
def ResetRegs.zero : ResetRegs :=
  { a := 0, x := 0, y := 0, c := false, z := false, d := false, v := false, n := false }

/-- The launch parameters `State.reset` takes: the spec's defaults, and zeros where it gives none (log entries 1, 2, 7). -/
def LaunchParams.default : LaunchParams :=
  { params := .default
    resetRegs := .zero
    resetCycles := 0
    initMem := { cpuRam := [], prgRam := [], chrRam := [], ntRam := [], pal := [], oam := [] }
    prgRamPresent := none }

/-- The header's mirroring mode (R47). -/
def headerMirroring (b6 : Byte) : Mirroring :=
  if b6.getLsbD 3 then .fourScreen else if b6.getLsbD 0 then .vertical else .horizontal

/-- The mapper id (R48). -/
def mapperId (b6 b7 : Byte) : Nat := ((b7 &&& 0xF0#8) ||| (b6 >>> 4)).toNat

/-- The mapper an id selects, at power-on (R48, R57). -/
def mapperOf (id : Nat) : Except LoadError MapperRegs :=
  match id with
  | 0 => .ok .mapper0
  | 1 => .ok (.mapper1 .reset)
  | k => .error (.unsupportedMapper k)

/-- The trainer's length (R45, R46). -/
def trainerLength (b6 : Byte) : Nat := if b6.getLsbD 2 then 512 else 0

/-- The image behind a header whose bytes 4, 6 are given (R45 to R47, R50): the trainer is skipped, bytes past the end ignored. -/
def buildImage (nPrg nChr : Nat) (b6 : Byte) (present : Option Bool) (body : List Byte) : Image :=
  let roms := body.drop (trainerLength b6)
  { nPrg := nPrg
    nChr := nChr
    mirroring := headerMirroring b6
    prgRamPresent := present.getD (b6.getLsbD 1)
    prgRom := Memory.ofBytesFrom 0 (roms.take (0x4000 * nPrg))
    chrRom := Memory.ofBytesFrom 0 ((roms.drop (0x4000 * nPrg)).take (0x2000 * nChr)) }

/-- The image and the mapper of an image file (R45 to R49). Where several errors apply the spec does not say which is reported:
signature, header length, page count, mapper id, body length, in this order (log entry 16). -/
def parseImage (present : Option Bool) (file : List Byte) : Except LoadError (Image × MapperRegs) :=
  if file.take 4 ≠ [0x4E, 0x45, 0x53, 0x1A] then .error .badSignature
  else if file.length < 16 then .error .truncated
  else
    let nPrg := (file.getD 4 0).toNat
    let nChr := (file.getD 5 0).toNat
    let b6 := file.getD 6 0
    if nPrg = 0 then .error .noPrg
    else match mapperOf (mapperId b6 (file.getD 7 0)) with
      | .error e => .error e
      | .ok regs =>
        if file.length < 16 + trainerLength b6 + 0x4000 * nPrg + 0x2000 * nChr then .error .truncated
        else .ok (buildImage nPrg nChr b6 present (file.drop 16), regs)

/-- The machine before the reset vector is read (R222 steps 2 to 4, R223): every part at its reset value. -/
def powerOnBase (img : Image) (regs : MapperRegs) (l : LaunchParams) : State :=
  { cpu := { a := l.resetRegs.a, x := l.resetRegs.x, y := l.resetRegs.y, sp := 0xFD, pc := 0
             flags := { c := l.resetRegs.c, z := l.resetRegs.z, i := true, d := l.resetRegs.d, v := l.resetRegs.v
                        n := l.resetRegs.n }
             cycles := l.resetCycles, extra := 0, nmiPending := false, halted := none }
    ram := l.initMem.cpuRam
    image := img
    mapper := { regs := regs, prgRam := l.initMem.prgRam, chrRam := l.initMem.chrRam }
    ppu := { Ppu.reset with ntRam := l.initMem.ntRam, pal := l.initMem.pal, oam := l.initMem.oam }
    apu := .reset
    pads := .reset
    params := l.params
    env := .reset }

/-- The reset vector's address (R43, R223). -/
def resetVector : Word := 0xFFFC

/-- The machine a load starts (R222, R223): PC from the reset vector, read through the mapper; nothing pushed, no tick. -/
def powerOn (img : Image) (regs : MapperRegs) (l : LaunchParams) : State :=
  let r := busRead16 resetVector (powerOnBase img regs l)
  r.2.setPc r.1

/-- The load (R222): an error creates no state (R49); a load replaces any earlier machine wholly. -/
def load (l : LaunchParams) (file : List Byte) : Except LoadError State :=
  match parseImage l.prgRamPresent file with
  | .error e => .error e
  | .ok (img, regs) => .ok (powerOn img regs l)

end Sys2Proof.Machine
end

