-- ==== Sys2Proof/WellFormed.lean ====
section
/-! DEFINITION. Well-formedness of what comes from outside the machine: instructions and the launch parameters. -/

namespace Sys2Proof

/-- Every term of `Instr` is well formed. The operand widths are carried by the types (R67: no register field, no other
operand encoding), and no operand value is reserved (R71), so there is nothing left to check. -/
def Instr.wf (_ : Instr) : Bool := true

namespace Machine

/-- A frame-sequencer mode counts to a positive wrap, and its events lie strictly between 0 and the wrap. R200's defaults do; the
spec gives the parameter no other domain: DESIGN CHOICE, unsafe (log entry 27). -/
def SeqMode.wf (m : SeqMode) : Bool :=
  m.wrap != 0 && m.events.all fun e => 0 < e.1 && e.1 < m.wrap

/-- A table of 16 periods, each at least one CPU cycle (R197, R208, R209). -/
def periodsWf (ps : List Nat) : Bool := ps.length == 16 && ps.all (0 < ·)

/-- The domains of the named parameters (93_implementation_defined.md section 3). -/
def Params.wf (p : Params) : Bool :=
  p.spriteYOffset ≤ 1 && p.seq4.wf && p.seq5.wf && periodsWf p.noisePeriods && periodsWf p.dmcRates

end Machine

end Sys2Proof
end

