-- ==== Sys2Proof/Safety.lean ====
section
/-! DEFINITION. The terms claims use: the machine invariant, a byte of memory by its physical place, what a bus write stores to,
and what a meaning leaves alone. -/

namespace Sys2Proof.Machine

/-- The image is one a load can build (R46): at least one PRG page, ROMs of their sizes. -/
structure Image.Wf (img : Image) : Prop where
  nPrg   : 0 < img.nPrg
  prgRom : img.prgRom.isArray (0x4000 * img.nPrg) = true
  chrRom : img.chrRom.isArray (0x2000 * img.nChr) = true

/-- Mapper 1's shift register holds its sentinel (R57, R58); mapper 0 has no register. -/
def MapperRegs.Wf : MapperRegs → Prop
  | .mapper0 => True
  | .mapper1 r => r.sr ≠ 0

/-- PRG-RAM and CHR-RAM are 8 KB arrays (R50, R52), and the registers are well formed. -/
structure Mapper.Wf (m : Mapper) : Prop where
  prgRam : m.prgRam.isArray 0x2000 = true
  chrRam : m.chrRam.isArray 0x2000 = true
  regs   : m.regs.Wf

/-- The picture unit's memories have their sizes, its position is on the frame, at most 8 sprites are selected (R167). -/
structure Ppu.Wf (p : Ppu) : Prop where
  ntRam    : p.ntRam.isArray 0x1000 = true
  pal      : p.pal.isArray 0x20 = true
  oam      : p.oam.isArray 0x100 = true
  cycle    : p.cycle ≤ 340
  lineLow  : -1 ≤ p.scanline
  lineHigh : p.scanline ≤ 260
  bgidx    : p.bgidx.wf = true
  fb       : p.fb.wf = true
  sprites  : p.sprites.length ≤ 8
  entries  : ∀ n ∈ p.sprites, n < 64

/-- The position as one number, 0 at the start of the pre-render line: R183 counts it modulo 262 × 341. -/
def Ppu.position (p : Ppu) : Nat := (p.scanline + 1).toNat * 341 + p.cycle

/-- A frame's length (R183). -/
def frameTicks : Nat := 262 * 341

/-- The audio unit's counters are in range (R205, R207, R209, R200, R211), a disabled channel's length counter is 0 (R198), the
noise register is not 0 (R208), and the DMC's addresses lie in mapper space (R209). -/
structure Apu.Wf (ps : Params) (a : Apu) : Prop where
  pulse1    : a.pulse1.ct < 4096
  pulse2    : a.pulse2.ct < 4096
  triangle  : a.triangle.ct < 2048
  noise     : a.noise.sr ≠ 0
  len1      : a.pulse1.enabled = false → a.pulse1.len = 0
  len2      : a.pulse2.enabled = false → a.pulse2.len = 0
  lenTri    : a.triangle.enabled = false → a.triangle.len = 0
  lenNoise  : a.noise.enabled = false → a.noise.len = 0
  bitsLow   : 1 ≤ a.dmc.bitsLeft
  bitsHigh  : a.dmc.bitsLeft ≤ 8
  cur       : 0x8000 ≤ a.dmc.curAddr.toNat
  sample    : 0xC000 ≤ a.dmc.sampleAddr.toNat
  sampleLen : 1 ≤ a.dmc.sampleLen.toNat
  fs        : a.fs < (a.schedule ps).wrap
  sc        : a.sc < 20

/-- While the strobe is 1 both shift registers hold their buttons (R214). -/
def Pads.Wf (p : Pads) : Prop :=
  p.strobe = true → p.pad0.csr = p.pad0.buttons ∧ p.pad1.csr = p.pad1.buttons

/-- Everything but the CPU is well formed. -/
structure State.Wf (s : State) : Prop where
  params : s.params.wf = true
  image  : s.image.Wf
  ram    : s.ram.isArray 0x800 = true
  mapper : s.mapper.Wf
  ppu    : s.ppu.Wf
  apu    : s.apu.Wf s.params
  pads   : s.pads.Wf

/-- The machine invariant between steps: everything well formed, no pending extra cycle (R21), and PC at the opcode that halted
the machine (R150). -/
structure State.Inv (s : State) : Prop where
  wf     : s.Wf
  extra  : s.cpu.extra = 0
  halted : ∀ h, s.cpu.halted = some h → s.cpu.pc = h.addr

/-- The 8-bit registers (R9 to R11). -/
inductive Reg where
  | a
  | x
  | y
  | sp
deriving DecidableEq, Repr

/-- The status flags (R13). -/
inductive Flag where
  | c
  | z
  | i
  | d
  | v
  | n
deriving DecidableEq, Repr

/-- A register's value. -/
def State.reg (s : State) : Reg → Byte
  | .a => s.cpu.a
  | .x => s.cpu.x
  | .y => s.cpu.y
  | .sp => s.cpu.sp

/-- A flag's value. -/
def State.flag (s : State) : Flag → Bool
  | .c => s.cpu.flags.c
  | .z => s.cpu.flags.z
  | .i => s.cpu.flags.i
  | .d => s.cpu.flags.d
  | .v => s.cpu.flags.v
  | .n => s.cpu.flags.n

/-- A byte of memory, by the array it is in and its index there. -/
inductive Cell where
  | ram (i : Nat)
  | prgRam (i : Nat)
  | chrRam (i : Nat)
  | ntRam (i : Nat)
  | pal (i : Nat)
  | oam (i : Nat)
  | prgRom (i : Nat)
  | chrRom (i : Nat)
deriving DecidableEq, Repr

/-- The byte a cell holds. -/
def State.byteAt (s : State) : Cell → Byte
  | .ram i => s.ram.read i
  | .prgRam i => s.mapper.prgRam.read i
  | .chrRam i => s.mapper.chrRam.read i
  | .ntRam i => s.ppu.ntRam.read i
  | .pal i => s.ppu.pal.read i
  | .oam i => s.ppu.oam.read i
  | .prgRom i => s.image.prgRom.read i
  | .chrRom i => s.image.chrRom.read i

/-- A CPU address that decodes to picture register `n` (R29). -/
def isPictureReg (n : Nat) (addr : Word) : Prop := 0x2000 ≤ addr.toNat ∧ addr.toNat < 0x4000 ∧ addr.toNat % 8 = n

/-- The cells a CPU bus write at `addr` stores to (R27, R28, R50, R175, R178, R179, R41). -/
def StoresTo (addr : Word) (s : State) : Cell → Prop
  | .ram i => addr.toNat < 0x2000 ∧ i = addr.toNat % 0x800
  | .prgRam i =>
    0x6000 ≤ addr.toNat ∧ addr.toNat < 0x8000 ∧ s.image.prgRamPresent = true ∧ i = addr.toNat - 0x6000
  | .chrRam i =>
    isPictureReg 7 addr ∧ s.ppu.dataAddr < 0x2000 ∧ s.image.nChr = 0 ∧ i = chrIndex s.image s.mapper.regs s.ppu.dataAddr
  | .ntRam i =>
    isPictureReg 7 addr ∧ 0x2000 ≤ s.ppu.dataAddr ∧ s.ppu.dataAddr < 0x3F00
      ∧ i = nametableCell (mirroringOf s.image s.mapper.regs) s.ppu.dataAddr
  | .pal i => isPictureReg 7 addr ∧ 0x3F00 ≤ s.ppu.dataAddr ∧ i = paletteAlias (s.ppu.dataAddr % 0x20)
  | .oam i => (isPictureReg 4 addr ∧ i = s.ppu.oamaddr.toNat) ∨ (addr = 0x4014 ∧ i < 0x100)
  | .prgRom _ => False
  | .chrRom _ => False

/-- Every byte of memory outside `stored` reads as before. -/
def MemFrame (stored : Cell → Prop) (s t : State) : Prop := ∀ c, ¬ stored c → t.byteAt c = s.byteAt c

/-- No cell: what an instruction stores to that stores nothing. -/
def NoCell (_ : Cell) : Prop := False

/-- The CPU's registers and flags but those listed are unchanged, and the halt record. PC, `cycles`, `extra` and the NMI latch
are said apart. -/
def CpuFrame (regs : List Reg) (flags : List Flag) (s t : State) : Prop :=
  (∀ r, r ∉ regs → t.reg r = s.reg r) ∧ (∀ f, f ∉ flags → t.flag f = s.flag f) ∧ t.cpu.halted = s.cpu.halted

/-- The launch configuration is unchanged (R25). -/
def LaunchFrame (s t : State) : Prop := t.image = s.image ∧ t.params = s.params

/-- The cartridge, the three devices, the NMI latch, the environment's record and the launch configuration are unchanged. -/
def RestFrame (s t : State) : Prop :=
  t.mapper = s.mapper ∧ t.ppu = s.ppu ∧ t.apu = s.apu ∧ t.pads = s.pads
    ∧ t.cpu.nmiPending = s.cpu.nmiPending ∧ t.env = s.env ∧ LaunchFrame s t

/-- Everything outside the CPU's registers and flags is unchanged: CPU RAM and what `RestFrame` lists. -/
def DeviceFrame (s t : State) : Prop := t.ram = s.ram ∧ RestFrame s t

/-- The operand bytes of a memory mode, as they follow the opcode (R67, R68). -/
def MemMode.operandBytes : MemMode → List Byte
  | .zp b => [b]
  | .zpx b => [b]
  | .zpy b => [b]
  | .abs a => wordBytes a
  | .absx a => wordBytes a
  | .absy a => wordBytes a
  | .indx b => [b]
  | .indy b => [b]

/-- The operand bytes of a value mode (R67, R68). -/
def ValueMode.operandBytes : ValueMode → List Byte
  | .imm v => [v]
  | .mem m => m.operandBytes

/-- `Value()` (R87): the immediate byte, or the byte one bus read of the effective address gives. -/
def ValueMode.value (m : ValueMode) (s : State) : Byte :=
  match m with
  | .imm v => v
  | .mem mm => peek (mm.ea s) s

/-- The state `Value()` leaves (R87): the read's side effect, and nothing at all for an immediate. -/
def ValueMode.after (m : ValueMode) (s : State) : State :=
  match m with
  | .imm _ => s
  | .mem mm => (busRead (mm.ea s) s).2

/-- The CPU step ends having cost `n` cycles on top of what was pending when the meaning began (R20, R21, R89). -/
def Costs (n : Nat) (s t : State) : Prop := t.cpu.cycles = s.cpu.cycles + s.cpu.extra + n ∧ t.cpu.extra = 0

/-- `SetZN(r)` was performed (R17): Z says the result is 0, N is its bit 7. -/
def ZnOf (r : Byte) (t : State) : Prop := t.cpu.flags.z = decide (r = 0) ∧ t.cpu.flags.n = decide (128 ≤ r.toNat)

/-- What an instruction of operand kind "value" leaves: no register or flag but those listed, PC at `PC_next`, the devices as the
operand's one read leaves them (R87), no byte of memory stored, the opcode's base count and the page-cross penalty (R88). -/
def ReadsOnly (regs : List Reg) (flags : List Flag) (m : ValueMode) (base : Nat) (s t : State) : Prop :=
  CpuFrame regs flags s t ∧ t.cpu.pc = s.cpu.pc ∧ DeviceFrame (m.after s) t ∧ MemFrame NoCell s t
    ∧ Costs (base + m.penalty s) s t

/-- What an instruction leaves that touches registers and flags only: those listed, `n` cycles, nothing else. -/
def RegistersOnly (regs : List Reg) (flags : List Flag) (n : Nat) (s t : State) : Prop :=
  CpuFrame regs flags s t ∧ DeviceFrame s t ∧ MemFrame NoCell s t ∧ Costs n s t

/-- What an instruction leaves whose last access is `MemWrite(addr, 1, v)` (R32) in state `u`: no register or flag but the flags
listed, PC at `PC_next`, the devices as the write leaves them, no byte stored but where `addr` decodes to (R27), and, where that is
CPU RAM, the byte `v` there (R28). -/
def StoresByte (flags : List Flag) (base : Nat) (addr : Word) (v : Byte) (u s t : State) : Prop :=
  CpuFrame [] flags s t ∧ t.cpu.pc = s.cpu.pc ∧ DeviceFrame (busWrite base addr v u) t ∧ MemFrame (StoresTo addr u) s t
    ∧ (s.ram.wf = true → addr.toNat < 0x2000 → t.byteAt (.ram (addr.toNat % 0x800)) = v)
    ∧ t.cpu.cycles = s.cpu.cycles + base + (busWrite base addr v u).cpu.extra ∧ t.cpu.extra = 0

/-- The cell of the stack byte `k` places above the address `SP` names, wrapping inside page 1 (R11, R18, R19). -/
def stackCell (s : State) (k : Nat) : Cell := .ram (0x100 + (s.cpu.sp.toNat + k) % 256)

/-- What an instruction leaves that pushes the bytes at the cells listed: no device but CPU RAM touched (R18, R43). -/
def PushesOnly (regs : List Reg) (flags : List Flag) (cells : List Cell) (n : Nat) (s t : State) : Prop :=
  CpuFrame regs flags s t ∧ RestFrame s t ∧ MemFrame (· ∈ cells) s t ∧ Costs n s t

end Sys2Proof.Machine
end

