-- ==== Sys2Proof/Certificates/Slice0/Obligations.lean ====
section
/-! DEFINITION. The statements for the provers, from the numbered rules of spec/. In the statements about instructions the state
`s` is the one a meaning begins in: PC at `PC_next` (R73). -/

set_option maxRecDepth 4000

namespace Sys2Proof.Machine

/-- `i` is encoded `op` and the mode's operand bytes, completes, puts `Value()` in register `r`, performs `SetZN`, and changes
nothing else. -/
def Loads (r : Reg) (m : ValueMode) (i : Instr) (op : Byte) (base : Nat) (s : State) : Prop :=
  encode i = op :: m.operandBytes ∧ ∃ t, exec i s = .next t ∧
    t.reg r = m.value s ∧ ZnOf (m.value s) t ∧ ReadsOnly [r] [.z, .n] m base s t

end Sys2Proof.Machine

open Sys2Proof Sys2Proof.Machine

/-- R90, R91, R92: LDA, LDX and LDY complete in every mode with the operand in the register, Z and N from it. -/
def Obligations.LoadsSetRegisterAndZN : Prop :=
  ∀ (s : State) (b : Byte) (w : Word),
    Loads .a (.mem (.indx b)) (.ldaIndx b) 0xA1 6 s ∧
    Loads .a (.mem (.zp b)) (.ldaZp b) 0xA5 3 s ∧
    Loads .a (.imm b) (.ldaImm b) 0xA9 2 s ∧
    Loads .a (.mem (.abs w)) (.ldaAbs w) 0xAD 4 s ∧
    Loads .a (.mem (.indy b)) (.ldaIndy b) 0xB1 5 s ∧
    Loads .a (.mem (.zpx b)) (.ldaZpx b) 0xB5 4 s ∧
    Loads .a (.mem (.absy w)) (.ldaAbsy w) 0xB9 4 s ∧
    Loads .a (.mem (.absx w)) (.ldaAbsx w) 0xBD 4 s ∧
    Loads .x (.imm b) (.ldxImm b) 0xA2 2 s ∧
    Loads .x (.mem (.zp b)) (.ldxZp b) 0xA6 3 s ∧
    Loads .x (.mem (.abs w)) (.ldxAbs w) 0xAE 4 s ∧
    Loads .x (.mem (.zpy b)) (.ldxZpy b) 0xB6 4 s ∧
    Loads .x (.mem (.absy w)) (.ldxAbsy w) 0xBE 4 s ∧
    Loads .y (.imm b) (.ldyImm b) 0xA0 2 s ∧
    Loads .y (.mem (.zp b)) (.ldyZp b) 0xA4 3 s ∧
    Loads .y (.mem (.abs w)) (.ldyAbs w) 0xAC 4 s ∧
    Loads .y (.mem (.zpx b)) (.ldyZpx b) 0xB4 4 s ∧
    Loads .y (.mem (.absx w)) (.ldyAbsx w) 0xBC 4 s

namespace Sys2Proof.Machine

/-- `i` completes and writes register `r` to the effective address, which it does not read. -/
def Stores (r : Reg) (m : MemMode) (i : Instr) (op : Byte) (base : Nat) (s : State) : Prop :=
  encode i = op :: m.operandBytes ∧ ∃ t, exec i s = .next t ∧ StoresByte [] base (m.ea s) (s.reg r) s s t

end Sys2Proof.Machine

/-- R93, R94, R95: STA, STX and STY complete in every mode, write the register to the effective address and change no flag. -/
def Obligations.StoresWriteEffectiveAddress : Prop :=
  ∀ (s : State) (b : Byte) (w : Word),
    Stores .a (.indx b) (.staIndx b) 0x81 6 s ∧
    Stores .a (.zp b) (.staZp b) 0x85 3 s ∧
    Stores .a (.abs w) (.staAbs w) 0x8D 4 s ∧
    Stores .a (.indy b) (.staIndy b) 0x91 6 s ∧
    Stores .a (.zpx b) (.staZpx b) 0x95 4 s ∧
    Stores .a (.absy w) (.staAbsy w) 0x99 5 s ∧
    Stores .a (.absx w) (.staAbsx w) 0x9D 5 s ∧
    Stores .x (.zp b) (.stxZp b) 0x86 3 s ∧
    Stores .x (.abs w) (.stxAbs w) 0x8E 4 s ∧
    Stores .x (.zpy b) (.stxZpy b) 0x96 4 s ∧
    Stores .y (.zp b) (.styZp b) 0x84 3 s ∧
    Stores .y (.abs w) (.styAbs w) 0x8C 4 s ∧
    Stores .y (.zpx b) (.styZpx b) 0x94 4 s

namespace Sys2Proof.Machine

/-- `i` completes in 2 cycles, copies register `src` to `dst`, performs `SetZN`, and changes nothing else. -/
def Transfers (src dst : Reg) (i : Instr) (op : Byte) (s : State) : Prop :=
  encode i = [op] ∧ ∃ t, exec i s = .next t ∧
    t.reg dst = s.reg src ∧ ZnOf (s.reg src) t ∧ t.cpu.pc = s.cpu.pc ∧ RegistersOnly [dst] [.z, .n] 2 s t

end Sys2Proof.Machine

/-- R96 to R101: TAX, TAY, TSX, TXA, TYA copy the register and set Z, N; TXS copies X to SP and writes no flag. -/
def Obligations.TransfersCopyRegister : Prop :=
  ∀ s : State,
    Transfers .a .x .tax 0xAA s ∧ Transfers .a .y .tay 0xA8 s ∧ Transfers .sp .x .tsx 0xBA s ∧
    Transfers .x .a .txa 0x8A s ∧ Transfers .y .a .tya 0x98 s ∧
    encode .txs = [0x9A] ∧ ∃ t, exec .txs s = .next t ∧
      t.cpu.sp = s.cpu.x ∧ t.cpu.pc = s.cpu.pc ∧ RegistersOnly [.sp] [] 2 s t

namespace Sys2Proof.Machine

/-- `i` completes and adds `g` of `Value()` and C to A: the exact sum mod 256 into A, C where it exceeds 255, V where both inputs
have one sign and the result the other, Z and N from the result; nothing else changes. D is not looked at. -/
def AddsToA (g : Byte → Byte) (m : ValueMode) (i : Instr) (op : Byte) (base : Nat) (s : State) : Prop :=
  encode i = op :: m.operandBytes ∧ ∃ t, exec i s = .next t ∧
    let sum := s.cpu.a.toNat + (g (m.value s)).toNat + s.cpu.flags.c.toNat
    t.cpu.a.toNat = sum % 256 ∧ t.cpu.flags.c = decide (255 < sum) ∧
    t.cpu.flags.v = decide ((s.cpu.a.toNat < 128 ↔ (g (m.value s)).toNat < 128)
      ∧ ¬ (s.cpu.a.toNat < 128 ↔ t.cpu.a.toNat < 128)) ∧
    ZnOf t.cpu.a t ∧ ReadsOnly [.a] [.c, .z, .v, .n] m base s t

end Sys2Proof.Machine

/-- R104: ADC completes in every mode with the sum, C, V, Z and N of the rule. -/
def Obligations.AdcAddsWithCarry : Prop :=
  ∀ (s : State) (b : Byte) (w : Word),
    AddsToA id (.mem (.indx b)) (.adcIndx b) 0x61 6 s ∧
    AddsToA id (.mem (.zp b)) (.adcZp b) 0x65 3 s ∧
    AddsToA id (.imm b) (.adcImm b) 0x69 2 s ∧
    AddsToA id (.mem (.abs w)) (.adcAbs w) 0x6D 4 s ∧
    AddsToA id (.mem (.indy b)) (.adcIndy b) 0x71 5 s ∧
    AddsToA id (.mem (.zpx b)) (.adcZpx b) 0x75 4 s ∧
    AddsToA id (.mem (.absy w)) (.adcAbsy w) 0x79 4 s ∧
    AddsToA id (.mem (.absx w)) (.adcAbsx w) 0x7D 4 s

/-- R105: SBC completes in every mode as ADC of the operand's one's complement. -/
def Obligations.SbcSubtractsWithBorrow : Prop :=
  ∀ (s : State) (b : Byte) (w : Word),
    AddsToA (255 - ·) (.mem (.indx b)) (.sbcIndx b) 0xE1 6 s ∧
    AddsToA (255 - ·) (.mem (.zp b)) (.sbcZp b) 0xE5 3 s ∧
    AddsToA (255 - ·) (.imm b) (.sbcImm b) 0xE9 2 s ∧
    AddsToA (255 - ·) (.mem (.abs w)) (.sbcAbs w) 0xED 4 s ∧
    AddsToA (255 - ·) (.mem (.indy b)) (.sbcIndy b) 0xF1 5 s ∧
    AddsToA (255 - ·) (.mem (.zpx b)) (.sbcZpx b) 0xF5 4 s ∧
    AddsToA (255 - ·) (.mem (.absy w)) (.sbcAbsy w) 0xF9 4 s ∧
    AddsToA (255 - ·) (.mem (.absx w)) (.sbcAbsx w) 0xFD 4 s

/-- R102, R104, R105 read as signed numbers: V says that the exact signed sum (difference) does not fit in 8 bits, and C of SBC
says that no borrow was needed. -/
def Obligations.OverflowIsSignedOverflow : Prop :=
  ∀ (s : State) (v : Byte),
    (∃ t, exec (.adcImm v) s = .next t ∧
      let e : Int := s.cpu.a.toInt + v.toInt + s.cpu.flags.c.toNat
      (t.cpu.flags.v = decide (e < -128 ∨ 127 < e)) ∧ (t.cpu.flags.v = false → t.cpu.a.toInt = e)) ∧
    (∃ t, exec (.sbcImm v) s = .next t ∧
      let e : Int := s.cpu.a.toInt - v.toInt - (1 - s.cpu.flags.c.toNat)
      (t.cpu.flags.v = decide (e < -128 ∨ 127 < e)) ∧ (t.cpu.flags.v = false → t.cpu.a.toInt = e) ∧
      t.cpu.flags.c = decide (v.toNat + (1 - s.cpu.flags.c.toNat) ≤ s.cpu.a.toNat))

/-- R103: ADC and SBC compute the same whatever D holds: from two states that differ in D alone, the results differ in D alone. -/
def Obligations.DecimalFlagIgnored : Prop :=
  ∀ (s : State) (d : Bool) (v : Byte) (i : Instr), i = .adcImm v ∨ i = .sbcImm v →
    ∃ t, exec i s = .next t ∧
      exec i (s.setFlags { s.cpu.flags with d := d }) = .next (t.setFlags { t.cpu.flags with d := d })

namespace Sys2Proof.Machine

/-- `i` completes and puts `f` of A and `Value()` in A, performs `SetZN`, and changes nothing else. -/
def Combines (f : Byte → Byte → Byte) (m : ValueMode) (i : Instr) (op : Byte) (base : Nat) (s : State) : Prop :=
  encode i = op :: m.operandBytes ∧ ∃ t, exec i s = .next t ∧
    t.cpu.a = f s.cpu.a (m.value s) ∧ ZnOf (f s.cpu.a (m.value s)) t ∧ ReadsOnly [.a] [.z, .n] m base s t

end Sys2Proof.Machine

/-- R106, R107, R108: AND, ORA and EOR complete in every mode with the bitwise result in A, Z and N from it. -/
def Obligations.LogicCombinesAccumulator : Prop :=
  ∀ (s : State) (b : Byte) (w : Word),
    Combines (· &&& ·) (.mem (.indx b)) (.andIndx b) 0x21 6 s ∧
    Combines (· &&& ·) (.mem (.zp b)) (.andZp b) 0x25 3 s ∧
    Combines (· &&& ·) (.imm b) (.andImm b) 0x29 2 s ∧
    Combines (· &&& ·) (.mem (.abs w)) (.andAbs w) 0x2D 4 s ∧
    Combines (· &&& ·) (.mem (.indy b)) (.andIndy b) 0x31 5 s ∧
    Combines (· &&& ·) (.mem (.zpx b)) (.andZpx b) 0x35 4 s ∧
    Combines (· &&& ·) (.mem (.absy w)) (.andAbsy w) 0x39 4 s ∧
    Combines (· &&& ·) (.mem (.absx w)) (.andAbsx w) 0x3D 4 s ∧
    Combines (· ||| ·) (.mem (.indx b)) (.oraIndx b) 0x01 6 s ∧
    Combines (· ||| ·) (.mem (.zp b)) (.oraZp b) 0x05 3 s ∧
    Combines (· ||| ·) (.imm b) (.oraImm b) 0x09 2 s ∧
    Combines (· ||| ·) (.mem (.abs w)) (.oraAbs w) 0x0D 4 s ∧
    Combines (· ||| ·) (.mem (.indy b)) (.oraIndy b) 0x11 5 s ∧
    Combines (· ||| ·) (.mem (.zpx b)) (.oraZpx b) 0x15 4 s ∧
    Combines (· ||| ·) (.mem (.absy w)) (.oraAbsy w) 0x19 4 s ∧
    Combines (· ||| ·) (.mem (.absx w)) (.oraAbsx w) 0x1D 4 s ∧
    Combines (· ^^^ ·) (.mem (.indx b)) (.eorIndx b) 0x41 6 s ∧
    Combines (· ^^^ ·) (.mem (.zp b)) (.eorZp b) 0x45 3 s ∧
    Combines (· ^^^ ·) (.imm b) (.eorImm b) 0x49 2 s ∧
    Combines (· ^^^ ·) (.mem (.abs w)) (.eorAbs w) 0x4D 4 s ∧
    Combines (· ^^^ ·) (.mem (.indy b)) (.eorIndy b) 0x51 5 s ∧
    Combines (· ^^^ ·) (.mem (.zpx b)) (.eorZpx b) 0x55 4 s ∧
    Combines (· ^^^ ·) (.mem (.absy w)) (.eorAbsy w) 0x59 4 s ∧
    Combines (· ^^^ ·) (.mem (.absx w)) (.eorAbsx w) 0x5D 4 s

namespace Sys2Proof.Machine

/-- `i` completes and sets Z from `A & m`, N and V from bits 7 and 6 of the operand; nothing else changes. -/
def TestsBits (m : ValueMode) (i : Instr) (op : Byte) (base : Nat) (s : State) : Prop :=
  encode i = op :: m.operandBytes ∧ ∃ t, exec i s = .next t ∧
    t.cpu.flags.z = decide (s.cpu.a &&& m.value s = 0) ∧ t.cpu.flags.n = (m.value s).getLsbD 7 ∧
    t.cpu.flags.v = (m.value s).getLsbD 6 ∧ ReadsOnly [] [.z, .v, .n] m base s t

end Sys2Proof.Machine

/-- R109: BIT completes in both modes; N and V come from the operand, and A is unchanged. -/
def Obligations.BitTestsOperand : Prop :=
  ∀ (s : State) (b : Byte) (w : Word),
    TestsBits (.mem (.zp b)) (.bitZp b) 0x24 3 s ∧
    TestsBits (.mem (.abs w)) (.bitAbs w) 0x2C 4 s

namespace Sys2Proof.Machine

/-- `i` completes and compares register `r` with `Value()`, unsigned: C, and Z and N from the difference; nothing else changes. -/
def Compares (r : Reg) (m : ValueMode) (i : Instr) (op : Byte) (base : Nat) (s : State) : Prop :=
  encode i = op :: m.operandBytes ∧ ∃ t, exec i s = .next t ∧
    t.cpu.flags.c = decide ((m.value s).toNat ≤ (s.reg r).toNat) ∧
    ZnOf (BitVec.ofNat 8 ((s.reg r).toNat + 256 - (m.value s).toNat)) t ∧ ReadsOnly [] [.c, .z, .n] m base s t

end Sys2Proof.Machine

/-- R110, R111, R112: CMP, CPX and CPY complete in every mode with C, Z and N of the unsigned comparison. -/
def Obligations.ComparesSetCarryAndZN : Prop :=
  ∀ (s : State) (b : Byte) (w : Word),
    Compares .a (.mem (.indx b)) (.cmpIndx b) 0xC1 6 s ∧
    Compares .a (.mem (.zp b)) (.cmpZp b) 0xC5 3 s ∧
    Compares .a (.imm b) (.cmpImm b) 0xC9 2 s ∧
    Compares .a (.mem (.abs w)) (.cmpAbs w) 0xCD 4 s ∧
    Compares .a (.mem (.indy b)) (.cmpIndy b) 0xD1 5 s ∧
    Compares .a (.mem (.zpx b)) (.cmpZpx b) 0xD5 4 s ∧
    Compares .a (.mem (.absy w)) (.cmpAbsy w) 0xD9 4 s ∧
    Compares .a (.mem (.absx w)) (.cmpAbsx w) 0xDD 4 s ∧
    Compares .x (.imm b) (.cpxImm b) 0xE0 2 s ∧
    Compares .x (.mem (.zp b)) (.cpxZp b) 0xE4 3 s ∧
    Compares .x (.mem (.abs w)) (.cpxAbs w) 0xEC 4 s ∧
    Compares .y (.imm b) (.cpyImm b) 0xC0 2 s ∧
    Compares .y (.mem (.zp b)) (.cpyZp b) 0xC4 3 s ∧
    Compares .y (.mem (.abs w)) (.cpyAbs w) 0xCC 4 s

namespace Sys2Proof.Machine

/-- `i` completes with exactly one read and then one write at the effective address, of `f` of the byte read; Z and N from it. -/
def CountsMemory (f : Nat → Nat) (m : MemMode) (i : Instr) (op : Byte) (base : Nat) (s : State) : Prop :=
  encode i = op :: m.operandBytes ∧ ∃ t, exec i s = .next t ∧
    let r := BitVec.ofNat 8 (f (peek (m.ea s) s).toNat)
    ZnOf r t ∧ StoresByte [.z, .n] base (m.ea s) r (busRead (m.ea s) s).2 s t

end Sys2Proof.Machine

/-- R113, R114: INC and DEC complete in every mode: the byte at the effective address counted mod 256, Z and N from it. -/
def Obligations.IncDecCountMemory : Prop :=
  ∀ (s : State) (b : Byte) (w : Word),
    CountsMemory (· + 1) (.zp b) (.incZp b) 0xE6 5 s ∧
    CountsMemory (· + 1) (.abs w) (.incAbs w) 0xEE 6 s ∧
    CountsMemory (· + 1) (.zpx b) (.incZpx b) 0xF6 6 s ∧
    CountsMemory (· + 1) (.absx w) (.incAbsx w) 0xFE 7 s ∧
    CountsMemory (· + 255) (.zp b) (.decZp b) 0xC6 5 s ∧
    CountsMemory (· + 255) (.abs w) (.decAbs w) 0xCE 6 s ∧
    CountsMemory (· + 255) (.zpx b) (.decZpx b) 0xD6 6 s ∧
    CountsMemory (· + 255) (.absx w) (.decAbsx w) 0xDE 7 s

namespace Sys2Proof.Machine

/-- `i` completes in 2 cycles and counts register `r` mod 256; Z and N from it; nothing else changes. -/
def CountsRegister (r : Reg) (f : Nat → Nat) (i : Instr) (op : Byte) (s : State) : Prop :=
  encode i = [op] ∧ ∃ t, exec i s = .next t ∧
    (t.reg r).toNat = f (s.reg r).toNat % 256 ∧ ZnOf (t.reg r) t ∧ t.cpu.pc = s.cpu.pc ∧
    RegistersOnly [r] [.z, .n] 2 s t

end Sys2Proof.Machine

/-- R115 to R118: INX, INY, DEX, DEY count the register mod 256, Z and N from it, C unchanged. -/
def Obligations.RegisterCountsWrap : Prop :=
  ∀ s : State,
    CountsRegister .x (· + 1) .inx 0xE8 s ∧ CountsRegister .y (· + 1) .iny 0xC8 s ∧
    CountsRegister .x (· + 255) .dex 0xCA s ∧ CountsRegister .y (· + 255) .dey 0x88 s

namespace Sys2Proof.Machine

/-- The result and the new carry of a shift, from the byte and the old carry as numbers. -/
structure ShiftRule where
  result : Nat → Nat → Nat
  carry  : Nat → Bool

/-- `C <- v[7]; r <- (v << 1) & 0xFF` (R119). -/
def aslRule : ShiftRule := { result := fun v _ => 2 * v % 256, carry := fun v => 128 ≤ v }
/-- `C <- v[0]; r <- v >> 1` (R120). -/
def lsrRule : ShiftRule := { result := fun v _ => v / 2, carry := fun v => v % 2 = 1 }
/-- `C <- v[7]; r <- ((v << 1) | c_in) & 0xFF` (R121). -/
def rolRule : ShiftRule := { result := fun v c => (2 * v + c) % 256, carry := fun v => 128 ≤ v }
/-- `C <- v[0]; r <- (v >> 1) | (c_in << 7)` (R122). -/
def rorRule : ShiftRule := { result := fun v c => v / 2 + 128 * c, carry := fun v => v % 2 = 1 }

/-- The accumulator form: 2 cycles, the result in A, C, Z, N; nothing else changes. -/
def ShiftsA (f : ShiftRule) (i : Instr) (op : Byte) (s : State) : Prop :=
  encode i = [op] ∧ ∃ t, exec i s = .next t ∧
    t.cpu.a.toNat = f.result s.cpu.a.toNat s.cpu.flags.c.toNat ∧ t.cpu.flags.c = f.carry s.cpu.a.toNat ∧
    ZnOf t.cpu.a t ∧ t.cpu.pc = s.cpu.pc ∧ RegistersOnly [.a] [.c, .z, .n] 2 s t

/-- A memory form: exactly one read and then one write at the effective address; C, Z, N. -/
def ShiftsMemory (f : ShiftRule) (m : MemMode) (i : Instr) (op : Byte) (base : Nat) (s : State) : Prop :=
  encode i = op :: m.operandBytes ∧ ∃ t, exec i s = .next t ∧
    let v := (peek (m.ea s) s).toNat
    let r := BitVec.ofNat 8 (f.result v s.cpu.flags.c.toNat)
    t.cpu.flags.c = f.carry v ∧ ZnOf r t ∧ StoresByte [.c, .z, .n] base (m.ea s) r (busRead (m.ea s) s).2 s t

/-- An instruction executed `n` times over, each time from where the last left off. -/
def execTimes (i : Instr) : Nat → State → Option State
  | 0, s => some s
  | n + 1, s =>
    match exec i s with
    | .next t => execTimes i n t
    | .fault _ => none
    | .refused _ => none

end Sys2Proof.Machine

/-- R119, R120: ASL and LSR complete in every form. -/
def Obligations.ShiftsMoveOneBit : Prop :=
  ∀ (s : State) (b : Byte) (w : Word),
    ShiftsA aslRule .aslAcc 0x0A s ∧ ShiftsA lsrRule .lsrAcc 0x4A s ∧
    ShiftsMemory aslRule (.zp b) (.aslZp b) 0x06 5 s ∧
    ShiftsMemory aslRule (.abs w) (.aslAbs w) 0x0E 6 s ∧
    ShiftsMemory aslRule (.zpx b) (.aslZpx b) 0x16 6 s ∧
    ShiftsMemory aslRule (.absx w) (.aslAbsx w) 0x1E 7 s ∧
    ShiftsMemory lsrRule (.zp b) (.lsrZp b) 0x46 5 s ∧
    ShiftsMemory lsrRule (.abs w) (.lsrAbs w) 0x4E 6 s ∧
    ShiftsMemory lsrRule (.zpx b) (.lsrZpx b) 0x56 6 s ∧
    ShiftsMemory lsrRule (.absx w) (.lsrAbsx w) 0x5E 7 s

/-- R121, R122: ROL and ROR complete in every form, rotating through the carry; nine rotations of A restore A and C. -/
def Obligations.RotatesPassThroughCarry : Prop :=
  ∀ (s : State) (b : Byte) (w : Word),
    ShiftsA rolRule .rolAcc 0x2A s ∧ ShiftsA rorRule .rorAcc 0x6A s ∧
    ShiftsMemory rolRule (.zp b) (.rolZp b) 0x26 5 s ∧
    ShiftsMemory rolRule (.abs w) (.rolAbs w) 0x2E 6 s ∧
    ShiftsMemory rolRule (.zpx b) (.rolZpx b) 0x36 6 s ∧
    ShiftsMemory rolRule (.absx w) (.rolAbsx w) 0x3E 7 s ∧
    ShiftsMemory rorRule (.zp b) (.rorZp b) 0x66 5 s ∧
    ShiftsMemory rorRule (.abs w) (.rorAbs w) 0x6E 6 s ∧
    ShiftsMemory rorRule (.zpx b) (.rorZpx b) 0x76 6 s ∧
    ShiftsMemory rorRule (.absx w) (.rorAbsx w) 0x7E 7 s ∧
    (∃ t, execTimes .rolAcc 9 s = some t ∧ t.cpu.a = s.cpu.a ∧ t.cpu.flags.c = s.cpu.flags.c) ∧
    (∃ t, execTimes .rorAcc 9 s = some t ∧ t.cpu.a = s.cpu.a ∧ t.cpu.flags.c = s.cpu.flags.c)

/-- R123 with R83: JMP absolute goes to its operand in 3 cycles; JMP indirect goes, in 5, to the pointer's target, whose high byte
it reads in the pointer's own page, after the low byte. -/
def Obligations.JmpGoesToTarget : Prop :=
  ∀ (s : State) (w : Word),
    (encode (.jmpAbs w) = 0x4C :: wordBytes w ∧ ∃ t, exec (.jmpAbs w) s = .next t ∧
      t.cpu.pc = w ∧ RegistersOnly [] [] 3 s t) ∧
    (encode (.jmpInd w) = 0x6C :: wordBytes w ∧ ∃ t, exec (.jmpInd w) s = .next t ∧
      let lo := busRead w s
      let hi := busRead (BitVec.ofNat 16 (w.toNat / 256 * 256 + (w.toNat + 1) % 256)) lo.2
      t.cpu.pc.toNat = lo.1.toNat + 256 * hi.1.toNat ∧
      CpuFrame [] [] s t ∧ DeviceFrame hi.2 t ∧ MemFrame NoCell s t ∧ Costs 5 s t)

/-- R124: JSR completes in 6 cycles: the address of its own last byte pushed, high byte first, SP down by 2 inside page 1, PC at
the operand. -/
def Obligations.JsrPushesReturnAddress : Prop :=
  ∀ (s : State) (w : Word),
    encode (.jsr w) = 0x20 :: wordBytes w ∧ ∃ t, exec (.jsr w) s = .next t ∧
      let ret := (s.cpu.pc.toNat + 0xFFFF) % 0x10000
      t.cpu.pc = w ∧ t.cpu.sp.toNat = (s.cpu.sp.toNat + 254) % 256 ∧
      (s.ram.wf = true → (t.byteAt (stackCell s 0)).toNat = ret / 256 ∧ (t.byteAt (stackCell s 255)).toNat = ret % 256) ∧
      PushesOnly [.sp] [] [stackCell s 0, stackCell s 255] 6 s t

/-- R125: RTS completes in 6 cycles: two bytes pulled, low first, PC one past the address they give, SP up by 2. -/
def Obligations.RtsReturnsPastPulledAddress : Prop :=
  ∀ s : State,
    encode .rts = [0x60] ∧ ∃ t, exec .rts s = .next t ∧
      t.cpu.pc.toNat = ((s.byteAt (stackCell s 1)).toNat + 256 * (s.byteAt (stackCell s 2)).toNat + 1) % 0x10000 ∧
      t.cpu.sp.toNat = (s.cpu.sp.toNat + 2) % 256 ∧ RegistersOnly [.sp] [] 6 s t

/-- R124, R125 together: a JSR and then an RTS leave PC where the JSR's next instruction is, SP, RAM outside the two stack bytes,
every other register and every flag as before, and cost 12 cycles. -/
def Obligations.JsrThenRtsReturns : Prop :=
  ∀ (s : State) (w : Word), s.ram.wf = true →
    ∃ t u, exec (.jsr w) s = .next t ∧ exec .rts t = .next u ∧
      u.cpu.pc = s.cpu.pc ∧ PushesOnly [] [] [stackCell s 0, stackCell s 255] 12 s u

namespace Sys2Proof.Machine

/-- A branch on `cond`: taken, PC at `PC_next` plus the signed offset, 3 cycles, 4 to another page; not taken, 2 cycles and PC
stays; nothing else changes (R126, R86). -/
def Branches (cond : Bool) (off : Byte) (i : Instr) (op : Byte) (s : State) : Prop :=
  encode i = [op, off] ∧ ∃ t, exec i s = .next t ∧
    let target := ((s.cpu.pc.toNat : Int) + off.toInt) % 0x10000
    (cond = true → (t.cpu.pc.toNat : Int) = target ∧
      RegistersOnly [] [] (if (s.cpu.pc.toNat / 256 : Int) = target / 256 then 3 else 4) s t) ∧
    (cond = false → t.cpu.pc = s.cpu.pc ∧ RegistersOnly [] [] 2 s t)

end Sys2Proof.Machine

/-- R126 to R134, with R86: the eight branches complete, taken or not, as their condition says. -/
def Obligations.BranchesFollowCondition : Prop :=
  ∀ (s : State) (off : Byte),
    Branches (!s.cpu.flags.c) off (.bcc off) 0x90 s ∧ Branches s.cpu.flags.c off (.bcs off) 0xB0 s ∧
    Branches s.cpu.flags.z off (.beq off) 0xF0 s ∧ Branches s.cpu.flags.n off (.bmi off) 0x30 s ∧
    Branches (!s.cpu.flags.z) off (.bne off) 0xD0 s ∧ Branches (!s.cpu.flags.n) off (.bpl off) 0x10 s ∧
    Branches (!s.cpu.flags.v) off (.bvc off) 0x50 s ∧ Branches s.cpu.flags.v off (.bvs off) 0x70 s

namespace Sys2Proof.Machine

/-- A status byte as a number, with bit 4 given (R15). -/
def statusNumber (brk : Bool) (f : Flags) : Nat :=
  128 * f.n.toNat + 64 * f.v.toNat + 32 + 16 * brk.toNat + 8 * f.d.toNat + 4 * f.i.toNat + 2 * f.z.toNat + f.c.toNat

/-- The 16-bit value of the cartridge bytes at a vector (R43, R33). -/
def vectorValue (s : State) (v : Nat) : Nat :=
  (cartRead s.image s.mapper v).toNat + 256 * (cartRead s.image s.mapper (v + 1)).toNat

/-- What `Entry` (R157) leaves: PC and the status pushed, SP down by 3, I set, PC from the vector; nothing else changes. -/
def Entered (brk : Bool) (vector ret : Nat) (s t : State) : Prop :=
  t.cpu.pc.toNat = vectorValue s vector ∧ t.cpu.flags.i = true ∧ t.cpu.sp.toNat = (s.cpu.sp.toNat + 253) % 256 ∧
  (s.ram.wf = true → (t.byteAt (stackCell s 0)).toNat = ret / 256 ∧ (t.byteAt (stackCell s 255)).toNat = ret % 256 ∧
    (t.byteAt (stackCell s 254)).toNat = statusNumber brk s.cpu.flags) ∧
  CpuFrame [.sp] [.i] s t ∧ RestFrame s t ∧ MemFrame (· ∈ [stackCell s 0, stackCell s 255, stackCell s 254]) s t

end Sys2Proof.Machine

/-- R157: the entry for NMI, IRQ and BRK, whatever the address to return to; as a CPU step of its own it costs 7 cycles. -/
def Obligations.InterruptEntryEffect : Prop :=
  ∀ (s : State) (ret : Word),
    Entered false 0xFFFA ret.toNat s (enterInterrupt .nmi ret s) ∧
    Entered false 0xFFFE ret.toNat s (enterInterrupt .irq ret s) ∧
    Entered true 0xFFFE ret.toNat s (enterInterrupt .brk ret s) ∧
    (∀ k, (enterInterrupt k ret s).cpu.cycles = s.cpu.cycles ∧ (enterInterrupt k ret s).cpu.extra = s.cpu.extra) ∧
    ∀ k, Costs 7 s (takeInterrupt k s)

/-- R135: BRK completes in 7 cycles with an entry through 0xFFFE that returns past the byte after it, whatever I holds; with
BRK_MASKED_BY_I and I = 1 it only moves PC past that byte. -/
def Obligations.BrkEntersThroughVector : Prop :=
  ∀ s : State,
    encode .brk = [0x00] ∧ ∃ t, exec .brk s = .next t ∧ Costs 7 s t ∧
      let ret := (s.cpu.pc.toNat + 1) % 0x10000
      (s.params.brkMaskedByI = true ∧ s.cpu.flags.i = true →
        t.cpu.pc.toNat = ret ∧ CpuFrame [] [] s t ∧ DeviceFrame s t ∧ MemFrame NoCell s t) ∧
      (¬ (s.params.brkMaskedByI = true ∧ s.cpu.flags.i = true) → Entered true 0xFFFE ret s t)

namespace Sys2Proof.Machine

/-- The six flags are those of a pulled status byte; bits 4 and 5 play no part (R16). -/
def FlagsOf (p : Byte) (t : State) : Prop :=
  t.cpu.flags.c = p.getLsbD 0 ∧ t.cpu.flags.z = p.getLsbD 1 ∧ t.cpu.flags.i = p.getLsbD 2 ∧
  t.cpu.flags.d = p.getLsbD 3 ∧ t.cpu.flags.v = p.getLsbD 6 ∧ t.cpu.flags.n = p.getLsbD 7

end Sys2Proof.Machine

/-- R136: RTI completes in 6 cycles: the flags, then PC, pulled, SP up by 3; the pulled I is the one the next step's interrupt
recognition sees. -/
def Obligations.RtiRestoresFlagsAndPc : Prop :=
  ∀ s : State,
    encode .rti = [0x40] ∧ ∃ t, exec .rti s = .next t ∧
      FlagsOf (s.byteAt (stackCell s 1)) t ∧
      t.cpu.pc.toNat = (s.byteAt (stackCell s 2)).toNat + 256 * (s.byteAt (stackCell s 3)).toNat ∧
      t.cpu.sp.toNat = (s.cpu.sp.toNat + 3) % 256 ∧
      irqTaken t = (!(s.byteAt (stackCell s 1)).getLsbD 2 && s.irqLevel) ∧
      RegistersOnly [.sp] [.c, .z, .i, .d, .v, .n] 6 s t

/-- R135, R136 together, R159: a BRK that is taken and then an RTI restore every register and flag and leave PC past the byte after
the BRK; RAM is unchanged but for the three stack bytes; 13 cycles. -/
def Obligations.BrkThenRtiReturns : Prop :=
  ∀ s : State, s.ram.wf = true → s.params.brkMaskedByI = false →
    ∃ t u, exec .brk s = .next t ∧ exec .rti t = .next u ∧
      u.cpu.pc = s.cpu.pc + 1 ∧ PushesOnly [] [] [stackCell s 0, stackCell s 255, stackCell s 254] 13 s u

/-- R137, R138: PHA and PHP complete in 3 cycles: A, or the status byte with bits 4 and 5 set, at the stack byte SP names, SP down
by 1 inside page 1; no flag. -/
def Obligations.PushesStoreByte : Prop :=
  ∀ s : State,
    (encode .pha = [0x48] ∧ ∃ t, exec .pha s = .next t ∧ t.cpu.pc = s.cpu.pc ∧
      t.cpu.sp.toNat = (s.cpu.sp.toNat + 255) % 256 ∧ (s.ram.wf = true → t.byteAt (stackCell s 0) = s.cpu.a) ∧
      PushesOnly [.sp] [] [stackCell s 0] 3 s t) ∧
    (encode .php = [0x08] ∧ ∃ t, exec .php s = .next t ∧ t.cpu.pc = s.cpu.pc ∧
      t.cpu.sp.toNat = (s.cpu.sp.toNat + 255) % 256 ∧
      (s.ram.wf = true → (t.byteAt (stackCell s 0)).toNat = statusNumber true s.cpu.flags) ∧
      PushesOnly [.sp] [] [stackCell s 0] 3 s t)

/-- R139, R140: PLA and PLP complete in 4 cycles: SP up by 1 inside page 1 and the byte there into A, with Z and N, or into the six
flags, of which I counts from the next step's interrupt recognition on. -/
def Obligations.PullsLoadByte : Prop :=
  ∀ s : State,
    (encode .pla = [0x68] ∧ ∃ t, exec .pla s = .next t ∧ t.cpu.pc = s.cpu.pc ∧
      t.cpu.sp.toNat = (s.cpu.sp.toNat + 1) % 256 ∧ t.cpu.a = s.byteAt (stackCell s 1) ∧
      ZnOf (s.byteAt (stackCell s 1)) t ∧ RegistersOnly [.a, .sp] [.z, .n] 4 s t) ∧
    (encode .plp = [0x28] ∧ ∃ t, exec .plp s = .next t ∧ t.cpu.pc = s.cpu.pc ∧
      t.cpu.sp.toNat = (s.cpu.sp.toNat + 1) % 256 ∧ FlagsOf (s.byteAt (stackCell s 1)) t ∧
      irqTaken t = (!(s.byteAt (stackCell s 1)).getLsbD 2 && s.irqLevel) ∧
      RegistersOnly [.sp] [.c, .z, .i, .d, .v, .n] 4 s t)

namespace Sys2Proof.Machine

/-- `i` completes in 2 cycles, writes one flag and changes nothing else. -/
def WritesFlag (f : Flag) (v : Bool) (i : Instr) (op : Byte) (s : State) : Prop :=
  encode i = [op] ∧ ∃ t, exec i s = .next t ∧
    t.flag f = v ∧ t.cpu.pc = s.cpu.pc ∧ RegistersOnly [] [f] 2 s t ∧
    irqTaken t = ((if f = .i then !v else !s.cpu.flags.i) && s.irqLevel)

end Sys2Proof.Machine

/-- R141 to R147: the seven flag instructions write their one flag; CLI and SEI act on the very next interrupt recognition. -/
def Obligations.FlagInstructionsWriteOneFlag : Prop :=
  ∀ s : State,
    WritesFlag .c false .clc 0x18 s ∧ WritesFlag .c true .sec 0x38 s ∧ WritesFlag .i false .cli 0x58 s ∧
    WritesFlag .i true .sei 0x78 s ∧ WritesFlag .d false .cld 0xD8 s ∧ WritesFlag .d true .sed 0xF8 s ∧
    WritesFlag .v false .clv 0xB8 s

/-- R148: NOP completes in 2 cycles and changes nothing else. -/
def Obligations.NopOnlyAdvances : Prop :=
  ∀ s : State, encode .nop = [0xEA] ∧ ∃ t, exec .nop s = .next t ∧ t.cpu.pc = s.cpu.pc ∧ RegistersOnly [] [] 2 s t

/-- R89, R151: every instruction answers a next state from every state: none faults, traps, halts or is refused, whatever its
operands. -/
def Obligations.NoInstructionStops : Prop :=
  ∀ (i : Instr) (s : State), ∃ t, exec i s = .next t ∧ t.cpu.halted = s.cpu.halted ∧ LaunchFrame s t ∧
    s.cpu.cycles + 2 ≤ t.cpu.cycles ∧ t.cpu.extra = 0

/-! ## Decoding and one step of the machine -/

/-- R65 to R69: decoding an encoding gives the instruction and the bytes after it, for every instruction at every operand; and
whatever decodes is an encoding, of 1 to 3 bytes. -/
def Obligations.DecodeAndEncodeAgree : Prop :=
  (∀ (i : Instr) (rest : List Byte), i.wf = true → decode (encode i ++ rest) = .ok (i, rest)) ∧
  (∀ (bytes rest : List Byte) (i : Instr), decode bytes = .ok (i, rest) →
    bytes = encode i ++ rest ∧ 1 ≤ (encode i).length ∧ (encode i).length ≤ 3)

namespace Sys2Proof.Machine

/-- The 105 invalid opcode bytes (R70). -/
def invalidOpcodes : List Nat :=
  [0x02, 0x03, 0x04, 0x07, 0x0B, 0x0C, 0x0F, 0x12, 0x13, 0x14, 0x17, 0x1A, 0x1B, 0x1C, 0x1F] ++
  [0x22, 0x23, 0x27, 0x2B, 0x2F, 0x32, 0x33, 0x34, 0x37, 0x3A, 0x3B, 0x3C, 0x3F, 0x42, 0x43] ++
  [0x44, 0x47, 0x4B, 0x4F, 0x52, 0x53, 0x54, 0x57, 0x5A, 0x5B, 0x5C, 0x5F, 0x62, 0x63, 0x64] ++
  [0x67, 0x6B, 0x6F, 0x72, 0x73, 0x74, 0x77, 0x7A, 0x7B, 0x7C, 0x7F, 0x80, 0x82, 0x83, 0x87] ++
  [0x89, 0x8B, 0x8F, 0x92, 0x93, 0x97, 0x9B, 0x9C, 0x9E, 0x9F, 0xA3, 0xA7, 0xAB, 0xAF, 0xB2] ++
  [0xB3, 0xB7, 0xBB, 0xBF, 0xC2, 0xC3, 0xC7, 0xCB, 0xCF, 0xD2, 0xD3, 0xD4, 0xD7, 0xDA, 0xDB] ++
  [0xDC, 0xDF, 0xE2, 0xE3, 0xE7, 0xEB, 0xEF, 0xF2, 0xF3, 0xF4, 0xF7, 0xFA, 0xFB, 0xFC, 0xFF]

end Sys2Proof.Machine

/-- R70, R150: exactly the 105 bytes listed have no entry; fetching one sets `halted` with the byte and its address, leaves PC there,
counts no cycle, ticks no device and changes no register, flag or memory; what the fetch's own read does to a picture register or
a port has happened. No step follows: the next answers a fault, which is the model's form of it (log entry 9). -/
def Obligations.InvalidOpcodeHalts : Prop :=
  (∀ (op : Byte) (rest : List Byte), op.toNat ∈ invalidOpcodes ↔ decode (op :: rest) = .error (.invalidOpcode op)) ∧
  (∀ s : State, s.cpu.halted = none → s.cpu.nmiPending = false → irqTaken s = false →
    (peek s.cpu.pc s).toNat ∈ invalidOpcodes →
    ∃ t, step s = .next t ∧ t.cpu = { s.cpu with extra := 0, halted := some { op := peek s.cpu.pc s, addr := s.cpu.pc } } ∧
      MemFrame NoCell s t ∧ t.mapper = s.mapper ∧ t.apu = s.apu ∧ t.ppu = (busRead s.cpu.pc s).2.ppu ∧
      t.pads = (busRead s.cpu.pc s).2.pads ∧ t.env.out = s.env.out ∧ LaunchFrame s t ∧
      step t = .fault (.invalidOpcode (peek s.cpu.pc s) s.cpu.pc))

/-- R65 to R69, on words written out: the spec's own examples and one instruction of each family. -/
def Obligations.DecodingOfWrittenWords : Prop :=
  decode [0xA9, 0x05] = .ok (.ldaImm 0x05, []) ∧ decode [0x8D, 0x00, 0x02] = .ok (.staAbs 0x0200, []) ∧
  decode [0xAA] = .ok (.tax, []) ∧ decode [0x71, 0x40] = .ok (.adcIndy 0x40, []) ∧
  decode [0x3D, 0xF0, 0x12] = .ok (.andAbsx 0x12F0, []) ∧ decode [0xC1, 0x20] = .ok (.cmpIndx 0x20, []) ∧
  decode [0xD6, 0x80] = .ok (.decZpx 0x80, []) ∧ decode [0x6A] = .ok (.rorAcc, []) ∧
  decode [0x6C, 0xFF, 0x02] = .ok (.jmpInd 0x02FF, []) ∧ decode [0xD0, 0xFE] = .ok (.bne 0xFE, []) ∧
  decode [0x28] = .ok (.plp, []) ∧ decode [0x78] = .ok (.sei, []) ∧ decode [0x02, 0x00] = .error (.invalidOpcode 0x02)

namespace Sys2Proof.Machine

/-- The pointer at zero-page byte `p`, its high byte from the next zero-page byte, wrapping (R84, R85). -/
def zeroPagePointer (s : State) (p : Nat) : Nat := (s.ram.read p).toNat + 256 * (s.ram.read ((p + 1) % 256)).toNat

/-- A mode's effective address is `base + index`, 16 bits wide, and its page-cross penalty is 1 where that is another page than
`base`'s (R81, R82, R85, R88); with index 0 it never is. -/
def Indexes (m : MemMode) (base index : Nat) (s : State) : Prop :=
  (m.ea s).toNat = (base + index) % 0x10000 ∧
  ValueMode.penalty (.mem m) s = if base / 256 = (base + index) % 0x10000 / 256 then 0 else 1

end Sys2Proof.Machine

/-- R77 to R82, R84, R85 with R88: the effective address and the page-cross penalty of every memory mode. -/
def Obligations.EffectiveAddresses : Prop :=
  ∀ (s : State) (b : Byte) (w : Word),
    Indexes (.zp b) b.toNat 0 s ∧
    Indexes (.zpx b) ((b.toNat + s.cpu.x.toNat) % 256) 0 s ∧
    Indexes (.zpy b) ((b.toNat + s.cpu.y.toNat) % 256) 0 s ∧
    Indexes (.abs w) w.toNat 0 s ∧
    Indexes (.absx w) w.toNat s.cpu.x.toNat s ∧
    Indexes (.absy w) w.toNat s.cpu.y.toNat s ∧
    Indexes (.indx b) (zeroPagePointer s ((b.toNat + s.cpu.x.toNat) % 256)) 0 s ∧
    Indexes (.indy b) (zeroPagePointer s b.toNat) s.cpu.y.toNat s

/-- R73, R149, R217: where the machine is not halted, takes no interrupt and the bytes fetched at PC decode to `i`, the step is
`i`'s own execution from the state the fetch leaves, PC at the next instruction, and then the device ticks for its cycles. Fetched
from RAM, 0x4018 and above, or the cartridge, the bytes are those at PC and the fetch does nothing else. -/
def Obligations.StepRunsDecodedInstruction : Prop :=
  ∀ (s : State) (i : Instr), s.cpu.halted = none → s.cpu.nmiPending = false → irqTaken s = false →
    let n := (encode i).length
    let f := fetchBytes n (stepStart s)
    decode f.1 = .ok (i, []) →
      f.2.cpu = { s.cpu with extra := 0, pc := s.cpu.pc + BitVec.ofNat 16 n } ∧
      ((∀ k < n, (s.cpu.pc + BitVec.ofNat 16 k).toNat < 0x2000 ∨ 0x4018 ≤ (s.cpu.pc + BitVec.ofNat 16 k).toNat) →
        f = ((List.range n).map fun k => peek (s.cpu.pc + BitVec.ofNat 16 k) s,
             (stepStart s).setPc (s.cpu.pc + BitVec.ofNat 16 n))) ∧
      ∃ t, exec i f.2 = .next t ∧ step s = .next (deviceTicks (t.cpu.cycles - s.cpu.cycles) t)

/-- R149, R150, R20, R25, R217: a halted machine has no step (log entry 9); any other answers a next state, with the launch
configuration unchanged, `extra` 0, and at least 2 cycles counted unless the step halts the machine, which counts none. The driving
loop ends, with nothing done, where the machine is halted or END_CONDITION holds; else it takes the turn's host inputs, steps, and goes
on, or ends there without a step where an input restored a halted machine; it always ends, in a machine of the same launch. No host
input clears or changes `halted` once it is set (R24; log entry 25). -/
def Obligations.StepAnswersUntilHalted : Prop :=
  ∀ s : State,
    (∀ h, s.cpu.halted = some h → step s = .fault (.invalidOpcode h.op h.addr)) ∧
    (s.cpu.halted = none → ∃ t, step s = .next t ∧ LaunchFrame s t ∧ t.cpu.extra = 0 ∧
      (t.cpu.halted = none → s.cpu.cycles + 2 ≤ t.cpu.cycles) ∧ (t.cpu.halted ≠ none → t.cpu.cycles = s.cpu.cycles)) ∧
    ∀ (stop : Session → Bool) (turns : List (List HostInput)) (l : List HostInput) (h : Session),
      (h.machine.cpu.halted ≠ none ∨ stop h = true → drive stop turns h = .next h) ∧
      (h.machine.cpu.halted = none → stop h = false →
        (∀ t, step (h.inputs l).machine = .next t →
          drive stop (l :: turns) h = drive stop turns { h.inputs l with machine := t }) ∧
        ((h.inputs l).machine.cpu.halted ≠ none → drive stop (l :: turns) h = .next (h.inputs l))) ∧
      (∃ h', drive stop turns h = .next h' ∧ LaunchFrame h.machine h'.machine) ∧
      (∀ x, h.machine.cpu.halted = some x → (h.inputs l).machine.cpu.halted = some x)

/-- R158, R154, R156, R157: a pending NMI is taken first, by an entry that clears the latch and returns to PC; else an IRQ with I = 0;
each is a step of 7 cycles of its own and leaves I set, so no IRQ follows at once. An IRQ with I = 1 is not recognised. -/
def Obligations.InterruptsTakenInPriorityOrder : Prop :=
  ∀ s : State, s.cpu.halted = none →
    (s.cpu.nmiPending = true →
      let b := (stepStart s).setNmi false
      ∃ u, step s = .next (deviceTicks 7 u) ∧ Entered false 0xFFFA s.cpu.pc.toNat b u ∧ Costs 7 b u ∧ irqTaken u = false) ∧
    (s.cpu.nmiPending = false → s.cpu.flags.i = false → s.irqLevel = true →
      let b := stepStart s
      ∃ u, step s = .next (deviceTicks 7 u) ∧ Entered false 0xFFFE s.cpu.pc.toNat b u ∧ Costs 7 b u ∧ irqTaken u = false) ∧
    (irqTaken s = true ↔ s.cpu.flags.i = false ∧ s.irqLevel = true)

/-- R187, R153, R22: the tick at scanline 241, cycle 1 sets vblank and, with PPUCTRL bit 7, the NMI latch, which the next step takes.
No other tick sets either; only pre-render cycle 1 and a PPUSTATUS read clear vblank. -/
def Obligations.VblankSignalsNmi : Prop :=
  ∀ s : State,
    (s.ppu.scanline = 241 → s.ppu.cycle = 1 →
      let t := pictureTick s
      t = { s with
        ppu := { s.ppu with vblank := true, cycle := 2 }
        cpu := { s.cpu with nmiPending := s.cpu.nmiPending || s.ppu.ctrl.getLsbD 7 } } ∧
      (s.ppu.ctrl.getLsbD 7 = true → s.cpu.halted = none →
        step t = .next (deviceTicks 7 (takeInterrupt .nmi ((stepStart t).setNmi false))))) ∧
    (s.ppu.scanline = -1 → s.ppu.cycle = 1 →
      pictureTick s = { s with ppu := { s.ppu with vblank := false, s0hit := false, ovf := false, cycle := 2 } }) ∧
    (¬ (s.ppu.scanline = 241 ∧ s.ppu.cycle = 1) → (pictureTick s).cpu = s.cpu ∧
      (¬ (s.ppu.scanline = -1 ∧ s.ppu.cycle = 1) → (pictureTick s).ppu.vblank = s.ppu.vblank)) ∧
    (∀ a, ¬ isPictureReg 2 a → (busRead a s).2.ppu.vblank = s.ppu.vblank) ∧
    (∀ base a d, a ≠ 0x4014 → (busWrite base a d s).ppu.vblank = s.ppu.vblank)

/-- Every step keeps the machine invariant: canonical memories of their sizes, the position on the frame, the audio unit's counters in
range, mapper 1's sentinel, the strobe's latch, no pending extra cycle, a halted PC at the opcode. -/
def Obligations.StepKeepsInvariant : Prop :=
  ∀ s t : State, s.Inv → step s = .next t → t.Inv

/-- The machine right after reset has the invariant. -/
def Obligations.ResetHasInvariant : Prop := State.reset.Inv

namespace Sys2Proof.Machine

/-- INIT_MEM gives each RAM an array of its size (R8, R28, R50, R52, R167). -/
def InitMem.Fits (m : InitMem) : Prop :=
  m.cpuRam.isArray 0x800 = true ∧ m.prgRam.isArray 0x2000 = true ∧ m.chrRam.isArray 0x2000 = true ∧
  m.ntRam.isArray 0x1000 = true ∧ m.pal.isArray 0x20 = true ∧ m.oam.isArray 0x100 = true

end Sys2Proof.Machine

/-- R222: every machine a load creates, from parameters in their domains and any RAM contents, has the invariant, is not halted, and
steps. -/
def Obligations.LoadedMachineHasInvariant : Prop :=
  ∀ (l : LaunchParams) (file : List Byte) (s : State), l.params.wf = true → l.initMem.Fits → load l file = .ok s →
    s.Inv ∧ s.cpu.halted = none ∧ ∃ t, step s = .next t ∧ t.Inv

/-- R223, R212, R213, R195, R57: what a power-on leaves in every part of the machine, for any image and any launch parameters. -/
def Obligations.PowerOnState : Prop :=
  ∀ (img : Image) (regs : MapperRegs) (l : LaunchParams),
    let s := powerOn img regs l
    let r := l.resetRegs
    s.cpu.pc.toNat = vectorValue s 0xFFFC ∧
    s.cpu = { a := r.a, x := r.x, y := r.y, sp := 0xFD, pc := s.cpu.pc
              flags := { c := r.c, z := r.z, i := true, d := r.d, v := r.v, n := r.n }
              cycles := l.resetCycles, extra := 0, nmiPending := false, halted := none } ∧
    LaunchParams.default.resetCycles = 0 ∧
    s.ram = l.initMem.cpuRam ∧ s.image = img ∧ s.params = l.params ∧ s.env.out = [] ∧
    s.mapper = { regs := regs, prgRam := l.initMem.prgRam, chrRam := l.initMem.chrRam } ∧
    mapperOf 0 = .ok .mapper0 ∧
    mapperOf 1 = .ok (.mapper1 { sr := 0x10, control := 0x0C, chr0 := 0, chr1 := 0, prg := 0 }) ∧
    s.ppu = { ctrl := 0, mask := 0, vblank := false, s0hit := false, ovf := false, oamaddr := 0, v := 0, t := 0, x := 0
              w := false, rbuf := 0, ntRam := l.initMem.ntRam, pal := l.initMem.pal, oam := l.initMem.oam, cycle := 0
              scanline := -1, frame := 0, bgidx := s.ppu.bgidx, fb := s.ppu.fb, sprites := [] } ∧
    (let env : Envelope := { start := false, div := 0, decay := 0 }
     let pulse : Pulse := { reg := 0, sweep := 0, period := 0, ct := 0, q := 0, len := 0, env := env, sweepDiv := 0
                            sweepReload := false, enabled := false }
     s.apu = { pulse1 := pulse, pulse2 := pulse
               triangle := { reg := 0, period := 0, ct := 0, q := 0, len := 0, lc := 0, lr := false, enabled := false }
               noise := { reg := 0, mode := 0, sr := 1, ct := 0, len := 0, env := env, enabled := false }
               dmc := { reg := 0, level := 0, sampleAddr := 0xC000, sampleLen := 1, curAddr := 0xC000, bytesRemaining := 0
                        buf := s.apu.dmc.buf, bufEmpty := true, dsr := 0, bitsLeft := 8, silence := true, ct := 0 }
               fs := 0, fiveStep := false, irqInhibit := false, sc := 0 }) ∧
    s.pads = { pad0 := { buttons := 0, csr := 0 }, pad1 := { buttons := 0, csr := 0 }, strobe := false }

/-- R45 to R50: which images load, which error each refusal may name, and where the loaded image's bytes, mirroring mode, PRG-RAM and
mapper come from. Where several errors apply, which one is reported is the model's choice (log entry 16), so it is not stated. -/
def Obligations.LoadChecksAndReadsImage : Prop :=
  ∀ (l : LaunchParams) (file : List Byte),
    let b := fun k => (file.getD k 0).toNat
    let signed := b 0 = 0x4E ∧ b 1 = 0x45 ∧ b 2 = 0x53 ∧ b 3 = 0x1A
    let id := b 7 / 16 * 16 + b 6 / 16
    let start := 16 + (if b 6 / 4 % 2 = 1 then 512 else 0)
    let size := start + 0x4000 * b 4 + 0x2000 * b 5
    ((∃ s, load l file = .ok s) ↔ signed ∧ b 4 ≠ 0 ∧ id < 2 ∧ size ≤ file.length) ∧
    (load l file = .error .badSignature → ¬ signed) ∧
    (load l file = .error .noPrg → b 4 = 0) ∧
    (load l file = .error .truncated → file.length < size) ∧
    (∀ k, load l file = .error (.unsupportedMapper k) → k = id ∧ 2 ≤ id) ∧
    (∀ s, load l file = .ok s →
      s.image.nPrg = b 4 ∧ s.image.nChr = b 5 ∧
      (∀ k < 0x4000 * b 4, s.image.prgRom.read k = file.getD (start + k) 0) ∧
      (∀ k < 0x2000 * b 5, s.image.chrRom.read k = file.getD (start + 0x4000 * b 4 + k) 0) ∧
      s.image.mirroring = (if b 6 / 8 % 2 = 1 then .fourScreen else if b 6 % 2 = 1 then .vertical else .horizontal) ∧
      s.image.prgRamPresent = l.prgRamPresent.getD (decide (b 6 / 2 % 2 = 1)) ∧
      ((id = 0 ∧ s.mapper.regs = .mapper0) ∨ (id = 1 ∧ ∃ r, s.mapper.regs = .mapper1 r)))

/-! ## The bus and the cartridge -/

/-- R28: CPU RAM is reached at every mirror; a write stores the byte, which every mirror then reads, and does nothing else; a read
does nothing else. -/
def Obligations.RamIsMirrored : Prop :=
  ∀ (s : State) (base : Nat) (a : Word) (d : Byte), s.ram.wf = true → a.toNat < 0x2000 →
    busRead a s = (s.ram.read (a.toNat % 0x800), s) ∧
    (∃ m, busWrite base a d s = s.setRam m ∧
      ∀ a' : Word, a'.toNat < 0x2000 →
        peek a' (busWrite base a d s) = if a'.toNat % 0x800 = a.toNat % 0x800 then d else peek a' s) ∧
    ∀ img regs l, (powerOn img regs l).ram = l.initMem.cpuRam

/-- R30: 0x4018 to 0x5FFF, and 0x6000 to 0x7FFF without PRG-RAM, read 0 with no side effect, and writes there are discarded. -/
def Obligations.UndecodedReadsZero : Prop :=
  ∀ (s : State) (base : Nat) (a : Word) (d : Byte), 0x4018 ≤ a.toNat →
    a.toNat < 0x6000 ∨ (a.toNat < 0x8000 ∧ s.image.prgRamPresent = false) →
    busRead a s = (0, s) ∧ busWrite base a d s = s

/-- R31: the reads with side effects are PPUSTATUS, PPUDATA and the two ports, and what each can change; every other read changes
nothing but the count of free draws, and where it draws none changes nothing at all. -/
def Obligations.ReadSideEffects : Prop :=
  ∀ (s : State) (a : Word),
    let t := (busRead a s).2
    t.cpu = s.cpu ∧ t.ram = s.ram ∧ t.mapper = s.mapper ∧ t.apu = s.apu ∧ LaunchFrame s t ∧
    (∃ n, t.env = { s.env with undefDraws := n }) ∧ MemFrame NoCell s t ∧
    (isPictureReg 2 a → t.ppu = { s.ppu with vblank := false, w := false }) ∧
    (isPictureReg 7 a → ∃ buf v, t.ppu = { s.ppu with rbuf := buf, v := v }) ∧
    (¬ isPictureReg 2 a → ¬ isPictureReg 7 a → t.ppu = s.ppu) ∧
    (a = 0x4016 → ∃ c, t.pads = { s.pads with pad0 := { s.pads.pad0 with csr := c } }) ∧
    (a = 0x4017 → ∃ c, t.pads = { s.pads with pad1 := { s.pads.pad1 with csr := c } }) ∧
    (a ≠ 0x4016 → a ≠ 0x4017 → t.pads = s.pads) ∧
    (a.toNat < 0x2000 ∨ 0x4018 ≤ a.toNat ∨ isPictureReg 4 a → t = s)

/-- R27, R32: a bus write stores to no byte but where the decode of its address says, changes no CPU register, flag, PC or cycle count,
stalls only at 0x4014, raises an NMI only through PPUCTRL, and touches no device but the one decoded (at 0x4014, OAM, and what the
copy's reads do to the picture unit and the ports). -/
def Obligations.BusWriteReachesOneTarget : Prop :=
  ∀ (s : State) (base : Nat) (a : Word) (d : Byte),
    let t := busWrite base a d s
    MemFrame (StoresTo a s) s t ∧ LaunchFrame s t ∧ CpuFrame [] [] s t ∧
    t.cpu.pc = s.cpu.pc ∧ t.cpu.cycles = s.cpu.cycles ∧ (a ≠ 0x4014 → t.cpu.extra = s.cpu.extra) ∧
    (¬ isPictureReg 0 a → t.cpu.nmiPending = s.cpu.nmiPending) ∧
    (0x2000 ≤ a.toNat → t.ram = s.ram) ∧
    (¬ (0x2000 ≤ a.toNat ∧ a.toNat < 0x4000) → a ≠ 0x4014 → t.ppu = s.ppu) ∧
    (¬ (0x4000 ≤ a.toNat ∧ a.toNat < 0x4018) ∨ a = 0x4014 ∨ a = 0x4016 → t.apu = s.apu) ∧
    (a ≠ 0x4014 → a ≠ 0x4016 → t.pads = s.pads) ∧
    (¬ isPictureReg 7 a → a.toNat < 0x4020 → t.mapper = s.mapper) ∧
    (a ≠ 0x4014 → t.env = s.env) ∧ t.env.out = s.env.out

/-- R41, R42: a write to 0x4014 makes 256 bus reads of page `v` in order, each with its side effects, byte `i` into OAM at
`OAMADDR + i`, OAMADDR unchanged, and charges 513 cycles, or 514 where `cycles + base` is odd; from a page of RAM or of the cartridge
it changes OAM and `extra` alone. -/
def Obligations.OamDmaCopiesPage : Prop :=
  ∀ (s : State) (base : Nat) (v : Byte),
    (∃ u : Nat → State, u 0 = s ∧
      (∀ i < 256, let r := busRead (BitVec.ofNat 16 (256 * v.toNat + i)) (u i)
        u (i + 1) = r.2.setPpu { r.2.ppu with oam := r.2.ppu.oam.write ((s.ppu.oamaddr.toNat + i) % 256) r.1 }) ∧
      busWrite base 0x4014 v s = (u 256).addExtra (513 + (s.cpu.cycles + base) % 2)) ∧
    (busWrite base 0x4014 v s).ppu.oamaddr = s.ppu.oamaddr ∧
    (s.ppu.oam.wf = true → v.toNat < 0x20 ∨ 0x41 ≤ v.toNat →
      ∃ m, busWrite base 0x4014 v s
          = (s.setPpu { s.ppu with oam := m }).addExtra (513 + (s.cpu.cycles + base) % 2) ∧
        ∀ i < 256, m.read ((s.ppu.oamaddr.toNat + i) % 256) = peek (BitVec.ofNat 16 (256 * v.toNat + i)) s)

/-- R50, R54, R55, R61: what a read of 0x6000 to 0xFFFF reaches on both mappers, and what a write there does where it is no mapper 1
register write. -/
def Obligations.CartridgeWindows : Prop :=
  ∀ (s : State) (base : Nat) (a : Word) (d : Byte),
    let page := fun p => s.image.prgRom.read (0x4000 * p + a.toNat % 0x4000)
    (s.mapper.regs = .mapper0 → 0x8000 ≤ a.toNat →
      busRead a s = (page (if a.toNat < 0xC000 then 0 else s.image.nPrg - 1), s) ∧ busWrite base a d s = s) ∧
    (∀ r, s.mapper.regs = .mapper1 r → 0x8000 ≤ a.toNat →
      let p := r.prg.toNat % 16
      let low := a.toNat < 0xC000
      let m := r.control.toNat / 4 % 4
      (m < 2 → busRead a s = (page ((if low then p / 2 * 2 else p / 2 * 2 + 1) % s.image.nPrg), s)) ∧
      (m = 2 → busRead a s = (page ((if low then 0 else p) % s.image.nPrg), s)) ∧
      (m = 3 → busRead a s = (page ((if low then p else s.image.nPrg - 1) % s.image.nPrg), s))) ∧
    (0x6000 ≤ a.toNat → a.toNat < 0x8000 → s.image.prgRamPresent = true →
      busRead a s = (s.mapper.prgRam.read (a.toNat - 0x6000), s) ∧
      busWrite base a d s = s.setMapper { s.mapper with prgRam := s.mapper.prgRam.write (a.toNat - 0x6000) d } ∧
      (s.mapper.prgRam.wf = true → peek a (busWrite base a d s) = d))

namespace Sys2Proof.Machine

/-- Mapper 1's registers once the assembled value `v` went to the register the address names (R59), the sentinel back. -/
def Mmc1.loaded (r : Mmc1) (a : Nat) (v : BitVec 5) : Mmc1 :=
  match a / 0x2000 with
  | 4 => { r with sr := 0x10, control := v }
  | 5 => { r with sr := 0x10, chr0 := v }
  | 6 => { r with sr := 0x10, chr1 := v }
  | _ => { r with sr := 0x10, prg := v }

/-- Mapper 1's registers put into the cartridge. -/
def State.setMmc1 (r : Mmc1) (s : State) : State := s.setMapper { s.mapper with regs := .mapper1 r }

end Sys2Proof.Machine

/-- R58, R59: five writes to 0x8000 to 0xFFFF with bit 7 clear, counted from the sentinel, put their bits 0, first-written in bit 0, in
the register the fifth address names, and change nothing else; one such write shifts its bit in, and commits where the sentinel is in
bit 0; a write with bit 7 set resets the shift register and `control`. -/
def Obligations.MapperOneLoadsSerially : Prop :=
  ∀ (s : State) (r : Mmc1) (base : Nat), s.mapper.regs = .mapper1 r →
    (∀ (a : Word) (d : Byte), 0x8000 ≤ a.toNat → d.getLsbD 7 = true →
      busWrite base a d s = s.setMmc1 { r with sr := 0x10, control := 0x0C }) ∧
    (∀ (a : Word) (d : Byte), 0x8000 ≤ a.toNat → d.getLsbD 7 = false →
      ∃ q : BitVec 5, q.toNat = r.sr.toNat / 2 + 16 * (d.toNat % 2) ∧
        busWrite base a d s = s.setMmc1 (if r.sr.getLsbD 0 then r.loaded a.toNat q else { r with sr := q })) ∧
    (∀ (a0 a1 a2 a3 a4 : Word) (d0 d1 d2 d3 d4 : Byte), r.sr = 0x10 →
      (∀ a ∈ [a0, a1, a2, a3, a4], 0x8000 ≤ a.toNat) → (∀ d ∈ [d0, d1, d2, d3, d4], d.getLsbD 7 = false) →
      busWrite base a4 d4 (busWrite base a3 d3 (busWrite base a2 d2 (busWrite base a1 d1 (busWrite base a0 d0 s))))
        = s.setMmc1 (r.loaded a4.toNat (BitVec.ofNat 5
            (d0.toNat % 2 + 2 * (d1.toNat % 2) + 4 * (d2.toNat % 2) + 8 * (d3.toNat % 2) + 16 * (d4.toNat % 2)))))

/-! ## The picture unit -/

namespace Sys2Proof.Machine

/-- `page(0)` to `page(3)` (R180). -/
def mirrorPages : Mirroring → List Nat
  | .horizontal => [0, 0, 1, 1]
  | .vertical => [0, 1, 0, 1]
  | .fourScreen => [0, 1, 2, 3]
  | .oneScreenLower => [0, 0, 0, 0]
  | .oneScreenUpper => [1, 1, 1, 1]

/-- `alias(i)` (R181). -/
def aliased (i : Nat) : Nat := if i ∈ [0x10, 0x14, 0x18, 0x1C] then i - 0x10 else i

/-- The pattern byte at `k` of the cartridge's CHR-ROM or CHR-RAM (R52). -/
def chrByte (s : State) (k : Nat) : Byte := if s.image.nChr = 0 then s.mapper.chrRam.read k else s.image.chrRom.read k

/-- One byte of the picture bus (R179). -/
def pictureByte (s : State) (a : Nat) : Byte := ppuRead s.image s.mapper s.ppu a

end Sys2Proof.Machine

/-- R179, R180, R181, R56, R62, R60: what every address of the 16 KB picture bus reads, under both mappers and every mirroring. -/
def Obligations.PictureBusDecode : Prop :=
  ∀ s : State,
    (∀ a, pictureByte s (a % 0x4000) = pictureByte s a) ∧
    (s.mapper.regs = .mapper0 → mirroringOf s.image s.mapper.regs = s.image.mirroring ∧
      ∀ a < 0x2000, pictureByte s a = chrByte s a) ∧
    (∀ r, s.mapper.regs = .mapper1 r →
      mirroringOf s.image s.mapper.regs = (match r.control.toNat % 4 with
        | 0 => .oneScreenLower
        | 1 => .oneScreenUpper
        | 2 => .vertical
        | _ => .horizontal) ∧
      ∀ a < 0x1000,
        let nB := if s.image.nChr = 0 then 2 else 2 * s.image.nChr
        let bank := fun k => chrByte s (0x1000 * (k % nB) + a)
        (r.control.toNat / 16 = 0 → pictureByte s a = bank (r.chr0.toNat / 2 * 2)
          ∧ pictureByte s (0x1000 + a) = bank (r.chr0.toNat / 2 * 2 + 1)) ∧
        (r.control.toNat / 16 = 1 → pictureByte s a = bank r.chr0.toNat ∧ pictureByte s (0x1000 + a) = bank r.chr1.toNat)) ∧
    (∀ q < 4, ∀ o < 0x400,
      let cell := s.ppu.ntRam.read (0x400 * (mirrorPages (mirroringOf s.image s.mapper.regs)).getD q 0 + o)
      pictureByte s (0x2000 + 0x400 * q + o) = cell ∧ (0x400 * q + o < 0xF00 → pictureByte s (0x3000 + 0x400 * q + o) = cell)) ∧
    (∀ k < 0x100, pictureByte s (0x3F00 + k) = s.ppu.pal.read (aliased (k % 0x20)))

/-- R170 to R172, R174 to R177: what a write to each picture register but PPUDATA does, at every mirror, and that it does nothing
else. -/
def Obligations.PictureRegisterWrites : Prop :=
  ∀ (s : State) (base : Nat) (a : Word) (d : Byte),
    let t := busWrite base a d s
    let p := s.ppu
    (isPictureReg 0 a → ∃ r, (∀ k < 15, r.getLsbD k = if k = 10 ∨ k = 11 then d.getLsbD (k - 10) else p.t.getLsbD k) ∧
      t = { s with
        ppu := { p with ctrl := d, t := r }
        cpu := { s.cpu with nmiPending := s.cpu.nmiPending ||
          (s.params.nmiOnEnableInVblank && p.vblank && !p.ctrl.getLsbD 7 && d.getLsbD 7) } }) ∧
    (isPictureReg 1 a → t = s.setPpu { p with mask := d }) ∧
    (isPictureReg 2 a → t = s) ∧
    (isPictureReg 3 a → t = s.setPpu { p with oamaddr := d }) ∧
    (isPictureReg 4 a → ∃ o, o.toNat = (p.oamaddr.toNat + 1) % 256 ∧
      t = s.setPpu { p with oam := p.oam.write p.oamaddr.toNat d, oamaddr := o } ∧
      busRead a s = (p.oam.read p.oamaddr.toNat, s)) ∧
    (isPictureReg 5 a → ∃ r,
      (p.w = false → (∀ k < 15, r.getLsbD k = if k < 5 then d.getLsbD (k + 3) else p.t.getLsbD k) ∧
        ∃ x, x.toNat = d.toNat % 8 ∧ t = s.setPpu { p with t := r, x := x, w := true }) ∧
      (p.w = true → (∀ k < 15, r.getLsbD k = if 12 ≤ k then d.getLsbD (k - 12) else if 5 ≤ k ∧ k < 10 then d.getLsbD (k - 2)
        else p.t.getLsbD k) ∧ t = s.setPpu { p with t := r, w := false })) ∧
    (isPictureReg 6 a → ∃ r,
      (p.w = false → (∀ k < 15, r.getLsbD k = if k = 14 then false else if 8 ≤ k then d.getLsbD (k - 8) else p.t.getLsbD k) ∧
        t = s.setPpu { p with t := r, w := true }) ∧
      (p.w = true → (∀ k < 15, r.getLsbD k = if k < 8 then d.getLsbD k else p.t.getLsbD k) ∧
        t = s.setPpu { p with t := r, v := r, w := false }))

namespace Sys2Proof.Machine

/-- `v` after a PPUDATA access (R178). -/
def AdvancedV (p : Ppu) (v : Loopy) : Prop := v.toNat = (p.v.toNat + if p.ctrl.getLsbD 2 then 32 else 1) % 0x8000

/-- The CHR-RAM byte that picture address `x` below 0x2000 reaches (R52, R56, R62). -/
def chrRamCell (regs : MapperRegs) (x : Nat) : Nat :=
  match regs with
  | .mapper0 => x
  | .mapper1 r =>
    let bank := if r.control.toNat / 16 = 0 then r.chr0.toNat / 2 * 2 + x / 0x1000
      else if x < 0x1000 then r.chr0.toNat else r.chr1.toNat
    0x1000 * (bank % 2) + x % 0x1000

/-- The nametable byte that picture address `x` in 0x2000 to 0x3EFF reaches (R179, R180). -/
def ntRamCell (m : Mirroring) (x : Nat) : Nat :=
  0x400 * (mirrorPages m).getD ((x - 0x2000) % 0x1000 / 0x400) 0 + (x - 0x2000) % 0x400

/-- Where `c` holds, cell `k` of a canonical memory holds `d` and every other cell is unchanged; elsewhere all of it is. -/
def CellWritten (c : Prop) (k : Nat) (d : Byte) (m m' : Memory) : Prop :=
  (c → (m.wf = true → m'.read k = d) ∧ ∀ j, j ≠ k → m'.read j = m.read j) ∧ (¬ c → m' = m)

end Sys2Proof.Machine

/-- R173, R178, R179, R52, R226: PPUSTATUS gives three flags over five undriven bits (free draws, counted: log entry 4), clears vblank and
the toggle; a PPUDATA read gives the buffer, or in the palette the cell, refills the buffer and moves `v`; a second read below the palette
gives the byte the first one buffered; a PPUDATA write stores its byte in CHR-RAM, nametable RAM or the palette, where it then reads back,
is discarded for CHR-ROM, and moves `v`. Nothing else changes. -/
def Obligations.PictureRegisterReads : Prop :=
  ∀ (s : State) (base : Nat) (a : Word) (d : Byte),
    let r := busRead a s
    let t := busWrite base a d s
    let p := s.ppu
    let x := p.v.toNat % 0x4000
    (isPictureReg 2 a → r.1.getLsbD 7 = p.vblank ∧ r.1.getLsbD 6 = p.s0hit ∧ r.1.getLsbD 5 = p.ovf ∧
      r.1.toNat % 32 = (Config.undefRead s.env.undefDraws).toNat % 32 ∧
      r.2 = { s with
        ppu := { p with vblank := false, w := false }, env := { s.env with undefDraws := s.env.undefDraws + 1 } }) ∧
    (isPictureReg 7 a → ∃ v, AdvancedV p v ∧
      (x < 0x3F00 → r = (p.rbuf, s.setPpu { p with rbuf := pictureByte s x, v := v }) ∧
        (v.toNat % 0x4000 < 0x3F00 → peek a r.2 = pictureByte s x)) ∧
      (0x3F00 ≤ x → r = (pictureByte s x, s.setPpu { p with rbuf := pictureByte s (x - 0x1000), v := v }))) ∧
    (isPictureReg 7 a → ∃ v nt pal chr, AdvancedV p v ∧
      t = { s with ppu := { p with ntRam := nt, pal := pal, v := v }, mapper := { s.mapper with chrRam := chr } } ∧
      CellWritten (x < 0x2000 ∧ s.image.nChr = 0) (chrRamCell s.mapper.regs x) d s.mapper.chrRam chr ∧
      CellWritten (0x2000 ≤ x ∧ x < 0x3F00) (ntRamCell (mirroringOf s.image s.mapper.regs) x) d p.ntRam nt ∧
      CellWritten (0x3F00 ≤ x) (aliased (x % 0x20)) d p.pal pal ∧
      (s.mapper.chrRam.wf = true → p.ntRam.wf = true → p.pal.wf = true →
        (0x2000 ≤ x ∨ s.image.nChr = 0 → pictureByte t x = d) ∧
        (x < 0x2000 → s.image.nChr ≠ 0 → pictureByte t x = pictureByte s x)))

/-- R185, R184: the three loopy updates, and the ticks that make them: with rendering on lines -1 to 239 at cycles 256, 257 and, on
line -1, 280 to 304; with rendering disabled `v` moves at no tick. -/
def Obligations.LoopyUpdates : Prop :=
  (∀ v : Loopy,
    let fine := v.toNat / 0x1000
    let ntY := v.toNat / 0x800 % 2
    let cy := v.toNat / 0x20 % 32
    let field := fun f n c => v.toNat % 0x20 + 0x20 * c + 0x400 * (v.toNat / 0x400 % 2) + 0x800 * n + 0x1000 * f
    (Loopy.incY v).toNat =
      if fine < 7 then field (fine + 1) ntY cy
      else if cy = 29 then field 0 (1 - ntY) 0
      else if cy = 31 then field 0 ntY 0
      else field 0 ntY (cy + 1)) ∧
  (∀ (t v : Loopy), ∀ k < 15,
    (Loopy.copyX t v).getLsbD k = (if k < 5 ∨ k = 10 then t.getLsbD k else v.getLsbD k) ∧
    (Loopy.copyY t v).getLsbD k = (if (5 ≤ k ∧ k < 10) ∨ 11 ≤ k then t.getLsbD k else v.getLsbD k)) ∧
  (∀ s : State, let p := s.ppu
    let v := (pictureTick s).ppu.v
    (p.rendering = true → p.scanline ≤ 239 →
      (p.cycle = 256 → v = Loopy.incY p.v) ∧ (p.cycle = 257 → v = Loopy.copyX p.t p.v) ∧
      (p.scanline = -1 → 280 ≤ p.cycle → p.cycle ≤ 304 → v = Loopy.copyY p.t p.v)) ∧
    (p.rendering = false ∨ 239 < p.scanline ∨ p.cycle < 256 ∨ 304 < p.cycle ∨ (258 ≤ p.cycle ∧ p.scanline ≠ -1) ∨
      (258 ≤ p.cycle ∧ p.cycle < 280) → v = p.v))

namespace Sys2Proof.Machine

/-- How many frames the machine has put out. -/
def State.framesOut (s : State) : Nat := s.env.out.countP fun o => match o with
  | .frame _ => true
  | .sample _ => false

/-- How many samples the machine has put out. -/
def State.samplesOut (s : State) : Nat := s.env.out.countP fun o => match o with
  | .frame _ => false
  | .sample _ => true

end Sys2Proof.Machine

/-- R183, R194, R217, R218: the picture unit counts positions modulo 89342; each wrap counts `frame` and puts one frame out, the buffer of
that moment, and no other tick puts anything out. A step gives three picture ticks and one audio tick for each cycle it counts. -/
def Obligations.FrameTiming : Prop :=
  ∀ s : State, s.Wf →
    (∀ k, let t := pictureTicks k s
      t.ppu.position = (s.ppu.position + k) % 89342 ∧ t.ppu.frame = s.ppu.frame + (s.ppu.position + k) / 89342 ∧
      t.framesOut = s.framesOut + (s.ppu.position + k) / 89342) ∧
    (pictureTick s).env.out
      = (if s.ppu.scanline = 260 ∧ s.ppu.cycle = 340 then .frame s.ppu.fb :: s.env.out else s.env.out) ∧
    (∀ t, step s = .next t →
      let n := t.cpu.cycles - s.cpu.cycles
      t.ppu.position = (s.ppu.position + 3 * n) % 89342 ∧ t.ppu.frame = s.ppu.frame + (s.ppu.position + 3 * n) / 89342 ∧
      t.framesOut = s.framesOut + (s.ppu.position + 3 * n) / 89342 ∧
      t.apu.sc = (s.apu.sc + n) % 20 ∧ t.samplesOut = s.samplesOut + (s.apu.sc + n) / 20)

namespace Sys2Proof.Machine

/-- The colour index two pattern planes give at a bit (R189, R191), the planes read through the picture bus `b`. -/
def patternIndex (b : Nat → Byte) (row bit : Nat) : Nat :=
  (b row).toNat / 2 ^ bit % 2 + 2 * ((b (row + 8)).toNat / 2 ^ bit % 2)

/-- A line's background at a pixel (R189): its colour index and the palette cell of its colour. -/
def backgroundAt (b : Nat → Byte) (p : Ppu) (px : Nat) : Nat × Nat :=
  if p.mask.getLsbD 3 = false ∨ (px < 8 ∧ p.mask.getLsbD 1 = false) then (0, 0)
  else
    let sx := px + p.x.toNat
    let column := p.v.toNat % 32 + sx / 8
    let cx := column % 32
    let cy := p.v.toNat / 0x20 % 32
    let base := 0x2000 + 0x400 * ((p.v.toNat / 0x400 + column / 32) % 2) + 0x800 * (p.v.toNat / 0x800 % 2)
    let tile := (b (base + 0x20 * cy + cx)).toNat
    let attr := (b (base + 0x3C0 + 8 * (cy / 4) + cx / 4)).toNat
    let palette := attr / 2 ^ (4 * (cy / 2 % 2) + 2 * (cx / 2 % 2)) % 4
    let ci := patternIndex b ((if p.ctrl.getLsbD 4 then 0x1000 else 0) + 16 * tile + p.v.toNat / 0x1000) (7 - sx % 8)
    (ci, if ci = 0 then 0 else aliased (4 * palette + ci))

/-- Sprite `n` at a pixel of a line it is on (R191): its colour index, 0 where it has no pixel, and the palette cell. -/
def spriteAt (b : Nat → Byte) (off line : Nat) (p : Ppu) (n px : Nat) : Nat × Nat :=
  let y := (p.oam.read (4 * n)).toNat
  let tile := (p.oam.read (4 * n + 1)).toNat
  let attr := p.oam.read (4 * n + 2)
  let x := (p.oam.read (4 * n + 3)).toNat
  let h := if p.ctrl.getLsbD 5 then 16 else 8
  let row := if attr.getLsbD 7 then h - 1 - (line - (y + off)) else line - (y + off)
  let addr := if h = 8 then (if p.ctrl.getLsbD 3 then 0x1000 else 0) + 16 * tile + row
    else 0x1000 * (tile % 2) + 16 * (tile / 2 * 2 + row / 8) + row % 8
  let ci := if x ≤ px ∧ px < x + 8 ∧ p.mask.getLsbD 4 = true ∧ (8 ≤ px ∨ p.mask.getLsbD 2 = true) then
      patternIndex b addr (if attr.getLsbD 6 then px - x else 7 - (px - x))
    else 0
  (ci, 0x10 + 4 * (attr.toNat % 4) + ci)

/-- The sprite a pixel shows (R191): the first of the selection with a pixel there that the background does not hide. -/
def shownSprite (b : Nat → Byte) (off line : Nat) (p : Ppu) (selected : List Nat) (px : Nat) : Option Nat :=
  selected.find? fun n => decide ((spriteAt b off line p n px).1 ≠ 0 ∧
    ((p.oam.read (4 * n + 2)).getLsbD 5 = false ∨ (backgroundAt b p px).1 = 0))

/-- The palette cell of a pixel's colour (R189, R191). -/
def pixelCell (b : Nat → Byte) (off line : Nat) (p : Ppu) (selected : List Nat) (px : Nat) : Nat :=
  match shownSprite b off line p selected px with
  | some n => (spriteAt b off line p n px).2
  | none => (backgroundAt b p px).2

/-- `Resolve` of a palette cell under the line's mask, as its arguments (R193; log entry 10). -/
def resolved (p : Ppu) (cell : Nat) : Pixel :=
  { entry := BitVec.ofNat 6 (p.pal.read cell).toNat, gray := p.mask.getLsbD 0, emphasis := BitVec.ofNat 3 (p.mask.toNat / 32) }

/-- What rendering line `line` leaves alone: every other line of the two buffers, and every other field. -/
def RendersOnly (line : Nat) (p t : Ppu) : Prop :=
  t = { p with sprites := t.sprites, ovf := t.ovf, s0hit := t.s0hit, bgidx := t.bgidx, fb := t.fb } ∧
  ∀ k, k ≠ line → t.bgidx.row k = p.bgidx.row k ∧ t.fb.row k = p.fb.row k

end Sys2Proof.Machine

/-- R188 to R192, R184: with rendering enabled a line selects the eight lowest-numbered OAM entries on it and sets `ovf` where there are
more; its background indices are R189's, each pixel shows the first selected sprite that the background does not hide, else the
background; `s0hit` is set exactly where entry 0 is selected and has a pixel on an opaque background pixel. With rendering disabled it
selects none, leaves both flags, and fills the line with index 0 and the backdrop. Both flags change at no other tick but pre-render
cycle 1, which clears them, and in no bus access. A pixel is held as `Resolve`'s arguments, which is the model's form (log entry 10). -/
def Obligations.LineSelectsSprites : Prop :=
  (∀ (img : Image) (m : Mapper) (off line : Nat) (p : Ppu),
    let t := renderLine img m off line p
    let b := ppuRead img m p
    let height := if p.ctrl.getLsbD 5 then 16 else 8
    let found := (List.range 64).filter fun n =>
      decide ((p.oam.read (4 * n)).toNat + off ≤ line ∧ line < (p.oam.read (4 * n)).toNat + off + height)
    RendersOnly line p t ∧
    (p.mask.getLsbD 3 = true ∨ p.mask.getLsbD 4 = true →
      t.sprites = found.take 8 ∧ t.ovf = (p.ovf || decide (8 < found.length)) ∧
      t.bgidx.row line = (List.range 256).map (fun px => BitVec.ofNat 2 (backgroundAt b p px).1) ∧
      t.fb.row line = (List.range 256).map (fun px => resolved p (pixelCell b off line p t.sprites px)) ∧
      (t.s0hit = true ↔ p.s0hit = true ∨ (0 ∈ t.sprites ∧
        ∃ px < 256, (spriteAt b off line p 0 px).1 ≠ 0 ∧ (backgroundAt b p px).1 ≠ 0))) ∧
    (p.mask.getLsbD 3 = false → p.mask.getLsbD 4 = false →
      t.sprites = [] ∧ t.ovf = p.ovf ∧ t.s0hit = p.s0hit ∧ t.bgidx.row line = List.replicate 256 0 ∧
      t.fb.row line = List.replicate 256 (resolved p 0))) ∧
  (∀ (s : State) (base : Nat) (a : Word) (d : Byte),
    let t := pictureTick s
    let drawn := renderLine s.image s.mapper s.params.spriteYOffset s.ppu.scanline.toNat s.ppu
    (0 ≤ s.ppu.scanline → s.ppu.scanline ≤ 239 → s.ppu.cycle = 0 → t = s.setPpu { drawn with cycle := 1 }) ∧
    (s.ppu.scanline = -1 → s.ppu.cycle = 1 → t.ppu.ovf = false ∧ t.ppu.s0hit = false) ∧
    (¬ (0 ≤ s.ppu.scanline ∧ s.ppu.scanline ≤ 239 ∧ s.ppu.cycle = 0) → ¬ (s.ppu.scanline = -1 ∧ s.ppu.cycle = 1) →
      t.ppu.ovf = s.ppu.ovf ∧ t.ppu.s0hit = s.ppu.s0hit) ∧
    (busRead a s).2.ppu.ovf = s.ppu.ovf ∧ (busRead a s).2.ppu.s0hit = s.ppu.s0hit ∧
    (busWrite base a d s).ppu.ovf = s.ppu.ovf ∧ (busWrite base a d s).ppu.s0hit = s.ppu.s0hit)

/-! ## The audio unit, the controllers, save states -/

namespace Sys2Proof.Machine

/-- A channel's enable bit and length counter after a 0x4015 write (R198). -/
def Enabled (bit : Bool) (len : Byte) (en : Bool) (len' : Byte) : Prop := en = bit ∧ len' = if bit then len else 0

/-- LENGTH (R197). -/
def lengths : List Nat :=
  [10, 254, 20, 2, 40, 4, 80, 6, 160, 8, 60, 10, 14, 12, 26, 14, 12, 16, 24, 18, 48, 20, 96, 22, 192, 24, 72, 26, 16, 28, 32, 30]

/-- An enabled channel's length counter after a length-load write (R196). -/
def LengthLoaded (d len : Byte) : Prop := len.toNat = lengths.getD (d.toNat / 8) 0

/-- A period after its low byte, or its high three bits, are written (R196). -/
def PeriodLow (d : Byte) (T T' : BitVec 11) : Prop := T'.toNat = T.toNat / 256 * 256 + d.toNat
def PeriodHigh (d : Byte) (T T' : BitVec 11) : Prop := T'.toNat = 256 * (d.toNat % 8) + T.toNat % 256

/-- The four register writes of the pulse channel `p` at `addr` (R196), `put` being the audio unit with that channel replaced. -/
def PulseWritten (base : Nat) (addr : Word) (d : Byte) (s : State) (p : Pulse) (put : Pulse → Apu) : Prop :=
  busWrite base addr d s = s.setApu (put { p with reg := d }) ∧
  busWrite base (addr + 1) d s = s.setApu (put { p with sweep := d, sweepReload := true }) ∧
  (∃ T, PeriodLow d p.period T ∧ busWrite base (addr + 2) d s = s.setApu (put { p with period := T })) ∧
  ∃ T len, PeriodHigh d p.period T ∧ LengthLoaded d len ∧
    (p.enabled = true → busWrite base (addr + 3) d s
      = s.setApu (put { p with period := T, len := len, env := { p.env with start := true }, q := 0 })) ∧
    (p.enabled = false → busWrite base (addr + 3) d s = s.setApu (put { p with period := T }))

/-- The register writes of the triangle, 0x4008 to 0x400B (R196). -/
def TriangleWritten (base : Nat) (d : Byte) (s : State) : Prop :=
  let c := s.apu.triangle
  busWrite base 0x4008 d s = s.setApu { s.apu with triangle := { c with reg := d } } ∧
  busWrite base 0x4009 d s = s ∧
  (∃ T, PeriodLow d c.period T ∧ busWrite base 0x400A d s = s.setApu { s.apu with triangle := { c with period := T } }) ∧
  ∃ T len, PeriodHigh d c.period T ∧ LengthLoaded d len ∧
    (c.enabled = true → busWrite base 0x400B d s
      = s.setApu { s.apu with triangle := { c with period := T, len := len, lr := true } }) ∧
    (c.enabled = false → busWrite base 0x400B d s = s.setApu { s.apu with triangle := { c with period := T } })

/-- The register writes of the noise channel, 0x400C to 0x400F (R196); bits not listed are stored as 0 (log entry 19). -/
def NoiseWritten (base : Nat) (d : Byte) (s : State) : Prop :=
  let c := s.apu.noise
  (∃ g, g.toNat = d.toNat % 64 ∧ busWrite base 0x400C d s = s.setApu { s.apu with noise := { c with reg := g } }) ∧
  busWrite base 0x400D d s = s ∧
  (∃ g, g.toNat = d.toNat / 128 * 128 + d.toNat % 16 ∧
    busWrite base 0x400E d s = s.setApu { s.apu with noise := { c with mode := g } }) ∧
  (c.enabled = true → ∃ len, LengthLoaded d len ∧
    busWrite base 0x400F d s = s.setApu { s.apu with noise := { c with len := len, env := { c.env with start := true } } }) ∧
  (c.enabled = false → busWrite base 0x400F d s = s)

/-- The register writes of the DMC, 0x4010 to 0x4013 (R196); bits not listed are stored as 0 (log entry 19). -/
def DmcWritten (base : Nat) (d : Byte) (s : State) : Prop :=
  let c := s.apu.dmc
  (∃ g, g.toNat = d.toNat / 64 * 64 + d.toNat % 16 ∧
    busWrite base 0x4010 d s = s.setApu { s.apu with dmc := { c with reg := g } }) ∧
  (∃ l, l.toNat = d.toNat % 128 ∧ busWrite base 0x4011 d s = s.setApu { s.apu with dmc := { c with level := l } }) ∧
  (∃ a, a.toNat = 0xC000 + 64 * d.toNat ∧ busWrite base 0x4012 d s = s.setApu { s.apu with dmc := { c with sampleAddr := a } }) ∧
  (∃ n, n.toNat = 16 * d.toNat + 1 ∧ busWrite base 0x4013 d s = s.setApu { s.apu with dmc := { c with sampleLen := n } })

end Sys2Proof.Machine

/-- R196, R198, R199, R231: a write of 0x4015 sets the four enables, silences what it disables, stops or restarts the DMC, and does nothing
else; a read gives the five status bits over three free draws, which it counts (log entry 4), and has no other side effect. Every other
register write stores what R196 lists, and nothing else changes; of a disabled channel the length load, with all that R196 lists after
"if enabled", has no effect, and only the period's high bits are written. How far that condition reaches is the model's reading (log
entry 26), and the 0 in bits not listed is the model's (log entry 19). -/
def Obligations.AudioEnableAndStatus : Prop :=
  ∀ (s : State) (base : Nat) (d : Byte),
    (let a := s.apu
     ∃ e1 l1 e2 l2 e3 l3 e4 l4 cur rem,
       Enabled (d.getLsbD 0) a.pulse1.len e1 l1 ∧ Enabled (d.getLsbD 1) a.pulse2.len e2 l2 ∧
       Enabled (d.getLsbD 2) a.triangle.len e3 l3 ∧ Enabled (d.getLsbD 3) a.noise.len e4 l4 ∧
       (d.getLsbD 4 = false → cur = a.dmc.curAddr ∧ rem = 0) ∧
       (d.getLsbD 4 = true → a.dmc.bytesRemaining = 0 → cur = a.dmc.sampleAddr ∧ rem = a.dmc.sampleLen) ∧
       (d.getLsbD 4 = true → a.dmc.bytesRemaining ≠ 0 → cur = a.dmc.curAddr ∧ rem = a.dmc.bytesRemaining) ∧
       busWrite base 0x4015 d s = s.setApu { a with
         pulse1 := { a.pulse1 with enabled := e1, len := l1 }
         pulse2 := { a.pulse2 with enabled := e2, len := l2 }
         triangle := { a.triangle with enabled := e3, len := l3 }
         noise := { a.noise with enabled := e4, len := l4 }
         dmc := { a.dmc with curAddr := cur, bytesRemaining := rem } }) ∧
    (let r := busRead 0x4015 s
     r.1.getLsbD 0 = decide (0 < s.apu.pulse1.len.toNat) ∧ r.1.getLsbD 1 = decide (0 < s.apu.pulse2.len.toNat) ∧
     r.1.getLsbD 2 = decide (0 < s.apu.triangle.len.toNat) ∧ r.1.getLsbD 3 = decide (0 < s.apu.noise.len.toNat) ∧
     r.1.getLsbD 4 = decide (0 < s.apu.dmc.bytesRemaining.toNat) ∧
     r.1.toNat / 32 = (Config.undefRead s.env.undefDraws).toNat / 32 ∧
     r.2 = { s with env := { s.env with undefDraws := s.env.undefDraws + 1 } }) ∧
    PulseWritten base 0x4000 d s s.apu.pulse1 (fun p => { s.apu with pulse1 := p }) ∧
    PulseWritten base 0x4004 d s s.apu.pulse2 (fun p => { s.apu with pulse2 := p }) ∧
    TriangleWritten base d s ∧ NoiseWritten base d s ∧ DmcWritten base d s

/-- R200, R201: with the default schedule, which counts clock the quarter and the half units and where each mode wraps; a 0x4017 write
sets the mode, restarts the count and clocks both at once. -/
def Obligations.FrameSequencer : Prop :=
  (∀ a : Apu,
    let n := a.fs + 1
    let b : Apu := { a with fs := n }
    let t := a.sequencerTick .default
    (n = 7457 ∨ n = 22371 → t = b.quarter) ∧
    (n = 14913 → t = b.quarter.half true) ∧
    (n = 29829 → t = if a.fiveStep then b else b.quarter.half true) ∧
    (n = 29830 → t = if a.fiveStep then b else { a with fs := 0 }) ∧
    (n = 37281 → a.fiveStep = true → t = b.quarter.half true) ∧
    (n = 37282 → a.fiveStep = true → t = { a with fs := 0 }) ∧
    (n ∉ [7457, 14913, 22371, 29829, 29830, 37281, 37282] → t = b)) ∧
  (∀ (s : State) (base : Nat) (d : Byte),
    busWrite base 0x4017 d s = s.setApu (Apu.half s.params.sweep1OnesComplement (Apu.quarter
      { s.apu with fiveStep := d.getLsbD 7, irqInhibit := d.getLsbD 6, fs := 0 })))

namespace Sys2Proof.Machine

/-- An envelope on a quarter event (R202). -/
def EnvelopeClocked (reg : Byte) (e t : Envelope) : Prop :=
  t.start = false ∧
  (e.start = true → t.decay = 15 ∧ t.div.toNat = reg.toNat % 16) ∧
  (e.start = false → e.div = 0 → t.div.toNat = reg.toNat % 16 ∧
    t.decay.toNat = if 0 < e.decay.toNat then e.decay.toNat - 1 else if reg.getLsbD 5 then 15 else 0) ∧
  (e.start = false → e.div ≠ 0 → t.decay = e.decay ∧ t.div.toNat + 1 = e.div.toNat)

/-- A length counter on a half event (R203). -/
def LengthClocked (halt : Bool) (len t : Byte) : Prop :=
  t.toNat = if halt then len.toNat else len.toNat - 1

/-- A pulse channel's sweep target, exact (R204; log entry 22), and whether it mutes the channel. -/
def sweepTarget (extra : Bool) (p : Pulse) : Int :=
  let change : Int := (p.period.toNat / 2 ^ (p.sweep.toNat % 8) : Nat)
  if p.sweep.getLsbD 3 then p.period.toNat - change - (if extra then 1 else 0) else p.period.toNat + change
abbrev SweepMutes (extra : Bool) (p : Pulse) : Prop :=
  p.period.toNat < 8 ∨ (p.sweep.getLsbD 3 = false ∧ 0x7FF < sweepTarget extra p)

/-- A sweep on a half event (R204): the period, exactly the target where it is updated, and the divider. -/
def SweepClocked (extra : Bool) (p t : Pulse) : Prop :=
  ((t.period.toNat : Int) = if p.sweepDiv = 0 ∧ p.sweep.getLsbD 7 = true ∧ p.sweep.toNat % 8 ≠ 0 ∧ ¬ SweepMutes extra p
    then sweepTarget extra p else p.period.toNat) ∧
  (p.sweepDiv = 0 ∨ p.sweepReload = true → t.sweepDiv.toNat = p.sweep.toNat / 16 % 8 ∧ t.sweepReload = false) ∧
  (p.sweepDiv ≠ 0 → p.sweepReload = false → t.sweepDiv.toNat + 1 = p.sweepDiv.toNat ∧ t.sweepReload = false)

end Sys2Proof.Machine

/-- R200, R202, R203, R204, R206: what a quarter event and a half event do to each channel, and that they do nothing else; the
sweep target is exact (log entry 22). -/
def Obligations.QuarterAndHalfEvents : Prop :=
  ∀ (a : Apu) (ones : Bool),
    (∃ e1 e2 e4 lc lr,
      EnvelopeClocked a.pulse1.reg a.pulse1.env e1 ∧ EnvelopeClocked a.pulse2.reg a.pulse2.env e2 ∧
      EnvelopeClocked a.noise.reg a.noise.env e4 ∧
      lc.toNat = (if a.triangle.lr then a.triangle.reg.toNat % 128 else a.triangle.lc.toNat - 1) ∧
      lr = (a.triangle.lr && a.triangle.reg.getLsbD 7) ∧
      a.quarter = { a with
        pulse1 := { a.pulse1 with env := e1 }, pulse2 := { a.pulse2 with env := e2 }, noise := { a.noise with env := e4 }
        triangle := { a.triangle with lc := lc, lr := lr } }) ∧
    (∃ l1 l2 l3 l4 t1 d1 r1 t2 d2 r2,
      let p1 : Pulse := { a.pulse1 with len := l1, period := t1, sweepDiv := d1, sweepReload := r1 }
      let p2 : Pulse := { a.pulse2 with len := l2, period := t2, sweepDiv := d2, sweepReload := r2 }
      LengthClocked (a.pulse1.reg.getLsbD 5) a.pulse1.len l1 ∧ LengthClocked (a.pulse2.reg.getLsbD 5) a.pulse2.len l2 ∧
      LengthClocked (a.triangle.reg.getLsbD 7) a.triangle.len l3 ∧ LengthClocked (a.noise.reg.getLsbD 5) a.noise.len l4 ∧
      SweepClocked ones a.pulse1 p1 ∧ SweepClocked false a.pulse2 p2 ∧
      a.half ones = { a with
        pulse1 := p1, pulse2 := p2, triangle := { a.triangle with len := l3 }, noise := { a.noise with len := l4 } })

namespace Sys2Proof.Machine

/-- The DMC's timer and output unit on one tick (R209): at 0 the timer reloads, the level moves by 2 as the bit shifted out says, inside
0 to 127, unless silenced, and the last bit of a byte takes the buffer, or silences. -/
def DmcClocked (rates : List Nat) (c t : Dmc) : Prop :=
  (c.ct ≠ 0 → t = { c with ct := c.ct - 1 }) ∧
  (c.ct = 0 → ∃ level dsr,
    level.toNat = (if c.silence then c.level.toNat
      else if c.dsr.getLsbD 0 then (if c.level.toNat ≤ 125 then c.level.toNat + 2 else c.level.toNat)
      else (if 2 ≤ c.level.toNat then c.level.toNat - 2 else c.level.toNat)) ∧
    dsr.toNat = c.dsr.toNat / 2 ∧
    let u : Dmc := { c with ct := rates.getD (c.reg.toNat % 16) 1 - 1, level := level, dsr := dsr }
    (2 ≤ c.bitsLeft → t = { u with bitsLeft := c.bitsLeft - 1 }) ∧
    (c.bitsLeft = 1 → c.bufEmpty = true → t = { u with bitsLeft := 8, silence := true }) ∧
    (c.bitsLeft = 1 → c.bufEmpty = false → t = { u with bitsLeft := 8, silence := false, dsr := c.buf, bufEmpty := true }))

/-- The DMC's sample reader (R209), `b` being the byte at its address: it fills an empty buffer while bytes remain, moves the address on,
from 0xFFFF to 0x8000, and at the sample's end restarts a looping one. -/
def DmcFetched (b : Byte) (c t : Dmc) : Prop :=
  (c.bufEmpty = false ∨ c.bytesRemaining = 0 → t = c) ∧
  (c.bufEmpty = true → c.bytesRemaining ≠ 0 → ∃ cur rem,
    cur.toNat = (if c.curAddr.toNat = 0xFFFF then 0x8000 else c.curAddr.toNat + 1) ∧ rem.toNat + 1 = c.bytesRemaining.toNat ∧
    let restarts := rem.toNat = 0 ∧ c.reg.getLsbD 6 = true
    t = { c with
      buf := b, bufEmpty := false
      curAddr := if restarts then c.sampleAddr else cur
      bytesRemaining := if restarts then c.sampleLen else rem })

/-- DUTY (R197). -/
def duties : List (List Nat) :=
  [[0, 1, 0, 0, 0, 0, 0, 0], [0, 1, 1, 0, 0, 0, 0, 0], [0, 1, 1, 1, 1, 0, 0, 0], [1, 0, 0, 1, 1, 1, 1, 1]]

/-- A channel's volume (R202). -/
def volumeOf (reg : Byte) (e : Envelope) : Nat := if reg.getLsbD 4 then reg.toNat % 16 else e.decay.toNat

/-- The outputs of the pulse (R205), triangle (R207; TRI of R197 by its formula) and noise (R208) channels. -/
def pulseOut (extra : Bool) (p : Pulse) : Nat :=
  if p.len = 0 ∨ SweepMutes extra p ∨ (duties.getD (p.reg.toNat / 64) []).getD p.q.toNat 0 = 0 then 0 else volumeOf p.reg p.env
def triangleOut (c : Triangle) : Nat :=
  if c.len = 0 then 0 else if c.q.toNat < 16 then 15 - c.q.toNat else c.q.toNat - 16
def noiseOut (c : Noise) : Nat := if c.len = 0 ∨ c.sr.getLsbD 0 = true then 0 else volumeOf c.reg c.env

/-- The sample an audio unit mixes (R211), held as the four sums that MIX_WEIGHTS weigh (log entry 11). -/
def sampleOf (extra : Bool) (a : Apu) : Mix :=
  { pulse := pulseOut extra a.pulse1 + pulseOut false a.pulse2, tri := triangleOut a.triangle, noise := noiseOut a.noise
    dmc := a.dmc.level.toNat }

end Sys2Proof.Machine

/-- R202, R205, R207 to R211: from a timer at 0, a pulse's duty step advances once in 2(T+1) ticks, a running triangle's step once in T+1,
the noise register once in its period; that register never becomes 0; one sample comes out every 20 ticks. An audio tick is the frame
sequencer, then the five timers with the DMC's output unit and sample reader, then the sample counter, and touches nothing but the audio
unit and the output trace. The sample put out holds the channel outputs at that tick, whose sum under any weights is R211's; that a
trace holds the four sums, and not the amplitude, is the model's form (log entries 11, 12). The launch parameters are well formed, so
no look-up falls past a table's end (log entry 21). -/
def Obligations.AudioTimers : Prop :=
  (∀ p : Pulse, p.ct = 0 → Nat.repeat Pulse.tick (2 * (p.period.toNat + 1)) p = { p with q := p.q + 1 }) ∧
  (∀ c : Triangle, c.ct = 0 → Nat.repeat Triangle.tick (c.period.toNat + 1) c
    = { c with q := if 0 < c.lc.toNat ∧ 0 < c.len.toNat then c.q + 1 else c.q }) ∧
  (∀ (c : Noise) (table : List Nat), c.ct = 0 → periodsWf table = true →
    ∃ sr, Nat.repeat (Noise.tick table) (table.getD (c.mode.toNat % 16) 1) c = { c with sr := sr } ∧
      (∀ k < 14, sr.getLsbD k = c.sr.getLsbD (k + 1)) ∧
      sr.getLsbD 14 = (c.sr.getLsbD 0 != (if c.mode.getLsbD 7 then c.sr.getLsbD 6 else c.sr.getLsbD 1)) ∧
      (c.sr ≠ 0 → sr ≠ 0)) ∧
  (∀ (s : State) (k : Nat), s.apu.sc < 20 →
    (audioTicks k s).apu.sc = (s.apu.sc + k) % 20 ∧ (audioTicks k s).samplesOut = s.samplesOut + (s.apu.sc + k) / 20) ∧
  (∀ s : State, s.params.wf = true → s.apu.sc < 20 → 0x8000 ≤ s.apu.dmc.curAddr.toNat →
    let a := s.apu.sequencerTick s.params
    let t := audioTick s
    ∃ c e, DmcClocked s.params.dmcRates s.apu.dmc c ∧ DmcFetched (peek s.apu.dmc.curAddr s) c e ∧
      t = { s with
        apu := { a with
          pulse1 := a.pulse1.tick, pulse2 := a.pulse2.tick, triangle := a.triangle.tick
          noise := a.noise.tick s.params.noisePeriods, dmc := e, sc := (s.apu.sc + 1) % 20 }
        env := { s.env with
          out := if s.apu.sc = 19 then .sample (sampleOf s.params.sweep1OnesComplement t.apu) :: s.env.out else s.env.out } }) ∧
  (∀ (R : Type) [Add R] [Mul R] [NatCast R] (w : MixWeights R) (m : Mix),
    m.amp w = w.pulse * (m.pulse : R) + w.tri * (m.tri : R) + w.noise * (m.noise : R) + w.dmc * (m.dmc : R))

namespace Sys2Proof.Machine

/-- The state after `k` reads of a port. -/
def afterReads (a : Word) (k : Nat) (s : State) : State := Nat.repeat (fun u => (busRead a u).2) k s

end Sys2Proof.Machine

/-- R213 to R216: after the strobe is set and cleared, eight reads of a port give its buttons A first, and every later read
CTRL_AFTER_8; while the strobe is set every read gives button A; `setButton` sets one bit, at once in a strobed port, and refuses
anything out of range; as an input of the driving loop a refused call changes nothing. -/
def Obligations.ControllersShiftOutButtons : Prop :=
  ∀ (s : State) (base : Nat) (on off : Byte) (k : Nat), on.getLsbD 0 = true → off.getLsbD 0 = false →
    let u := busWrite base 0x4016 on s
    let t := busWrite base 0x4016 off u
    ((peek 0x4016 (afterReads 0x4016 k t)).getLsbD 0 = if k < 8 then s.pads.pad0.buttons.getLsbD k else s.params.ctrlAfter8) ∧
    ((peek 0x4017 (afterReads 0x4017 k t)).getLsbD 0 = if k < 8 then s.pads.pad1.buttons.getLsbD k else s.params.ctrlAfter8) ∧
    (peek 0x4016 (afterReads 0x4016 k u)).getLsbD 0 = s.pads.pad0.buttons.getLsbD 0 ∧
    (peek 0x4017 (afterReads 0x4017 k u)).getLsbD 0 = s.pads.pad1.buttons.getLsbD 0 ∧
    (∀ port id pressed, (s.setButton port id pressed = none ↔ 2 ≤ port ∨ 8 ≤ id) ∧
      ∀ v, s.setButton port id pressed = some v → v = s.setPads v.pads ∧ v.pads.strobe = s.pads.strobe ∧
        (port = 0 → v.pads.pad1 = s.pads.pad1 ∧
          v.pads.pad0.csr = (if s.pads.strobe then v.pads.pad0.buttons else s.pads.pad0.csr) ∧
          ∀ j < 8, v.pads.pad0.buttons.getLsbD j = if j = id then pressed else s.pads.pad0.buttons.getLsbD j) ∧
        (port = 1 → v.pads.pad0 = s.pads.pad0 ∧
          v.pads.pad1.csr = (if s.pads.strobe then v.pads.pad1.buttons else s.pads.pad1.csr) ∧
          ∀ j < 8, v.pads.pad1.buttons.getLsbD j = if j = id then pressed else s.pads.pad1.buttons.getLsbD j)) ∧
    (∀ (h : Session) port id pressed, let h' := HostInput.apply h (.setButton port id pressed)
      (port < 2 → id < 8 → h.machine.setButton port id pressed = some h'.machine ∧ h'.saved = h.saved) ∧
      (2 ≤ port ∨ 8 ≤ id → h' = h))

namespace Sys2Proof.Machine

/-- A snapshot has the shape of machine `s` (R221, R50, R52, R167): the mapper variant, the same RAMs in the cartridge, every array
canonical and of its size, at most 8 selected sprites, each an OAM index. -/
def SameShape (n : Snapshot) (s : State) : Prop :=
  ((n.mapper.regs = .mapper0 ∧ s.mapper.regs = .mapper0) ∨
    ((∃ r, n.mapper.regs = .mapper1 r) ∧ ∃ r, s.mapper.regs = .mapper1 r)) ∧
  (n.hasPrgRam = true ↔ s.image.prgRamPresent = true) ∧ (n.hasChrRam = true ↔ s.image.nChr = 0) ∧
  n.ram.isArray 0x800 = true ∧ n.mapper.prgRam.isArray 0x2000 = true ∧ n.mapper.chrRam.isArray 0x2000 = true ∧
  n.ppu.ntRam.isArray 0x1000 = true ∧ n.ppu.pal.isArray 0x20 = true ∧ n.ppu.oam.isArray 0x100 = true ∧
  n.ppu.bgidx.wf = true ∧ n.ppu.fb.wf = true ∧ n.ppu.sprites.length ≤ 8 ∧ ∀ e ∈ n.ppu.sprites, e < 64

end Sys2Proof.Machine

/-- R220, R221: a machine's own snapshot restores it exactly, at any later time: every register, memory and device is that of the moment
it was taken. A snapshot is refused, with nothing changed, exactly on a halted machine, which only a new load ends (R24; log entry 25),
and where its shape is another: the mapper variant, PRG-RAM or CHR-RAM in one and not in the other, or any array, line buffer or sprite
list of a wrong size or form. What a shape takes in and what a snapshot leaves out is log entry 23. As an input of the driving loop,
taking a snapshot changes no machine. -/
def Obligations.SaveStateRestoresMachine : Prop :=
  (∀ s : State, s.Wf → s.cpu.halted = none → s.setSaveState s.getSaveState = some s) ∧
  (∀ s t : State, s.Wf → t.cpu.halted = none → t.image = s.image → t.params = s.params → s.mapper.regs.sameVariant t.mapper.regs = true →
    t.setSaveState s.getSaveState = some { s with env := t.env }) ∧
  (∀ s t : State, (∃ r, s.mapper.regs = .mapper1 r) → t.mapper.regs = .mapper0 →
    t.setSaveState s.getSaveState = none ∧ s.setSaveState t.getSaveState = none) ∧
  (∀ (s : State) (n : Snapshot), (s.cpu.halted ≠ none ∨ ¬ SameShape n s → s.setSaveState n = none) ∧
    (s.cpu.halted = none → SameShape n s → s.setSaveState n = some { s with
      cpu := n.cpu, ram := n.ram, ppu := n.ppu, apu := n.apu, pads := n.pads, mapper := n.mapper })) ∧
  (∀ (h : Session) (n : Snapshot),
    HostInput.apply h .getSaveState = { h with saved := h.machine.getSaveState :: h.saved } ∧
    (h.machine.cpu.halted = none → SameShape n h.machine → h.machine.setSaveState n = some (HostInput.apply h (.setSaveState n)).machine ∧
      (HostInput.apply h (.setSaveState n)).saved = h.saved) ∧
    (h.machine.cpu.halted ≠ none ∨ ¬ SameShape n h.machine → HostInput.apply h (.setSaveState n) = h))
end

