-- ==== Sys2Proof/Laws/Bits.lean ====
section
/-! SUPPORT. What the byte-order and bit-field helpers compute, as numbers. -/

namespace Sys2Proof

theorem mkWord_toNat (lo hi : Byte) : (mkWord lo hi).toNat = lo.toNat + 256 * hi.toNat := by
  have h1 := lo.isLt
  have h2 : (mkWord lo hi).toNat = hi.toNat <<< 8 ||| lo.toNat := BitVec.toNat_append ..
  rw [h2, Nat.shiftLeft_eq, Nat.mul_comm, ← Nat.two_pow_add_eq_or_of_lt h1]
  omega

theorem loByte_toNat (w : Word) : (loByte w).toNat = w.toNat % 256 := by
  simp [loByte, BitVec.toNat_setWidth]

theorem hiByte_toNat (w : Word) : (hiByte w).toNat = w.toNat / 256 := by
  have h := w.isLt
  simp only [hiByte, BitVec.toNat_setWidth, BitVec.toNat_ushiftRight, Nat.shiftRight_eq_div_pow]
  omega

@[simp] theorem mkWord_loByte_hiByte (w : Word) : mkWord (loByte w) (hiByte w) = w := by
  apply BitVec.eq_of_toNat_eq
  rw [mkWord_toNat, loByte_toNat, hiByte_toNat]
  omega

@[simp] theorem loByte_mkWord (lo hi : Byte) : loByte (mkWord lo hi) = lo := by
  apply BitVec.eq_of_toNat_eq
  have h := lo.isLt
  rw [loByte_toNat, mkWord_toNat]
  omega

@[simp] theorem hiByte_mkWord (lo hi : Byte) : hiByte (mkWord lo hi) = hi := by
  apply BitVec.eq_of_toNat_eq
  have h := lo.isLt
  rw [hiByte_toNat, mkWord_toNat]
  omega

theorem zext16_toNat (b : Byte) : (zext16 b).toNat = b.toNat := by
  have h := b.isLt
  simp only [zext16, BitVec.toNat_setWidth]
  omega

/-- A field of `n` bits from bit `lo` on, as a number. -/
theorem bitField_toNat (n lo : Nat) {w : Nat} (v : BitVec w) : (bitField n lo v).toNat = v.toNat / 2 ^ lo % 2 ^ n := by
  simp [bitField, BitVec.extractLsb'_toNat, Nat.shiftRight_eq_div_pow]

theorem bitField_getLsbD (n lo : Nat) {w : Nat} (v : BitVec w) (i : Nat) :
    (bitField n lo v).getLsbD i = (decide (i < n) && v.getLsbD (lo + i)) := by
  simp [bitField]

/-- A replaced field, bit by bit. -/
theorem setBitField_getLsbD {w n : Nat} (lo : Nat) (f : BitVec n) (v : BitVec w) (i : Nat) :
    (setBitField lo f v).getLsbD i
      = (decide (i < w) && if lo ≤ i ∧ i < lo + n then f.getLsbD (i - lo) else v.getLsbD i) := by
  simp only [setBitField, BitVec.getLsbD_or, BitVec.getLsbD_and, BitVec.getLsbD_not, BitVec.getLsbD_shiftLeft,
    BitVec.getLsbD_setWidth, BitVec.getLsbD_allOnes]
  by_cases hw : i < w
  · by_cases h1 : lo ≤ i
    · by_cases h2 : i < lo + n
      · have h3 : i - lo < n := by omega
        have h4 : i - lo < w := by omega
        have h5 : ¬ i < lo := by omega
        simp [hw, h1, h2, h3, h4, h5]
      · have h3 : ¬ i - lo < n := by omega
        have h6 : f.getLsbD (i - lo) = false := BitVec.getLsbD_of_ge _ _ (by omega)
        simp [hw, h2, h3, h6]
    · have h5 : i < lo := by omega
      simp [hw, h1, h5]
  · have : v.getLsbD i = false := BitVec.getLsbD_of_ge _ _ (by omega)
    simp [hw, this]

/-- A replaced field, as a number: what stood below and above the field is kept. -/
theorem setBitField_toNat {w n : Nat} (lo : Nat) (f : BitVec n) (v : BitVec w) (h : lo + n ≤ w) :
    (setBitField lo f v).toNat
      = v.toNat / 2 ^ (lo + n) * 2 ^ (lo + n) + f.toNat * 2 ^ lo + v.toNat % 2 ^ lo := by
  have hf := f.isLt
  have hm : v.toNat % 2 ^ lo < 2 ^ lo := Nat.mod_lt _ (Nat.two_pow_pos _)
  have hlow : f.toNat * 2 ^ lo + v.toNat % 2 ^ lo < 2 ^ (lo + n) := by
    have : (f.toNat + 1) * 2 ^ lo ≤ 2 ^ n * 2 ^ lo := Nat.mul_le_mul_right _ hf
    rw [Nat.pow_add, Nat.mul_comm (2 ^ lo)]
    rw [Nat.add_mul] at this
    omega
  apply Nat.eq_of_testBit_eq
  intro i
  rw [show (setBitField lo f v).toNat.testBit i = (setBitField lo f v).getLsbD i from rfl, setBitField_getLsbD,
    Nat.add_assoc, Nat.mul_comm _ (2 ^ (lo + n)), Nat.testBit_two_pow_mul_add _ hlow, Nat.mul_comm _ (2 ^ lo),
    Nat.testBit_two_pow_mul_add _ hm]
  by_cases h1 : i < lo
  · have h2 : i < lo + n := by omega
    have h3 : i < w := by omega
    have h4 : ¬ lo ≤ i := by omega
    simp [h1, h2, h3, h4, Nat.testBit_mod_two_pow, BitVec.getLsbD]
  · by_cases h2 : i < lo + n
    · have h3 : i < w := by omega
      have h4 : lo ≤ i := by omega
      simp [h1, h2, h3, h4, BitVec.getLsbD]
    · have h4 : lo + n + (i - (lo + n)) = i := by omega
      simp only [h2, and_false, if_false, Nat.testBit_div_two_pow]
      rw [show i - (lo + n) + (lo + n) = i from by omega]
      by_cases h5 : i < w
      · simp [h5, BitVec.getLsbD]
      · have : v.toNat.testBit i = false := BitVec.getLsbD_of_ge v i (by omega)
        simp [h5, this]

end Sys2Proof

namespace Sys2Proof.Machine

/-- The eight bits of `byteOfBits`. -/
theorem byteOfBits_getLsbD (b7 b6 b5 b4 b3 b2 b1 b0 : Bool) :
    (byteOfBits b7 b6 b5 b4 b3 b2 b1 b0).getLsbD 7 = b7 ∧ (byteOfBits b7 b6 b5 b4 b3 b2 b1 b0).getLsbD 6 = b6 ∧
    (byteOfBits b7 b6 b5 b4 b3 b2 b1 b0).getLsbD 5 = b5 ∧ (byteOfBits b7 b6 b5 b4 b3 b2 b1 b0).getLsbD 4 = b4 ∧
    (byteOfBits b7 b6 b5 b4 b3 b2 b1 b0).getLsbD 3 = b3 ∧ (byteOfBits b7 b6 b5 b4 b3 b2 b1 b0).getLsbD 2 = b2 ∧
    (byteOfBits b7 b6 b5 b4 b3 b2 b1 b0).getLsbD 1 = b1 ∧ (byteOfBits b7 b6 b5 b4 b3 b2 b1 b0).getLsbD 0 = b0 := by
  revert b7 b6 b5 b4 b3 b2 b1 b0; decide

/-- A status byte unpacks to the flags it was packed from (R15, R16). -/
@[simp] theorem Flags.unpack_pack (brk : Bool) (f : Flags) : Flags.unpack (f.pack brk) = f := by
  obtain ⟨h7, h6, -, -, h3, h2, h1, h0⟩ := byteOfBits_getLsbD f.n f.v true brk f.d f.i f.z f.c
  simp only [Flags.unpack, Flags.pack, h7, h6, h3, h2, h1, h0]

/-- Bits 4 and 5 of a packed status byte: `brk` and 1 (R15). -/
theorem Flags.pack_bits (brk : Bool) (f : Flags) : (f.pack brk).getLsbD 4 = brk ∧ (f.pack brk).getLsbD 5 = true := by
  obtain ⟨-, -, h5, h4, -⟩ := byteOfBits_getLsbD f.n f.v true brk f.d f.i f.z f.c
  exact ⟨h4, h5⟩

end Sys2Proof.Machine
end

