-- ==== Sys2Proof/Laws/Memory.lean ====
section
/-! SUPPORT. The laws of the byte memories and of the line buffers: read after write, and the canonical form kept. -/

namespace Sys2Proof.Machine

theorem Memory.wfFrom_mono {m : Memory} {lo lo' : Nat} (h : lo' ≤ lo) (hm : Memory.wfFrom lo m = true) :
    Memory.wfFrom lo' m = true := by
  cases m with
  | nil => rfl
  | cons c rest =>
    simp only [Memory.wfFrom, Bool.and_eq_true, decide_eq_true_eq] at hm ⊢
    exact ⟨⟨by omega, hm.1.2⟩, hm.2⟩

/-- No address below the bound is listed. -/
theorem Memory.read_of_lt {m : Memory} {lo a : Nat} (hm : Memory.wfFrom lo m = true) (h : a < lo) :
    m.read a = unlistedByte := by
  induction m generalizing lo with
  | nil => rfl
  | cons c rest ih =>
    simp only [Memory.wfFrom, Bool.and_eq_true, decide_eq_true_eq] at hm
    rw [Memory.read, if_neg (by omega)]
    exact ih hm.2 (by omega)

/-- A write leaves every other address alone. -/
theorem Memory.read_write_ne (m : Memory) {a b : Nat} (v : Byte) (h : b ≠ a) : (m.write a v).read b = m.read b := by
  induction m with
  | nil =>
    simp only [Memory.write]
    split
    · rfl
    · simp [Memory.read, Ne.symm h]
  | cons c rest ih =>
    obtain ⟨k, x⟩ := c
    simp only [Memory.write]
    split
    · split
      · rfl
      · simp [Memory.read, Ne.symm h]
    · split
      · have hk : ¬ k = b := by omega
        split <;> simp [Memory.read, Ne.symm h, hk]
      · simp only [Memory.read, ih]

/-- Reading what was written; the canonical form matters, since writing `unlistedByte` removes the cell. -/
theorem Memory.read_write_self {m : Memory} {lo : Nat} (hm : Memory.wfFrom lo m = true) (a : Nat) (v : Byte) :
    (m.write a v).read a = v := by
  induction m generalizing lo with
  | nil =>
    simp only [Memory.write]
    split
    · simp_all [Memory.read]
    · simp [Memory.read]
  | cons c rest ih =>
    obtain ⟨k, x⟩ := c
    have hm' := hm
    simp only [Memory.wfFrom, Bool.and_eq_true, decide_eq_true_eq] at hm
    simp only [Memory.write]
    split
    · rename_i hlt
      split
      · rename_i hv
        rw [hv]
        exact Memory.read_of_lt (Memory.wfFrom_mono (lo := k) (Nat.le_refl _) (by
          simp only [Memory.wfFrom, Bool.and_eq_true, decide_eq_true_eq]; exact ⟨⟨Nat.le_refl _, hm.1.2⟩, hm.2⟩)) hlt
      · simp [Memory.read]
    · split
      · rename_i heq
        split
        · rename_i hv
          rw [hv]
          exact Memory.read_of_lt hm.2 (by omega)
        · simp [Memory.read]
      · rename_i hne
        rw [Memory.read, if_neg (by omega)]
        exact ih hm.2

/-- A write keeps the canonical form. -/
theorem Memory.wfFrom_write {m : Memory} {lo : Nat} (hm : Memory.wfFrom lo m = true) {a : Nat} (ha : lo ≤ a) (v : Byte) :
    Memory.wfFrom lo (m.write a v) = true := by
  induction m generalizing lo with
  | nil =>
    simp only [Memory.write]
    split
    · rfl
    · simp_all [Memory.wfFrom]
  | cons c rest ih =>
    obtain ⟨k, x⟩ := c
    have hm' := hm
    simp only [Memory.wfFrom, Bool.and_eq_true, decide_eq_true_eq] at hm
    simp only [Memory.write]
    split
    · split
      · exact hm'
      · rename_i hlt hv
        simp only [Memory.wfFrom, Bool.and_eq_true, decide_eq_true_eq, bne_iff_ne, ne_eq] at hm ⊢
        exact ⟨⟨ha, hv⟩, ⟨by omega, hm.1.2⟩, hm.2⟩
    · split
      · rename_i heq
        split
        · exact Memory.wfFrom_mono (by omega) hm.2
        · rename_i hv
          simp only [Memory.wfFrom, Bool.and_eq_true, decide_eq_true_eq, bne_iff_ne, ne_eq]
          exact ⟨⟨ha, hv⟩, heq ▸ hm.2⟩
      · simp only [Memory.wfFrom, Bool.and_eq_true, decide_eq_true_eq]
        exact ⟨hm.1, ih hm.2 (by omega)⟩

theorem Memory.wf_write {m : Memory} (hm : m.wf = true) (a : Nat) (v : Byte) : (m.write a v).wf = true :=
  Memory.wfFrom_write hm (Nat.zero_le a) v

theorem Memory.below_cons (n k : Nat) (b : Byte) (m : Memory) :
    Memory.below n ((k, b) :: m) = true ↔ k < n ∧ m.below n = true := by
  simp only [Memory.below, List.all_cons, Bool.and_eq_true, decide_eq_true_eq]

/-- A write inside the array keeps every listed address inside it. -/
theorem Memory.below_write {n : Nat} {m : Memory} (hm : m.below n = true) {a : Nat} (ha : a < n) (v : Byte) :
    (m.write a v).below n = true := by
  induction m with
  | nil =>
    simp only [Memory.write]
    split
    · rfl
    · exact (Memory.below_cons ..).mpr ⟨ha, rfl⟩
  | cons c rest ih =>
    have h := (Memory.below_cons ..).mp hm
    simp only [Memory.write]
    split
    · split
      · exact hm
      · exact (Memory.below_cons ..).mpr ⟨ha, hm⟩
    · split
      · split
        · exact h.2
        · exact (Memory.below_cons ..).mpr ⟨ha, h.2⟩
      · exact (Memory.below_cons ..).mpr ⟨h.1, ih h.2⟩

/-- An array stays an array under a write inside it. -/
theorem Memory.isArray_write {n : Nat} {m : Memory} (hm : m.isArray n = true) {a : Nat} (ha : a < n) (v : Byte) :
    (m.write a v).isArray n = true := by
  simp only [Memory.isArray, Bool.and_eq_true] at hm ⊢
  exact ⟨Memory.wf_write hm.1 a v, Memory.below_write hm.2 ha v⟩

theorem Memory.wf_of_isArray {n : Nat} {m : Memory} (hm : m.isArray n = true) : m.wf = true := by
  simp only [Memory.isArray, Bool.and_eq_true] at hm; exact hm.1

@[simp] theorem Memory.isArray_nil (n : Nat) : Memory.isArray n [] = true := rfl

/-- The bytes of a list, placed from an address on, are in canonical form and end where the list ends. -/
theorem Memory.wfFrom_ofBytesFrom (lo : Nat) (bs : List Byte) : Memory.wfFrom lo (Memory.ofBytesFrom lo bs) = true := by
  induction bs generalizing lo with
  | nil => rfl
  | cons b rest ih =>
    simp only [Memory.ofBytesFrom]
    split
    · exact Memory.wfFrom_mono (Nat.le_succ lo) (ih (lo + 1))
    · rename_i hb
      simp only [Memory.wfFrom, Bool.and_eq_true, decide_eq_true_eq, bne_iff_ne, ne_eq]
      exact ⟨⟨Nat.le_refl _, hb⟩, ih (lo + 1)⟩

theorem Memory.below_ofBytesFrom {n : Nat} (lo : Nat) (bs : List Byte) (h : lo + bs.length ≤ n) :
    Memory.below n (Memory.ofBytesFrom lo bs) = true := by
  induction bs generalizing lo with
  | nil => rfl
  | cons b rest ih =>
    simp only [List.length_cons] at h
    simp only [Memory.ofBytesFrom]
    split
    · exact ih (lo + 1) (by omega)
    · simp only [Memory.below, List.all_cons, Bool.and_eq_true, decide_eq_true_eq]
      exact ⟨by omega, ih (lo + 1) (by omega)⟩

theorem Memory.isArray_ofBytes {n : Nat} (bs : List Byte) (h : bs.length ≤ n) :
    Memory.isArray n (Memory.ofBytesFrom 0 bs) = true := by
  simp only [Memory.isArray, Bool.and_eq_true]
  exact ⟨Memory.wfFrom_ofBytesFrom 0 bs, Memory.below_ofBytesFrom 0 bs (by omega)⟩

/-- Reading back a placed list. -/
theorem Memory.read_ofBytesFrom (lo : Nat) (bs : List Byte) (i : Nat) :
    Memory.read (Memory.ofBytesFrom lo bs) (lo + i) = bs.getD i unlistedByte := by
  induction bs generalizing lo i with
  | nil => simp [Memory.ofBytesFrom, Memory.read]
  | cons b rest ih =>
    cases i with
    | zero =>
      simp only [Memory.ofBytesFrom]
      split
      · rename_i hb
        rw [Memory.read_of_lt (Memory.wfFrom_ofBytesFrom (lo + 1) rest) (by omega)]
        simp [hb]
      · simp [Memory.read]
    | succ j =>
      have h := ih (lo + 1) j
      rw [show lo + 1 + j = lo + (j + 1) from by omega] at h
      simp only [Memory.ofBytesFrom]
      split
      · simpa using h
      · rw [Memory.read, if_neg (by omega)]
        simpa using h

theorem Lines.wfFrom_mono {α : Type} {ls : Lines α} {lo lo' : Nat} (h : lo' ≤ lo) (hl : Lines.wfFrom lo ls = true) :
    Lines.wfFrom lo' ls = true := by
  cases ls with
  | nil => rfl
  | cons c rest =>
    simp only [Lines.wfFrom, Bool.and_eq_true, decide_eq_true_eq] at hl ⊢
    exact ⟨⟨⟨by omega, hl.1.1.2⟩, hl.1.2⟩, hl.2⟩

/-- A rendered line keeps the buffer's form. -/
theorem Lines.wfFrom_set {α : Type} {ls : Lines α} {lo : Nat} (hl : Lines.wfFrom lo ls = true) {s : Nat} (hs : lo ≤ s)
    (h240 : s < 240) {row : List α} (hrow : row.length = 256) : Lines.wfFrom lo (ls.set s row) = true := by
  induction ls generalizing lo with
  | nil => simp [Lines.set, Lines.wfFrom, hs, h240, hrow]
  | cons c rest ih =>
    obtain ⟨k, old⟩ := c
    have hl' := hl
    simp only [Lines.wfFrom, Bool.and_eq_true, decide_eq_true_eq, beq_iff_eq] at hl
    simp only [Lines.set]
    split
    · simp only [Lines.wfFrom, Bool.and_eq_true, decide_eq_true_eq, beq_iff_eq]
      exact ⟨⟨⟨hs, h240⟩, hrow⟩, ⟨⟨⟨by omega, hl.1.1.2⟩, hl.1.2⟩, hl.2⟩⟩
    · split
      · rename_i heq
        simp only [Lines.wfFrom, Bool.and_eq_true, decide_eq_true_eq, beq_iff_eq]
        exact ⟨⟨⟨hs, h240⟩, hrow⟩, heq ▸ hl.2⟩
      · simp only [Lines.wfFrom, Bool.and_eq_true, decide_eq_true_eq, beq_iff_eq]
        exact ⟨hl.1, ih hl.2 (by omega)⟩

theorem Lines.wf_set {α : Type} {ls : Lines α} (hl : ls.wf = true) {s : Nat} (h240 : s < 240) {row : List α}
    (hrow : row.length = 256) : Lines.wf (ls.set s row) = true := Lines.wfFrom_set hl (Nat.zero_le s) h240 hrow

theorem Lines.row_of_lt {α : Type} {ls : Lines α} {lo s : Nat} (hl : Lines.wfFrom lo ls = true) (h : s < lo) :
    ls.row s = [] := by
  induction ls generalizing lo with
  | nil => rfl
  | cons c rest ih =>
    simp only [Lines.wfFrom, Bool.and_eq_true, decide_eq_true_eq] at hl
    rw [Lines.row, if_neg (by omega)]
    exact ih hl.2 (by omega)

/-- The line just rendered. -/
theorem Lines.row_set_self {α : Type} (ls : Lines α) (s : Nat) (row : List α) : (ls.set s row).row s = row := by
  induction ls with
  | nil => simp [Lines.set, Lines.row]
  | cons c rest ih =>
    simp only [Lines.set]
    split
    · simp [Lines.row]
    · split
      · simp [Lines.row]
      · rw [Lines.row, if_neg (by omega)]
        exact ih

/-- Every other line is kept. -/
theorem Lines.row_set_ne {α : Type} (ls : Lines α) {s k : Nat} (row : List α) (h : k ≠ s) :
    (ls.set s row).row k = ls.row k := by
  induction ls with
  | nil => simp [Lines.set, Lines.row, Ne.symm h]
  | cons c rest ih =>
    obtain ⟨j, old⟩ := c
    simp only [Lines.set]
    split
    · simp [Lines.row, Ne.symm h]
    · split
      · have : ¬ j = k := by omega
        simp [Lines.row, Ne.symm h, this]
      · simp only [Lines.row, ih]

end Sys2Proof.Machine
end

