-- ==== Sys2Proof/Laws/State.lean ====
section
/-! SUPPORT. One lemma per field per update of State, true by rfl, so that no later proof unfolds a record update. -/

namespace Sys2Proof.Machine

@[simp] theorem State.setA_a (v : Byte) (s : State) : (s.setA v).cpu.a = v := rfl
@[simp] theorem State.setA_x (v : Byte) (s : State) : (s.setA v).cpu.x = s.cpu.x := rfl
@[simp] theorem State.setA_y (v : Byte) (s : State) : (s.setA v).cpu.y = s.cpu.y := rfl
@[simp] theorem State.setA_sp (v : Byte) (s : State) : (s.setA v).cpu.sp = s.cpu.sp := rfl
@[simp] theorem State.setA_pc (v : Byte) (s : State) : (s.setA v).cpu.pc = s.cpu.pc := rfl
@[simp] theorem State.setA_flags (v : Byte) (s : State) : (s.setA v).cpu.flags = s.cpu.flags := rfl
@[simp] theorem State.setA_cycles (v : Byte) (s : State) : (s.setA v).cpu.cycles = s.cpu.cycles := rfl
@[simp] theorem State.setA_extra (v : Byte) (s : State) : (s.setA v).cpu.extra = s.cpu.extra := rfl
@[simp] theorem State.setA_nmiPending (v : Byte) (s : State) : (s.setA v).cpu.nmiPending = s.cpu.nmiPending := rfl
@[simp] theorem State.setA_halted (v : Byte) (s : State) : (s.setA v).cpu.halted = s.cpu.halted := rfl
@[simp] theorem State.setA_ram (v : Byte) (s : State) : (s.setA v).ram = s.ram := rfl
@[simp] theorem State.setA_image (v : Byte) (s : State) : (s.setA v).image = s.image := rfl
@[simp] theorem State.setA_mapper (v : Byte) (s : State) : (s.setA v).mapper = s.mapper := rfl
@[simp] theorem State.setA_ppu (v : Byte) (s : State) : (s.setA v).ppu = s.ppu := rfl
@[simp] theorem State.setA_apu (v : Byte) (s : State) : (s.setA v).apu = s.apu := rfl
@[simp] theorem State.setA_pads (v : Byte) (s : State) : (s.setA v).pads = s.pads := rfl
@[simp] theorem State.setA_params (v : Byte) (s : State) : (s.setA v).params = s.params := rfl
@[simp] theorem State.setA_env (v : Byte) (s : State) : (s.setA v).env = s.env := rfl

@[simp] theorem State.setX_a (v : Byte) (s : State) : (s.setX v).cpu.a = s.cpu.a := rfl
@[simp] theorem State.setX_x (v : Byte) (s : State) : (s.setX v).cpu.x = v := rfl
@[simp] theorem State.setX_y (v : Byte) (s : State) : (s.setX v).cpu.y = s.cpu.y := rfl
@[simp] theorem State.setX_sp (v : Byte) (s : State) : (s.setX v).cpu.sp = s.cpu.sp := rfl
@[simp] theorem State.setX_pc (v : Byte) (s : State) : (s.setX v).cpu.pc = s.cpu.pc := rfl
@[simp] theorem State.setX_flags (v : Byte) (s : State) : (s.setX v).cpu.flags = s.cpu.flags := rfl
@[simp] theorem State.setX_cycles (v : Byte) (s : State) : (s.setX v).cpu.cycles = s.cpu.cycles := rfl
@[simp] theorem State.setX_extra (v : Byte) (s : State) : (s.setX v).cpu.extra = s.cpu.extra := rfl
@[simp] theorem State.setX_nmiPending (v : Byte) (s : State) : (s.setX v).cpu.nmiPending = s.cpu.nmiPending := rfl
@[simp] theorem State.setX_halted (v : Byte) (s : State) : (s.setX v).cpu.halted = s.cpu.halted := rfl
@[simp] theorem State.setX_ram (v : Byte) (s : State) : (s.setX v).ram = s.ram := rfl
@[simp] theorem State.setX_image (v : Byte) (s : State) : (s.setX v).image = s.image := rfl
@[simp] theorem State.setX_mapper (v : Byte) (s : State) : (s.setX v).mapper = s.mapper := rfl
@[simp] theorem State.setX_ppu (v : Byte) (s : State) : (s.setX v).ppu = s.ppu := rfl
@[simp] theorem State.setX_apu (v : Byte) (s : State) : (s.setX v).apu = s.apu := rfl
@[simp] theorem State.setX_pads (v : Byte) (s : State) : (s.setX v).pads = s.pads := rfl
@[simp] theorem State.setX_params (v : Byte) (s : State) : (s.setX v).params = s.params := rfl
@[simp] theorem State.setX_env (v : Byte) (s : State) : (s.setX v).env = s.env := rfl

@[simp] theorem State.setY_a (v : Byte) (s : State) : (s.setY v).cpu.a = s.cpu.a := rfl
@[simp] theorem State.setY_x (v : Byte) (s : State) : (s.setY v).cpu.x = s.cpu.x := rfl
@[simp] theorem State.setY_y (v : Byte) (s : State) : (s.setY v).cpu.y = v := rfl
@[simp] theorem State.setY_sp (v : Byte) (s : State) : (s.setY v).cpu.sp = s.cpu.sp := rfl
@[simp] theorem State.setY_pc (v : Byte) (s : State) : (s.setY v).cpu.pc = s.cpu.pc := rfl
@[simp] theorem State.setY_flags (v : Byte) (s : State) : (s.setY v).cpu.flags = s.cpu.flags := rfl
@[simp] theorem State.setY_cycles (v : Byte) (s : State) : (s.setY v).cpu.cycles = s.cpu.cycles := rfl
@[simp] theorem State.setY_extra (v : Byte) (s : State) : (s.setY v).cpu.extra = s.cpu.extra := rfl
@[simp] theorem State.setY_nmiPending (v : Byte) (s : State) : (s.setY v).cpu.nmiPending = s.cpu.nmiPending := rfl
@[simp] theorem State.setY_halted (v : Byte) (s : State) : (s.setY v).cpu.halted = s.cpu.halted := rfl
@[simp] theorem State.setY_ram (v : Byte) (s : State) : (s.setY v).ram = s.ram := rfl
@[simp] theorem State.setY_image (v : Byte) (s : State) : (s.setY v).image = s.image := rfl
@[simp] theorem State.setY_mapper (v : Byte) (s : State) : (s.setY v).mapper = s.mapper := rfl
@[simp] theorem State.setY_ppu (v : Byte) (s : State) : (s.setY v).ppu = s.ppu := rfl
@[simp] theorem State.setY_apu (v : Byte) (s : State) : (s.setY v).apu = s.apu := rfl
@[simp] theorem State.setY_pads (v : Byte) (s : State) : (s.setY v).pads = s.pads := rfl
@[simp] theorem State.setY_params (v : Byte) (s : State) : (s.setY v).params = s.params := rfl
@[simp] theorem State.setY_env (v : Byte) (s : State) : (s.setY v).env = s.env := rfl

@[simp] theorem State.setSp_a (v : Byte) (s : State) : (s.setSp v).cpu.a = s.cpu.a := rfl
@[simp] theorem State.setSp_x (v : Byte) (s : State) : (s.setSp v).cpu.x = s.cpu.x := rfl
@[simp] theorem State.setSp_y (v : Byte) (s : State) : (s.setSp v).cpu.y = s.cpu.y := rfl
@[simp] theorem State.setSp_sp (v : Byte) (s : State) : (s.setSp v).cpu.sp = v := rfl
@[simp] theorem State.setSp_pc (v : Byte) (s : State) : (s.setSp v).cpu.pc = s.cpu.pc := rfl
@[simp] theorem State.setSp_flags (v : Byte) (s : State) : (s.setSp v).cpu.flags = s.cpu.flags := rfl
@[simp] theorem State.setSp_cycles (v : Byte) (s : State) : (s.setSp v).cpu.cycles = s.cpu.cycles := rfl
@[simp] theorem State.setSp_extra (v : Byte) (s : State) : (s.setSp v).cpu.extra = s.cpu.extra := rfl
@[simp] theorem State.setSp_nmiPending (v : Byte) (s : State) : (s.setSp v).cpu.nmiPending = s.cpu.nmiPending := rfl
@[simp] theorem State.setSp_halted (v : Byte) (s : State) : (s.setSp v).cpu.halted = s.cpu.halted := rfl
@[simp] theorem State.setSp_ram (v : Byte) (s : State) : (s.setSp v).ram = s.ram := rfl
@[simp] theorem State.setSp_image (v : Byte) (s : State) : (s.setSp v).image = s.image := rfl
@[simp] theorem State.setSp_mapper (v : Byte) (s : State) : (s.setSp v).mapper = s.mapper := rfl
@[simp] theorem State.setSp_ppu (v : Byte) (s : State) : (s.setSp v).ppu = s.ppu := rfl
@[simp] theorem State.setSp_apu (v : Byte) (s : State) : (s.setSp v).apu = s.apu := rfl
@[simp] theorem State.setSp_pads (v : Byte) (s : State) : (s.setSp v).pads = s.pads := rfl
@[simp] theorem State.setSp_params (v : Byte) (s : State) : (s.setSp v).params = s.params := rfl
@[simp] theorem State.setSp_env (v : Byte) (s : State) : (s.setSp v).env = s.env := rfl

@[simp] theorem State.setPc_a (v : Word) (s : State) : (s.setPc v).cpu.a = s.cpu.a := rfl
@[simp] theorem State.setPc_x (v : Word) (s : State) : (s.setPc v).cpu.x = s.cpu.x := rfl
@[simp] theorem State.setPc_y (v : Word) (s : State) : (s.setPc v).cpu.y = s.cpu.y := rfl
@[simp] theorem State.setPc_sp (v : Word) (s : State) : (s.setPc v).cpu.sp = s.cpu.sp := rfl
@[simp] theorem State.setPc_pc (v : Word) (s : State) : (s.setPc v).cpu.pc = v := rfl
@[simp] theorem State.setPc_flags (v : Word) (s : State) : (s.setPc v).cpu.flags = s.cpu.flags := rfl
@[simp] theorem State.setPc_cycles (v : Word) (s : State) : (s.setPc v).cpu.cycles = s.cpu.cycles := rfl
@[simp] theorem State.setPc_extra (v : Word) (s : State) : (s.setPc v).cpu.extra = s.cpu.extra := rfl
@[simp] theorem State.setPc_nmiPending (v : Word) (s : State) : (s.setPc v).cpu.nmiPending = s.cpu.nmiPending := rfl
@[simp] theorem State.setPc_halted (v : Word) (s : State) : (s.setPc v).cpu.halted = s.cpu.halted := rfl
@[simp] theorem State.setPc_ram (v : Word) (s : State) : (s.setPc v).ram = s.ram := rfl
@[simp] theorem State.setPc_image (v : Word) (s : State) : (s.setPc v).image = s.image := rfl
@[simp] theorem State.setPc_mapper (v : Word) (s : State) : (s.setPc v).mapper = s.mapper := rfl
@[simp] theorem State.setPc_ppu (v : Word) (s : State) : (s.setPc v).ppu = s.ppu := rfl
@[simp] theorem State.setPc_apu (v : Word) (s : State) : (s.setPc v).apu = s.apu := rfl
@[simp] theorem State.setPc_pads (v : Word) (s : State) : (s.setPc v).pads = s.pads := rfl
@[simp] theorem State.setPc_params (v : Word) (s : State) : (s.setPc v).params = s.params := rfl
@[simp] theorem State.setPc_env (v : Word) (s : State) : (s.setPc v).env = s.env := rfl

@[simp] theorem State.setFlags_a (f : Flags) (s : State) : (s.setFlags f).cpu.a = s.cpu.a := rfl
@[simp] theorem State.setFlags_x (f : Flags) (s : State) : (s.setFlags f).cpu.x = s.cpu.x := rfl
@[simp] theorem State.setFlags_y (f : Flags) (s : State) : (s.setFlags f).cpu.y = s.cpu.y := rfl
@[simp] theorem State.setFlags_sp (f : Flags) (s : State) : (s.setFlags f).cpu.sp = s.cpu.sp := rfl
@[simp] theorem State.setFlags_pc (f : Flags) (s : State) : (s.setFlags f).cpu.pc = s.cpu.pc := rfl
@[simp] theorem State.setFlags_flags (f : Flags) (s : State) : (s.setFlags f).cpu.flags = f := rfl
@[simp] theorem State.setFlags_cycles (f : Flags) (s : State) : (s.setFlags f).cpu.cycles = s.cpu.cycles := rfl
@[simp] theorem State.setFlags_extra (f : Flags) (s : State) : (s.setFlags f).cpu.extra = s.cpu.extra := rfl
@[simp] theorem State.setFlags_nmiPending (f : Flags) (s : State) : (s.setFlags f).cpu.nmiPending = s.cpu.nmiPending := rfl
@[simp] theorem State.setFlags_halted (f : Flags) (s : State) : (s.setFlags f).cpu.halted = s.cpu.halted := rfl
@[simp] theorem State.setFlags_ram (f : Flags) (s : State) : (s.setFlags f).ram = s.ram := rfl
@[simp] theorem State.setFlags_image (f : Flags) (s : State) : (s.setFlags f).image = s.image := rfl
@[simp] theorem State.setFlags_mapper (f : Flags) (s : State) : (s.setFlags f).mapper = s.mapper := rfl
@[simp] theorem State.setFlags_ppu (f : Flags) (s : State) : (s.setFlags f).ppu = s.ppu := rfl
@[simp] theorem State.setFlags_apu (f : Flags) (s : State) : (s.setFlags f).apu = s.apu := rfl
@[simp] theorem State.setFlags_pads (f : Flags) (s : State) : (s.setFlags f).pads = s.pads := rfl
@[simp] theorem State.setFlags_params (f : Flags) (s : State) : (s.setFlags f).params = s.params := rfl
@[simp] theorem State.setFlags_env (f : Flags) (s : State) : (s.setFlags f).env = s.env := rfl

@[simp] theorem State.setNmi_a (b : Bool) (s : State) : (s.setNmi b).cpu.a = s.cpu.a := rfl
@[simp] theorem State.setNmi_x (b : Bool) (s : State) : (s.setNmi b).cpu.x = s.cpu.x := rfl
@[simp] theorem State.setNmi_y (b : Bool) (s : State) : (s.setNmi b).cpu.y = s.cpu.y := rfl
@[simp] theorem State.setNmi_sp (b : Bool) (s : State) : (s.setNmi b).cpu.sp = s.cpu.sp := rfl
@[simp] theorem State.setNmi_pc (b : Bool) (s : State) : (s.setNmi b).cpu.pc = s.cpu.pc := rfl
@[simp] theorem State.setNmi_flags (b : Bool) (s : State) : (s.setNmi b).cpu.flags = s.cpu.flags := rfl
@[simp] theorem State.setNmi_cycles (b : Bool) (s : State) : (s.setNmi b).cpu.cycles = s.cpu.cycles := rfl
@[simp] theorem State.setNmi_extra (b : Bool) (s : State) : (s.setNmi b).cpu.extra = s.cpu.extra := rfl
@[simp] theorem State.setNmi_nmiPending (b : Bool) (s : State) : (s.setNmi b).cpu.nmiPending = b := rfl
@[simp] theorem State.setNmi_halted (b : Bool) (s : State) : (s.setNmi b).cpu.halted = s.cpu.halted := rfl
@[simp] theorem State.setNmi_ram (b : Bool) (s : State) : (s.setNmi b).ram = s.ram := rfl
@[simp] theorem State.setNmi_image (b : Bool) (s : State) : (s.setNmi b).image = s.image := rfl
@[simp] theorem State.setNmi_mapper (b : Bool) (s : State) : (s.setNmi b).mapper = s.mapper := rfl
@[simp] theorem State.setNmi_ppu (b : Bool) (s : State) : (s.setNmi b).ppu = s.ppu := rfl
@[simp] theorem State.setNmi_apu (b : Bool) (s : State) : (s.setNmi b).apu = s.apu := rfl
@[simp] theorem State.setNmi_pads (b : Bool) (s : State) : (s.setNmi b).pads = s.pads := rfl
@[simp] theorem State.setNmi_params (b : Bool) (s : State) : (s.setNmi b).params = s.params := rfl
@[simp] theorem State.setNmi_env (b : Bool) (s : State) : (s.setNmi b).env = s.env := rfl

@[simp] theorem State.addExtra_a (n : Nat) (s : State) : (s.addExtra n).cpu.a = s.cpu.a := rfl
@[simp] theorem State.addExtra_x (n : Nat) (s : State) : (s.addExtra n).cpu.x = s.cpu.x := rfl
@[simp] theorem State.addExtra_y (n : Nat) (s : State) : (s.addExtra n).cpu.y = s.cpu.y := rfl
@[simp] theorem State.addExtra_sp (n : Nat) (s : State) : (s.addExtra n).cpu.sp = s.cpu.sp := rfl
@[simp] theorem State.addExtra_pc (n : Nat) (s : State) : (s.addExtra n).cpu.pc = s.cpu.pc := rfl
@[simp] theorem State.addExtra_flags (n : Nat) (s : State) : (s.addExtra n).cpu.flags = s.cpu.flags := rfl
@[simp] theorem State.addExtra_cycles (n : Nat) (s : State) : (s.addExtra n).cpu.cycles = s.cpu.cycles := rfl
@[simp] theorem State.addExtra_extra (n : Nat) (s : State) : (s.addExtra n).cpu.extra = s.cpu.extra + n := rfl
@[simp] theorem State.addExtra_nmiPending (n : Nat) (s : State) : (s.addExtra n).cpu.nmiPending = s.cpu.nmiPending := rfl
@[simp] theorem State.addExtra_halted (n : Nat) (s : State) : (s.addExtra n).cpu.halted = s.cpu.halted := rfl
@[simp] theorem State.addExtra_ram (n : Nat) (s : State) : (s.addExtra n).ram = s.ram := rfl
@[simp] theorem State.addExtra_image (n : Nat) (s : State) : (s.addExtra n).image = s.image := rfl
@[simp] theorem State.addExtra_mapper (n : Nat) (s : State) : (s.addExtra n).mapper = s.mapper := rfl
@[simp] theorem State.addExtra_ppu (n : Nat) (s : State) : (s.addExtra n).ppu = s.ppu := rfl
@[simp] theorem State.addExtra_apu (n : Nat) (s : State) : (s.addExtra n).apu = s.apu := rfl
@[simp] theorem State.addExtra_pads (n : Nat) (s : State) : (s.addExtra n).pads = s.pads := rfl
@[simp] theorem State.addExtra_params (n : Nat) (s : State) : (s.addExtra n).params = s.params := rfl
@[simp] theorem State.addExtra_env (n : Nat) (s : State) : (s.addExtra n).env = s.env := rfl

@[simp] theorem State.clearExtra_a (s : State) : (s.clearExtra).cpu.a = s.cpu.a := rfl
@[simp] theorem State.clearExtra_x (s : State) : (s.clearExtra).cpu.x = s.cpu.x := rfl
@[simp] theorem State.clearExtra_y (s : State) : (s.clearExtra).cpu.y = s.cpu.y := rfl
@[simp] theorem State.clearExtra_sp (s : State) : (s.clearExtra).cpu.sp = s.cpu.sp := rfl
@[simp] theorem State.clearExtra_pc (s : State) : (s.clearExtra).cpu.pc = s.cpu.pc := rfl
@[simp] theorem State.clearExtra_flags (s : State) : (s.clearExtra).cpu.flags = s.cpu.flags := rfl
@[simp] theorem State.clearExtra_cycles (s : State) : (s.clearExtra).cpu.cycles = s.cpu.cycles := rfl
@[simp] theorem State.clearExtra_extra (s : State) : (s.clearExtra).cpu.extra = 0 := rfl
@[simp] theorem State.clearExtra_nmiPending (s : State) : (s.clearExtra).cpu.nmiPending = s.cpu.nmiPending := rfl
@[simp] theorem State.clearExtra_halted (s : State) : (s.clearExtra).cpu.halted = s.cpu.halted := rfl
@[simp] theorem State.clearExtra_ram (s : State) : (s.clearExtra).ram = s.ram := rfl
@[simp] theorem State.clearExtra_image (s : State) : (s.clearExtra).image = s.image := rfl
@[simp] theorem State.clearExtra_mapper (s : State) : (s.clearExtra).mapper = s.mapper := rfl
@[simp] theorem State.clearExtra_ppu (s : State) : (s.clearExtra).ppu = s.ppu := rfl
@[simp] theorem State.clearExtra_apu (s : State) : (s.clearExtra).apu = s.apu := rfl
@[simp] theorem State.clearExtra_pads (s : State) : (s.clearExtra).pads = s.pads := rfl
@[simp] theorem State.clearExtra_params (s : State) : (s.clearExtra).params = s.params := rfl
@[simp] theorem State.clearExtra_env (s : State) : (s.clearExtra).env = s.env := rfl

@[simp] theorem State.retire_a (base : Nat) (s : State) : (s.retire base).cpu.a = s.cpu.a := rfl
@[simp] theorem State.retire_x (base : Nat) (s : State) : (s.retire base).cpu.x = s.cpu.x := rfl
@[simp] theorem State.retire_y (base : Nat) (s : State) : (s.retire base).cpu.y = s.cpu.y := rfl
@[simp] theorem State.retire_sp (base : Nat) (s : State) : (s.retire base).cpu.sp = s.cpu.sp := rfl
@[simp] theorem State.retire_pc (base : Nat) (s : State) : (s.retire base).cpu.pc = s.cpu.pc := rfl
@[simp] theorem State.retire_flags (base : Nat) (s : State) : (s.retire base).cpu.flags = s.cpu.flags := rfl
@[simp] theorem State.retire_cycles (base : Nat) (s : State) : (s.retire base).cpu.cycles = s.cpu.cycles + base + s.cpu.extra := rfl
@[simp] theorem State.retire_extra (base : Nat) (s : State) : (s.retire base).cpu.extra = 0 := rfl
@[simp] theorem State.retire_nmiPending (base : Nat) (s : State) : (s.retire base).cpu.nmiPending = s.cpu.nmiPending := rfl
@[simp] theorem State.retire_halted (base : Nat) (s : State) : (s.retire base).cpu.halted = s.cpu.halted := rfl
@[simp] theorem State.retire_ram (base : Nat) (s : State) : (s.retire base).ram = s.ram := rfl
@[simp] theorem State.retire_image (base : Nat) (s : State) : (s.retire base).image = s.image := rfl
@[simp] theorem State.retire_mapper (base : Nat) (s : State) : (s.retire base).mapper = s.mapper := rfl
@[simp] theorem State.retire_ppu (base : Nat) (s : State) : (s.retire base).ppu = s.ppu := rfl
@[simp] theorem State.retire_apu (base : Nat) (s : State) : (s.retire base).apu = s.apu := rfl
@[simp] theorem State.retire_pads (base : Nat) (s : State) : (s.retire base).pads = s.pads := rfl
@[simp] theorem State.retire_params (base : Nat) (s : State) : (s.retire base).params = s.params := rfl
@[simp] theorem State.retire_env (base : Nat) (s : State) : (s.retire base).env = s.env := rfl

@[simp] theorem State.halt_a (h : BadOpcode) (s : State) : (s.halt h).cpu.a = s.cpu.a := rfl
@[simp] theorem State.halt_x (h : BadOpcode) (s : State) : (s.halt h).cpu.x = s.cpu.x := rfl
@[simp] theorem State.halt_y (h : BadOpcode) (s : State) : (s.halt h).cpu.y = s.cpu.y := rfl
@[simp] theorem State.halt_sp (h : BadOpcode) (s : State) : (s.halt h).cpu.sp = s.cpu.sp := rfl
@[simp] theorem State.halt_pc (h : BadOpcode) (s : State) : (s.halt h).cpu.pc = h.addr := rfl
@[simp] theorem State.halt_flags (h : BadOpcode) (s : State) : (s.halt h).cpu.flags = s.cpu.flags := rfl
@[simp] theorem State.halt_cycles (h : BadOpcode) (s : State) : (s.halt h).cpu.cycles = s.cpu.cycles := rfl
@[simp] theorem State.halt_extra (h : BadOpcode) (s : State) : (s.halt h).cpu.extra = s.cpu.extra := rfl
@[simp] theorem State.halt_nmiPending (h : BadOpcode) (s : State) : (s.halt h).cpu.nmiPending = s.cpu.nmiPending := rfl
@[simp] theorem State.halt_halted (h : BadOpcode) (s : State) : (s.halt h).cpu.halted = some h := rfl
@[simp] theorem State.halt_ram (h : BadOpcode) (s : State) : (s.halt h).ram = s.ram := rfl
@[simp] theorem State.halt_image (h : BadOpcode) (s : State) : (s.halt h).image = s.image := rfl
@[simp] theorem State.halt_mapper (h : BadOpcode) (s : State) : (s.halt h).mapper = s.mapper := rfl
@[simp] theorem State.halt_ppu (h : BadOpcode) (s : State) : (s.halt h).ppu = s.ppu := rfl
@[simp] theorem State.halt_apu (h : BadOpcode) (s : State) : (s.halt h).apu = s.apu := rfl
@[simp] theorem State.halt_pads (h : BadOpcode) (s : State) : (s.halt h).pads = s.pads := rfl
@[simp] theorem State.halt_params (h : BadOpcode) (s : State) : (s.halt h).params = s.params := rfl
@[simp] theorem State.halt_env (h : BadOpcode) (s : State) : (s.halt h).env = s.env := rfl

@[simp] theorem State.setZN_a (r : Byte) (s : State) : (s.setZN r).cpu.a = s.cpu.a := rfl
@[simp] theorem State.setZN_x (r : Byte) (s : State) : (s.setZN r).cpu.x = s.cpu.x := rfl
@[simp] theorem State.setZN_y (r : Byte) (s : State) : (s.setZN r).cpu.y = s.cpu.y := rfl
@[simp] theorem State.setZN_sp (r : Byte) (s : State) : (s.setZN r).cpu.sp = s.cpu.sp := rfl
@[simp] theorem State.setZN_pc (r : Byte) (s : State) : (s.setZN r).cpu.pc = s.cpu.pc := rfl
@[simp] theorem State.setZN_flags (r : Byte) (s : State) : (s.setZN r).cpu.flags = s.cpu.flags.setZN r := rfl
@[simp] theorem State.setZN_cycles (r : Byte) (s : State) : (s.setZN r).cpu.cycles = s.cpu.cycles := rfl
@[simp] theorem State.setZN_extra (r : Byte) (s : State) : (s.setZN r).cpu.extra = s.cpu.extra := rfl
@[simp] theorem State.setZN_nmiPending (r : Byte) (s : State) : (s.setZN r).cpu.nmiPending = s.cpu.nmiPending := rfl
@[simp] theorem State.setZN_halted (r : Byte) (s : State) : (s.setZN r).cpu.halted = s.cpu.halted := rfl
@[simp] theorem State.setZN_ram (r : Byte) (s : State) : (s.setZN r).ram = s.ram := rfl
@[simp] theorem State.setZN_image (r : Byte) (s : State) : (s.setZN r).image = s.image := rfl
@[simp] theorem State.setZN_mapper (r : Byte) (s : State) : (s.setZN r).mapper = s.mapper := rfl
@[simp] theorem State.setZN_ppu (r : Byte) (s : State) : (s.setZN r).ppu = s.ppu := rfl
@[simp] theorem State.setZN_apu (r : Byte) (s : State) : (s.setZN r).apu = s.apu := rfl
@[simp] theorem State.setZN_pads (r : Byte) (s : State) : (s.setZN r).pads = s.pads := rfl
@[simp] theorem State.setZN_params (r : Byte) (s : State) : (s.setZN r).params = s.params := rfl
@[simp] theorem State.setZN_env (r : Byte) (s : State) : (s.setZN r).env = s.env := rfl

@[simp] theorem State.setRam_cpu (m : Memory) (s : State) : (s.setRam m).cpu = s.cpu := rfl
@[simp] theorem State.setRam_ram (m : Memory) (s : State) : (s.setRam m).ram = m := rfl
@[simp] theorem State.setRam_image (m : Memory) (s : State) : (s.setRam m).image = s.image := rfl
@[simp] theorem State.setRam_mapper (m : Memory) (s : State) : (s.setRam m).mapper = s.mapper := rfl
@[simp] theorem State.setRam_ppu (m : Memory) (s : State) : (s.setRam m).ppu = s.ppu := rfl
@[simp] theorem State.setRam_apu (m : Memory) (s : State) : (s.setRam m).apu = s.apu := rfl
@[simp] theorem State.setRam_pads (m : Memory) (s : State) : (s.setRam m).pads = s.pads := rfl
@[simp] theorem State.setRam_params (m : Memory) (s : State) : (s.setRam m).params = s.params := rfl
@[simp] theorem State.setRam_env (m : Memory) (s : State) : (s.setRam m).env = s.env := rfl

@[simp] theorem State.setMapper_cpu (m : Mapper) (s : State) : (s.setMapper m).cpu = s.cpu := rfl
@[simp] theorem State.setMapper_ram (m : Mapper) (s : State) : (s.setMapper m).ram = s.ram := rfl
@[simp] theorem State.setMapper_image (m : Mapper) (s : State) : (s.setMapper m).image = s.image := rfl
@[simp] theorem State.setMapper_mapper (m : Mapper) (s : State) : (s.setMapper m).mapper = m := rfl
@[simp] theorem State.setMapper_ppu (m : Mapper) (s : State) : (s.setMapper m).ppu = s.ppu := rfl
@[simp] theorem State.setMapper_apu (m : Mapper) (s : State) : (s.setMapper m).apu = s.apu := rfl
@[simp] theorem State.setMapper_pads (m : Mapper) (s : State) : (s.setMapper m).pads = s.pads := rfl
@[simp] theorem State.setMapper_params (m : Mapper) (s : State) : (s.setMapper m).params = s.params := rfl
@[simp] theorem State.setMapper_env (m : Mapper) (s : State) : (s.setMapper m).env = s.env := rfl

@[simp] theorem State.setPpu_cpu (p : Ppu) (s : State) : (s.setPpu p).cpu = s.cpu := rfl
@[simp] theorem State.setPpu_ram (p : Ppu) (s : State) : (s.setPpu p).ram = s.ram := rfl
@[simp] theorem State.setPpu_image (p : Ppu) (s : State) : (s.setPpu p).image = s.image := rfl
@[simp] theorem State.setPpu_mapper (p : Ppu) (s : State) : (s.setPpu p).mapper = s.mapper := rfl
@[simp] theorem State.setPpu_ppu (p : Ppu) (s : State) : (s.setPpu p).ppu = p := rfl
@[simp] theorem State.setPpu_apu (p : Ppu) (s : State) : (s.setPpu p).apu = s.apu := rfl
@[simp] theorem State.setPpu_pads (p : Ppu) (s : State) : (s.setPpu p).pads = s.pads := rfl
@[simp] theorem State.setPpu_params (p : Ppu) (s : State) : (s.setPpu p).params = s.params := rfl
@[simp] theorem State.setPpu_env (p : Ppu) (s : State) : (s.setPpu p).env = s.env := rfl

@[simp] theorem State.setApu_cpu (a : Apu) (s : State) : (s.setApu a).cpu = s.cpu := rfl
@[simp] theorem State.setApu_ram (a : Apu) (s : State) : (s.setApu a).ram = s.ram := rfl
@[simp] theorem State.setApu_image (a : Apu) (s : State) : (s.setApu a).image = s.image := rfl
@[simp] theorem State.setApu_mapper (a : Apu) (s : State) : (s.setApu a).mapper = s.mapper := rfl
@[simp] theorem State.setApu_ppu (a : Apu) (s : State) : (s.setApu a).ppu = s.ppu := rfl
@[simp] theorem State.setApu_apu (a : Apu) (s : State) : (s.setApu a).apu = a := rfl
@[simp] theorem State.setApu_pads (a : Apu) (s : State) : (s.setApu a).pads = s.pads := rfl
@[simp] theorem State.setApu_params (a : Apu) (s : State) : (s.setApu a).params = s.params := rfl
@[simp] theorem State.setApu_env (a : Apu) (s : State) : (s.setApu a).env = s.env := rfl

@[simp] theorem State.setPads_cpu (p : Pads) (s : State) : (s.setPads p).cpu = s.cpu := rfl
@[simp] theorem State.setPads_ram (p : Pads) (s : State) : (s.setPads p).ram = s.ram := rfl
@[simp] theorem State.setPads_image (p : Pads) (s : State) : (s.setPads p).image = s.image := rfl
@[simp] theorem State.setPads_mapper (p : Pads) (s : State) : (s.setPads p).mapper = s.mapper := rfl
@[simp] theorem State.setPads_ppu (p : Pads) (s : State) : (s.setPads p).ppu = s.ppu := rfl
@[simp] theorem State.setPads_apu (p : Pads) (s : State) : (s.setPads p).apu = s.apu := rfl
@[simp] theorem State.setPads_pads (p : Pads) (s : State) : (s.setPads p).pads = p := rfl
@[simp] theorem State.setPads_params (p : Pads) (s : State) : (s.setPads p).params = s.params := rfl
@[simp] theorem State.setPads_env (p : Pads) (s : State) : (s.setPads p).env = s.env := rfl

@[simp] theorem State.emit_cpu (o : Output) (s : State) : (s.emit o).cpu = s.cpu := rfl
@[simp] theorem State.emit_ram (o : Output) (s : State) : (s.emit o).ram = s.ram := rfl
@[simp] theorem State.emit_image (o : Output) (s : State) : (s.emit o).image = s.image := rfl
@[simp] theorem State.emit_mapper (o : Output) (s : State) : (s.emit o).mapper = s.mapper := rfl
@[simp] theorem State.emit_ppu (o : Output) (s : State) : (s.emit o).ppu = s.ppu := rfl
@[simp] theorem State.emit_apu (o : Output) (s : State) : (s.emit o).apu = s.apu := rfl
@[simp] theorem State.emit_pads (o : Output) (s : State) : (s.emit o).pads = s.pads := rfl
@[simp] theorem State.emit_params (o : Output) (s : State) : (s.emit o).params = s.params := rfl
@[simp] theorem State.emit_env (o : Output) (s : State) : (s.emit o).env = { s.env with out := o :: s.env.out } := rfl

@[simp] theorem State.drawUndef_cpu (s : State) : s.drawUndef.2.cpu = s.cpu := rfl
@[simp] theorem State.drawUndef_ram (s : State) : s.drawUndef.2.ram = s.ram := rfl
@[simp] theorem State.drawUndef_image (s : State) : s.drawUndef.2.image = s.image := rfl
@[simp] theorem State.drawUndef_mapper (s : State) : s.drawUndef.2.mapper = s.mapper := rfl
@[simp] theorem State.drawUndef_ppu (s : State) : s.drawUndef.2.ppu = s.ppu := rfl
@[simp] theorem State.drawUndef_apu (s : State) : s.drawUndef.2.apu = s.apu := rfl
@[simp] theorem State.drawUndef_pads (s : State) : s.drawUndef.2.pads = s.pads := rfl
@[simp] theorem State.drawUndef_params (s : State) : s.drawUndef.2.params = s.params := rfl

@[simp] theorem State.irqSampled_cpu (s : State) : s.irqSampled.cpu = s.cpu := by
  unfold State.irqSampled; split <;> rfl
@[simp] theorem State.irqSampled_ram (s : State) : s.irqSampled.ram = s.ram := by
  unfold State.irqSampled; split <;> rfl
@[simp] theorem State.irqSampled_image (s : State) : s.irqSampled.image = s.image := by
  unfold State.irqSampled; split <;> rfl
@[simp] theorem State.irqSampled_mapper (s : State) : s.irqSampled.mapper = s.mapper := by
  unfold State.irqSampled; split <;> rfl
@[simp] theorem State.irqSampled_ppu (s : State) : s.irqSampled.ppu = s.ppu := by
  unfold State.irqSampled; split <;> rfl
@[simp] theorem State.irqSampled_apu (s : State) : s.irqSampled.apu = s.apu := by
  unfold State.irqSampled; split <;> rfl
@[simp] theorem State.irqSampled_pads (s : State) : s.irqSampled.pads = s.pads := by
  unfold State.irqSampled; split <;> rfl
@[simp] theorem State.irqSampled_params (s : State) : s.irqSampled.params = s.params := by
  unfold State.irqSampled; split <;> rfl

/-- A sampled level changes nothing but the environment's record, and there neither the draws nor the outputs. -/
theorem State.irqSampled_env (s : State) :
    s.irqSampled.env.out = s.env.out ∧ s.irqSampled.env.undefDraws = s.env.undefDraws := by
  unfold State.irqSampled; split <;> exact ⟨rfl, rfl⟩

end Sys2Proof.Machine
end

