-- ==== Sys2Proof/Laws/Bus.lean ====
section
/-! SUPPORT. Everything a bus read and a bus write can do, said once; the stack operations as reads and writes of CPU RAM. -/

namespace Sys2Proof.Machine

/-! ## Reads -/

/-- A read of CPU RAM has no effect (R28). -/
theorem busRead_ram {a : Word} (h : a.toNat < 0x2000) (s : State) : busRead a s = (s.ram.read (a.toNat % 0x800), s) := by
  simp only [busRead, h, if_true]

/-- A read of cartridge space has no effect (R31). -/
theorem busRead_cart {a : Word} (h : 0x4020 ≤ a.toNat) (s : State) :
    busRead a s = (cartRead s.image s.mapper a.toNat, s) := by
  simp only [busRead, show ¬ a.toNat < 0x2000 by omega, show ¬ a.toNat < 0x4000 by omega, show ¬ a.toNat < 0x4015 by omega,
    show ¬ a.toNat = 0x4015 by omega, show ¬ a.toNat = 0x4016 by omega, show ¬ a.toNat = 0x4017 by omega,
    show ¬ a.toNat < 0x4020 by omega, if_false]

/-- A read looks at nothing of the CPU and changes nothing of it. -/
theorem busRead_withCpu (a : Word) (s : State) (c : Cpu) :
    busRead a { s with cpu := c } = ((busRead a s).1, { (busRead a s).2 with cpu := c }) := by
  unfold busRead pictureRead audioStatusRead pad0Read pad1Read
  dsimp only
  repeat' split
  all_goals rfl

@[simp] theorem busRead_cpu (a : Word) (s : State) : (busRead a s).2.cpu = s.cpu := by
  unfold busRead pictureRead audioStatusRead pad0Read pad1Read
  dsimp only
  repeat' split
  all_goals rfl
@[simp] theorem busRead_ram_eq (a : Word) (s : State) : (busRead a s).2.ram = s.ram := by
  unfold busRead pictureRead audioStatusRead pad0Read pad1Read
  dsimp only
  repeat' split
  all_goals rfl
@[simp] theorem busRead_image (a : Word) (s : State) : (busRead a s).2.image = s.image := by
  unfold busRead pictureRead audioStatusRead pad0Read pad1Read
  dsimp only
  repeat' split
  all_goals rfl
@[simp] theorem busRead_mapper (a : Word) (s : State) : (busRead a s).2.mapper = s.mapper := by
  unfold busRead pictureRead audioStatusRead pad0Read pad1Read
  dsimp only
  repeat' split
  all_goals rfl
@[simp] theorem busRead_apu (a : Word) (s : State) : (busRead a s).2.apu = s.apu := by
  unfold busRead pictureRead audioStatusRead pad0Read pad1Read
  dsimp only
  repeat' split
  all_goals rfl
@[simp] theorem busRead_params (a : Word) (s : State) : (busRead a s).2.params = s.params := by
  unfold busRead pictureRead audioStatusRead pad0Read pad1Read
  dsimp only
  repeat' split
  all_goals rfl

/-- A read changes of the environment's record only how many draws were taken. -/
theorem busRead_env (a : Word) (s : State) : ∃ n, (busRead a s).2.env = { s.env with undefDraws := n } := by
  unfold busRead pictureRead audioStatusRead pad0Read pad1Read
  dsimp only
  repeat' split
  all_goals exact ⟨_, rfl⟩

/-- The picture unit after a read: a PPUSTATUS read's effect, a PPUDATA read's, or none (R31). -/
theorem busRead_ppu (a : Word) (s : State) :
    (busRead a s).2.ppu = s.ppu ∨ (isPictureReg 2 a ∧ (busRead a s).2.ppu = s.ppu.statusRead)
      ∨ (isPictureReg 7 a ∧ (busRead a s).2.ppu = readDataEffect s.image s.mapper s.ppu) := by
  unfold busRead pictureRead audioStatusRead pad0Read pad1Read isPictureReg
  dsimp only
  split
  · exact .inl rfl
  · split
    · split
      · exact .inr (.inl ⟨by omega, rfl⟩)
      · exact .inl rfl
      · exact .inr (.inr ⟨by omega, rfl⟩)
      · exact .inl rfl
    · repeat' split
      all_goals exact .inl rfl

/-- The controller ports after a read: port 0 shifted by a read of 0x4016, port 1 by one of 0x4017, else untouched (R31). -/
theorem busRead_pads (a : Word) (s : State) :
    (busRead a s).2.pads = s.pads
      ∨ (a = 0x4016 ∧ (busRead a s).2.pads
          = { s.pads with pad0 := s.pads.pad0.shift s.params.ctrlAfter8 s.pads.strobe })
      ∨ (a = 0x4017 ∧ (busRead a s).2.pads
          = { s.pads with pad1 := s.pads.pad1.shift s.params.ctrlAfter8 s.pads.strobe }) := by
  by_cases h6 : a = 0x4016
  · subst h6; exact .inr (.inl ⟨rfl, rfl⟩)
  · by_cases h7 : a = 0x4017
    · subst h7; exact .inr (.inr ⟨rfl, rfl⟩)
    · have n6 : ¬ a.toNat = 0x4016 := fun h => h6 (BitVec.eq_of_toNat_eq h)
      have n7 : ¬ a.toNat = 0x4017 := fun h => h7 (BitVec.eq_of_toNat_eq h)
      left
      unfold busRead pictureRead audioStatusRead
      simp only [n6, n7, if_false]
      repeat' split
      all_goals rfl

/-- The memories of the picture unit survive every read. -/
theorem busRead_ppuMem (a : Word) (s : State) :
    (busRead a s).2.ppu.ntRam = s.ppu.ntRam ∧ (busRead a s).2.ppu.pal = s.ppu.pal ∧ (busRead a s).2.ppu.oam = s.ppu.oam := by
  rcases busRead_ppu a s with h | ⟨-, h⟩ | ⟨-, h⟩ <;> rw [h] <;> exact ⟨rfl, rfl, rfl⟩

/-- No read stores a byte. -/
theorem busRead_byteAt (a : Word) (s : State) (c : Cell) : (busRead a s).2.byteAt c = s.byteAt c := by
  obtain ⟨h1, h2, h3⟩ := busRead_ppuMem a s
  cases c <;> simp [State.byteAt, h1, h2, h3]

theorem peek_withCpu (a : Word) (s : State) (c : Cpu) : peek a { s with cpu := c } = peek a s := by
  unfold peek; rw [busRead_withCpu]

/-! ## Writes -/

theorem dmaByte_withCpu (page : Byte) (i : Nat) (s : State) (c : Cpu) :
    dmaByte page i { s with cpu := c } = { dmaByte page i s with cpu := c } := by
  simp only [dmaByte, busRead_withCpu]; rfl

theorem dmaBytes_withCpu (page : Byte) (k : Nat) (s : State) (c : Cpu) :
    dmaBytes page k { s with cpu := c } = { dmaBytes page k s with cpu := c } := by
  induction k with
  | zero => rfl
  | succ k ih => simp only [dmaBytes, ih, dmaByte_withCpu]

@[simp] theorem dmaByte_cpu (page : Byte) (i : Nat) (s : State) : (dmaByte page i s).cpu = s.cpu := by
  simp [dmaByte]
@[simp] theorem dmaByte_ram (page : Byte) (i : Nat) (s : State) : (dmaByte page i s).ram = s.ram := by
  simp [dmaByte]
@[simp] theorem dmaByte_image (page : Byte) (i : Nat) (s : State) : (dmaByte page i s).image = s.image := by
  simp [dmaByte]
@[simp] theorem dmaByte_mapper (page : Byte) (i : Nat) (s : State) : (dmaByte page i s).mapper = s.mapper := by
  simp [dmaByte]
@[simp] theorem dmaByte_apu (page : Byte) (i : Nat) (s : State) : (dmaByte page i s).apu = s.apu := by
  simp [dmaByte]
@[simp] theorem dmaByte_params (page : Byte) (i : Nat) (s : State) : (dmaByte page i s).params = s.params := by
  simp [dmaByte]

@[simp] theorem dmaBytes_cpu (page : Byte) (k : Nat) (s : State) : (dmaBytes page k s).cpu = s.cpu := by
  induction k with
  | zero => rfl
  | succ k ih => simp [dmaBytes, ih]
@[simp] theorem dmaBytes_ram (page : Byte) (k : Nat) (s : State) : (dmaBytes page k s).ram = s.ram := by
  induction k with
  | zero => rfl
  | succ k ih => simp [dmaBytes, ih]
@[simp] theorem dmaBytes_image (page : Byte) (k : Nat) (s : State) : (dmaBytes page k s).image = s.image := by
  induction k with
  | zero => rfl
  | succ k ih => simp [dmaBytes, ih]
@[simp] theorem dmaBytes_mapper (page : Byte) (k : Nat) (s : State) : (dmaBytes page k s).mapper = s.mapper := by
  induction k with
  | zero => rfl
  | succ k ih => simp [dmaBytes, ih]
@[simp] theorem dmaBytes_apu (page : Byte) (k : Nat) (s : State) : (dmaBytes page k s).apu = s.apu := by
  induction k with
  | zero => rfl
  | succ k ih => simp [dmaBytes, ih]
@[simp] theorem dmaBytes_params (page : Byte) (k : Nat) (s : State) : (dmaBytes page k s).params = s.params := by
  induction k with
  | zero => rfl
  | succ k ih => simp [dmaBytes, ih]

/-- A DMA's bytes go to OAM alone: the other memories of the picture unit survive. -/
theorem dmaBytes_ppuMem (page : Byte) (k : Nat) (s : State) :
    (dmaBytes page k s).ppu.ntRam = s.ppu.ntRam ∧ (dmaBytes page k s).ppu.pal = s.ppu.pal := by
  induction k with
  | zero => exact ⟨rfl, rfl⟩
  | succ k ih =>
    obtain ⟨h1, h2, -⟩ := busRead_ppuMem (pageByte page k) (dmaBytes page k s)
    exact ⟨h1.trans ih.1, h2.trans ih.2⟩

/-- A write's effect on the CPU: a DMA's stall, an NMI a PPUCTRL write signals; nothing else. -/
theorem busWrite_cpu (base : Nat) (a : Word) (d : Byte) (s : State) :
    (busWrite base a d s).cpu = { s.cpu with
      extra := s.cpu.extra + (if a = 0x4014 then dmaStall base s else 0)
      nmiPending := s.cpu.nmiPending || (busWrite base a d s).cpu.nmiPending } := by
  by_cases h4 : a = 0x4014
  · subst h4
    simp [busWrite, oamDma, State.addExtra]
  · have n4 : ¬ a.toNat = 0x4014 := fun h => h4 (BitVec.eq_of_toNat_eq h)
    simp only [h4, if_false, Nat.add_zero]
    unfold busWrite
    simp only [n4, if_false]
    repeat' split
    · simp
    · unfold pictureWrite writeCtrl
      repeat' split
      all_goals simp [State.setNmi, writeData]
    all_goals simp [audioWrite]

@[simp] theorem busWrite_image (base : Nat) (a : Word) (d : Byte) (s : State) : (busWrite base a d s).image = s.image := by
  unfold busWrite oamDma pictureWrite writeCtrl writeData audioWrite
  dsimp only
  repeat' split
  all_goals first | rfl | simp
@[simp] theorem busWrite_params (base : Nat) (a : Word) (d : Byte) (s : State) : (busWrite base a d s).params = s.params := by
  unfold busWrite oamDma pictureWrite writeCtrl writeData audioWrite
  dsimp only
  repeat' split
  all_goals first | rfl | simp

@[simp] theorem busWrite_a (base : Nat) (a : Word) (d : Byte) (s : State) : (busWrite base a d s).cpu.a = s.cpu.a := by
  rw [busWrite_cpu]
@[simp] theorem busWrite_x (base : Nat) (a : Word) (d : Byte) (s : State) : (busWrite base a d s).cpu.x = s.cpu.x := by
  rw [busWrite_cpu]
@[simp] theorem busWrite_y (base : Nat) (a : Word) (d : Byte) (s : State) : (busWrite base a d s).cpu.y = s.cpu.y := by
  rw [busWrite_cpu]
@[simp] theorem busWrite_sp (base : Nat) (a : Word) (d : Byte) (s : State) : (busWrite base a d s).cpu.sp = s.cpu.sp := by
  rw [busWrite_cpu]
@[simp] theorem busWrite_pc (base : Nat) (a : Word) (d : Byte) (s : State) : (busWrite base a d s).cpu.pc = s.cpu.pc := by
  rw [busWrite_cpu]
@[simp] theorem busWrite_flags (base : Nat) (a : Word) (d : Byte) (s : State) :
    (busWrite base a d s).cpu.flags = s.cpu.flags := by rw [busWrite_cpu]
@[simp] theorem busWrite_cycles (base : Nat) (a : Word) (d : Byte) (s : State) :
    (busWrite base a d s).cpu.cycles = s.cpu.cycles := by rw [busWrite_cpu]
@[simp] theorem busWrite_halted (base : Nat) (a : Word) (d : Byte) (s : State) :
    (busWrite base a d s).cpu.halted = s.cpu.halted := by rw [busWrite_cpu]

theorem busWrite_extra (base : Nat) (a : Word) (d : Byte) (s : State) :
    (busWrite base a d s).cpu.extra = s.cpu.extra + (if a = 0x4014 then dmaStall base s else 0) := by
  rw [busWrite_cpu]

/-- A write to CPU RAM only stores (R28, R32). -/
theorem busWrite_ram (base : Nat) {a : Word} (h : a.toNat < 0x2000) (d : Byte) (s : State) :
    busWrite base a d s = s.setRam (s.ram.write (a.toNat % 0x800) d) := by
  simp only [busWrite, h, if_true]

/-- A write stores no byte of memory outside what its address decodes to (R27). -/
theorem busWrite_byteAt (base : Nat) (a : Word) (d : Byte) (s : State) (c : Cell) (hc : ¬ StoresTo a s c) :
    (busWrite base a d s).byteAt c = s.byteAt c := by
  by_cases h1 : a.toNat < 0x2000
  · rw [busWrite_ram base h1]
    cases c <;> simp only [State.byteAt, State.setRam_ram, State.setRam_image, State.setRam_mapper, State.setRam_ppu]
    rename_i i
    exact Memory.read_write_ne _ _ fun h => hc ⟨h1, h⟩
  by_cases h2 : a.toNat < 0x4000
  · have hr : busWrite base a d s = pictureWrite (a.toNat % 8) d s := by simp only [busWrite, h1, h2, if_true, if_false]
    rw [hr]
    unfold pictureWrite writeCtrl
    split
    · split <;> cases c <;> rfl
    · cases c <;> rfl
    · cases c <;> rfl
    · cases c <;> try rfl
      rename_i hn i
      exact Memory.read_write_ne _ _ fun h => hc (.inl ⟨⟨by omega, h2, hn⟩, h⟩)
    · unfold Ppu.writeScroll
      cases c <;> simp only [State.byteAt, State.setPpu_ram, State.setPpu_image, State.setPpu_mapper, State.setPpu_ppu] <;>
        split <;> rfl
    · unfold Ppu.writeAddr
      cases c <;> simp only [State.byteAt, State.setPpu_ram, State.setPpu_image, State.setPpu_mapper, State.setPpu_ppu] <;>
        split <;> rfl
    · rename_i hn
      have hreg : isPictureReg 7 a := ⟨by omega, h2, hn⟩
      have hlt : s.ppu.dataAddr < 0x4000 := Nat.mod_lt _ (by omega)
      have hmod : s.ppu.dataAddr % 0x4000 = s.ppu.dataAddr := Nat.mod_eq_of_lt hlt
      unfold writeData
      cases c with
      | ram i => rfl
      | prgRom i => rfl
      | chrRom i => rfl
      | oam i =>
        simp only [State.byteAt, State.setPpu_ppu, State.setMapper_ppu, Ppu.advance, ppuWriteMem]
        repeat' split
        all_goals rfl
      | prgRam i =>
        simp only [State.byteAt, State.setMapper_mapper, ppuWriteCart, chrWrite]
        repeat' split
        all_goals rfl
      | chrRam i =>
        simp only [State.byteAt, State.setMapper_mapper, ppuWriteCart, chrWrite, hmod]
        split
        · rename_i hlow
          split
          · rename_i hn0
            exact Memory.read_write_ne _ _ fun h => hc ⟨hreg, hlow, hn0, h⟩
          · rfl
        · rfl
      | ntRam i =>
        simp only [State.byteAt, State.setPpu_ppu, State.setMapper_ppu, Ppu.advance, ppuWriteMem, hmod]
        split
        · rfl
        · split
          · rename_i hlow hhigh
            exact Memory.read_write_ne _ _ fun h => hc ⟨hreg, by omega, hhigh, h⟩
          · rfl
      | pal i =>
        simp only [State.byteAt, State.setPpu_ppu, State.setMapper_ppu, Ppu.advance, ppuWriteMem, hmod]
        split
        · rfl
        · split
          · rfl
          · rename_i hlow hhigh
            exact Memory.read_write_ne _ _ fun h => hc ⟨hreg, by omega, h⟩
    · rfl
  by_cases h3 : a.toNat = 0x4014
  · have ha : a = 0x4014 := BitVec.eq_of_toNat_eq h3
    have hr : busWrite base a d s = oamDma base d s := by simp [busWrite, h3]
    rw [hr]
    unfold oamDma
    cases c with
    | oam i =>
      have hi : ¬ i < 0x100 := fun h => hc (.inr ⟨ha, h⟩)
      simp only [State.byteAt, State.addExtra_ppu]
      suffices h : ∀ k, (dmaBytes d k s).ppu.oam.read i = s.ppu.oam.read i from h 256
      intro k
      induction k with
      | zero => rfl
      | succ k ih =>
        simp only [dmaBytes, dmaByte, State.setPpu_ppu]
        rw [Memory.read_write_ne, (busRead_ppuMem _ _).2.2, ih]
        intro h
        have := ((busRead (pageByte d k) (dmaBytes d k s)).2.ppu.oamaddr + BitVec.ofNat 8 k).isLt
        omega
    | ntRam i => simp only [State.byteAt, State.addExtra_ppu, (dmaBytes_ppuMem _ _ _).1]
    | pal i => simp only [State.byteAt, State.addExtra_ppu, (dmaBytes_ppuMem _ _ _).2]
    | _ => simp [State.byteAt]
  · unfold busWrite audioWrite
    simp only [h1, h2, h3, if_false]
    split
    · cases c <;> rfl
    · split
      · cases c <;> rfl
      · split
        · cases c <;> rfl
        · unfold cartWrite
          cases c <;> simp only [State.byteAt, State.setMapper_ram, State.setMapper_image, State.setMapper_mapper,
            State.setMapper_ppu] <;> repeat' split
          all_goals try rfl
          rename_i h5 h6
          simp only [Bool.and_eq_true, decide_eq_true_eq] at h6
          exact Memory.read_write_ne _ _ fun h => hc ⟨h6.1, by omega, h6.2, h⟩

/-- A write of CPU RAM looks at nothing of the CPU. -/
theorem busWrite_ram_withCpu (base : Nat) {a : Word} (h : a.toNat < 0x2000) (d : Byte) (s : State) (c : Cpu) :
    busWrite base a d { s with cpu := c } = { busWrite base a d s with cpu := c } := by
  rw [busWrite_ram base h, busWrite_ram base h]; rfl

/-! ## The stack -/

theorem stackAddr_toNat (sp : Byte) : (stackAddr sp).toNat = 0x100 + sp.toNat := by
  rw [stackAddr, mkWord_toNat]
  exact Nat.add_comm ..

theorem stackAddr_ram (sp : Byte) : (stackAddr sp).toNat < 0x2000 := by
  have := sp.isLt; rw [stackAddr_toNat]; omega

/-- A push is one write of CPU RAM and a new SP (R18). -/
theorem push_eq (base : Nat) (v : Byte) (s : State) :
    push base v s = (s.setRam (s.ram.write (0x100 + s.cpu.sp.toNat) v)).setSp (s.cpu.sp - 1) := by
  have := s.cpu.sp.isLt
  rw [push, busWrite_ram base (stackAddr_ram _), stackAddr_toNat, Nat.mod_eq_of_lt (by omega)]

/-- A pull is a new SP and one read of CPU RAM, which has no effect (R19). -/
theorem pull_eq (s : State) : pull s = (s.ram.read (0x100 + (s.cpu.sp + 1).toNat), s.setSp (s.cpu.sp + 1)) := by
  have := (s.cpu.sp + 1).isLt
  rw [pull, busRead_ram (stackAddr_ram _), stackAddr_toNat, Nat.mod_eq_of_lt (by omega)]
  rfl

/-! ## What no bus access touches of the picture unit -/

/-- The position, the two rendering flags, the selected sprites and the line buffers. -/
structure PictureFrame (p t : Ppu) : Prop where
  cycle    : t.cycle = p.cycle
  scanline : t.scanline = p.scanline
  frame    : t.frame = p.frame
  ovf      : t.ovf = p.ovf
  s0hit    : t.s0hit = p.s0hit
  sprites  : t.sprites = p.sprites
  bgidx    : t.bgidx = p.bgidx
  fb       : t.fb = p.fb

theorem PictureFrame.refl (p : Ppu) : PictureFrame p p := by constructor <;> rfl

theorem PictureFrame.trans {p q r : Ppu} (h : PictureFrame p q) (k : PictureFrame q r) : PictureFrame p r :=
  ⟨k.cycle.trans h.cycle, k.scanline.trans h.scanline, k.frame.trans h.frame, k.ovf.trans h.ovf, k.s0hit.trans h.s0hit,
    k.sprites.trans h.sprites, k.bgidx.trans h.bgidx, k.fb.trans h.fb⟩

theorem busRead_pictureFrame (a : Word) (s : State) : PictureFrame s.ppu (busRead a s).2.ppu := by
  rcases busRead_ppu a s with h | ⟨-, h⟩ | ⟨-, h⟩ <;> rw [h] <;> constructor <;> rfl

theorem dmaBytes_pictureFrame (page : Byte) (k : Nat) (s : State) : PictureFrame s.ppu (dmaBytes page k s).ppu := by
  induction k with
  | zero => exact .refl _
  | succ k ih =>
    have h := busRead_pictureFrame (pageByte page k) (dmaBytes page k s)
    exact ih.trans ⟨h.cycle, h.scanline, h.frame, h.ovf, h.s0hit, h.sprites, h.bgidx, h.fb⟩

theorem busWrite_pictureFrame (base : Nat) (a : Word) (d : Byte) (s : State) : PictureFrame s.ppu (busWrite base a d s).ppu := by
  unfold busWrite pictureWrite writeCtrl writeData audioWrite Ppu.writeScroll Ppu.writeAddr ppuWriteMem oamDma
  dsimp only
  repeat' split
  all_goals first | (constructor <;> rfl) | exact dmaBytes_pictureFrame ..

/-! ## What no bus access touches of the outputs: the trace and the sample counter -/

structure OutputsKept (s t : State) : Prop where
  out : t.env.out = s.env.out
  sc  : t.apu.sc = s.apu.sc

theorem OutputsKept.trans {s t u : State} (h : OutputsKept s t) (k : OutputsKept t u) : OutputsKept s u :=
  ⟨k.out.trans h.out, k.sc.trans h.sc⟩

theorem busRead_outputs (a : Word) (s : State) : OutputsKept s (busRead a s).2 := by
  obtain ⟨n, h⟩ := busRead_env a s
  exact ⟨by rw [h], by rw [busRead_apu]⟩

theorem dmaBytes_outputs (page : Byte) (k : Nat) (s : State) : OutputsKept s (dmaBytes page k s) := by
  induction k with
  | zero => exact ⟨rfl, rfl⟩
  | succ k ih =>
    have h := busRead_outputs (pageByte page k) (dmaBytes page k s)
    exact ih.trans ⟨h.out, h.sc⟩

theorem Apu.write_sc (ones : Bool) (addr : Nat) (d : Byte) (a : Apu) : (a.write ones addr d).sc = a.sc := by
  have h : ∀ e : Apu, e = a.write ones addr d → e.sc = a.sc := by
    intro e he
    unfold write at he
    repeat' split at he
    all_goals (subst he; rfl)
  exact h _ rfl

theorem busWrite_outputs (base : Nat) (a : Word) (d : Byte) (s : State) : OutputsKept s (busWrite base a d s) := by
  unfold busWrite pictureWrite writeCtrl writeData audioWrite oamDma
  dsimp only
  repeat' split
  all_goals first
    | exact ⟨rfl, rfl⟩
    | exact ⟨rfl, Apu.write_sc ..⟩
    | exact ⟨(dmaBytes_outputs d 256 s).out, (dmaBytes_outputs d 256 s).sc⟩

end Sys2Proof.Machine
end

