-- ==== Sys2Proof/Laws/Exec.lean ====
section
/-! SUPPORT. What each shared operation of the meanings answers, said once: the whole next state. Provers cite these and never
unfold a meaning. -/

namespace Sys2Proof.Machine

@[simp] theorem ValueMode.after_cpu (m : ValueMode) (s : State) : (m.after s).cpu = s.cpu := by
  cases m <;> simp [ValueMode.after]

/-- Reading an operand stores no byte. -/
theorem ValueMode.after_byteAt (m : ValueMode) (s : State) (c : Cell) : (m.after s).byteAt c = s.byteAt c := by
  cases m with
  | imm v => rfl
  | mem mm => exact busRead_byteAt ..

/-- Reading an operand (R87, R88): its value, and the read's effect with the penalty pending. -/
theorem readValue_eq (m : ValueMode) (s : State) :
    readValue m s
      = (m.value s, { m.after s with cpu := { s.cpu with extra := s.cpu.extra + m.penalty s } }) := by
  cases m with
  | imm v => rfl
  | mem mm =>
    simp only [readValue, ValueMode.value, ValueMode.after, State.addExtra]
    rw [busRead_withCpu]
    rfl

/-- A load (R90 to R92), whatever the register's setter. -/
theorem loadReg_eq (set : Byte → State → State) (m : ValueMode) (base : Nat) (s : State) :
    loadReg set m base s = .next (((set (m.value s)
      { m.after s with cpu := { s.cpu with extra := s.cpu.extra + m.penalty s } }).setZN (m.value s)).retire base) := by
  simp only [loadReg, readValue_eq]

theorem loadA_eq (m : ValueMode) (base : Nat) (s : State) :
    loadReg State.setA m base s = .next { m.after s with cpu := { s.cpu with
      a := m.value s, flags := s.cpu.flags.setZN (m.value s)
      cycles := s.cpu.cycles + base + (s.cpu.extra + m.penalty s), extra := 0 } } := by
  rw [loadReg_eq]; rfl

theorem loadX_eq (m : ValueMode) (base : Nat) (s : State) :
    loadReg State.setX m base s = .next { m.after s with cpu := { s.cpu with
      x := m.value s, flags := s.cpu.flags.setZN (m.value s)
      cycles := s.cpu.cycles + base + (s.cpu.extra + m.penalty s), extra := 0 } } := by
  rw [loadReg_eq]; rfl

theorem loadY_eq (m : ValueMode) (base : Nat) (s : State) :
    loadReg State.setY m base s = .next { m.after s with cpu := { s.cpu with
      y := m.value s, flags := s.cpu.flags.setZN (m.value s)
      cycles := s.cpu.cycles + base + (s.cpu.extra + m.penalty s), extra := 0 } } := by
  rw [loadReg_eq]; rfl

/-- ADC (R104). -/
theorem addOp_eq (m : ValueMode) (base : Nat) (s : State) :
    addOp m base s = .next { m.after s with cpu := { s.cpu with
      a := adcResult s.cpu.a (m.value s) s.cpu.flags.c, flags := s.cpu.flags.adc s.cpu.a (m.value s)
      cycles := s.cpu.cycles + base + (s.cpu.extra + m.penalty s), extra := 0 } } := by
  simp only [addOp, readValue_eq, adcWith]; rfl

/-- SBC (R105). -/
theorem subOp_eq (m : ValueMode) (base : Nat) (s : State) :
    subOp m base s = .next { m.after s with cpu := { s.cpu with
      a := adcResult s.cpu.a (m.value s ^^^ 0xFF) s.cpu.flags.c, flags := s.cpu.flags.adc s.cpu.a (m.value s ^^^ 0xFF)
      cycles := s.cpu.cycles + base + (s.cpu.extra + m.penalty s), extra := 0 } } := by
  simp only [subOp, readValue_eq, adcWith]; rfl

/-- AND, ORA, EOR (R106 to R108). -/
theorem logicOp_eq (f : Byte → Byte → Byte) (m : ValueMode) (base : Nat) (s : State) :
    logicOp f m base s = .next { m.after s with cpu := { s.cpu with
      a := f s.cpu.a (m.value s), flags := s.cpu.flags.setZN (f s.cpu.a (m.value s))
      cycles := s.cpu.cycles + base + (s.cpu.extra + m.penalty s), extra := 0 } } := by
  simp only [logicOp, readValue_eq]; rfl

/-- BIT (R109). -/
theorem bitOp_eq (m : ValueMode) (base : Nat) (s : State) :
    bitOp m base s = .next { m.after s with cpu := { s.cpu with
      flags := s.cpu.flags.bitTest s.cpu.a (m.value s)
      cycles := s.cpu.cycles + base + (s.cpu.extra + m.penalty s), extra := 0 } } := by
  simp only [bitOp, readValue_eq]; rfl

/-- A compare (R110 to R112). -/
theorem compareReg_eq (get : Cpu → Byte) (m : ValueMode) (base : Nat) (s : State)
    (hget : ∀ n, get { s.cpu with extra := n } = get s.cpu) :
    compareReg get m base s = .next { m.after s with cpu := { s.cpu with
      flags := s.cpu.flags.compare (get s.cpu) (m.value s)
      cycles := s.cpu.cycles + base + (s.cpu.extra + m.penalty s), extra := 0 } } := by
  simp only [compareReg, readValue_eq, hget]; rfl

/-- What an answer leaves of an operand read: enough to say of the CPU alone. -/
theorem readsOnly_intro {regs : List Reg} {flags : List Flag} {m : ValueMode} {base : Nat} {s : State} {c : Cpu}
    (hframe : CpuFrame regs flags s { m.after s with cpu := c }) (hpc : c.pc = s.cpu.pc)
    (hnmi : c.nmiPending = s.cpu.nmiPending)
    (hcy : c.cycles = s.cpu.cycles + base + (s.cpu.extra + m.penalty s)) (hex : c.extra = 0) :
    ReadsOnly regs flags m base s { m.after s with cpu := c } := by
  refine ⟨hframe, hpc, ⟨rfl, rfl, rfl, rfl, rfl, ?_, rfl, rfl, rfl⟩, ?_, ?_, hex⟩
  · rw [ValueMode.after_cpu]; exact hnmi
  · intro x _
    rw [← ValueMode.after_byteAt m s x]
    cases x <;> rfl
  · change c.cycles = _
    omega

/-- What an answer leaves that touches the CPU alone. -/
theorem registersOnly_intro {regs : List Reg} {flags : List Flag} {n : Nat} {s : State} {c : Cpu}
    (hframe : CpuFrame regs flags s { s with cpu := c }) (hnmi : c.nmiPending = s.cpu.nmiPending)
    (hcy : c.cycles = s.cpu.cycles + n + s.cpu.extra) (hex : c.extra = 0) :
    RegistersOnly regs flags n s { s with cpu := c } := by
  refine ⟨hframe, ⟨rfl, rfl, rfl, rfl, rfl, hnmi, rfl, rfl, rfl⟩, ?_, ?_, hex⟩
  · intro x _; cases x <;> rfl
  · change c.cycles = _
    omega

/-- What an answer leaves whose last access is a bus write: the write's state, the CPU's end of step, and new flags. -/
theorem storesByte_intro {flags : List Flag} {base : Nat} {addr : Word} {v : Byte} {u s : State} {f : Flags}
    (hcpu : u.cpu = s.cpu) (hram : u.ram = s.ram)
    (hbytes : ∀ c, u.byteAt c = s.byteAt c)
    (hflags : CpuFrame [] flags s (((busWrite base addr v u).setFlags f).retire base)) :
    StoresByte flags base addr v u s (((busWrite base addr v u).setFlags f).retire base) := by
  refine ⟨hflags, ?_, ⟨rfl, rfl, rfl, rfl, rfl, rfl, rfl, rfl, rfl⟩, ?_, ?_, ?_, rfl⟩
  · change (busWrite base addr v u).cpu.pc = _
    rw [busWrite_pc, hcpu]
  · intro c hc
    rw [← hbytes c, ← busWrite_byteAt base addr v u c hc]
    cases c <;> rfl
  · intro hwf ha
    change Memory.read (busWrite base addr v u).ram (addr.toNat % 0x800) = v
    rw [busWrite_ram base ha, hram]
    exact Memory.read_write_self (lo := 0) hwf _ _
  · change (busWrite base addr v u).cpu.cycles + base + _ = _
    rw [busWrite_cycles, hcpu]
    rfl

/-- The branches' answer (R126). -/
theorem branchIf_eq (cond : Bool) (off : Byte) (s : State) :
    branchIf cond off s = .next (if cond then
      { s with cpu := { s.cpu with
          pc := branchTarget off s
          cycles := s.cpu.cycles + 2 + (s.cpu.extra + (if branchCross off s then 2 else 1)), extra := 0 } }
    else { s with cpu := { s.cpu with cycles := s.cpu.cycles + 2 + s.cpu.extra, extra := 0 } }) := by
  unfold branchIf
  split <;> rfl

/-- Two bytes pushed (R124, R157). -/
theorem pushWord_eq (base : Nat) (w : Word) (s : State) :
    pushWord base w s = (s.setRam ((s.ram.write (0x100 + s.cpu.sp.toNat) (hiByte w)).write
      (0x100 + (s.cpu.sp - 1).toNat) (loByte w))).setSp (s.cpu.sp - 2) := by
  simp only [pushWord, push_eq]
  have : s.cpu.sp - 1 - 1 = s.cpu.sp - 2 := by rw [BitVec.sub_sub]; rfl
  simp only [State.setRam, State.setSp]
  rw [this]

/-- Two bytes pulled (R125, R136). -/
theorem pullWord_eq (s : State) :
    pullWord s = (mkWord (s.ram.read (0x100 + (s.cpu.sp + 1).toNat)) (s.ram.read (0x100 + (s.cpu.sp + 2).toNat)),
      s.setSp (s.cpu.sp + 2)) := by
  simp only [pullWord, pull_eq]
  have : s.cpu.sp + 1 + 1 = s.cpu.sp + 2 := by rw [BitVec.add_assoc]; rfl
  simp only [State.setSp]
  rw [this]

/-- A vector is read from the cartridge, without effect (R43). -/
theorem readVector_eq (k : IntKind) (s : State) :
    busRead16 k.vector s = (mkWord (cartRead s.image s.mapper k.vector.toNat)
      (cartRead s.image s.mapper (k.vector.toNat + 1)), s) := by
  cases k <;>
    simp only [busRead16, IntKind.vector] <;>
    rw [busRead_cart (by decide), busRead_cart (by decide)] <;> rfl

/-- `Entry` (R157): the whole state it leaves. -/
theorem enterInterrupt_eq (k : IntKind) (ret : Word) (s : State) :
    enterInterrupt k ret s = { s with
      ram := (((s.ram.write (0x100 + s.cpu.sp.toNat) (hiByte ret)).write (0x100 + (s.cpu.sp - 1).toNat) (loByte ret)).write
        (0x100 + (s.cpu.sp - 2).toNat) (s.cpu.flags.pack k.brkBit))
      cpu := { s.cpu with
        sp := s.cpu.sp - 3, flags := { s.cpu.flags with i := true }
        pc := mkWord (cartRead s.image s.mapper k.vector.toNat) (cartRead s.image s.mapper (k.vector.toNat + 1)) } } := by
  simp only [enterInterrupt, pushWord_eq, push_eq, readVector_eq]
  have : s.cpu.sp - 2 - 1 = s.cpu.sp - 3 := by rw [BitVec.sub_sub]; rfl
  simp only [State.setRam, State.setSp, State.setFlags, State.setPc]
  rw [this]

/-- The return from an interrupt (R136): the whole state it leaves. -/
theorem returnFromInterrupt_eq (s : State) :
    returnFromInterrupt s = { s with cpu := { s.cpu with
      sp := s.cpu.sp + 3, flags := Flags.unpack (s.ram.read (0x100 + (s.cpu.sp + 1).toNat))
      pc := mkWord (s.ram.read (0x100 + (s.cpu.sp + 2).toNat)) (s.ram.read (0x100 + (s.cpu.sp + 3).toNat)) } } := by
  simp only [returnFromInterrupt, pull_eq, pullWord_eq]
  have h2 : s.cpu.sp + 1 + 1 = s.cpu.sp + 2 := by rw [BitVec.add_assoc]; rfl
  have h3 : s.cpu.sp + 1 + 2 = s.cpu.sp + 3 := by rw [BitVec.add_assoc]; rfl
  simp only [State.setSp, State.setFlags, State.setPc]
  rw [h2, h3]

end Sys2Proof.Machine
end

