-- ==== Sys2Proof/Laws/Closure.lean ====
section
/-! SUPPORT. What is kept by every CPU change, every bus read and every bus write is kept by every instruction, every interrupt
entry and every CPU step: the one case split over the instruction set that invariants and frames cite. -/

namespace Sys2Proof.Machine

/-- Kept by the things a CPU step is made of; of the environment record it changes anything but the output trace. -/
structure Closed (P : State → Prop) : Prop where
  cpu   : ∀ (s : State) (c : Cpu), P s → P { s with cpu := c }
  env   : ∀ (s : State) (e : Env), e.out = s.env.out → P s → P { s with env := e }
  read  : ∀ (a : Word) (s : State), P s → P (busRead a s).2
  write : ∀ (base : Nat) (a : Word) (d : Byte) (s : State), P s → P (busWrite base a d s)

namespace Closed

variable {P : State → Prop} (h : Closed P)
include h

theorem retire {s : State} (n : Nat) (hs : P s) : P (s.retire n) := h.cpu s _ hs
theorem setFlags {s : State} (f : Flags) (hs : P s) : P (s.setFlags f) := h.cpu s _ hs
theorem setPc {s : State} (v : Word) (hs : P s) : P (s.setPc v) := h.cpu s _ hs
theorem setSp {s : State} (v : Byte) (hs : P s) : P (s.setSp v) := h.cpu s _ hs

theorem readValue {s : State} (m : ValueMode) (hs : P s) : P (readValue m s).2 := by
  cases m with
  | imm v => exact hs
  | mem mm => exact h.read _ _ (h.cpu s _ hs)

theorem push {s : State} (base : Nat) (v : Byte) (hs : P s) : P (push base v s) := h.setSp _ (h.write _ _ _ _ hs)
theorem pushWord {s : State} (base : Nat) (w : Word) (hs : P s) : P (pushWord base w s) := h.push _ _ (h.push _ _ hs)
theorem pull {s : State} (hs : P s) : P (pull s).2 := h.read _ _ (h.setSp _ hs)
theorem pullWord {s : State} (hs : P s) : P (pullWord s).2 := h.pull (h.pull hs)
theorem read16 {s : State} (a : Word) (hs : P s) : P (busRead16 a s).2 := h.read _ _ (h.read _ _ hs)

theorem enterInterrupt {s : State} (k : IntKind) (ret : Word) (hs : P s) : P (enterInterrupt k ret s) :=
  h.setPc _ (h.read16 _ (h.setFlags _ (h.push _ _ (h.pushWord _ _ hs))))

theorem returnFromInterrupt {s : State} (hs : P s) : P (returnFromInterrupt s) :=
  h.setPc _ (h.pullWord (h.setFlags _ (h.pull hs)))

theorem loadReg {s t : State} {set : Byte → State → State} (hset : ∀ v u, P u → P (set v u)) {m : ValueMode} {base : Nat}
    (hs : P s) (e : loadReg set m base s = .next t) : P t := by
  cases e; exact h.retire _ (h.setFlags _ (hset _ _ (h.readValue _ hs)))

theorem storeReg {s t : State} {get : Cpu → Byte} {m : MemMode} {base : Nat} (hs : P s)
    (e : storeReg get m base s = .next t) : P t := by
  cases e; exact h.retire _ (h.write _ _ _ _ hs)

theorem addOp {s t : State} {m : ValueMode} {base : Nat} (hs : P s) (e : addOp m base s = .next t) : P t := by
  cases e; exact h.retire _ (h.setFlags _ (h.cpu _ _ (h.readValue _ hs)))

theorem subOp {s t : State} {m : ValueMode} {base : Nat} (hs : P s) (e : subOp m base s = .next t) : P t := by
  cases e; exact h.retire _ (h.setFlags _ (h.cpu _ _ (h.readValue _ hs)))

theorem logicOp {s t : State} {f : Byte → Byte → Byte} {m : ValueMode} {base : Nat} (hs : P s)
    (e : logicOp f m base s = .next t) : P t := by
  cases e; exact h.retire _ (h.setFlags _ (h.cpu _ _ (h.readValue _ hs)))

theorem bitOp {s t : State} {m : ValueMode} {base : Nat} (hs : P s) (e : bitOp m base s = .next t) : P t := by
  cases e; exact h.retire _ (h.setFlags _ (h.readValue _ hs))

theorem compareReg {s t : State} {get : Cpu → Byte} {m : ValueMode} {base : Nat} (hs : P s)
    (e : compareReg get m base s = .next t) : P t := by
  cases e; exact h.retire _ (h.setFlags _ (h.readValue _ hs))

theorem modifyMem {s t : State} {delta : Byte} {m : MemMode} {base : Nat} (hs : P s)
    (e : modifyMem delta m base s = .next t) : P t := by
  cases e; exact h.retire _ (h.setFlags _ (h.write _ _ _ _ (h.read _ _ hs)))

theorem shiftMem {s t : State} {f : Bool → Byte → Byte × Bool} {m : MemMode} {base : Nat} (hs : P s)
    (e : shiftMem f m base s = .next t) : P t := by
  cases e; exact h.retire _ (h.setFlags _ (h.write _ _ _ _ (h.read _ _ hs)))

theorem branchIf {s t : State} {cond : Bool} {off : Byte} (hs : P s) (e : branchIf cond off s = .next t) : P t := by
  unfold Machine.branchIf at e
  split at e <;> cases e
  · exact h.retire _ (h.setPc _ (h.cpu _ _ hs))
  · exact h.retire _ hs

theorem transfer {s t : State} {get : Cpu → Byte} {set : Byte → State → State} (hset : ∀ v u, P u → P (set v u)) (hs : P s)
    (e : transfer get set s = .next t) : P t := by
  cases e; exact h.retire _ (h.setFlags _ (hset _ _ hs))

theorem countReg {s t : State} {get : Cpu → Byte} {set : Byte → State → State} {d : Byte}
    (hset : ∀ v u, P u → P (set v u)) (hs : P s) (e : countReg get set d s = .next t) : P t := by
  cases e; exact h.retire _ (h.setFlags _ (hset _ _ hs))

theorem shiftAcc {s t : State} {f : Bool → Byte → Byte × Bool} (hs : P s) (e : shiftAcc f s = .next t) : P t := by
  cases e; exact h.retire _ (h.setFlags _ (h.cpu _ _ hs))

theorem brkOp {s t : State} (hs : P s) (e : execBrk s = .next t) : P t := by
  unfold execBrk at e
  dsimp only at e
  split at e <;> cases e
  · exact h.retire _ (h.setPc _ hs)
  · exact h.retire _ (h.enterInterrupt _ _ hs)

/-- Instruction `i` keeps `P`. -/
def Keeps (P : State → Prop) (i : Instr) : Prop := ∀ s t, P s → Machine.exec i s = .next t → P t

theorem ldaIndx (x : Byte) : Keeps P (.ldaIndx x) := fun _ _ hs e => h.loadReg (fun _ _ hu => h.cpu _ _ hu) hs e
theorem ldaZp (x : Byte) : Keeps P (.ldaZp x) := fun _ _ hs e => h.loadReg (fun _ _ hu => h.cpu _ _ hu) hs e
theorem ldaImm (x : Byte) : Keeps P (.ldaImm x) := fun _ _ hs e => h.loadReg (fun _ _ hu => h.cpu _ _ hu) hs e
theorem ldaAbs (x : Word) : Keeps P (.ldaAbs x) := fun _ _ hs e => h.loadReg (fun _ _ hu => h.cpu _ _ hu) hs e
theorem ldaIndy (x : Byte) : Keeps P (.ldaIndy x) := fun _ _ hs e => h.loadReg (fun _ _ hu => h.cpu _ _ hu) hs e
theorem ldaZpx (x : Byte) : Keeps P (.ldaZpx x) := fun _ _ hs e => h.loadReg (fun _ _ hu => h.cpu _ _ hu) hs e
theorem ldaAbsy (x : Word) : Keeps P (.ldaAbsy x) := fun _ _ hs e => h.loadReg (fun _ _ hu => h.cpu _ _ hu) hs e
theorem ldaAbsx (x : Word) : Keeps P (.ldaAbsx x) := fun _ _ hs e => h.loadReg (fun _ _ hu => h.cpu _ _ hu) hs e
theorem ldxImm (x : Byte) : Keeps P (.ldxImm x) := fun _ _ hs e => h.loadReg (fun _ _ hu => h.cpu _ _ hu) hs e
theorem ldxZp (x : Byte) : Keeps P (.ldxZp x) := fun _ _ hs e => h.loadReg (fun _ _ hu => h.cpu _ _ hu) hs e
theorem ldxAbs (x : Word) : Keeps P (.ldxAbs x) := fun _ _ hs e => h.loadReg (fun _ _ hu => h.cpu _ _ hu) hs e
theorem ldxZpy (x : Byte) : Keeps P (.ldxZpy x) := fun _ _ hs e => h.loadReg (fun _ _ hu => h.cpu _ _ hu) hs e
theorem ldxAbsy (x : Word) : Keeps P (.ldxAbsy x) := fun _ _ hs e => h.loadReg (fun _ _ hu => h.cpu _ _ hu) hs e
theorem ldyImm (x : Byte) : Keeps P (.ldyImm x) := fun _ _ hs e => h.loadReg (fun _ _ hu => h.cpu _ _ hu) hs e
theorem ldyZp (x : Byte) : Keeps P (.ldyZp x) := fun _ _ hs e => h.loadReg (fun _ _ hu => h.cpu _ _ hu) hs e
theorem ldyAbs (x : Word) : Keeps P (.ldyAbs x) := fun _ _ hs e => h.loadReg (fun _ _ hu => h.cpu _ _ hu) hs e
theorem ldyZpx (x : Byte) : Keeps P (.ldyZpx x) := fun _ _ hs e => h.loadReg (fun _ _ hu => h.cpu _ _ hu) hs e
theorem ldyAbsx (x : Word) : Keeps P (.ldyAbsx x) := fun _ _ hs e => h.loadReg (fun _ _ hu => h.cpu _ _ hu) hs e
theorem staIndx (x : Byte) : Keeps P (.staIndx x) := fun _ _ hs e => h.storeReg hs e
theorem staZp (x : Byte) : Keeps P (.staZp x) := fun _ _ hs e => h.storeReg hs e
theorem staAbs (x : Word) : Keeps P (.staAbs x) := fun _ _ hs e => h.storeReg hs e
theorem staIndy (x : Byte) : Keeps P (.staIndy x) := fun _ _ hs e => h.storeReg hs e
theorem staZpx (x : Byte) : Keeps P (.staZpx x) := fun _ _ hs e => h.storeReg hs e
theorem staAbsy (x : Word) : Keeps P (.staAbsy x) := fun _ _ hs e => h.storeReg hs e
theorem staAbsx (x : Word) : Keeps P (.staAbsx x) := fun _ _ hs e => h.storeReg hs e
theorem stxZp (x : Byte) : Keeps P (.stxZp x) := fun _ _ hs e => h.storeReg hs e
theorem stxAbs (x : Word) : Keeps P (.stxAbs x) := fun _ _ hs e => h.storeReg hs e
theorem stxZpy (x : Byte) : Keeps P (.stxZpy x) := fun _ _ hs e => h.storeReg hs e
theorem styZp (x : Byte) : Keeps P (.styZp x) := fun _ _ hs e => h.storeReg hs e
theorem styAbs (x : Word) : Keeps P (.styAbs x) := fun _ _ hs e => h.storeReg hs e
theorem styZpx (x : Byte) : Keeps P (.styZpx x) := fun _ _ hs e => h.storeReg hs e
theorem tax : Keeps P .tax := fun _ _ hs e => h.transfer (fun _ _ hu => h.cpu _ _ hu) hs e
theorem tay : Keeps P .tay := fun _ _ hs e => h.transfer (fun _ _ hu => h.cpu _ _ hu) hs e
theorem tsx : Keeps P .tsx := fun _ _ hs e => h.transfer (fun _ _ hu => h.cpu _ _ hu) hs e
theorem txa : Keeps P .txa := fun _ _ hs e => h.transfer (fun _ _ hu => h.cpu _ _ hu) hs e
theorem txs : Keeps P .txs := fun _ _ hs e => by cases e; exact h.retire _ (h.setSp _ hs)
theorem tya : Keeps P .tya := fun _ _ hs e => h.transfer (fun _ _ hu => h.cpu _ _ hu) hs e
theorem adcIndx (x : Byte) : Keeps P (.adcIndx x) := fun _ _ hs e => h.addOp hs e
theorem adcZp (x : Byte) : Keeps P (.adcZp x) := fun _ _ hs e => h.addOp hs e
theorem adcImm (x : Byte) : Keeps P (.adcImm x) := fun _ _ hs e => h.addOp hs e
theorem adcAbs (x : Word) : Keeps P (.adcAbs x) := fun _ _ hs e => h.addOp hs e
theorem adcIndy (x : Byte) : Keeps P (.adcIndy x) := fun _ _ hs e => h.addOp hs e
theorem adcZpx (x : Byte) : Keeps P (.adcZpx x) := fun _ _ hs e => h.addOp hs e
theorem adcAbsy (x : Word) : Keeps P (.adcAbsy x) := fun _ _ hs e => h.addOp hs e
theorem adcAbsx (x : Word) : Keeps P (.adcAbsx x) := fun _ _ hs e => h.addOp hs e
theorem sbcIndx (x : Byte) : Keeps P (.sbcIndx x) := fun _ _ hs e => h.subOp hs e
theorem sbcZp (x : Byte) : Keeps P (.sbcZp x) := fun _ _ hs e => h.subOp hs e
theorem sbcImm (x : Byte) : Keeps P (.sbcImm x) := fun _ _ hs e => h.subOp hs e
theorem sbcAbs (x : Word) : Keeps P (.sbcAbs x) := fun _ _ hs e => h.subOp hs e
theorem sbcIndy (x : Byte) : Keeps P (.sbcIndy x) := fun _ _ hs e => h.subOp hs e
theorem sbcZpx (x : Byte) : Keeps P (.sbcZpx x) := fun _ _ hs e => h.subOp hs e
theorem sbcAbsy (x : Word) : Keeps P (.sbcAbsy x) := fun _ _ hs e => h.subOp hs e
theorem sbcAbsx (x : Word) : Keeps P (.sbcAbsx x) := fun _ _ hs e => h.subOp hs e
theorem andIndx (x : Byte) : Keeps P (.andIndx x) := fun _ _ hs e => h.logicOp hs e
theorem andZp (x : Byte) : Keeps P (.andZp x) := fun _ _ hs e => h.logicOp hs e
theorem andImm (x : Byte) : Keeps P (.andImm x) := fun _ _ hs e => h.logicOp hs e
theorem andAbs (x : Word) : Keeps P (.andAbs x) := fun _ _ hs e => h.logicOp hs e
theorem andIndy (x : Byte) : Keeps P (.andIndy x) := fun _ _ hs e => h.logicOp hs e
theorem andZpx (x : Byte) : Keeps P (.andZpx x) := fun _ _ hs e => h.logicOp hs e
theorem andAbsy (x : Word) : Keeps P (.andAbsy x) := fun _ _ hs e => h.logicOp hs e
theorem andAbsx (x : Word) : Keeps P (.andAbsx x) := fun _ _ hs e => h.logicOp hs e
theorem oraIndx (x : Byte) : Keeps P (.oraIndx x) := fun _ _ hs e => h.logicOp hs e
theorem oraZp (x : Byte) : Keeps P (.oraZp x) := fun _ _ hs e => h.logicOp hs e
theorem oraImm (x : Byte) : Keeps P (.oraImm x) := fun _ _ hs e => h.logicOp hs e
theorem oraAbs (x : Word) : Keeps P (.oraAbs x) := fun _ _ hs e => h.logicOp hs e
theorem oraIndy (x : Byte) : Keeps P (.oraIndy x) := fun _ _ hs e => h.logicOp hs e
theorem oraZpx (x : Byte) : Keeps P (.oraZpx x) := fun _ _ hs e => h.logicOp hs e
theorem oraAbsy (x : Word) : Keeps P (.oraAbsy x) := fun _ _ hs e => h.logicOp hs e
theorem oraAbsx (x : Word) : Keeps P (.oraAbsx x) := fun _ _ hs e => h.logicOp hs e
theorem eorIndx (x : Byte) : Keeps P (.eorIndx x) := fun _ _ hs e => h.logicOp hs e
theorem eorZp (x : Byte) : Keeps P (.eorZp x) := fun _ _ hs e => h.logicOp hs e
theorem eorImm (x : Byte) : Keeps P (.eorImm x) := fun _ _ hs e => h.logicOp hs e
theorem eorAbs (x : Word) : Keeps P (.eorAbs x) := fun _ _ hs e => h.logicOp hs e
theorem eorIndy (x : Byte) : Keeps P (.eorIndy x) := fun _ _ hs e => h.logicOp hs e
theorem eorZpx (x : Byte) : Keeps P (.eorZpx x) := fun _ _ hs e => h.logicOp hs e
theorem eorAbsy (x : Word) : Keeps P (.eorAbsy x) := fun _ _ hs e => h.logicOp hs e
theorem eorAbsx (x : Word) : Keeps P (.eorAbsx x) := fun _ _ hs e => h.logicOp hs e
theorem bitZp (x : Byte) : Keeps P (.bitZp x) := fun _ _ hs e => h.bitOp hs e
theorem bitAbs (x : Word) : Keeps P (.bitAbs x) := fun _ _ hs e => h.bitOp hs e
theorem cmpIndx (x : Byte) : Keeps P (.cmpIndx x) := fun _ _ hs e => h.compareReg hs e
theorem cmpZp (x : Byte) : Keeps P (.cmpZp x) := fun _ _ hs e => h.compareReg hs e
theorem cmpImm (x : Byte) : Keeps P (.cmpImm x) := fun _ _ hs e => h.compareReg hs e
theorem cmpAbs (x : Word) : Keeps P (.cmpAbs x) := fun _ _ hs e => h.compareReg hs e
theorem cmpIndy (x : Byte) : Keeps P (.cmpIndy x) := fun _ _ hs e => h.compareReg hs e
theorem cmpZpx (x : Byte) : Keeps P (.cmpZpx x) := fun _ _ hs e => h.compareReg hs e
theorem cmpAbsy (x : Word) : Keeps P (.cmpAbsy x) := fun _ _ hs e => h.compareReg hs e
theorem cmpAbsx (x : Word) : Keeps P (.cmpAbsx x) := fun _ _ hs e => h.compareReg hs e
theorem cpxImm (x : Byte) : Keeps P (.cpxImm x) := fun _ _ hs e => h.compareReg hs e
theorem cpxZp (x : Byte) : Keeps P (.cpxZp x) := fun _ _ hs e => h.compareReg hs e
theorem cpxAbs (x : Word) : Keeps P (.cpxAbs x) := fun _ _ hs e => h.compareReg hs e
theorem cpyImm (x : Byte) : Keeps P (.cpyImm x) := fun _ _ hs e => h.compareReg hs e
theorem cpyZp (x : Byte) : Keeps P (.cpyZp x) := fun _ _ hs e => h.compareReg hs e
theorem cpyAbs (x : Word) : Keeps P (.cpyAbs x) := fun _ _ hs e => h.compareReg hs e
theorem incZp (x : Byte) : Keeps P (.incZp x) := fun _ _ hs e => h.modifyMem hs e
theorem incAbs (x : Word) : Keeps P (.incAbs x) := fun _ _ hs e => h.modifyMem hs e
theorem incZpx (x : Byte) : Keeps P (.incZpx x) := fun _ _ hs e => h.modifyMem hs e
theorem incAbsx (x : Word) : Keeps P (.incAbsx x) := fun _ _ hs e => h.modifyMem hs e
theorem decZp (x : Byte) : Keeps P (.decZp x) := fun _ _ hs e => h.modifyMem hs e
theorem decAbs (x : Word) : Keeps P (.decAbs x) := fun _ _ hs e => h.modifyMem hs e
theorem decZpx (x : Byte) : Keeps P (.decZpx x) := fun _ _ hs e => h.modifyMem hs e
theorem decAbsx (x : Word) : Keeps P (.decAbsx x) := fun _ _ hs e => h.modifyMem hs e
theorem inx : Keeps P .inx := fun _ _ hs e => h.countReg (fun _ _ hu => h.cpu _ _ hu) hs e
theorem iny : Keeps P .iny := fun _ _ hs e => h.countReg (fun _ _ hu => h.cpu _ _ hu) hs e
theorem dex : Keeps P .dex := fun _ _ hs e => h.countReg (fun _ _ hu => h.cpu _ _ hu) hs e
theorem dey : Keeps P .dey := fun _ _ hs e => h.countReg (fun _ _ hu => h.cpu _ _ hu) hs e
theorem aslZp (x : Byte) : Keeps P (.aslZp x) := fun _ _ hs e => h.shiftMem (f := fun _ => aslByte) hs e
theorem aslAcc : Keeps P .aslAcc := fun _ _ hs e => h.shiftAcc (f := fun _ => aslByte) hs e
theorem aslAbs (x : Word) : Keeps P (.aslAbs x) := fun _ _ hs e => h.shiftMem (f := fun _ => aslByte) hs e
theorem aslZpx (x : Byte) : Keeps P (.aslZpx x) := fun _ _ hs e => h.shiftMem (f := fun _ => aslByte) hs e
theorem aslAbsx (x : Word) : Keeps P (.aslAbsx x) := fun _ _ hs e => h.shiftMem (f := fun _ => aslByte) hs e
theorem lsrZp (x : Byte) : Keeps P (.lsrZp x) := fun _ _ hs e => h.shiftMem (f := fun _ => lsrByte) hs e
theorem lsrAcc : Keeps P .lsrAcc := fun _ _ hs e => h.shiftAcc (f := fun _ => lsrByte) hs e
theorem lsrAbs (x : Word) : Keeps P (.lsrAbs x) := fun _ _ hs e => h.shiftMem (f := fun _ => lsrByte) hs e
theorem lsrZpx (x : Byte) : Keeps P (.lsrZpx x) := fun _ _ hs e => h.shiftMem (f := fun _ => lsrByte) hs e
theorem lsrAbsx (x : Word) : Keeps P (.lsrAbsx x) := fun _ _ hs e => h.shiftMem (f := fun _ => lsrByte) hs e
theorem rolZp (x : Byte) : Keeps P (.rolZp x) := fun _ _ hs e => h.shiftMem (f := rolByte) hs e
theorem rolAcc : Keeps P .rolAcc := fun _ _ hs e => h.shiftAcc (f := rolByte) hs e
theorem rolAbs (x : Word) : Keeps P (.rolAbs x) := fun _ _ hs e => h.shiftMem (f := rolByte) hs e
theorem rolZpx (x : Byte) : Keeps P (.rolZpx x) := fun _ _ hs e => h.shiftMem (f := rolByte) hs e
theorem rolAbsx (x : Word) : Keeps P (.rolAbsx x) := fun _ _ hs e => h.shiftMem (f := rolByte) hs e
theorem rorZp (x : Byte) : Keeps P (.rorZp x) := fun _ _ hs e => h.shiftMem (f := rorByte) hs e
theorem rorAcc : Keeps P .rorAcc := fun _ _ hs e => h.shiftAcc (f := rorByte) hs e
theorem rorAbs (x : Word) : Keeps P (.rorAbs x) := fun _ _ hs e => h.shiftMem (f := rorByte) hs e
theorem rorZpx (x : Byte) : Keeps P (.rorZpx x) := fun _ _ hs e => h.shiftMem (f := rorByte) hs e
theorem rorAbsx (x : Word) : Keeps P (.rorAbsx x) := fun _ _ hs e => h.shiftMem (f := rorByte) hs e
theorem jmpAbs (x : Word) : Keeps P (.jmpAbs x) := fun _ _ hs e => by cases e; exact h.retire _ (h.setPc _ hs)
theorem jmpInd (x : Word) : Keeps P (.jmpInd x) := fun _ _ hs e => by cases e; exact h.retire _ (h.setPc _ (h.read _ _ (h.read _ _ hs)))
theorem jsr (x : Word) : Keeps P (.jsr x) := fun _ _ hs e => by cases e; exact h.retire _ (h.setPc _ (h.pushWord _ _ hs))
theorem rts : Keeps P .rts := fun _ _ hs e => by cases e; exact h.retire _ (h.setPc _ (h.pullWord hs))
theorem bcc (x : Byte) : Keeps P (.bcc x) := fun _ _ hs e => h.branchIf hs e
theorem bcs (x : Byte) : Keeps P (.bcs x) := fun _ _ hs e => h.branchIf hs e
theorem beq (x : Byte) : Keeps P (.beq x) := fun _ _ hs e => h.branchIf hs e
theorem bmi (x : Byte) : Keeps P (.bmi x) := fun _ _ hs e => h.branchIf hs e
theorem bne (x : Byte) : Keeps P (.bne x) := fun _ _ hs e => h.branchIf hs e
theorem bpl (x : Byte) : Keeps P (.bpl x) := fun _ _ hs e => h.branchIf hs e
theorem bvc (x : Byte) : Keeps P (.bvc x) := fun _ _ hs e => h.branchIf hs e
theorem bvs (x : Byte) : Keeps P (.bvs x) := fun _ _ hs e => h.branchIf hs e
theorem brk : Keeps P .brk := fun _ _ hs e => h.brkOp hs e
theorem rti : Keeps P .rti := fun _ _ hs e => by cases e; exact h.retire _ (h.returnFromInterrupt hs)
theorem pha : Keeps P .pha := fun _ _ hs e => by cases e; exact h.retire _ (h.push _ _ hs)
theorem php : Keeps P .php := fun _ _ hs e => by cases e; exact h.retire _ (h.push _ _ hs)
theorem pla : Keeps P .pla := fun _ _ hs e => by cases e; exact h.retire _ (h.setFlags _ (h.cpu _ _ (h.pull hs)))
theorem plp : Keeps P .plp := fun _ _ hs e => by cases e; exact h.retire _ (h.setFlags _ (h.pull hs))
theorem clc : Keeps P .clc := fun _ _ hs e => by cases e; exact h.retire _ (h.setFlags _ hs)
theorem sec : Keeps P .sec := fun _ _ hs e => by cases e; exact h.retire _ (h.setFlags _ hs)
theorem cli : Keeps P .cli := fun _ _ hs e => by cases e; exact h.retire _ (h.setFlags _ hs)
theorem sei : Keeps P .sei := fun _ _ hs e => by cases e; exact h.retire _ (h.setFlags _ hs)
theorem cld : Keeps P .cld := fun _ _ hs e => by cases e; exact h.retire _ (h.setFlags _ hs)
theorem sed : Keeps P .sed := fun _ _ hs e => by cases e; exact h.retire _ (h.setFlags _ hs)
theorem clv : Keeps P .clv := fun _ _ hs e => by cases e; exact h.retire _ (h.setFlags _ hs)
theorem nop : Keeps P .nop := fun _ _ hs e => by cases e; exact h.retire _ hs

/-- The one case split over the instruction set. -/
theorem exec {s t : State} (i : Instr) (hs : P s) (e : Machine.exec i s = .next t) : P t := by
  revert s t
  change Keeps P i
  cases i
  case ldaIndx x => exact h.ldaIndx x
  case ldaZp x => exact h.ldaZp x
  case ldaImm x => exact h.ldaImm x
  case ldaAbs x => exact h.ldaAbs x
  case ldaIndy x => exact h.ldaIndy x
  case ldaZpx x => exact h.ldaZpx x
  case ldaAbsy x => exact h.ldaAbsy x
  case ldaAbsx x => exact h.ldaAbsx x
  case ldxImm x => exact h.ldxImm x
  case ldxZp x => exact h.ldxZp x
  case ldxAbs x => exact h.ldxAbs x
  case ldxZpy x => exact h.ldxZpy x
  case ldxAbsy x => exact h.ldxAbsy x
  case ldyImm x => exact h.ldyImm x
  case ldyZp x => exact h.ldyZp x
  case ldyAbs x => exact h.ldyAbs x
  case ldyZpx x => exact h.ldyZpx x
  case ldyAbsx x => exact h.ldyAbsx x
  case staIndx x => exact h.staIndx x
  case staZp x => exact h.staZp x
  case staAbs x => exact h.staAbs x
  case staIndy x => exact h.staIndy x
  case staZpx x => exact h.staZpx x
  case staAbsy x => exact h.staAbsy x
  case staAbsx x => exact h.staAbsx x
  case stxZp x => exact h.stxZp x
  case stxAbs x => exact h.stxAbs x
  case stxZpy x => exact h.stxZpy x
  case styZp x => exact h.styZp x
  case styAbs x => exact h.styAbs x
  case styZpx x => exact h.styZpx x
  case tax => exact h.tax
  case tay => exact h.tay
  case tsx => exact h.tsx
  case txa => exact h.txa
  case txs => exact h.txs
  case tya => exact h.tya
  case adcIndx x => exact h.adcIndx x
  case adcZp x => exact h.adcZp x
  case adcImm x => exact h.adcImm x
  case adcAbs x => exact h.adcAbs x
  case adcIndy x => exact h.adcIndy x
  case adcZpx x => exact h.adcZpx x
  case adcAbsy x => exact h.adcAbsy x
  case adcAbsx x => exact h.adcAbsx x
  case sbcIndx x => exact h.sbcIndx x
  case sbcZp x => exact h.sbcZp x
  case sbcImm x => exact h.sbcImm x
  case sbcAbs x => exact h.sbcAbs x
  case sbcIndy x => exact h.sbcIndy x
  case sbcZpx x => exact h.sbcZpx x
  case sbcAbsy x => exact h.sbcAbsy x
  case sbcAbsx x => exact h.sbcAbsx x
  case andIndx x => exact h.andIndx x
  case andZp x => exact h.andZp x
  case andImm x => exact h.andImm x
  case andAbs x => exact h.andAbs x
  case andIndy x => exact h.andIndy x
  case andZpx x => exact h.andZpx x
  case andAbsy x => exact h.andAbsy x
  case andAbsx x => exact h.andAbsx x
  case oraIndx x => exact h.oraIndx x
  case oraZp x => exact h.oraZp x
  case oraImm x => exact h.oraImm x
  case oraAbs x => exact h.oraAbs x
  case oraIndy x => exact h.oraIndy x
  case oraZpx x => exact h.oraZpx x
  case oraAbsy x => exact h.oraAbsy x
  case oraAbsx x => exact h.oraAbsx x
  case eorIndx x => exact h.eorIndx x
  case eorZp x => exact h.eorZp x
  case eorImm x => exact h.eorImm x
  case eorAbs x => exact h.eorAbs x
  case eorIndy x => exact h.eorIndy x
  case eorZpx x => exact h.eorZpx x
  case eorAbsy x => exact h.eorAbsy x
  case eorAbsx x => exact h.eorAbsx x
  case bitZp x => exact h.bitZp x
  case bitAbs x => exact h.bitAbs x
  case cmpIndx x => exact h.cmpIndx x
  case cmpZp x => exact h.cmpZp x
  case cmpImm x => exact h.cmpImm x
  case cmpAbs x => exact h.cmpAbs x
  case cmpIndy x => exact h.cmpIndy x
  case cmpZpx x => exact h.cmpZpx x
  case cmpAbsy x => exact h.cmpAbsy x
  case cmpAbsx x => exact h.cmpAbsx x
  case cpxImm x => exact h.cpxImm x
  case cpxZp x => exact h.cpxZp x
  case cpxAbs x => exact h.cpxAbs x
  case cpyImm x => exact h.cpyImm x
  case cpyZp x => exact h.cpyZp x
  case cpyAbs x => exact h.cpyAbs x
  case incZp x => exact h.incZp x
  case incAbs x => exact h.incAbs x
  case incZpx x => exact h.incZpx x
  case incAbsx x => exact h.incAbsx x
  case decZp x => exact h.decZp x
  case decAbs x => exact h.decAbs x
  case decZpx x => exact h.decZpx x
  case decAbsx x => exact h.decAbsx x
  case inx => exact h.inx
  case iny => exact h.iny
  case dex => exact h.dex
  case dey => exact h.dey
  case aslZp x => exact h.aslZp x
  case aslAcc => exact h.aslAcc
  case aslAbs x => exact h.aslAbs x
  case aslZpx x => exact h.aslZpx x
  case aslAbsx x => exact h.aslAbsx x
  case lsrZp x => exact h.lsrZp x
  case lsrAcc => exact h.lsrAcc
  case lsrAbs x => exact h.lsrAbs x
  case lsrZpx x => exact h.lsrZpx x
  case lsrAbsx x => exact h.lsrAbsx x
  case rolZp x => exact h.rolZp x
  case rolAcc => exact h.rolAcc
  case rolAbs x => exact h.rolAbs x
  case rolZpx x => exact h.rolZpx x
  case rolAbsx x => exact h.rolAbsx x
  case rorZp x => exact h.rorZp x
  case rorAcc => exact h.rorAcc
  case rorAbs x => exact h.rorAbs x
  case rorZpx x => exact h.rorZpx x
  case rorAbsx x => exact h.rorAbsx x
  case jmpAbs x => exact h.jmpAbs x
  case jmpInd x => exact h.jmpInd x
  case jsr x => exact h.jsr x
  case rts => exact h.rts
  case bcc x => exact h.bcc x
  case bcs x => exact h.bcs x
  case beq x => exact h.beq x
  case bmi x => exact h.bmi x
  case bne x => exact h.bne x
  case bpl x => exact h.bpl x
  case bvc x => exact h.bvc x
  case bvs x => exact h.bvs x
  case brk => exact h.brk
  case rti => exact h.rti
  case pha => exact h.pha
  case php => exact h.php
  case pla => exact h.pla
  case plp => exact h.plp
  case clc => exact h.clc
  case sec => exact h.sec
  case cli => exact h.cli
  case sei => exact h.sei
  case cld => exact h.cld
  case sed => exact h.sed
  case clv => exact h.clv
  case nop => exact h.nop

theorem fetchByte {s : State} (hs : P s) : P (fetchByte s).2 := h.setPc _ (h.read _ _ hs)

theorem runInstruction {s t : State} (hs : P s) (e : runInstruction s = .next t) : P t := by
  unfold Machine.runInstruction at e
  dsimp only at e
  split at e
  · cases e; exact h.cpu _ _ (h.fetchByte hs)
  · exact h.exec _ (h.fetchByte hs) e
  · exact h.exec _ (h.fetchByte (h.fetchByte hs)) e
  · exact h.exec _ (h.fetchByte (h.fetchByte (h.fetchByte hs))) e

theorem stepStart {s : State} (hs : P s) : P (stepStart s) := by
  have h1 : P s.clearExtra := h.cpu s _ hs
  unfold Machine.stepStart State.irqSampled
  split
  · exact h.env _ _ rfl h1
  · exact h.env _ _ rfl h1

/-- A CPU step keeps it. -/
theorem cpuStep {s t : State} (hs : P s) (e : cpuStep s = .next t) : P t := by
  unfold Machine.cpuStep at e
  split at e
  · cases e
  · split at e
    · cases e; exact h.retire _ (h.enterInterrupt _ _ (h.cpu _ _ (h.stepStart hs)))
    · split at e
      · cases e; exact h.retire _ (h.enterInterrupt _ _ (h.stepStart hs))
      · exact h.runInstruction (h.stepStart hs) e

end Closed

end Sys2Proof.Machine
end

