-- ==== Sys2Proof/Laws/Wf.lean ====
section
/-! SUPPORT. Well-formedness (`State.Wf`) is kept by bus reads and bus writes, so by every CPU step. -/

namespace Sys2Proof.Machine

/-! ## The picture unit -/

theorem nametablePage_lt (m : Mirroring) {q : Nat} (h : q < 4) : nametablePage m q < 4 := by
  cases m <;> simp only [nametablePage] <;> omega

theorem nametableCell_lt (m : Mirroring) (a : Nat) : nametableCell m a < 0x1000 := by
  have hq : (a - 0x2000) % 0x1000 / 0x400 < 4 := by omega
  have hp := nametablePage_lt m hq
  simp only [nametableCell]
  omega

theorem paletteAlias_lt {i : Nat} (h : i < 0x20) : paletteAlias i < 0x20 := by
  unfold paletteAlias; split <;> omega

theorem Ppu.Wf.statusRead {p : Ppu} (h : p.Wf) : p.statusRead.Wf :=
  ⟨h.ntRam, h.pal, h.oam, h.cycle, h.lineLow, h.lineHigh, h.bgidx, h.fb, h.sprites, h.entries⟩

theorem Ppu.Wf.readDataEffect {p : Ppu} (h : p.Wf) (img : Image) (m : Mapper) : (readDataEffect img m p).Wf :=
  ⟨h.ntRam, h.pal, h.oam, h.cycle, h.lineLow, h.lineHigh, h.bgidx, h.fb, h.sprites, h.entries⟩

theorem Ppu.Wf.writeCtrl {p : Ppu} (h : p.Wf) (d : Byte) : (p.writeCtrl d).Wf :=
  ⟨h.ntRam, h.pal, h.oam, h.cycle, h.lineLow, h.lineHigh, h.bgidx, h.fb, h.sprites, h.entries⟩

theorem Ppu.Wf.writeMask {p : Ppu} (h : p.Wf) (d : Byte) : (p.writeMask d).Wf :=
  ⟨h.ntRam, h.pal, h.oam, h.cycle, h.lineLow, h.lineHigh, h.bgidx, h.fb, h.sprites, h.entries⟩

theorem Ppu.Wf.writeOamAddr {p : Ppu} (h : p.Wf) (d : Byte) : (p.writeOamAddr d).Wf :=
  ⟨h.ntRam, h.pal, h.oam, h.cycle, h.lineLow, h.lineHigh, h.bgidx, h.fb, h.sprites, h.entries⟩

theorem Ppu.Wf.writeScroll {p : Ppu} (h : p.Wf) (d : Byte) : (p.writeScroll d).Wf := by
  unfold Ppu.writeScroll
  split <;> exact ⟨h.ntRam, h.pal, h.oam, h.cycle, h.lineLow, h.lineHigh, h.bgidx, h.fb, h.sprites, h.entries⟩

theorem Ppu.Wf.writeAddr {p : Ppu} (h : p.Wf) (d : Byte) : (p.writeAddr d).Wf := by
  unfold Ppu.writeAddr
  split <;> exact ⟨h.ntRam, h.pal, h.oam, h.cycle, h.lineLow, h.lineHigh, h.bgidx, h.fb, h.sprites, h.entries⟩

/-- A byte stored in OAM (R41, R175). -/
theorem Ppu.Wf.storeOam {p : Ppu} (h : p.Wf) (a d addr : Byte) :
    Ppu.Wf { p with oam := p.oam.write a.toNat d, oamaddr := addr } :=
  ⟨h.ntRam, h.pal, Memory.isArray_write h.oam a.isLt d, h.cycle, h.lineLow, h.lineHigh, h.bgidx, h.fb, h.sprites, h.entries⟩

theorem Ppu.Wf.writeData {p : Ppu} (h : p.Wf) (img : Image) (m : Mapper) (a : Nat) (d : Byte) :
    (ppuWriteMem img m a d p).advance.Wf := by
  unfold Ppu.advance ppuWriteMem
  dsimp only
  split
  · exact ⟨h.ntRam, h.pal, h.oam, h.cycle, h.lineLow, h.lineHigh, h.bgidx, h.fb, h.sprites, h.entries⟩
  · split
    · exact ⟨Memory.isArray_write h.ntRam (nametableCell_lt _ _) d, h.pal, h.oam, h.cycle, h.lineLow, h.lineHigh, h.bgidx,
        h.fb, h.sprites, h.entries⟩
    · exact ⟨h.ntRam, Memory.isArray_write h.pal (paletteAlias_lt (Nat.mod_lt _ (by decide))) d, h.oam, h.cycle, h.lineLow,
        h.lineHigh, h.bgidx, h.fb, h.sprites, h.entries⟩

/-! ## The cartridge -/

theorem chrIndex_lt {img : Image} (h : img.nChr = 0) (regs : MapperRegs) {a : Nat} (ha : a < 0x2000) :
    chrIndex img regs a < 0x2000 := by
  cases regs with
  | mapper0 => exact ha
  | mapper1 r =>
    simp only [chrIndex, Image.chrBanks, h, if_true]
    omega

theorem Mapper.Wf.chrWrite {m : Mapper} (h : m.Wf) (img : Image) {a : Nat} (ha : a < 0x2000) (d : Byte) :
    (chrWrite img a d m).Wf := by
  unfold Machine.chrWrite
  split
  · rename_i hn
    exact ⟨h.prgRam, Memory.isArray_write h.chrRam (chrIndex_lt hn _ ha) d, h.regs⟩
  · exact h

theorem Mapper.Wf.ppuWriteCart {m : Mapper} (h : m.Wf) (img : Image) (a : Nat) (d : Byte) : (ppuWriteCart img a d m).Wf := by
  unfold Machine.ppuWriteCart
  dsimp only
  split
  · exact h.chrWrite img (by assumption) d
  · exact h

/-- A serial write keeps the sentinel (R58). -/
theorem Mmc1.sr_ne_zero_of_write {r : Mmc1} (h : r.sr ≠ 0) (a : Nat) (d : Byte) : (r.write a d).sr ≠ 0 := by
  unfold Mmc1.write
  split
  · show (0x10 : BitVec 5) ≠ 0; decide
  · split
    · show (0x10 : BitVec 5) ≠ 0; decide
    · rename_i hb
      show r.shiftIn d ≠ 0
      unfold Mmc1.shiftIn
      revert h hb
      generalize r.sr = sr
      generalize d.getLsbD 0 = b
      revert sr b
      decide

theorem MapperRegs.Wf.write {m : MapperRegs} (h : m.Wf) (a : Nat) (d : Byte) : (m.write a d).Wf := by
  cases m with
  | mapper0 => trivial
  | mapper1 r => exact Mmc1.sr_ne_zero_of_write h a d

theorem Mapper.Wf.cartWrite {m : Mapper} (h : m.Wf) (img : Image) (a : Nat) (d : Byte) : (cartWrite img a d m).Wf := by
  unfold Machine.cartWrite
  split
  · exact ⟨h.prgRam, h.chrRam, h.regs.write a d⟩
  · split
    · exact ⟨Memory.isArray_write h.prgRam (by omega) d, h.chrRam, h.regs⟩
    · exact h

/-! ## The controllers -/

theorem Pads.Wf.write {p : Pads} (d : Byte) : (p.write d).Wf := by
  unfold Pads.write Pads.Wf
  split
  · intro _; exact ⟨rfl, rfl⟩
  · rename_i hs
    intro h
    simp_all

theorem Pads.Wf.shift0 {p : Pads} (h : p.Wf) (after8 : Bool) : Pads.Wf { p with pad0 := p.pad0.shift after8 p.strobe } := by
  intro hs
  have hs' : p.strobe = true := hs
  simp only [hs', Pad.shift, if_true]
  exact h hs'

theorem Pads.Wf.shift1 {p : Pads} (h : p.Wf) (after8 : Bool) : Pads.Wf { p with pad1 := p.pad1.shift after8 p.strobe } := by
  intro hs
  have hs' : p.strobe = true := hs
  simp only [hs', Pad.shift, if_true]
  exact h hs'

/-! ## The audio unit -/

theorem lengthHalf_zero (halt : Bool) : lengthHalf halt 0 = 0 := by cases halt <;> rfl

/-- A quarter event touches no counter the invariant bounds. -/
theorem Apu.Wf.quarter {ps : Params} {a : Apu} (h : a.Wf ps) : a.quarter.Wf ps :=
  ⟨h.pulse1, h.pulse2, h.triangle, h.noise, h.len1, h.len2, h.lenTri, h.lenNoise, h.bitsLow, h.bitsHigh, h.cur, h.sample,
    h.sampleLen, h.fs, h.sc⟩

theorem Apu.Wf.half {ps : Params} {a : Apu} (h : a.Wf ps) (ones : Bool) : (a.half ones).Wf ps :=
  ⟨h.pulse1, h.pulse2, h.triangle, h.noise,
    fun e => (congrArg _ (h.len1 e)).trans (lengthHalf_zero _), fun e => (congrArg _ (h.len2 e)).trans (lengthHalf_zero _),
    fun e => (congrArg _ (h.lenTri e)).trans (lengthHalf_zero _), fun e => (congrArg _ (h.lenNoise e)).trans (lengthHalf_zero _),
    h.bitsLow, h.bitsHigh, h.cur, h.sample, h.sampleLen, h.fs, h.sc⟩

theorem Apu.Wf.fire {ps : Params} {a : Apu} (h : a.Wf ps) (ones : Bool) (e : SeqEvent) : (a.fire ones e).Wf ps := by
  cases e
  · exact h.quarter
  · exact h.quarter.half ones

theorem SeqMode.wrap_pos {m : SeqMode} (h : m.wf = true) : 0 < m.wrap := by
  simp only [SeqMode.wf, Bool.and_eq_true, bne_iff_ne, ne_eq] at h
  omega

theorem Params.seq4_wf {ps : Params} (h : ps.wf = true) : ps.seq4.wf = true := by
  simp only [Params.wf, Bool.and_eq_true] at h; exact h.1.1.1.2
theorem Params.seq5_wf {ps : Params} (h : ps.wf = true) : ps.seq5.wf = true := by
  simp only [Params.wf, Bool.and_eq_true] at h; exact h.1.1.2

theorem Apu.schedule_wrap_pos {ps : Params} (h : ps.wf = true) (a : Apu) : 0 < (a.schedule ps).wrap := by
  unfold Apu.schedule
  split
  · exact SeqMode.wrap_pos (Params.seq5_wf h)
  · exact SeqMode.wrap_pos (Params.seq4_wf h)

theorem Apu.Wf.writeSequencer {ps : Params} (hp : ps.wf = true) {a : Apu} (h : a.Wf ps) (ones : Bool) (d : Byte) :
    (a.writeSequencer ones d).Wf ps := by
  refine Apu.Wf.fire ?_ ones .quarterHalf
  exact ⟨h.pulse1, h.pulse2, h.triangle, h.noise, h.len1, h.len2, h.lenTri, h.lenNoise, h.bitsLow, h.bitsHigh, h.cur, h.sample,
    h.sampleLen, Apu.schedule_wrap_pos hp _, h.sc⟩

theorem sampleAddr_ge (d : Byte) : 0xC000 ≤ (0xC000 + (zext16 d <<< 6) : Word).toNat := by revert d; decide
theorem sampleLen_ge (d : Byte) : 1 ≤ ((d.setWidth 12 <<< 4) + 1 : BitVec 12).toNat := by revert d; decide

theorem Apu.Wf.writeEnable {ps : Params} {a : Apu} (h : a.Wf ps) (d : Byte) : (a.writeEnable d).Wf ps := by
  have hd : (a.dmc.enable (d.getLsbD 4)).bitsLeft = a.dmc.bitsLeft
      ∧ (a.dmc.enable (d.getLsbD 4)).sampleAddr = a.dmc.sampleAddr
      ∧ (a.dmc.enable (d.getLsbD 4)).sampleLen = a.dmc.sampleLen
      ∧ 0x8000 ≤ (a.dmc.enable (d.getLsbD 4)).curAddr.toNat := by
    have hs := h.sample
    unfold Dmc.enable
    split
    · exact ⟨rfl, rfl, rfl, h.cur⟩
    · split
      · exact ⟨rfl, rfl, rfl, by show 0x8000 ≤ a.dmc.sampleAddr.toNat; omega⟩
      · exact ⟨rfl, rfl, rfl, h.cur⟩
  have hl : ∀ (b : Bool) (len : Byte), b = false → lengthEnable b len = 0 := fun b len e => by subst e; rfl
  exact ⟨h.pulse1, h.pulse2, h.triangle, h.noise, hl _ _, hl _ _, hl _ _, hl _ _, hd.1 ▸ h.bitsLow, hd.1 ▸ h.bitsHigh, hd.2.2.2,
    hd.2.1 ▸ h.sample, hd.2.2.1 ▸ h.sampleLen, h.fs, h.sc⟩

/-- A length load of a disabled channel has no effect (R231); of an enabled one it is R196's list. -/
theorem Pulse.loadLength_disabled {p : Pulse} (h : p.enabled = false) (d : Byte) : p.loadLength d = p := by
  simp [Pulse.loadLength, h]
theorem Pulse.loadLength_enabled {p : Pulse} (h : p.enabled = true) (d : Byte) :
    p.loadLength d = { p with len := lengthLoad d, env := { p.env with start := true }, q := 0 } := if_pos h
theorem Triangle.loadLength_disabled {c : Triangle} (h : c.enabled = false) (d : Byte) : c.loadLength d = c := by
  simp [Triangle.loadLength, h]
theorem Triangle.loadLength_enabled {c : Triangle} (h : c.enabled = true) (d : Byte) :
    c.loadLength d = { c with len := lengthLoad d, lr := true } := if_pos h
theorem Noise.loadLength_disabled {c : Noise} (h : c.enabled = false) (d : Byte) : c.loadLength d = c := by
  simp [Noise.loadLength, h]
theorem Noise.loadLength_enabled {c : Noise} (h : c.enabled = true) (d : Byte) :
    c.loadLength d = { c with len := lengthLoad d, env := { c.env with start := true } } := if_pos h

theorem Pulse.writeReg_ct (k : Nat) (d : Byte) (p : Pulse) : (p.writeReg k d).ct = p.ct := by
  unfold Pulse.writeReg Pulse.loadLength
  repeat' split
  all_goals rfl
theorem Pulse.writeReg_len (k : Nat) (d : Byte) (p : Pulse) (h : p.enabled = false → p.len = 0) :
    (p.writeReg k d).enabled = false → (p.writeReg k d).len = 0 := by
  unfold Pulse.writeReg Pulse.loadLength
  split
  · exact h
  · exact h
  · exact h
  · split
    · rename_i he; intro e; exact absurd (he.symm.trans e) (by simp)
    · exact h
theorem Triangle.writeReg_ct (k : Nat) (d : Byte) (p : Triangle) : (p.writeReg k d).ct = p.ct := by
  unfold Triangle.writeReg Triangle.loadLength
  repeat' split
  all_goals rfl
theorem Triangle.writeReg_len (k : Nat) (d : Byte) (p : Triangle) (h : p.enabled = false → p.len = 0) :
    (p.writeReg k d).enabled = false → (p.writeReg k d).len = 0 := by
  unfold Triangle.writeReg Triangle.loadLength
  split
  · exact h
  · exact h
  · split
    · rename_i he; intro e; exact absurd (he.symm.trans e) (by simp)
    · exact h
  · exact h
theorem Noise.writeReg_sr (k : Nat) (d : Byte) (p : Noise) : (p.writeReg k d).sr = p.sr := by
  unfold Noise.writeReg Noise.loadLength
  repeat' split
  all_goals rfl
theorem Noise.writeReg_len (k : Nat) (d : Byte) (p : Noise) (h : p.enabled = false → p.len = 0) :
    (p.writeReg k d).enabled = false → (p.writeReg k d).len = 0 := by
  unfold Noise.writeReg Noise.loadLength
  split
  · exact h
  · exact h
  · split
    · rename_i he; intro e; exact absurd (he.symm.trans e) (by simp)
    · exact h
  · exact h

/-- A CPU write to an audio register keeps the audio unit well formed. -/
theorem Apu.Wf.write {ps : Params} (hp : ps.wf = true) {a : Apu} (h : a.Wf ps) (ones : Bool) (addr : Nat) (d : Byte) :
    (a.write ones addr d).Wf ps := by
  unfold Apu.write
  split
  · exact ⟨(Pulse.writeReg_ct _ d a.pulse1).symm ▸ h.pulse1, h.pulse2, h.triangle, h.noise, Pulse.writeReg_len _ d _ h.len1,
      h.len2, h.lenTri, h.lenNoise, h.bitsLow, h.bitsHigh, h.cur, h.sample, h.sampleLen, h.fs, h.sc⟩
  split
  · exact ⟨h.pulse1, (Pulse.writeReg_ct _ d a.pulse2).symm ▸ h.pulse2, h.triangle, h.noise, h.len1,
      Pulse.writeReg_len _ d _ h.len2, h.lenTri, h.lenNoise, h.bitsLow, h.bitsHigh, h.cur, h.sample, h.sampleLen, h.fs, h.sc⟩
  split
  · exact ⟨h.pulse1, h.pulse2, (Triangle.writeReg_ct _ d a.triangle).symm ▸ h.triangle, h.noise, h.len1, h.len2,
      Triangle.writeReg_len _ d _ h.lenTri, h.lenNoise, h.bitsLow, h.bitsHigh, h.cur, h.sample, h.sampleLen, h.fs, h.sc⟩
  split
  · exact ⟨h.pulse1, h.pulse2, h.triangle, (Noise.writeReg_sr _ d a.noise).symm ▸ h.noise, h.len1, h.len2, h.lenTri,
      Noise.writeReg_len _ d _ h.lenNoise, h.bitsLow, h.bitsHigh, h.cur, h.sample, h.sampleLen, h.fs, h.sc⟩
  split
  · unfold Dmc.writeReg
    split
    · exact ⟨h.pulse1, h.pulse2, h.triangle, h.noise, h.len1, h.len2, h.lenTri, h.lenNoise, h.bitsLow, h.bitsHigh, h.cur,
        h.sample, h.sampleLen, h.fs, h.sc⟩
    · exact ⟨h.pulse1, h.pulse2, h.triangle, h.noise, h.len1, h.len2, h.lenTri, h.lenNoise, h.bitsLow, h.bitsHigh, h.cur,
        h.sample, h.sampleLen, h.fs, h.sc⟩
    · exact ⟨h.pulse1, h.pulse2, h.triangle, h.noise, h.len1, h.len2, h.lenTri, h.lenNoise, h.bitsLow, h.bitsHigh, h.cur,
        sampleAddr_ge d, h.sampleLen, h.fs, h.sc⟩
    · exact ⟨h.pulse1, h.pulse2, h.triangle, h.noise, h.len1, h.len2, h.lenTri, h.lenNoise, h.bitsLow, h.bitsHigh, h.cur,
        h.sample, sampleLen_ge d, h.fs, h.sc⟩
  split
  · exact h.writeEnable d
  split
  · exact h.writeSequencer hp ones d
  · exact h

/-! ## The bus -/

theorem State.Wf.busRead {s : State} (h : s.Wf) (a : Word) : (busRead a s).2.Wf := by
  refine ⟨?_, ?_, ?_, ?_, ?_, ?_, ?_⟩
  · rw [busRead_params]; exact h.params
  · rw [busRead_image]; exact h.image
  · rw [busRead_ram_eq]; exact h.ram
  · rw [busRead_mapper]; exact h.mapper
  · rcases busRead_ppu a s with e | ⟨-, e⟩ | ⟨-, e⟩ <;> rw [e]
    · exact h.ppu
    · exact h.ppu.statusRead
    · exact h.ppu.readDataEffect _ _
  · rw [busRead_params, busRead_apu]; exact h.apu
  · rcases busRead_pads a s with e | ⟨-, e⟩ | ⟨-, e⟩ <;> rw [e]
    · exact h.pads
    · exact h.pads.shift0 _
    · exact h.pads.shift1 _

theorem State.Wf.dmaBytes {s : State} (h : s.Wf) (page : Byte) (k : Nat) : (dmaBytes page k s).Wf := by
  induction k with
  | zero => exact h
  | succ k ih =>
    have hr := ih.busRead (pageByte page k)
    exact ⟨hr.params, hr.image, hr.ram, hr.mapper, hr.ppu.storeOam _ _ _, hr.apu, hr.pads⟩

theorem State.Wf.busWrite {s : State} (h : s.Wf) (base : Nat) (a : Word) (d : Byte) : (busWrite base a d s).Wf := by
  unfold Machine.busWrite
  dsimp only
  split
  · exact ⟨h.params, h.image, Memory.isArray_write h.ram (Nat.mod_lt _ (by decide)) d, h.mapper, h.ppu, h.apu, h.pads⟩
  split
  · unfold pictureWrite Machine.writeCtrl
    split
    · split <;> exact ⟨h.params, h.image, h.ram, h.mapper, h.ppu.writeCtrl d, h.apu, h.pads⟩
    · exact ⟨h.params, h.image, h.ram, h.mapper, h.ppu.writeMask d, h.apu, h.pads⟩
    · exact ⟨h.params, h.image, h.ram, h.mapper, h.ppu.writeOamAddr d, h.apu, h.pads⟩
    · exact ⟨h.params, h.image, h.ram, h.mapper, h.ppu.storeOam _ _ _, h.apu, h.pads⟩
    · exact ⟨h.params, h.image, h.ram, h.mapper, h.ppu.writeScroll d, h.apu, h.pads⟩
    · exact ⟨h.params, h.image, h.ram, h.mapper, h.ppu.writeAddr d, h.apu, h.pads⟩
    · exact ⟨h.params, h.image, h.ram, h.mapper.ppuWriteCart _ _ d, h.ppu.writeData _ _ _ d, h.apu, h.pads⟩
    · exact h
  split
  · have hd := h.dmaBytes d 256
    exact ⟨hd.params, hd.image, hd.ram, hd.mapper, hd.ppu, hd.apu, hd.pads⟩
  split
  · exact ⟨h.params, h.image, h.ram, h.mapper, h.ppu, h.apu, Pads.Wf.write d⟩
  split
  · exact ⟨h.params, h.image, h.ram, h.mapper, h.ppu, h.apu.write h.params _ _ d, h.pads⟩
  split
  · exact h
  · exact ⟨h.params, h.image, h.ram, h.mapper.cartWrite _ _ d, h.ppu, h.apu, h.pads⟩

/-- No part of well-formedness is about the environment record. -/
theorem State.Wf.withEnv {s : State} (e : Env) (h : s.Wf) : State.Wf { s with env := e } :=
  ⟨h.params, h.image, h.ram, h.mapper, h.ppu, h.apu, h.pads⟩

/-- Well-formedness looks at nothing of the CPU and is kept by the bus: every CPU step keeps it. -/
theorem closed_wf : Closed State.Wf where
  cpu := fun _ _ h => ⟨h.params, h.image, h.ram, h.mapper, h.ppu, h.apu, h.pads⟩
  env := fun _ e _ h => h.withEnv e
  read := fun a _ h => h.busRead a
  write := fun base a d _ h => h.busWrite base a d

end Sys2Proof.Machine
end

