-- ==== Sys2Proof/Laws/Ticks.lean ====
section
/-! SUPPORT. What a device tick can do, said once: what it leaves alone, the picture position, and well-formedness kept. -/

namespace Sys2Proof.Machine

/-! ## What a picture tick leaves alone -/

/-- A line's rendering touches the line buffers, the sprite list and two status flags, and nothing else (R188). -/
theorem renderLine_eq (img : Image) (m : Mapper) (y s : Nat) (p : Ppu) :
    ∃ bg fb sp hit ovf, renderLine img m y s p
      = { p with bgidx := Lines.set p.bgidx s bg, fb := Lines.set p.fb s fb, sprites := sp, s0hit := hit, ovf := ovf } := by
  unfold renderLine
  split
  · exact ⟨_, _, _, _, _, rfl⟩
  · exact ⟨_, _, _, _, _, rfl⟩

/-- The events of a position change the picture unit and the NMI latch alone, and not the position. -/
theorem pictureEvents_eq (s : State) :
    ∃ p n, pictureEvents s = { s with ppu := p, cpu := { s.cpu with nmiPending := s.cpu.nmiPending || n } }
      ∧ p.cycle = s.ppu.cycle ∧ p.scanline = s.ppu.scanline ∧ p.frame = s.ppu.frame
      ∧ p.ntRam = s.ppu.ntRam ∧ p.pal = s.ppu.pal ∧ p.oam = s.ppu.oam := by
  unfold pictureEvents
  dsimp only
  split
  · split
    · obtain ⟨bg, fb, sp, hit, ovf, e⟩ := renderLine_eq s.image s.mapper s.params.spriteYOffset s.ppu.scanline.toNat s.ppu
      refine ⟨renderLine s.image s.mapper s.params.spriteYOffset s.ppu.scanline.toNat s.ppu, false, by simp [State.setPpu], ?_, ?_, ?_, ?_, ?_, ?_⟩ <;> rw [e]
    · exact ⟨s.ppu, false, by simp, rfl, rfl, rfl, rfl, rfl, rfl⟩
  split
  · split
    · exact ⟨clearStatus s.ppu, false, by simp [State.setPpu], rfl, rfl, rfl, rfl, rfl, rfl⟩
    · split
      · unfold vblankStart
        dsimp only
        split
        · exact ⟨{ s.ppu with vblank := true }, true, by simp [State.setPpu, State.setNmi], rfl, rfl, rfl, rfl, rfl, rfl⟩
        · exact ⟨{ s.ppu with vblank := true }, false, by simp [State.setPpu], rfl, rfl, rfl, rfl, rfl, rfl⟩
      · exact ⟨s.ppu, false, by simp, rfl, rfl, rfl, rfl, rfl, rfl⟩
  split
  · exact ⟨s.ppu, false, by simp, rfl, rfl, rfl, rfl, rfl, rfl⟩
  split
  · exact ⟨{ s.ppu with v := Loopy.incY s.ppu.v }, false, by simp [State.setPpu], rfl, rfl, rfl, rfl, rfl, rfl⟩
  split
  · exact ⟨{ s.ppu with v := Loopy.copyX s.ppu.t s.ppu.v }, false, by simp [State.setPpu], rfl, rfl, rfl, rfl, rfl, rfl⟩
  split
  · exact ⟨s.ppu, false, by simp [State.setMapper, scanlineTick], rfl, rfl, rfl, rfl, rfl, rfl⟩
  split
  · exact ⟨{ s.ppu with v := Loopy.copyY s.ppu.t s.ppu.v }, false, by simp [State.setPpu], rfl, rfl, rfl, rfl, rfl, rfl⟩
  · exact ⟨s.ppu, false, by simp, rfl, rfl, rfl, rfl, rfl, rfl⟩

theorem Ppu.Wf.position_lt {p : Ppu} (h : p.Wf) : p.position < frameTicks := by
  have := h.cycle; have := h.lineLow; have := h.lineHigh
  unfold Ppu.position frameTicks
  omega

/-- Everything a picture tick leaves alone. -/
structure TickFrame (s t : State) : Prop where
  a : t.cpu.a = s.cpu.a
  x : t.cpu.x = s.cpu.x
  y : t.cpu.y = s.cpu.y
  sp : t.cpu.sp = s.cpu.sp
  pc : t.cpu.pc = s.cpu.pc
  flags : t.cpu.flags = s.cpu.flags
  cycles : t.cpu.cycles = s.cpu.cycles
  extra : t.cpu.extra = s.cpu.extra
  halted : t.cpu.halted = s.cpu.halted
  ram : t.ram = s.ram
  image : t.image = s.image
  mapper : t.mapper = s.mapper
  params : t.params = s.params
  nt : t.ppu.ntRam = s.ppu.ntRam
  pal : t.ppu.pal = s.ppu.pal
  oam : t.ppu.oam = s.ppu.oam
  irqIn : t.env.irqIn = s.env.irqIn
  irqDraws : t.env.irqDraws = s.env.irqDraws

theorem TickFrame.refl (s : State) : TickFrame s s := by constructor <;> rfl

theorem TickFrame.trans {s t u : State} (h : TickFrame s t) (k : TickFrame t u) : TickFrame s u where
  a := k.a.trans h.a
  x := k.x.trans h.x
  y := k.y.trans h.y
  sp := k.sp.trans h.sp
  pc := k.pc.trans h.pc
  flags := k.flags.trans h.flags
  cycles := k.cycles.trans h.cycles
  extra := k.extra.trans h.extra
  halted := k.halted.trans h.halted
  ram := k.ram.trans h.ram
  image := k.image.trans h.image
  mapper := k.mapper.trans h.mapper
  params := k.params.trans h.params
  nt := k.nt.trans h.nt
  pal := k.pal.trans h.pal
  oam := k.oam.trans h.oam
  irqIn := k.irqIn.trans h.irqIn
  irqDraws := k.irqDraws.trans h.irqDraws

theorem pictureTick_frame (s : State) : TickFrame s (pictureTick s) := by
  obtain ⟨p, n, e, -, -, -, h1, h2, h3⟩ := pictureEvents_eq s
  rw [pictureTick, e]
  unfold advancePosition
  dsimp only
  split
  · split
    · exact ⟨rfl, rfl, rfl, rfl, rfl, rfl, rfl, rfl, rfl, rfl, rfl, rfl, rfl, h1, h2, h3, rfl, rfl⟩
    · exact ⟨rfl, rfl, rfl, rfl, rfl, rfl, rfl, rfl, rfl, rfl, rfl, rfl, rfl, h1, h2, h3, rfl, rfl⟩
  · exact ⟨rfl, rfl, rfl, rfl, rfl, rfl, rfl, rfl, rfl, rfl, rfl, rfl, rfl, h1, h2, h3, rfl, rfl⟩

/-- A picture tick leaves the audio unit and the controllers alone, and never clears the NMI latch. -/
theorem pictureTick_other (s : State) : (pictureTick s).apu = s.apu ∧ (pictureTick s).pads = s.pads ∧
    (s.cpu.nmiPending = true → (pictureTick s).cpu.nmiPending = true) := by
  obtain ⟨p, n, e, -⟩ := pictureEvents_eq s
  rw [pictureTick, e]
  unfold advancePosition
  dsimp only
  repeat' split
  all_goals exact ⟨rfl, rfl, fun h => by simp [State.setPpu, State.emit, h]⟩

/-- The position after a tick (R183): one on, and at the frame's end back to 0 with `frame` counted. -/
theorem pictureTick_position (s : State) (h : s.ppu.Wf) :
    (pictureTick s).ppu.position = (s.ppu.position + 1) % frameTicks ∧
    (pictureTick s).ppu.frame = s.ppu.frame + (s.ppu.position + 1) / frameTicks := by
  obtain ⟨p, n, e, hc, hl, hf, -⟩ := pictureEvents_eq s
  have h1 := h.cycle; have h2 := h.lineLow; have h3 := h.lineHigh
  rw [pictureTick, e]
  unfold advancePosition Ppu.position frameTicks
  dsimp only
  rw [hc, hl]
  split
  · split
    · refine ⟨?_, ?_⟩
      · show ((-1 : Int) + 1).toNat * 341 + 0 = _
        omega
      · show p.frame + 1 = _
        rw [hf]; omega
    · refine ⟨?_, ?_⟩
      · show (s.ppu.scanline + 1 + 1).toNat * 341 + 0 = _
        omega
      · show p.frame = _
        rw [hf]; omega
  · refine ⟨?_, ?_⟩
    · show (s.ppu.scanline + 1).toNat * 341 + (s.ppu.cycle + 1) = _
      omega
    · show p.frame = _
      rw [hf]; omega

/-! ## Rendering keeps the form -/

theorem evaluateOne_bounds {y : Nat} {p : Ppu} {s n : Nat} {acc : List Nat × Bool} (hn : n < 64)
    (h : acc.1.length ≤ 8 ∧ ∀ k ∈ acc.1, k < 64) :
    (evaluateOne y p s acc n).1.length ≤ 8 ∧ ∀ k ∈ (evaluateOne y p s acc n).1, k < 64 := by
  unfold evaluateOne
  split
  · split
    · refine ⟨by simp only [List.length_append, List.length_cons, List.length_nil]; omega, ?_⟩
      intro k hk
      simp only [List.mem_append, List.mem_cons, List.not_mem_nil, or_false] at hk
      rcases hk with hk | hk
      · exact h.2 k hk
      · omega
    · exact h
  · exact h

/-- At most 8 sprites are selected, all of them OAM entries (R190). -/
theorem evaluateLine_bounds (y : Nat) (p : Ppu) (s : Nat) :
    (evaluateLine y p s).1.length ≤ 8 ∧ ∀ k ∈ (evaluateLine y p s).1, k < 64 := by
  unfold evaluateLine
  have key : ∀ (ns : List Nat) (acc : List Nat × Bool), (∀ n ∈ ns, n < 64) →
      (acc.1.length ≤ 8 ∧ ∀ k ∈ acc.1, k < 64) →
      ((ns.foldl (evaluateOne y p s) acc).1.length ≤ 8 ∧ ∀ k ∈ (ns.foldl (evaluateOne y p s) acc).1, k < 64) := by
    intro ns
    induction ns with
    | nil => intro acc _ h; exact h
    | cons n rest ih =>
      intro acc hns h
      exact ih _ (fun k hk => hns k (List.mem_cons_of_mem _ hk)) (evaluateOne_bounds (hns n (List.mem_cons_self ..)) h)
  exact key _ _ (fun n hn => List.mem_range.mp hn) ⟨Nat.zero_le _, fun k hk => absurd hk (List.not_mem_nil)⟩

/-- Drawing keeps the number of indices and of pixels. -/
theorem drawColumn_length (img : Image) (m : Mapper) (y : Nat) (p : Ppu) (s n : Nat) (d : LineDraw) (col : Nat) :
    (drawColumn img m y p s n d col).idx = d.idx ∧ (drawColumn img m y p s n d col).px.length = d.px.length := by
  unfold drawColumn
  dsimp only
  split
  · exact ⟨rfl, rfl⟩
  split
  · exact ⟨rfl, rfl⟩
  split
  · exact ⟨rfl, rfl⟩
  refine ⟨rfl, ?_⟩
  dsimp only
  split
  · exact List.length_set
  · rfl

theorem foldl_keeps {α β : Type} (Q : β → Prop) (f : β → α → β) (hf : ∀ b a, Q b → Q (f b a)) (l : List α) (b : β) (h : Q b) :
    Q (l.foldl f b) := by
  induction l generalizing b with
  | nil => exact h
  | cons a rest ih => exact ih _ (hf b a h)

theorem drawSprites_length (img : Image) (m : Mapper) (y : Nat) (p : Ppu) (s : Nat) (d : LineDraw) :
    (drawSprites img m y p s d).idx = d.idx ∧ (drawSprites img m y p s d).px.length = d.px.length := by
  unfold drawSprites drawSprite
  refine foldl_keeps (fun b => b.idx = d.idx ∧ b.px.length = d.px.length) _ (fun b n hb => ?_) _ d ⟨rfl, rfl⟩
  refine foldl_keeps (fun c => c.idx = d.idx ∧ c.px.length = d.px.length) _ (fun c col hc => ?_) _ b hb
  obtain ⟨h1, h2⟩ := drawColumn_length img m y p s n c col
  exact ⟨h1.trans hc.1, h2.trans hc.2⟩

theorem Ppu.Wf.renderLine {p : Ppu} (h : p.Wf) (img : Image) (m : Mapper) (y : Nat) {s : Nat} (hs : s < 240) :
    (renderLine img m y s p).Wf := by
  unfold Machine.renderLine
  split
  · unfold drawnLine
    obtain ⟨h1, h2⟩ := evaluateLine_bounds y p s
    have hb : (backgroundLine img m p).length = 256 := by simp [backgroundLine]
    refine ⟨h.ntRam, h.pal, h.oam, h.cycle, h.lineLow, h.lineHigh, Lines.wf_set h.bgidx hs ?_, Lines.wf_set h.fb hs ?_, h1, h2⟩
    · rw [(drawSprites_length ..).1]; simp [hb]
    · rw [(drawSprites_length ..).2]; simp [hb]
  · exact ⟨h.ntRam, h.pal, h.oam, h.cycle, h.lineLow, h.lineHigh, Lines.wf_set h.bgidx hs (List.length_replicate ..),
      Lines.wf_set h.fb hs (List.length_replicate ..), Nat.zero_le _, fun k hk => absurd hk (List.not_mem_nil)⟩

/-- A new `v` alone. -/
theorem Ppu.Wf.setV {p : Ppu} (h : p.Wf) (v : Loopy) : Ppu.Wf { p with v := v } :=
  ⟨h.ntRam, h.pal, h.oam, h.cycle, h.lineLow, h.lineHigh, h.bgidx, h.fb, h.sprites, h.entries⟩

theorem State.Wf.setPpu {s : State} (h : s.Wf) {p : Ppu} (hp : p.Wf) : (s.setPpu p).Wf :=
  ⟨h.params, h.image, h.ram, h.mapper, hp, h.apu, h.pads⟩

theorem State.Wf.pictureEvents {s : State} (h : s.Wf) : (pictureEvents s).Wf := by
  unfold Machine.pictureEvents
  dsimp only
  split
  · split
    · exact h.setPpu (h.ppu.renderLine _ _ _ (by omega))
    · exact h
  split
  · split
    · exact h.setPpu ⟨h.ppu.ntRam, h.ppu.pal, h.ppu.oam, h.ppu.cycle, h.ppu.lineLow, h.ppu.lineHigh, h.ppu.bgidx, h.ppu.fb,
        h.ppu.sprites, h.ppu.entries⟩
    · split
      · have hv : (s.setPpu { s.ppu with vblank := true }).Wf :=
          h.setPpu ⟨h.ppu.ntRam, h.ppu.pal, h.ppu.oam, h.ppu.cycle, h.ppu.lineLow, h.ppu.lineHigh, h.ppu.bgidx, h.ppu.fb,
            h.ppu.sprites, h.ppu.entries⟩
        unfold vblankStart
        dsimp only
        split
        · exact closed_wf.cpu _ _ hv
        · exact hv
      · exact h
  split
  · exact h
  split
  · exact h.setPpu (h.ppu.setV _)
  split
  · exact h.setPpu (h.ppu.setV _)
  split
  · exact h
  split
  · exact h.setPpu (h.ppu.setV _)
  · exact h

theorem State.Wf.pictureTick {s : State} (h : s.Wf) : (pictureTick s).Wf := by
  have he := h.pictureEvents
  have hp := he.ppu
  have h1 := hp.cycle; have h2 := hp.lineLow; have h3 := hp.lineHigh
  unfold Machine.pictureTick advancePosition
  dsimp only
  split
  · split
    · exact State.Wf.withEnv _ (he.setPpu ⟨hp.ntRam, hp.pal, hp.oam, Nat.zero_le _, Int.le_refl _, (by decide : (-1 : Int) ≤ 260), hp.bgidx, hp.fb,
        hp.sprites, hp.entries⟩)
    · exact he.setPpu ⟨hp.ntRam, hp.pal, hp.oam, Nat.zero_le _, by show (-1 : Int) ≤ _ + 1; omega,
        by show _ + 1 ≤ (260 : Int); omega, hp.bgidx, hp.fb, hp.sprites, hp.entries⟩
  · exact he.setPpu ⟨hp.ntRam, hp.pal, hp.oam, by show _ + 1 ≤ 340; omega, hp.lineLow, hp.lineHigh, hp.bgidx, hp.fb, hp.sprites,
      hp.entries⟩

theorem State.Wf.pictureTicks {s : State} (h : s.Wf) (k : Nat) : (pictureTicks k s).Wf := by
  induction k generalizing s with
  | zero => exact h
  | succ k ih => exact ih h.pictureTick

theorem pictureTicks_frame (k : Nat) (s : State) : TickFrame s (pictureTicks k s) := by
  induction k generalizing s with
  | zero => exact TickFrame.refl s
  | succ k ih => exact (pictureTick_frame s).trans (ih _)

/-! ## The audio unit -/

theorem Apu.Wf.sequencerTick {ps : Params} (hp : ps.wf = true) {a : Apu} (h : a.Wf ps) : (a.sequencerTick ps).Wf ps := by
  have hw := Apu.schedule_wrap_pos hp a
  have hfs := h.fs
  have hf : ∀ (b : Apu) (e : SeqEvent), (b.fire ps.sweep1OnesComplement e).fs = b.fs
      ∧ (b.fire ps.sweep1OnesComplement e).fiveStep = b.fiveStep := fun b e => by cases e <;> exact ⟨rfl, rfl⟩
  -- the fired unit, whatever its count
  have key : ∀ b : Apu, b.fiveStep = a.fiveStep → b.fs = a.fs + 1 →
      (∀ n, n < (b.schedule ps).wrap → Apu.Wf ps { b with fs := n }) → (Apu.sequencerWrap ps b).Wf ps := by
    intro b h5 hb hall
    have hs : b.schedule ps = a.schedule ps := by simp only [Apu.schedule, h5]
    unfold Apu.sequencerWrap
    split
    · exact hall 0 (hs ▸ hw)
    · rename_i hne
      have : b.fs < (b.schedule ps).wrap := by rw [hs] at hne ⊢; omega
      exact hall b.fs this
  unfold Apu.sequencerTick
  have base : ∀ n, n < (a.schedule ps).wrap → Apu.Wf ps { a with fs := n } := fun n hn =>
    ⟨h.pulse1, h.pulse2, h.triangle, h.noise, h.len1, h.len2, h.lenTri, h.lenNoise, h.bitsLow, h.bitsHigh, h.cur, h.sample,
      h.sampleLen, hn, h.sc⟩
  unfold Apu.sequencerFire
  split
  · rename_i e _
    refine key _ (hf _ e).2 (hf _ e).1 fun n hn => ?_
    have hs : (Apu.fire ps.sweep1OnesComplement e { a with fs := a.fs + 1 }).schedule ps = a.schedule ps := by
      simp only [Apu.schedule, (hf _ e).2]
    rw [hs] at hn
    have := (base n hn).fire ps.sweep1OnesComplement e
    cases e <;> exact this
  · exact key _ rfl rfl base

theorem Pulse.tick_ct {p : Pulse} (h : p.ct < 4096) : p.tick.ct < 4096 := by
  have := p.period.isLt
  unfold Pulse.tick
  split
  · show 2 * p.period.toNat + 1 < 4096; omega
  · show p.ct - 1 < 4096; omega
theorem Pulse.tick_len (p : Pulse) : p.tick.len = p.len ∧ p.tick.enabled = p.enabled := by
  unfold Pulse.tick; split <;> exact ⟨rfl, rfl⟩
theorem Triangle.tick_ct {p : Triangle} (h : p.ct < 2048) : p.tick.ct < 2048 := by
  have := p.period.isLt
  unfold Triangle.tick
  split
  · show p.period.toNat < 2048; omega
  · show p.ct - 1 < 2048; omega
theorem Triangle.tick_len (p : Triangle) : p.tick.len = p.len ∧ p.tick.enabled = p.enabled := by
  unfold Triangle.tick; split <;> exact ⟨rfl, rfl⟩

/-- The noise register never becomes 0 from a value that is not 0 (R208). -/
theorem noiseNext_ne_zero (mode : Bool) {sr : BitVec 15} (h : sr ≠ 0) : noiseNext mode sr ≠ 0 := by
  intro e
  apply h
  have hb : ∀ i, (noiseNext mode sr).getLsbD i = false := fun i => by rw [e]; simp
  have key : ∀ f : Bool, ∀ i, ((sr >>> 1) ||| (BitVec.ofNat 15 f.toNat <<< 14)).getLsbD i
      = (sr.getLsbD (1 + i) || (decide (i = 14) && f)) := by
    intro f i
    rw [BitVec.getLsbD_or, BitVec.getLsbD_ushiftRight]
    congr 1
    by_cases hi : i < 15
    · rw [BitVec.getLsbD_shiftLeft]
      by_cases h14 : i = 14
      · subst h14; cases f <;> decide
      · have : i < 14 := by omega
        simp [this, h14]
    · rw [BitVec.getLsbD_of_ge _ _ (by omega)]
      simp [show ¬ i = 14 by omega]
  have hk : ∀ i, (sr.getLsbD (1 + i) || (decide (i = 14)
      && (sr.getLsbD 0 ^^ (if mode then sr.getLsbD 6 else sr.getLsbD 1)))) = false := fun i => by
    rw [← key]; exact hb i
  have hhigh : ∀ i, sr.getLsbD (1 + i) = false := fun i => by
    have := hk i; simp only [Bool.or_eq_false_iff] at this; exact this.1
  have h0 : sr.getLsbD 0 = false := by
    have := hk 14
    have h6 := hhigh 5
    have h1 := hhigh 0
    simp only [decide_true, Bool.true_and, Bool.or_eq_false_iff] at this
    have h2 := this.2
    rw [show sr.getLsbD 6 = false from h6, show sr.getLsbD 1 = false from h1] at h2
    cases mode <;> simpa using h2
  apply BitVec.eq_of_getLsbD_eq
  intro i hi
  simp only [BitVec.ofNat_eq_ofNat, BitVec.getLsbD_zero]
  cases i with
  | zero => exact h0
  | succ k => rw [Nat.add_comm]; exact hhigh k

theorem Noise.tick_sr (periods : List Nat) {c : Noise} (h : c.sr ≠ 0) : (c.tick periods).sr ≠ 0 := by
  unfold Noise.tick
  split
  · exact noiseNext_ne_zero _ h
  · exact h
theorem Noise.tick_len (periods : List Nat) (p : Noise) : (p.tick periods).len = p.len ∧ (p.tick periods).enabled = p.enabled := by
  unfold Noise.tick; split <;> exact ⟨rfl, rfl⟩

/-- What the invariant says of the DMC. -/
structure Dmc.Wf (c : Dmc) : Prop where
  bitsLow   : 1 ≤ c.bitsLeft
  bitsHigh  : c.bitsLeft ≤ 8
  cur       : 0x8000 ≤ c.curAddr.toNat
  sample    : 0xC000 ≤ c.sampleAddr.toNat
  sampleLen : 1 ≤ c.sampleLen.toNat

theorem Dmc.nextByte_bitsLeft (c : Dmc) : c.nextByte.bitsLeft = 8 := by unfold nextByte; split <;> rfl
theorem Dmc.nextByte_sampleFields (c : Dmc) : c.nextByte.curAddr = c.curAddr ∧ c.nextByte.sampleAddr = c.sampleAddr ∧
    c.nextByte.sampleLen = c.sampleLen := by unfold nextByte; split <;> exact ⟨rfl, rfl, rfl⟩

theorem Dmc.Wf.outputBit {c : Dmc} (h : c.Wf) : c.outputBit.Wf := by
  have h1 := h.bitsLow; have h2 := h.bitsHigh
  unfold Dmc.outputBit
  dsimp only
  split
  · obtain ⟨e1, e2, e3⟩ := Dmc.nextByte_sampleFields { c with
      level := if c.silence then c.level else dmcLevel (c.dsr.getLsbD 0) c.level, dsr := c.dsr >>> 1, bitsLeft := c.bitsLeft - 1 }
    exact ⟨by rw [Dmc.nextByte_bitsLeft]; decide, Nat.le_of_eq (Dmc.nextByte_bitsLeft _), by rw [e1]; exact h.cur,
      by rw [e2]; exact h.sample, by rw [e3]; exact h.sampleLen⟩
  · exact ⟨by show 1 ≤ c.bitsLeft - 1; omega, by show c.bitsLeft - 1 ≤ 8; omega, h.cur, h.sample, h.sampleLen⟩

theorem Dmc.Wf.tick {c : Dmc} (h : c.Wf) (rates : List Nat) : (c.tick rates).Wf := by
  unfold Dmc.tick
  split
  · exact Dmc.Wf.outputBit ⟨h.bitsLow, h.bitsHigh, h.cur, h.sample, h.sampleLen⟩
  · exact ⟨h.bitsLow, h.bitsHigh, h.cur, h.sample, h.sampleLen⟩

theorem Dmc.Wf.takeByte {c : Dmc} (h : c.Wf) (b : Byte) : (c.takeByte b).Wf := by
  have hs := h.sample; have hc := h.cur
  unfold Dmc.takeByte
  dsimp only
  split
  · exact ⟨h.bitsLow, h.bitsHigh, by show 0x8000 ≤ c.sampleAddr.toNat; omega, h.sample, h.sampleLen⟩
  · refine ⟨h.bitsLow, h.bitsHigh, ?_, h.sample, h.sampleLen⟩
    show 0x8000 ≤ (if c.curAddr = 0xFFFF then (0x8000 : Word) else c.curAddr + 1).toNat
    split
    · decide
    · rename_i hne
      have h16 := c.curAddr.isLt
      have : c.curAddr.toNat ≠ 0xFFFF := fun e => hne (BitVec.eq_of_toNat_eq e)
      rw [BitVec.toNat_add]
      show 0x8000 ≤ (c.curAddr.toNat + 1) % 65536
      omega

theorem Apu.Wf.dmc {ps : Params} {a : Apu} (h : a.Wf ps) : a.dmc.Wf := ⟨h.bitsLow, h.bitsHigh, h.cur, h.sample, h.sampleLen⟩

/-- A new DMC alone. -/
theorem Apu.Wf.setDmc {ps : Params} {a : Apu} (h : a.Wf ps) {d : Dmc} (hd : d.Wf) : Apu.Wf ps { a with dmc := d } :=
  ⟨h.pulse1, h.pulse2, h.triangle, h.noise, h.len1, h.len2, h.lenTri, h.lenNoise, hd.bitsLow, hd.bitsHigh, hd.cur, hd.sample,
    hd.sampleLen, h.fs, h.sc⟩

theorem Apu.Wf.timersTick {ps : Params} {a : Apu} (h : a.Wf ps) : (a.timersTick ps).Wf ps := by
  have hd := h.dmc.tick ps.dmcRates
  exact ⟨Pulse.tick_ct h.pulse1, Pulse.tick_ct h.pulse2, Triangle.tick_ct h.triangle, Noise.tick_sr _ h.noise,
    fun e => (Pulse.tick_len _).1.trans (h.len1 ((Pulse.tick_len _).2.symm.trans e)),
    fun e => (Pulse.tick_len _).1.trans (h.len2 ((Pulse.tick_len _).2.symm.trans e)),
    fun e => (Triangle.tick_len _).1.trans (h.lenTri ((Triangle.tick_len _).2.symm.trans e)),
    fun e => (Noise.tick_len _ _).1.trans (h.lenNoise ((Noise.tick_len _ _).2.symm.trans e)),
    hd.bitsLow, hd.bitsHigh, hd.cur, hd.sample, hd.sampleLen, h.fs, h.sc⟩

theorem State.Wf.setApu {s : State} (h : s.Wf) {a : Apu} (ha : a.Wf s.params) : (s.setApu a).Wf :=
  ⟨h.params, h.image, h.ram, h.mapper, h.ppu, ha, h.pads⟩

theorem State.Wf.sampleReader {s : State} (h : s.Wf) : (sampleReader s).Wf := by
  unfold Machine.sampleReader
  split
  · have hr := h.busRead s.apu.dmc.curAddr
    exact hr.setApu (hr.apu.setDmc (hr.apu.dmc.takeByte _))
  · exact h

theorem State.Wf.sampleTick {s : State} (h : s.Wf) : (sampleTick s).Wf := by
  have ha := h.apu
  have hsc := ha.sc
  unfold Machine.sampleTick
  split
  · exact State.Wf.withEnv _ (h.setApu ⟨ha.pulse1, ha.pulse2, ha.triangle, ha.noise, ha.len1, ha.len2, ha.lenTri, ha.lenNoise,
      ha.bitsLow, ha.bitsHigh, ha.cur, ha.sample, ha.sampleLen, ha.fs, by show 0 < 20; decide⟩)
  · exact h.setApu ⟨ha.pulse1, ha.pulse2, ha.triangle, ha.noise, ha.len1, ha.len2, ha.lenTri, ha.lenNoise,
      ha.bitsLow, ha.bitsHigh, ha.cur, ha.sample, ha.sampleLen, ha.fs, by show s.apu.sc + 1 < 20; omega⟩

theorem State.Wf.audioTick {s : State} (h : s.Wf) : (audioTick s).Wf :=
  State.Wf.sampleTick (State.Wf.sampleReader (h.setApu ((h.apu.sequencerTick h.params).timersTick)))

theorem State.Wf.audioTicks {s : State} (h : s.Wf) (k : Nat) : (audioTicks k s).Wf := by
  induction k generalizing s with
  | zero => exact h
  | succ k ih => exact ih h.audioTick

theorem State.Wf.deviceTicks {s : State} (h : s.Wf) (n : Nat) : (deviceTicks n s).Wf := (h.pictureTicks _).audioTicks n

theorem sampleReader_frame (s : State) : TickFrame s (sampleReader s) := by
  unfold sampleReader
  split
  · obtain ⟨h1, h2, h3⟩ := busRead_ppuMem s.apu.dmc.curAddr s
    obtain ⟨n, he⟩ := busRead_env s.apu.dmc.curAddr s
    constructor <;> simp [h1, h2, h3, he]
  · exact TickFrame.refl s

theorem audioTick_frame (s : State) : TickFrame s (audioTick s) := by
  have h1 : TickFrame s (s.setApu ((s.apu.sequencerTick s.params).timersTick s.params)) := by constructor <;> rfl
  refine h1.trans ((sampleReader_frame _).trans ?_)
  unfold audioTick
  dsimp only
  unfold sampleTick
  split <;> constructor <;> rfl

theorem audioTicks_frame (k : Nat) (s : State) : TickFrame s (audioTicks k s) := by
  induction k generalizing s with
  | zero => exact TickFrame.refl s
  | succ k ih => exact (audioTick_frame s).trans (ih _)

/-- The device ticks leave the CPU's registers, RAM and the cartridge alone (R37). -/
theorem deviceTicks_frame (n : Nat) (s : State) : TickFrame s (deviceTicks n s) :=
  (pictureTicks_frame _ _).trans (audioTicks_frame _ _)

end Sys2Proof.Machine
end

