-- ==== Sys2Proof/Laws/Load.lean ====
section
/-! SUPPORT. The power-on state, said once: the reset vector's read leaves the base state, and the devices' reset values are well
formed. -/

namespace Sys2Proof.Machine

/-- Reading the reset vector reads the cartridge and has no side effect (R43, R223). -/
theorem resetVector_read (s : State) :
    busRead16 resetVector s = (mkWord (cartRead s.image s.mapper 0xFFFC) (cartRead s.image s.mapper 0xFFFD), s) := by
  simp only [busRead16]
  rw [busRead_cart (by decide), busRead_cart (by decide)]
  rfl

/-- The power-on state is the base state with PC from the vector (R223). -/
theorem powerOn_eq (img : Image) (regs : MapperRegs) (l : LaunchParams) :
    powerOn img regs l = (powerOnBase img regs l).setPc
      (mkWord (cartRead img (powerOnBase img regs l).mapper 0xFFFC) (cartRead img (powerOnBase img regs l).mapper 0xFFFD)) := by
  unfold powerOn
  rw [resetVector_read]
  rfl

/-- The picture unit at reset is well formed over any memories of their sizes. -/
theorem Ppu.reset_wf {nt pal oam : Memory} (h1 : nt.isArray 0x1000 = true) (h2 : pal.isArray 0x20 = true)
    (h3 : oam.isArray 0x100 = true) : Ppu.Wf { Ppu.reset with ntRam := nt, pal := pal, oam := oam } where
  ntRam := h1
  pal := h2
  oam := h3
  cycle := (by decide : (0 : Nat) ≤ 340)
  lineLow := (by decide : (-1 : Int) ≤ -1)
  lineHigh := (by decide : (-1 : Int) ≤ 260)
  bgidx := (by decide : Lines.wf ([] : Lines (BitVec 2)) = true)
  fb := (by decide : Lines.wf ([] : Lines Pixel) = true)
  sprites := (by decide : (0 : Nat) ≤ 8)
  entries _ h := by cases h

/-- The audio unit at reset is well formed. -/
theorem Apu.reset_wf {ps : Params} (h : ps.wf = true) : Apu.Wf ps Apu.reset where
  pulse1 := by decide
  pulse2 := by decide
  triangle := by decide
  noise := by decide
  len1 _ := rfl
  len2 _ := rfl
  lenTri _ := rfl
  lenNoise _ := rfl
  bitsLow := by decide
  bitsHigh := by decide
  cur := by decide
  sample := by decide
  sampleLen := by decide
  fs := Apu.schedule_wrap_pos h _
  sc := by decide

end Sys2Proof.Machine
end

