-- ==== Sys2Proof/Laws/Decode.lean ====
section
/-! SUPPORT. Decoding by the shape of the opcode's form, one lemma per shape. -/

namespace Sys2Proof

/-- An opcode without operand. -/
theorem decode_plain {op : Byte} {i : Instr} (h : opcodeForm op = some (.plain i)) (rest : List Byte) :
    decode (op :: rest) = .ok (i, rest) := by
  simp only [decode, h, Form.complete]

/-- An opcode with a 1-byte operand. -/
theorem decode_byte {op : Byte} {f : Byte → Instr} (h : opcodeForm op = some (.byte f)) (b : Byte) (rest : List Byte) :
    decode (op :: b :: rest) = .ok (f b, rest) := by
  simp only [decode, h, Form.complete]

/-- An opcode with a 2-byte operand, low byte first. -/
theorem decode_word {op : Byte} {f : Word → Instr} (h : opcodeForm op = some (.word f)) (w : Word) (rest : List Byte) :
    decode (op :: wordBytes w ++ rest) = .ok (f w, rest) := by
  simp [decode, h, Form.complete, wordBytes]

/-- A byte without an entry. -/
theorem decode_invalid {op : Byte} (h : opcodeForm op = none) (rest : List Byte) :
    decode (op :: rest) = .error (.invalidOpcode op) := by
  simp only [decode, h]

/-- What a form found in a list of rows is: the form of a row with that opcode. -/
theorem findForm_some {op : Byte} {rows : List OpcodeRow} {f : Form} (h : findForm op rows = some f) :
    ∃ r ∈ rows, r.op = op ∧ r.form = f := by
  induction rows with
  | nil => cases h
  | cons r rest ih =>
    simp only [findForm] at h
    split at h
    · rename_i heq
      exact ⟨r, List.mem_cons_self .., heq, Option.some.inj h⟩
    · obtain ⟨q, hq, h2⟩ := ih h
      exact ⟨q, List.mem_cons_of_mem _ hq, h2⟩

/-- What a row's form makes is encoded with the row's opcode byte. -/
def RowEncodes (r : OpcodeRow) : Prop :=
  match r.form with
  | .plain i => encode i = [r.op]
  | .byte f => ∀ b, encode (f b) = [r.op, b]
  | .word f => ∀ w, encode (f w) = r.op :: wordBytes w

theorem rows_encode : ∀ r ∈ opcodeTable, RowEncodes r := by
  simp only [opcodeTable, opcodeRow0, opcodeRow1, opcodeRow2, opcodeRow3, opcodeRow4, opcodeRow5, opcodeRow6, opcodeRow7,
    opcodeRow8, opcodeRow9, opcodeRowA, opcodeRowB, opcodeRowC, opcodeRowD, opcodeRowE, opcodeRowF, List.forall_mem_append,
    List.forall_mem_cons, List.not_mem_nil, false_implies, implies_true, and_true]
  and_intros <;> first | rfl | exact fun _ => rfl

end Sys2Proof
end

