-- ==== Sys2Proof/Laws/Retire.lean ====
section
/-! SUPPORT. Every meaning ends its CPU step: it answers a next state, with at least 2 cycles counted, and never halts. -/

set_option linter.unusedVariables false

namespace Sys2Proof.Machine

/-- The cycle counter and the halt record are untouched. -/
def Uncounted (s u : State) : Prop := u.cpu.cycles = s.cpu.cycles ∧ u.cpu.halted = s.cpu.halted

/-- `o` is a retired state with at least 2 base cycles. -/
def Retires (s : State) (o : Result) : Prop := ∃ u n, o = .next (State.retire n u) ∧ 2 ≤ n ∧ Uncounted s u

theorem retires_load {set m n s} (h : 2 ≤ n) (hs : ∀ v u, Uncounted u (set v u : State)) : Retires s (loadReg set m n s) :=
  ⟨_, n, loadReg_eq .., h, by
    constructor
    · simp [State.setZN, (hs _ _).1]
    · simp [State.setZN, (hs _ _).2]⟩
theorem retires_store {g m n s} (h : 2 ≤ n) : Retires s (storeReg g m n s) := ⟨_, n, rfl, h, by simp [Uncounted]⟩
theorem readValue_uncounted {m s} : Uncounted s (readValue m s).2 := by rw [readValue_eq]; exact ⟨rfl, rfl⟩
theorem retires_add {m n s} (h : 2 ≤ n) : Retires s (addOp m n s) := ⟨_, n, rfl, h, readValue_uncounted⟩
theorem retires_sub {m n s} (h : 2 ≤ n) : Retires s (subOp m n s) := ⟨_, n, rfl, h, readValue_uncounted⟩
theorem retires_logic {f m n s} (h : 2 ≤ n) : Retires s (logicOp f m n s) := ⟨_, n, rfl, h, readValue_uncounted⟩
theorem retires_bit {m n s} (h : 2 ≤ n) : Retires s (bitOp m n s) := ⟨_, n, rfl, h, readValue_uncounted⟩
theorem retires_compare {g m n s} (h : 2 ≤ n) : Retires s (compareReg g m n s) := ⟨_, n, rfl, h, readValue_uncounted⟩
theorem retires_modify {d m n s} (h : 2 ≤ n) : Retires s (modifyMem d m n s) := ⟨_, n, rfl, h, by simp [Uncounted, State.setZN]⟩
theorem retires_shiftMem {f m n s} (h : 2 ≤ n) : Retires s (shiftMem f m n s) := ⟨_, n, rfl, h, by simp [Uncounted]⟩
theorem retires_branch {c o s} : Retires s (branchIf c o s) := by
  unfold branchIf
  split
  · exact ⟨_, 2, rfl, by decide, ⟨rfl, rfl⟩⟩
  · exact ⟨_, 2, rfl, by decide, ⟨rfl, rfl⟩⟩
theorem retires_brk {s} : Retires s (execBrk s) := by
  unfold execBrk
  dsimp only
  split
  · exact ⟨_, 7, rfl, by decide, ⟨rfl, rfl⟩⟩
  · exact ⟨_, 7, rfl, by decide, by rw [enterInterrupt_eq]; exact ⟨rfl, rfl⟩⟩

/-- Every meaning answers a next state, by ending its CPU step (R89). -/
theorem exec_retires (i : Instr) (s : State) : Retires s (exec i s) := by
  cases i
  case ldaIndx x => exact retires_load (by decide) (fun _ _ => ⟨rfl, rfl⟩)
  case ldaZp x => exact retires_load (by decide) (fun _ _ => ⟨rfl, rfl⟩)
  case ldaImm x => exact retires_load (by decide) (fun _ _ => ⟨rfl, rfl⟩)
  case ldaAbs x => exact retires_load (by decide) (fun _ _ => ⟨rfl, rfl⟩)
  case ldaIndy x => exact retires_load (by decide) (fun _ _ => ⟨rfl, rfl⟩)
  case ldaZpx x => exact retires_load (by decide) (fun _ _ => ⟨rfl, rfl⟩)
  case ldaAbsy x => exact retires_load (by decide) (fun _ _ => ⟨rfl, rfl⟩)
  case ldaAbsx x => exact retires_load (by decide) (fun _ _ => ⟨rfl, rfl⟩)
  case ldxImm x => exact retires_load (by decide) (fun _ _ => ⟨rfl, rfl⟩)
  case ldxZp x => exact retires_load (by decide) (fun _ _ => ⟨rfl, rfl⟩)
  case ldxAbs x => exact retires_load (by decide) (fun _ _ => ⟨rfl, rfl⟩)
  case ldxZpy x => exact retires_load (by decide) (fun _ _ => ⟨rfl, rfl⟩)
  case ldxAbsy x => exact retires_load (by decide) (fun _ _ => ⟨rfl, rfl⟩)
  case ldyImm x => exact retires_load (by decide) (fun _ _ => ⟨rfl, rfl⟩)
  case ldyZp x => exact retires_load (by decide) (fun _ _ => ⟨rfl, rfl⟩)
  case ldyAbs x => exact retires_load (by decide) (fun _ _ => ⟨rfl, rfl⟩)
  case ldyZpx x => exact retires_load (by decide) (fun _ _ => ⟨rfl, rfl⟩)
  case ldyAbsx x => exact retires_load (by decide) (fun _ _ => ⟨rfl, rfl⟩)
  case staIndx x => exact retires_store (by decide)
  case staZp x => exact retires_store (by decide)
  case staAbs x => exact retires_store (by decide)
  case staIndy x => exact retires_store (by decide)
  case staZpx x => exact retires_store (by decide)
  case staAbsy x => exact retires_store (by decide)
  case staAbsx x => exact retires_store (by decide)
  case stxZp x => exact retires_store (by decide)
  case stxAbs x => exact retires_store (by decide)
  case stxZpy x => exact retires_store (by decide)
  case styZp x => exact retires_store (by decide)
  case styAbs x => exact retires_store (by decide)
  case styZpx x => exact retires_store (by decide)
  case tax => exact ⟨_, 2, rfl, by decide, ⟨rfl, rfl⟩⟩
  case tay => exact ⟨_, 2, rfl, by decide, ⟨rfl, rfl⟩⟩
  case tsx => exact ⟨_, 2, rfl, by decide, ⟨rfl, rfl⟩⟩
  case txa => exact ⟨_, 2, rfl, by decide, ⟨rfl, rfl⟩⟩
  case txs => exact ⟨_, 2, rfl, by decide, ⟨rfl, rfl⟩⟩
  case tya => exact ⟨_, 2, rfl, by decide, ⟨rfl, rfl⟩⟩
  case adcIndx x => exact retires_add (by decide)
  case adcZp x => exact retires_add (by decide)
  case adcImm x => exact retires_add (by decide)
  case adcAbs x => exact retires_add (by decide)
  case adcIndy x => exact retires_add (by decide)
  case adcZpx x => exact retires_add (by decide)
  case adcAbsy x => exact retires_add (by decide)
  case adcAbsx x => exact retires_add (by decide)
  case sbcIndx x => exact retires_sub (by decide)
  case sbcZp x => exact retires_sub (by decide)
  case sbcImm x => exact retires_sub (by decide)
  case sbcAbs x => exact retires_sub (by decide)
  case sbcIndy x => exact retires_sub (by decide)
  case sbcZpx x => exact retires_sub (by decide)
  case sbcAbsy x => exact retires_sub (by decide)
  case sbcAbsx x => exact retires_sub (by decide)
  case andIndx x => exact retires_logic (by decide)
  case andZp x => exact retires_logic (by decide)
  case andImm x => exact retires_logic (by decide)
  case andAbs x => exact retires_logic (by decide)
  case andIndy x => exact retires_logic (by decide)
  case andZpx x => exact retires_logic (by decide)
  case andAbsy x => exact retires_logic (by decide)
  case andAbsx x => exact retires_logic (by decide)
  case oraIndx x => exact retires_logic (by decide)
  case oraZp x => exact retires_logic (by decide)
  case oraImm x => exact retires_logic (by decide)
  case oraAbs x => exact retires_logic (by decide)
  case oraIndy x => exact retires_logic (by decide)
  case oraZpx x => exact retires_logic (by decide)
  case oraAbsy x => exact retires_logic (by decide)
  case oraAbsx x => exact retires_logic (by decide)
  case eorIndx x => exact retires_logic (by decide)
  case eorZp x => exact retires_logic (by decide)
  case eorImm x => exact retires_logic (by decide)
  case eorAbs x => exact retires_logic (by decide)
  case eorIndy x => exact retires_logic (by decide)
  case eorZpx x => exact retires_logic (by decide)
  case eorAbsy x => exact retires_logic (by decide)
  case eorAbsx x => exact retires_logic (by decide)
  case bitZp x => exact retires_bit (by decide)
  case bitAbs x => exact retires_bit (by decide)
  case cmpIndx x => exact retires_compare (by decide)
  case cmpZp x => exact retires_compare (by decide)
  case cmpImm x => exact retires_compare (by decide)
  case cmpAbs x => exact retires_compare (by decide)
  case cmpIndy x => exact retires_compare (by decide)
  case cmpZpx x => exact retires_compare (by decide)
  case cmpAbsy x => exact retires_compare (by decide)
  case cmpAbsx x => exact retires_compare (by decide)
  case cpxImm x => exact retires_compare (by decide)
  case cpxZp x => exact retires_compare (by decide)
  case cpxAbs x => exact retires_compare (by decide)
  case cpyImm x => exact retires_compare (by decide)
  case cpyZp x => exact retires_compare (by decide)
  case cpyAbs x => exact retires_compare (by decide)
  case incZp x => exact retires_modify (by decide)
  case incAbs x => exact retires_modify (by decide)
  case incZpx x => exact retires_modify (by decide)
  case incAbsx x => exact retires_modify (by decide)
  case decZp x => exact retires_modify (by decide)
  case decAbs x => exact retires_modify (by decide)
  case decZpx x => exact retires_modify (by decide)
  case decAbsx x => exact retires_modify (by decide)
  case inx => exact ⟨_, 2, rfl, by decide, ⟨rfl, rfl⟩⟩
  case iny => exact ⟨_, 2, rfl, by decide, ⟨rfl, rfl⟩⟩
  case dex => exact ⟨_, 2, rfl, by decide, ⟨rfl, rfl⟩⟩
  case dey => exact ⟨_, 2, rfl, by decide, ⟨rfl, rfl⟩⟩
  case aslZp x => exact retires_shiftMem (f := fun _ => aslByte) (by decide)
  case aslAcc => exact ⟨_, 2, rfl, by decide, ⟨rfl, rfl⟩⟩
  case aslAbs x => exact retires_shiftMem (f := fun _ => aslByte) (by decide)
  case aslZpx x => exact retires_shiftMem (f := fun _ => aslByte) (by decide)
  case aslAbsx x => exact retires_shiftMem (f := fun _ => aslByte) (by decide)
  case lsrZp x => exact retires_shiftMem (f := fun _ => lsrByte) (by decide)
  case lsrAcc => exact ⟨_, 2, rfl, by decide, ⟨rfl, rfl⟩⟩
  case lsrAbs x => exact retires_shiftMem (f := fun _ => lsrByte) (by decide)
  case lsrZpx x => exact retires_shiftMem (f := fun _ => lsrByte) (by decide)
  case lsrAbsx x => exact retires_shiftMem (f := fun _ => lsrByte) (by decide)
  case rolZp x => exact retires_shiftMem (f := rolByte) (by decide)
  case rolAcc => exact ⟨_, 2, rfl, by decide, ⟨rfl, rfl⟩⟩
  case rolAbs x => exact retires_shiftMem (f := rolByte) (by decide)
  case rolZpx x => exact retires_shiftMem (f := rolByte) (by decide)
  case rolAbsx x => exact retires_shiftMem (f := rolByte) (by decide)
  case rorZp x => exact retires_shiftMem (f := rorByte) (by decide)
  case rorAcc => exact ⟨_, 2, rfl, by decide, ⟨rfl, rfl⟩⟩
  case rorAbs x => exact retires_shiftMem (f := rorByte) (by decide)
  case rorZpx x => exact retires_shiftMem (f := rorByte) (by decide)
  case rorAbsx x => exact retires_shiftMem (f := rorByte) (by decide)
  case jmpAbs x => exact ⟨_, 3, rfl, by decide, ⟨rfl, rfl⟩⟩
  case jmpInd x => exact ⟨_, 5, rfl, by decide, by simp [Uncounted, indirectTarget]⟩
  case jsr x => exact ⟨_, 6, rfl, by decide, by rw [pushWord_eq]; exact ⟨rfl, rfl⟩⟩
  case rts => exact ⟨_, 6, rfl, by decide, by rw [pullWord_eq]; exact ⟨rfl, rfl⟩⟩
  case bcc x => exact retires_branch
  case bcs x => exact retires_branch
  case beq x => exact retires_branch
  case bmi x => exact retires_branch
  case bne x => exact retires_branch
  case bpl x => exact retires_branch
  case bvc x => exact retires_branch
  case bvs x => exact retires_branch
  case brk => exact retires_brk
  case rti => exact ⟨_, 6, rfl, by decide, by rw [returnFromInterrupt_eq]; exact ⟨rfl, rfl⟩⟩
  case pha => exact ⟨_, 3, rfl, by decide, by rw [push_eq]; exact ⟨rfl, rfl⟩⟩
  case php => exact ⟨_, 3, rfl, by decide, by rw [push_eq]; exact ⟨rfl, rfl⟩⟩
  case pla => exact ⟨_, 4, rfl, by decide, by rw [pull_eq]; exact ⟨rfl, rfl⟩⟩
  case plp => exact ⟨_, 4, rfl, by decide, by rw [pull_eq]; exact ⟨rfl, rfl⟩⟩
  case clc => exact ⟨_, 2, rfl, by decide, ⟨rfl, rfl⟩⟩
  case sec => exact ⟨_, 2, rfl, by decide, ⟨rfl, rfl⟩⟩
  case cli => exact ⟨_, 2, rfl, by decide, ⟨rfl, rfl⟩⟩
  case sei => exact ⟨_, 2, rfl, by decide, ⟨rfl, rfl⟩⟩
  case cld => exact ⟨_, 2, rfl, by decide, ⟨rfl, rfl⟩⟩
  case sed => exact ⟨_, 2, rfl, by decide, ⟨rfl, rfl⟩⟩
  case clv => exact ⟨_, 2, rfl, by decide, ⟨rfl, rfl⟩⟩
  case nop => exact ⟨_, 2, rfl, by decide, ⟨rfl, rfl⟩⟩


end Sys2Proof.Machine
end

