-- ==== Sys2Proof/Laws/Step.lean ====
section
/-! SUPPORT. The CPU step and the machine step, said once: the start of a step, fetching, running the fetched instruction, and when
a step answers a next state. -/

namespace Sys2Proof.Machine

/-- The start of a CPU step clears `extra` and samples the IRQ level, and does nothing else. -/
theorem stepStart_eq (s : State) : ∃ e,
    stepStart s = { s with cpu := { s.cpu with extra := 0 }, env := e } ∧ e.undefDraws = s.env.undefDraws ∧ e.out = s.env.out := by
  unfold stepStart State.irqSampled
  split
  · exact ⟨_, rfl, rfl, rfl⟩
  · exact ⟨_, rfl, rfl, rfl⟩

theorem peek_stepStart (a : Word) (s : State) : peek a (stepStart s) = peek a s := by
  obtain ⟨e, h, h2, -⟩ := stepStart_eq s
  rw [h]
  unfold peek busRead pictureRead audioStatusRead pad0Read pad1Read State.drawUndef
  dsimp only
  repeat' split
  all_goals first | rfl | (simp only [h2])

/-- What decodes is the encoding of what it decodes to. -/
theorem decode_encodes (bytes rest : List Byte) (i : Instr) (h : decode bytes = .ok (i, rest)) : bytes = encode i ++ rest := by
  match bytes, h with
  | op :: tl, h =>
    unfold decode at h
    dsimp only at h
    split at h
    · cases h
    · rename_i form hf
      have key := rows_encode
      obtain ⟨r, hr, he, hfm⟩ := findForm_some hf
      have k := key r hr
      unfold RowEncodes at k
      subst hfm
      subst he
      cases hform : r.form with
      | plain i' =>
        rw [hform] at h k
        cases h
        simp only at k
        rw [k]; simp
      | byte f =>
        rw [hform] at h k
        cases tl with
        | nil => cases h
        | cons b tl => cases h; simp only at k; rw [k b]; simp
      | word f =>
        rw [hform] at h k
        match tl, h with
        | b1 :: b2 :: tl, h => 
          cases h; simp only at k; rw [k]
          simp [wordBytes]

/-- An instruction never halts the machine and counts at least 2 cycles. -/
theorem exec_next_counts {i : Instr} {s t : State} (h : exec i s = .next t) :
    t.cpu.halted = s.cpu.halted ∧ t.cpu.extra = 0 ∧
    s.cpu.cycles + 2 ≤ t.cpu.cycles := by
  obtain ⟨u, n, h1, h2, h3, h4⟩ := exec_retires i s
  rw [h] at h1; cases h1
  refine ⟨h4, rfl, ?_⟩
  show _ ≤ u.cpu.cycles + n + u.cpu.extra
  omega

/-- The launch configuration is kept by everything a CPU step does. -/
theorem closed_launch (s : State) : Closed (LaunchFrame s) where
  cpu _ _ h := h
  env _ _ _ h := h
  read a u h := ⟨by simpa using h.1, by simpa using h.2⟩
  write b a d u h := ⟨by simpa using h.1, by simpa using h.2⟩

/-- What a CPU step leaves to the device ticks: the picture position, flags and buffers, the sample counter, the output trace. -/
def TicksOnly (s t : State) : Prop := PictureFrame s.ppu t.ppu ∧ OutputsKept s t

theorem closed_ticksOnly (s : State) : Closed (TicksOnly s) where
  cpu _ _ h := ⟨h.1, h.2.out, h.2.sc⟩
  env _ _ he h := ⟨h.1, he.trans h.2.out, h.2.sc⟩
  read a u h := ⟨h.1.trans (busRead_pictureFrame a u), h.2.trans (busRead_outputs a u)⟩
  write base a d u h := ⟨h.1.trans (busWrite_pictureFrame base a d u), h.2.trans (busWrite_outputs base a d u)⟩

theorem fetchByte_counts (s : State) :
    (fetchByte s).2.cpu.cycles = s.cpu.cycles ∧ (fetchByte s).2.cpu.halted = s.cpu.halted ∧ (fetchByte s).2.cpu.extra = s.cpu.extra := by
  unfold fetchByte State.setPc; simp

theorem runInstruction_next (s : State) (hx : s.cpu.extra = 0) (hh : s.cpu.halted = none) :
    ∃ t, runInstruction s = .next t ∧ t.cpu.extra = 0 ∧
      (t.cpu.halted = none → s.cpu.cycles + 2 ≤ t.cpu.cycles) ∧ (t.cpu.halted ≠ none → t.cpu.cycles = s.cpu.cycles) := by
  obtain ⟨a1, a2, a3⟩ := fetchByte_counts s
  obtain ⟨b1, b2, b3⟩ := fetchByte_counts (fetchByte s).2
  obtain ⟨c1, c2, c3⟩ := fetchByte_counts (fetchByte (fetchByte s).2).2
  have fin : ∀ (i : Instr) (u : State), u.cpu.cycles = s.cpu.cycles → u.cpu.halted = none →
      ∃ t, exec i u = .next t ∧ t.cpu.extra = 0 ∧ (t.cpu.halted = none → s.cpu.cycles + 2 ≤ t.cpu.cycles) ∧
        (t.cpu.halted ≠ none → t.cpu.cycles = s.cpu.cycles) := by
    intro i u h1 h2
    obtain ⟨v, n, h, -⟩ := exec_retires i u
    obtain ⟨k1, k2, k3⟩ := exec_next_counts h
    exact ⟨_, h, k2, fun _ => by omega, fun hne => absurd (k1.trans h2) hne⟩
  unfold runInstruction
  dsimp only
  split
  · exact ⟨_, rfl, a3.trans hx, (fun h => by cases h), fun _ => a1⟩
  · exact fin _ _ a1 (a2.trans hh)
  · exact fin _ _ (b1.trans a1) (b2.trans (a2.trans hh))
  · exact fin _ _ (c1.trans (b1.trans a1)) (c2.trans (b2.trans (a2.trans hh)))

/-- A step that takes no interrupt runs the instruction part, and then the device ticks. -/
theorem step_run {s : State} (h1 : s.cpu.halted = none) (h2 : s.cpu.nmiPending = false) (h3 : irqTaken s = false) {t : State}
    (h : runInstruction (stepStart s) = .next t) : step s = .next (deviceTicks (t.cpu.cycles - s.cpu.cycles) t) := by
  unfold step cpuStep
  rw [h1]
  simp only [h2, h3, Bool.false_eq_true, if_false]
  rw [h]

theorem fetchByte_cpu (s : State) : (fetchByte s).2.cpu = { s.cpu with pc := s.cpu.pc + 1 } := by
  unfold fetchByte State.setPc; simp

theorem pc_add_succ (p : Word) (k : Nat) : p + 1 + BitVec.ofNat 16 k = p + BitVec.ofNat 16 (k+1) := by
  rw [BitVec.add_assoc]; congr 1; apply BitVec.eq_of_toNat_eq; simp [BitVec.toNat_add]; omega

theorem fetchBytes_cpu (n : Nat) (s : State) : (fetchBytes n s).2.cpu = { s.cpu with pc := s.cpu.pc + BitVec.ofNat 16 n } := by
  induction n generalizing s with
  | zero => simp [fetchBytes]
  | succ k ih =>
    simp only [fetchBytes]
    rw [ih, fetchByte_cpu]
    dsimp only
    rw [pc_add_succ]

/-- A read of RAM, or at 0x4018 and above, has no side effect. -/
theorem busRead_plain {a : Word} (h : a.toNat < 0x2000 ∨ 0x4018 ≤ a.toNat) (s : State) : busRead a s = (peek a s, s) := by
  unfold peek busRead
  dsimp only
  rcases h with h | h
  · simp [h]
  · repeat' split
    all_goals first | rfl | omega

/-- Bytes fetched from where a fetch has no side effect are the bytes there. -/
theorem fetchBytes_plain (n : Nat) (s : State)
    (h : ∀ k < n, (s.cpu.pc + BitVec.ofNat 16 k).toNat < 0x2000 ∨ 0x4018 ≤ (s.cpu.pc + BitVec.ofNat 16 k).toNat) :
   fetchBytes n s = ((List.range n).map fun k => peek (s.cpu.pc + BitVec.ofNat 16 k) s, s.setPc (s.cpu.pc + BitVec.ofNat 16 n)) := by
  induction n generalizing s with
  | zero => simp [fetchBytes]; rfl
  | succ k ih =>
    have h0 := h 0 (by omega)
    simp only [BitVec.add_zero] at h0
    have e : fetchByte s = (peek s.cpu.pc s, s.setPc (s.cpu.pc + 1)) := by
      unfold fetchByte; rw [busRead_plain h0]
    simp only [fetchBytes]
    rw [e]
    dsimp only
    have hk := ih (s.setPc (s.cpu.pc + 1)) (fun j hj => by
      have := h (j+1) (by omega)
      simp only [State.setPc]
      rw [pc_add_succ]; exact this)
    rw [hk]
    simp only [State.setPc]
    rw [pc_add_succ]
    congr 1
    rw [List.range_succ_eq_map, List.map_cons, List.map_map]
    simp only [BitVec.ofNat_eq_ofNat, BitVec.add_zero]
    congr 1
    apply List.map_congr_left
    intro j hj
    simp only [Function.comp]
    rw [peek_withCpu]; exact congrArg (peek · s) (pc_add_succ _ _)

theorem fetchBytes_length (n : Nat) (s : State) : (fetchBytes n s).1.length = n := by
  induction n generalizing s with
  | zero => rfl
  | succ k ih => simp only [fetchBytes, List.length_cons, ih]

/-- Where the fetched bytes decode to an instruction, the instruction part of the step is that instruction's execution. -/
theorem runInstruction_eq {s : State} {i : Instr} {n : Nat} (h : decode (fetchBytes n s).1 = .ok (i, [])) :
    runInstruction s = exec i (fetchBytes n s).2 := by
  cases n with
  | zero => cases h
  | succ m =>
    have hl := fetchBytes_length m (fetchByte s).2
    unfold runInstruction
    simp only [fetchBytes] at h ⊢
    generalize hg : fetchBytes m (fetchByte s).2 = g at h hl ⊢
    unfold decode at h
    dsimp only at h ⊢
    split at h
    · cases h
    · rename_i form hf
      rw [hf]
      cases form with
      | plain j =>
        simp only [Form.complete, Except.ok.injEq, Prod.mk.injEq] at h
        obtain ⟨h, h'⟩ := h
        rw [h'] at hl
        match m, hl with
        | 0, _ => subst hg; rw [h]; rfl
      | byte f =>
        dsimp only
        match m, hg, hl with
        | 0, hg, _ => subst hg; cases h
        | 1, hg, _ => subst hg; simp only [fetchBytes] at h ⊢; cases h; rfl
        | k + 2, hg, _ => subst hg; simp only [fetchBytes, Form.complete] at h; cases h
      | word f =>
        dsimp only
        match m, hg, hl with
        | 0, hg, _ => subst hg; cases h
        | 1, hg, _ => subst hg; cases h
        | 2, hg, _ => subst hg; simp only [fetchBytes] at h ⊢; cases h; rfl
        | k + 3, hg, _ => subst hg; simp only [fetchBytes, Form.complete] at h; cases h

theorem takeInterrupt_cpu (k : IntKind) (s : State) :
    (takeInterrupt k s).cpu.extra = 0 ∧ (takeInterrupt k s).cpu.cycles = s.cpu.cycles + 7 + s.cpu.extra ∧
    (takeInterrupt k s).cpu.halted = s.cpu.halted := by
  unfold takeInterrupt; rw [enterInterrupt_eq]; exact ⟨rfl, rfl, rfl⟩

/-- A CPU step of a machine that is not halted answers a next state. -/
theorem cpuStep_next (s : State) (hh : s.cpu.halted = none) :
    ∃ t, cpuStep s = .next t ∧ t.cpu.extra = 0 ∧
      (t.cpu.halted = none → s.cpu.cycles + 2 ≤ t.cpu.cycles) ∧ (t.cpu.halted ≠ none → t.cpu.cycles = s.cpu.cycles) := by
  obtain ⟨e, he, hu, ho⟩ := stepStart_eq s
  unfold cpuStep
  rw [hh]
  dsimp only
  split
  · obtain ⟨h1, h2, h3⟩ := takeInterrupt_cpu .nmi ((stepStart s).setNmi false)
    refine ⟨_, rfl, h1, fun _ => ?_, fun hne => absurd ?_ hne⟩
    · rw [h2, he]; show _ ≤ s.cpu.cycles + 7 + 0; omega
    · rw [h3, he]; exact hh
  · split
    · obtain ⟨h1, h2, h3⟩ := takeInterrupt_cpu .irq (stepStart s)
      refine ⟨_, rfl, h1, fun _ => ?_, fun hne => absurd ?_ hne⟩
      · rw [h2, he]; show _ ≤ s.cpu.cycles + 7 + 0; omega
      · rw [h3, he]; exact hh
    · obtain ⟨t, h1, h2, h3, h4⟩ := runInstruction_next (stepStart s) (by rw [he]) (by rw [he]; exact hh)
      refine ⟨t, h1, h2, ?_, ?_⟩
      · rw [he] at h3; exact h3
      · rw [he] at h4; exact h4

end Sys2Proof.Machine
end

