-- ==== Sys2Proof/Laws/Audio.lean ====
section
/-! SUPPORT. The audio unit's register writes and the DMC, in numbers. -/

namespace Sys2Proof.Machine

theorem period_low (d : Byte) (t : BitVec 11) : (setBitField 0 d t).toNat = t.toNat / 256 * 256 + d.toNat := by
  rw [setBitField_toNat _ _ _ (by decide)]; simp [Nat.mod_one]

theorem period_high (d : Byte) (t : BitVec 11) :
    (setBitField 8 (bitField 3 0 d) t).toNat = 256 * (d.toNat % 8) + t.toNat % 256 := by
  have := t.isLt
  rw [setBitField_toNat _ _ _ (by decide), bitField_toNat]
  simp only [Nat.reducePow, Nat.reduceAdd, Nat.div_one]
  omega

theorem lengthTable_lt : ∀ k, lengthTable.getD k 0 < 256 := by
  intro k
  by_cases h : k < lengthTable.length
  · rw [List.getD_eq_getElem?_getD, List.getElem?_eq_getElem h]
    exact (by decide : ∀ x ∈ lengthTable, x < 256) _ (List.getElem_mem h)
  · rw [List.getD_eq_getElem?_getD, List.getElem?_eq_none (by omega)]; decide

theorem lengthLoad_toNat (d : Byte) : (lengthLoad d).toNat = lengthTable.getD (d.toNat / 8) 0 := by
  have := d.isLt
  unfold lengthLoad
  rw [bitField_toNat, show d.toNat / 2 ^ 3 % 2 ^ 5 = d.toNat / 8 by simp only [Nat.reducePow]; omega, BitVec.toNat_ofNat]
  exact Nat.mod_eq_of_lt (lengthTable_lt _)

theorem noiseReg_toNat : ∀ d : Byte, (d &&& 0x3F).toNat = d.toNat % 64 := by decide
theorem noiseMode_toNat : ∀ d : Byte, (d &&& 0x8F).toNat = d.toNat / 128 * 128 + d.toNat % 16 := by decide
theorem dmcReg_toNat : ∀ d : Byte, (d &&& 0xCF).toNat = d.toNat / 64 * 64 + d.toNat % 16 := by decide
theorem sampleAddr_toNat : ∀ d : Byte, (0xC000 + (zext16 d <<< 6) : Word).toNat = 0xC000 + 64 * d.toNat := by decide
theorem sampleLen_toNat : ∀ d : Byte, ((d.setWidth 12 <<< 4) + 1 : BitVec 12).toNat = 16 * d.toNat + 1 := by decide

theorem dmcLevel_toNat : ∀ (up : Bool) (l : BitVec 7), (dmcLevel up l).toNat =
    if up then (if l.toNat ≤ 125 then l.toNat + 2 else l.toNat) else (if 2 ≤ l.toNat then l.toNat - 2 else l.toNat) := by decide

/-- The volume (R202) and the sweep's target (R204), in numbers. -/
theorem Envelope.volume_eq (reg : Byte) (e : Envelope) :
    e.volume reg = if reg.getLsbD 4 then reg.toNat % 16 else e.decay.toNat := by
  unfold volume
  rw [bitField_toNat]
  simp

theorem Pulse.target_eq (ones : Bool) (p : Pulse) : p.target ones =
    if p.sweep.getLsbD 3 then (p.period.toNat : Int) - ((p.period.toNat / 2 ^ (p.sweep.toNat % 8) : Nat) : Int) - (if ones then 1 else 0)
    else (p.period.toNat : Int) + ((p.period.toNat / 2 ^ (p.sweep.toNat % 8) : Nat) : Int) := by
  unfold target
  dsimp only
  rw [BitVec.toNat_ushiftRight, Nat.shiftRight_eq_div_pow, bitField_toNat]
  simp

/-- The frame sequencer touches neither the DMC nor the sample counter. -/
theorem Apu.sequencerTick_dmc (ps : Params) (a : Apu) : (a.sequencerTick ps).dmc = a.dmc ∧ (a.sequencerTick ps).sc = a.sc := by
  have hf : ∀ (o : Bool) (e : SeqEvent) (b : Apu), (b.fire o e).dmc = b.dmc ∧ (b.fire o e).sc = b.sc :=
    fun o e b => by cases e <;> exact ⟨rfl, rfl⟩
  unfold sequencerTick sequencerWrap sequencerFire
  dsimp only
  split <;> split <;> first | exact hf _ _ _ | exact ⟨rfl, rfl⟩

/-- The sample reader reads cartridge space, so its bus read has no side effect. -/
theorem sampleReader_eq (s : State) (h : 0x8000 ≤ s.apu.dmc.curAddr.toNat) : sampleReader s =
    if s.apu.dmc.wantsByte then s.setApu { s.apu with dmc := s.apu.dmc.takeByte (peek s.apu.dmc.curAddr s) } else s := by
  unfold sampleReader
  rw [busRead_plain (.inr (by omega))]

end Sys2Proof.Machine
end

