-- ==== Sys2Proof/Laws/HostIo.lean ====
section
/-! SUPPORT. What each host input does to the machine and to the host's snapshots, and what it leaves alone. -/

namespace Sys2Proof.Machine

theorem State.setButton_eq {s v : State} {port id : Nat} {pressed : Bool} (h : s.setButton port id pressed = some v) :
    v = s.setPads v.pads := by
  obtain ⟨p, -, rfl⟩ := Option.map_eq_some_iff.mp h; rfl

theorem State.setButton_none {s : State} {port id : Nat} {pressed : Bool} (h : 2 ≤ port ∨ 8 ≤ id) :
    s.setButton port id pressed = none := by
  unfold State.setButton Pads.setButton
  by_cases hid : 8 ≤ id
  · rw [if_pos hid]; rfl
  · obtain ⟨n, rfl⟩ : ∃ n, port = n + 2 := ⟨port - 2, by omega⟩
    rw [if_neg hid]; rfl

theorem MapperRegs.sameVariant_iff (a b : MapperRegs) : a.sameVariant b = true ↔
    (a = .mapper0 ∧ b = .mapper0) ∨ ((∃ r, a = .mapper1 r) ∧ ∃ r, b = .mapper1 r) := by
  cases a <;> cases b <;> simp [MapperRegs.sameVariant]

/-- A restore happens on a running machine only, and is the snapshot's. -/
theorem State.setSaveState_eq {s v : State} {n : Snapshot} (h : s.setSaveState n = some v) :
    s.cpu.halted = none ∧ v = n.restore s := by
  unfold State.setSaveState at h
  split at h <;> cases h
  rename_i hc
  exact ⟨Option.isNone_iff_eq_none.mp (Bool.and_eq_true_iff.mp hc).1, rfl⟩

@[simp] theorem HostInput.apply_setButton (h : Session) (port id : Nat) (pressed : Bool) :
    HostInput.apply h (.setButton port id pressed)
      = { h with machine := (h.machine.setButton port id pressed).getD h.machine } := rfl
@[simp] theorem HostInput.apply_getSaveState (h : Session) :
    HostInput.apply h .getSaveState = { h with saved := h.machine.getSaveState :: h.saved } := rfl
@[simp] theorem HostInput.apply_setSaveState (h : Session) (n : Snapshot) :
    HostInput.apply h (.setSaveState n) = { h with machine := (h.machine.setSaveState n).getD h.machine } := rfl

@[simp] theorem Session.inputs_nil (h : Session) : h.inputs [] = h := rfl
@[simp] theorem Session.inputs_cons (i : HostInput) (l : List HostInput) (h : Session) :
    h.inputs (i :: l) = (HostInput.apply h i).inputs l := rfl

theorem LaunchFrame.trans {s t u : State} (h : LaunchFrame s t) (k : LaunchFrame t u) : LaunchFrame s u :=
  ⟨k.1.trans h.1, k.2.trans h.2⟩

/-- A host input keeps the launch configuration, and a halted machine stays halted as it is (R24). -/
theorem HostInput.apply_frame (h : Session) (i : HostInput) : LaunchFrame h.machine (HostInput.apply h i).machine ∧
    ∀ x, h.machine.cpu.halted = some x → (HostInput.apply h i).machine.cpu.halted = some x := by
  cases i with
  | setButton port id pressed =>
    rw [apply_setButton]
    cases hq : h.machine.setButton port id pressed with
    | none => exact ⟨⟨rfl, rfl⟩, fun _ hh => hh⟩
    | some v =>
      rw [Option.getD_some, State.setButton_eq hq]
      exact ⟨⟨rfl, rfl⟩, fun _ hh => hh⟩
  | getSaveState => exact ⟨⟨rfl, rfl⟩, fun _ hh => hh⟩
  | setSaveState n =>
    rw [apply_setSaveState]
    cases hq : h.machine.setSaveState n with
    | none => exact ⟨⟨rfl, rfl⟩, fun _ hh => hh⟩
    | some v =>
      obtain ⟨hn, rfl⟩ := State.setSaveState_eq hq
      exact ⟨⟨rfl, rfl⟩, fun x hh => absurd (hn.symm.trans hh) (by simp)⟩

/-- The same of a turn's inputs. -/
theorem Session.inputs_frame (l : List HostInput) (h : Session) : LaunchFrame h.machine (h.inputs l).machine ∧
    ∀ x, h.machine.cpu.halted = some x → (h.inputs l).machine.cpu.halted = some x := by
  induction l generalizing h with
  | nil => exact ⟨⟨rfl, rfl⟩, fun _ hh => hh⟩
  | cons i l ih =>
    obtain ⟨a1, a2⟩ := HostInput.apply_frame h i
    obtain ⟨b1, b2⟩ := ih (HostInput.apply h i)
    exact ⟨a1.trans b1, fun x hh => b2 x (a2 x hh)⟩

/-- A turn past the inputs (R217): no step where they restored a halted machine (R24), else one step. -/
theorem Session.turn_halted {l : List HostInput} {h : Session} (hh : (h.inputs l).machine.cpu.halted ≠ none) :
    h.turn l = .next (h.inputs l) :=
  if_pos (Option.isSome_iff_ne_none.mpr hh)

theorem Session.turn_runs {l : List HostInput} {h : Session} {t : State} (ht : step (h.inputs l).machine = .next t) :
    h.turn l = .next { h.inputs l with machine := t } := by
  have hh : (h.inputs l).machine.cpu.halted = none := by
    cases hq : (h.inputs l).machine.cpu.halted with
    | none => rfl
    | some x => unfold step cpuStep at ht; rw [hq] at ht; cases ht
  unfold turn
  rw [hh, ht]
  rfl

end Sys2Proof.Machine
end

