-- ==== Sys2Proof/Laws/PerInstr.lean ====
section
/-! SUPPORT. Per-instruction statement families: RoundTrip, one lemma per constructor of Instr. -/

set_option maxRecDepth 4000

namespace Sys2Proof.Laws.RoundTrip

/-- The decoder reads an encoded instruction back, every operand at every value, and leaves the bytes after it (R65, R67, R69). -/
def Statement (i : Instr) : Prop := i.wf = true → ∀ rest : List Byte, decode (encode i ++ rest) = .ok (i, rest)

theorem ldaIndx (x : Byte) : Statement (.ldaIndx x) := fun _ rest => decode_byte rfl x rest
theorem ldaZp (x : Byte) : Statement (.ldaZp x) := fun _ rest => decode_byte rfl x rest
theorem ldaImm (x : Byte) : Statement (.ldaImm x) := fun _ rest => decode_byte rfl x rest
theorem ldaAbs (x : Word) : Statement (.ldaAbs x) := fun _ rest => decode_word rfl x rest
theorem ldaIndy (x : Byte) : Statement (.ldaIndy x) := fun _ rest => decode_byte rfl x rest
theorem ldaZpx (x : Byte) : Statement (.ldaZpx x) := fun _ rest => decode_byte rfl x rest
theorem ldaAbsy (x : Word) : Statement (.ldaAbsy x) := fun _ rest => decode_word rfl x rest
theorem ldaAbsx (x : Word) : Statement (.ldaAbsx x) := fun _ rest => decode_word rfl x rest
theorem ldxImm (x : Byte) : Statement (.ldxImm x) := fun _ rest => decode_byte rfl x rest
theorem ldxZp (x : Byte) : Statement (.ldxZp x) := fun _ rest => decode_byte rfl x rest
theorem ldxAbs (x : Word) : Statement (.ldxAbs x) := fun _ rest => decode_word rfl x rest
theorem ldxZpy (x : Byte) : Statement (.ldxZpy x) := fun _ rest => decode_byte rfl x rest
theorem ldxAbsy (x : Word) : Statement (.ldxAbsy x) := fun _ rest => decode_word rfl x rest
theorem ldyImm (x : Byte) : Statement (.ldyImm x) := fun _ rest => decode_byte rfl x rest
theorem ldyZp (x : Byte) : Statement (.ldyZp x) := fun _ rest => decode_byte rfl x rest
theorem ldyAbs (x : Word) : Statement (.ldyAbs x) := fun _ rest => decode_word rfl x rest
theorem ldyZpx (x : Byte) : Statement (.ldyZpx x) := fun _ rest => decode_byte rfl x rest
theorem ldyAbsx (x : Word) : Statement (.ldyAbsx x) := fun _ rest => decode_word rfl x rest
theorem staIndx (x : Byte) : Statement (.staIndx x) := fun _ rest => decode_byte rfl x rest
theorem staZp (x : Byte) : Statement (.staZp x) := fun _ rest => decode_byte rfl x rest
theorem staAbs (x : Word) : Statement (.staAbs x) := fun _ rest => decode_word rfl x rest
theorem staIndy (x : Byte) : Statement (.staIndy x) := fun _ rest => decode_byte rfl x rest
theorem staZpx (x : Byte) : Statement (.staZpx x) := fun _ rest => decode_byte rfl x rest
theorem staAbsy (x : Word) : Statement (.staAbsy x) := fun _ rest => decode_word rfl x rest
theorem staAbsx (x : Word) : Statement (.staAbsx x) := fun _ rest => decode_word rfl x rest
theorem stxZp (x : Byte) : Statement (.stxZp x) := fun _ rest => decode_byte rfl x rest
theorem stxAbs (x : Word) : Statement (.stxAbs x) := fun _ rest => decode_word rfl x rest
theorem stxZpy (x : Byte) : Statement (.stxZpy x) := fun _ rest => decode_byte rfl x rest
theorem styZp (x : Byte) : Statement (.styZp x) := fun _ rest => decode_byte rfl x rest
theorem styAbs (x : Word) : Statement (.styAbs x) := fun _ rest => decode_word rfl x rest
theorem styZpx (x : Byte) : Statement (.styZpx x) := fun _ rest => decode_byte rfl x rest
theorem tax : Statement .tax := fun _ rest => decode_plain rfl rest
theorem tay : Statement .tay := fun _ rest => decode_plain rfl rest
theorem tsx : Statement .tsx := fun _ rest => decode_plain rfl rest
theorem txa : Statement .txa := fun _ rest => decode_plain rfl rest
theorem txs : Statement .txs := fun _ rest => decode_plain rfl rest
theorem tya : Statement .tya := fun _ rest => decode_plain rfl rest
theorem adcIndx (x : Byte) : Statement (.adcIndx x) := fun _ rest => decode_byte rfl x rest
theorem adcZp (x : Byte) : Statement (.adcZp x) := fun _ rest => decode_byte rfl x rest
theorem adcImm (x : Byte) : Statement (.adcImm x) := fun _ rest => decode_byte rfl x rest
theorem adcAbs (x : Word) : Statement (.adcAbs x) := fun _ rest => decode_word rfl x rest
theorem adcIndy (x : Byte) : Statement (.adcIndy x) := fun _ rest => decode_byte rfl x rest
theorem adcZpx (x : Byte) : Statement (.adcZpx x) := fun _ rest => decode_byte rfl x rest
theorem adcAbsy (x : Word) : Statement (.adcAbsy x) := fun _ rest => decode_word rfl x rest
theorem adcAbsx (x : Word) : Statement (.adcAbsx x) := fun _ rest => decode_word rfl x rest
theorem sbcIndx (x : Byte) : Statement (.sbcIndx x) := fun _ rest => decode_byte rfl x rest
theorem sbcZp (x : Byte) : Statement (.sbcZp x) := fun _ rest => decode_byte rfl x rest
theorem sbcImm (x : Byte) : Statement (.sbcImm x) := fun _ rest => decode_byte rfl x rest
theorem sbcAbs (x : Word) : Statement (.sbcAbs x) := fun _ rest => decode_word rfl x rest
theorem sbcIndy (x : Byte) : Statement (.sbcIndy x) := fun _ rest => decode_byte rfl x rest
theorem sbcZpx (x : Byte) : Statement (.sbcZpx x) := fun _ rest => decode_byte rfl x rest
theorem sbcAbsy (x : Word) : Statement (.sbcAbsy x) := fun _ rest => decode_word rfl x rest
theorem sbcAbsx (x : Word) : Statement (.sbcAbsx x) := fun _ rest => decode_word rfl x rest
theorem andIndx (x : Byte) : Statement (.andIndx x) := fun _ rest => decode_byte rfl x rest
theorem andZp (x : Byte) : Statement (.andZp x) := fun _ rest => decode_byte rfl x rest
theorem andImm (x : Byte) : Statement (.andImm x) := fun _ rest => decode_byte rfl x rest
theorem andAbs (x : Word) : Statement (.andAbs x) := fun _ rest => decode_word rfl x rest
theorem andIndy (x : Byte) : Statement (.andIndy x) := fun _ rest => decode_byte rfl x rest
theorem andZpx (x : Byte) : Statement (.andZpx x) := fun _ rest => decode_byte rfl x rest
theorem andAbsy (x : Word) : Statement (.andAbsy x) := fun _ rest => decode_word rfl x rest
theorem andAbsx (x : Word) : Statement (.andAbsx x) := fun _ rest => decode_word rfl x rest
theorem oraIndx (x : Byte) : Statement (.oraIndx x) := fun _ rest => decode_byte rfl x rest
theorem oraZp (x : Byte) : Statement (.oraZp x) := fun _ rest => decode_byte rfl x rest
theorem oraImm (x : Byte) : Statement (.oraImm x) := fun _ rest => decode_byte rfl x rest
theorem oraAbs (x : Word) : Statement (.oraAbs x) := fun _ rest => decode_word rfl x rest
theorem oraIndy (x : Byte) : Statement (.oraIndy x) := fun _ rest => decode_byte rfl x rest
theorem oraZpx (x : Byte) : Statement (.oraZpx x) := fun _ rest => decode_byte rfl x rest
theorem oraAbsy (x : Word) : Statement (.oraAbsy x) := fun _ rest => decode_word rfl x rest
theorem oraAbsx (x : Word) : Statement (.oraAbsx x) := fun _ rest => decode_word rfl x rest
theorem eorIndx (x : Byte) : Statement (.eorIndx x) := fun _ rest => decode_byte rfl x rest
theorem eorZp (x : Byte) : Statement (.eorZp x) := fun _ rest => decode_byte rfl x rest
theorem eorImm (x : Byte) : Statement (.eorImm x) := fun _ rest => decode_byte rfl x rest
theorem eorAbs (x : Word) : Statement (.eorAbs x) := fun _ rest => decode_word rfl x rest
theorem eorIndy (x : Byte) : Statement (.eorIndy x) := fun _ rest => decode_byte rfl x rest
theorem eorZpx (x : Byte) : Statement (.eorZpx x) := fun _ rest => decode_byte rfl x rest
theorem eorAbsy (x : Word) : Statement (.eorAbsy x) := fun _ rest => decode_word rfl x rest
theorem eorAbsx (x : Word) : Statement (.eorAbsx x) := fun _ rest => decode_word rfl x rest
theorem bitZp (x : Byte) : Statement (.bitZp x) := fun _ rest => decode_byte rfl x rest
theorem bitAbs (x : Word) : Statement (.bitAbs x) := fun _ rest => decode_word rfl x rest
theorem cmpIndx (x : Byte) : Statement (.cmpIndx x) := fun _ rest => decode_byte rfl x rest
theorem cmpZp (x : Byte) : Statement (.cmpZp x) := fun _ rest => decode_byte rfl x rest
theorem cmpImm (x : Byte) : Statement (.cmpImm x) := fun _ rest => decode_byte rfl x rest
theorem cmpAbs (x : Word) : Statement (.cmpAbs x) := fun _ rest => decode_word rfl x rest
theorem cmpIndy (x : Byte) : Statement (.cmpIndy x) := fun _ rest => decode_byte rfl x rest
theorem cmpZpx (x : Byte) : Statement (.cmpZpx x) := fun _ rest => decode_byte rfl x rest
theorem cmpAbsy (x : Word) : Statement (.cmpAbsy x) := fun _ rest => decode_word rfl x rest
theorem cmpAbsx (x : Word) : Statement (.cmpAbsx x) := fun _ rest => decode_word rfl x rest
theorem cpxImm (x : Byte) : Statement (.cpxImm x) := fun _ rest => decode_byte rfl x rest
theorem cpxZp (x : Byte) : Statement (.cpxZp x) := fun _ rest => decode_byte rfl x rest
theorem cpxAbs (x : Word) : Statement (.cpxAbs x) := fun _ rest => decode_word rfl x rest
theorem cpyImm (x : Byte) : Statement (.cpyImm x) := fun _ rest => decode_byte rfl x rest
theorem cpyZp (x : Byte) : Statement (.cpyZp x) := fun _ rest => decode_byte rfl x rest
theorem cpyAbs (x : Word) : Statement (.cpyAbs x) := fun _ rest => decode_word rfl x rest
theorem incZp (x : Byte) : Statement (.incZp x) := fun _ rest => decode_byte rfl x rest
theorem incAbs (x : Word) : Statement (.incAbs x) := fun _ rest => decode_word rfl x rest
theorem incZpx (x : Byte) : Statement (.incZpx x) := fun _ rest => decode_byte rfl x rest
theorem incAbsx (x : Word) : Statement (.incAbsx x) := fun _ rest => decode_word rfl x rest
theorem decZp (x : Byte) : Statement (.decZp x) := fun _ rest => decode_byte rfl x rest
theorem decAbs (x : Word) : Statement (.decAbs x) := fun _ rest => decode_word rfl x rest
theorem decZpx (x : Byte) : Statement (.decZpx x) := fun _ rest => decode_byte rfl x rest
theorem decAbsx (x : Word) : Statement (.decAbsx x) := fun _ rest => decode_word rfl x rest
theorem inx : Statement .inx := fun _ rest => decode_plain rfl rest
theorem iny : Statement .iny := fun _ rest => decode_plain rfl rest
theorem dex : Statement .dex := fun _ rest => decode_plain rfl rest
theorem dey : Statement .dey := fun _ rest => decode_plain rfl rest
theorem aslZp (x : Byte) : Statement (.aslZp x) := fun _ rest => decode_byte rfl x rest
theorem aslAcc : Statement .aslAcc := fun _ rest => decode_plain rfl rest
theorem aslAbs (x : Word) : Statement (.aslAbs x) := fun _ rest => decode_word rfl x rest
theorem aslZpx (x : Byte) : Statement (.aslZpx x) := fun _ rest => decode_byte rfl x rest
theorem aslAbsx (x : Word) : Statement (.aslAbsx x) := fun _ rest => decode_word rfl x rest
theorem lsrZp (x : Byte) : Statement (.lsrZp x) := fun _ rest => decode_byte rfl x rest
theorem lsrAcc : Statement .lsrAcc := fun _ rest => decode_plain rfl rest
theorem lsrAbs (x : Word) : Statement (.lsrAbs x) := fun _ rest => decode_word rfl x rest
theorem lsrZpx (x : Byte) : Statement (.lsrZpx x) := fun _ rest => decode_byte rfl x rest
theorem lsrAbsx (x : Word) : Statement (.lsrAbsx x) := fun _ rest => decode_word rfl x rest
theorem rolZp (x : Byte) : Statement (.rolZp x) := fun _ rest => decode_byte rfl x rest
theorem rolAcc : Statement .rolAcc := fun _ rest => decode_plain rfl rest
theorem rolAbs (x : Word) : Statement (.rolAbs x) := fun _ rest => decode_word rfl x rest
theorem rolZpx (x : Byte) : Statement (.rolZpx x) := fun _ rest => decode_byte rfl x rest
theorem rolAbsx (x : Word) : Statement (.rolAbsx x) := fun _ rest => decode_word rfl x rest
theorem rorZp (x : Byte) : Statement (.rorZp x) := fun _ rest => decode_byte rfl x rest
theorem rorAcc : Statement .rorAcc := fun _ rest => decode_plain rfl rest
theorem rorAbs (x : Word) : Statement (.rorAbs x) := fun _ rest => decode_word rfl x rest
theorem rorZpx (x : Byte) : Statement (.rorZpx x) := fun _ rest => decode_byte rfl x rest
theorem rorAbsx (x : Word) : Statement (.rorAbsx x) := fun _ rest => decode_word rfl x rest
theorem jmpAbs (x : Word) : Statement (.jmpAbs x) := fun _ rest => decode_word rfl x rest
theorem jmpInd (x : Word) : Statement (.jmpInd x) := fun _ rest => decode_word rfl x rest
theorem jsr (x : Word) : Statement (.jsr x) := fun _ rest => decode_word rfl x rest
theorem rts : Statement .rts := fun _ rest => decode_plain rfl rest
theorem bcc (x : Byte) : Statement (.bcc x) := fun _ rest => decode_byte rfl x rest
theorem bcs (x : Byte) : Statement (.bcs x) := fun _ rest => decode_byte rfl x rest
theorem beq (x : Byte) : Statement (.beq x) := fun _ rest => decode_byte rfl x rest
theorem bmi (x : Byte) : Statement (.bmi x) := fun _ rest => decode_byte rfl x rest
theorem bne (x : Byte) : Statement (.bne x) := fun _ rest => decode_byte rfl x rest
theorem bpl (x : Byte) : Statement (.bpl x) := fun _ rest => decode_byte rfl x rest
theorem bvc (x : Byte) : Statement (.bvc x) := fun _ rest => decode_byte rfl x rest
theorem bvs (x : Byte) : Statement (.bvs x) := fun _ rest => decode_byte rfl x rest
theorem brk : Statement .brk := fun _ rest => decode_plain rfl rest
theorem rti : Statement .rti := fun _ rest => decode_plain rfl rest
theorem pha : Statement .pha := fun _ rest => decode_plain rfl rest
theorem php : Statement .php := fun _ rest => decode_plain rfl rest
theorem pla : Statement .pla := fun _ rest => decode_plain rfl rest
theorem plp : Statement .plp := fun _ rest => decode_plain rfl rest
theorem clc : Statement .clc := fun _ rest => decode_plain rfl rest
theorem sec : Statement .sec := fun _ rest => decode_plain rfl rest
theorem cli : Statement .cli := fun _ rest => decode_plain rfl rest
theorem sei : Statement .sei := fun _ rest => decode_plain rfl rest
theorem cld : Statement .cld := fun _ rest => decode_plain rfl rest
theorem sed : Statement .sed := fun _ rest => decode_plain rfl rest
theorem clv : Statement .clv := fun _ rest => decode_plain rfl rest
theorem nop : Statement .nop := fun _ rest => decode_plain rfl rest

end Sys2Proof.Laws.RoundTrip
end

