-- ==== Sys2Proof/Laws/Render.lean ====
section
/-! SUPPORT. What rendering a line does, said once: the evaluation as a filter, a column, a sprite and a line's sprites as what they
do to one pixel and to the sprite-zero flag; and the bus accesses that leave both rendering flags alone. -/

namespace Sys2Proof.Machine

/-- The evaluation (R190): the first eight entries on the line, and the overflow flag where there are more. -/
theorem evaluate_fold (y : Nat) (p : Ppu) (s : Nat) (ns : List Nat) (acc : List Nat × Bool) (h : acc.1.length ≤ 8) :
    ns.foldl (evaluateOne y p s) acc = (acc.1 ++ (ns.filter (p.onLine y s)).take (8 - acc.1.length),
      acc.2 || decide (8 < acc.1.length + (ns.filter (p.onLine y s)).length)) := by
  induction ns generalizing acc with
  | nil => simp [show ¬ 8 < acc.1.length by omega]
  | cons n rest ih =>
    rw [List.foldl_cons, show evaluateOne y p s acc n = if p.onLine y s n then
      (if acc.1.length < 8 then (acc.1 ++ [n], acc.2) else (acc.1, true)) else acc from rfl]
    by_cases hn : p.onLine y s n
    · rw [if_pos hn, List.filter_cons_of_pos hn]
      by_cases hl : acc.1.length < 8
      · obtain ⟨m, hm⟩ : ∃ m, 8 - acc.1.length = m + 1 := ⟨8 - acc.1.length - 1, by omega⟩
        rw [if_pos hl, ih _ (by simp only [List.length_append, List.length_cons, List.length_nil]; omega), hm]
        simp only [List.length_append, List.length_cons, List.length_nil, List.take_succ_cons, List.append_assoc, List.cons_append,
          List.nil_append]
        rw [show 8 - (acc.1.length + (0 + 1)) = m by omega,
          show acc.1.length + (0 + 1) + (rest.filter (p.onLine y s)).length
            = acc.1.length + ((rest.filter (p.onLine y s)).length + 1) by omega]
      · rw [if_neg hl, ih (acc.1, true) h, show acc.1.length = 8 by omega]
        simp
    · rw [if_neg hn, ih _ h, List.filter_cons_of_neg hn]

theorem evaluateLine_eq (y : Nat) (p : Ppu) (s : Nat) :
    evaluateLine y p s = (((List.range 64).filter (p.onLine y s)).take 8,
      p.ovf || decide (8 < ((List.range 64).filter (p.onLine y s)).length)) := by
  unfold evaluateLine
  rw [evaluate_fold _ _ _ _ _ (Nat.zero_le _)]
  simp

theorem getLsbD_toNat (b : Byte) (i : Nat) : (b.getLsbD i).toNat = b.toNat / 2 ^ i % 2 := by
  rw [BitVec.getLsbD, Nat.testBit_eq_decide_div_mod_eq]
  rcases Nat.mod_two_eq_zero_or_one (b.toNat / 2 ^ i) with h | h <;> rw [h] <;> rfl

/-- A colour index from its two planes (R189, R191). -/
theorem colourIndex_toNat (lo hi : Byte) (i : Nat) :
    (colourIndex lo hi i).toNat = lo.toNat / 2 ^ i % 2 + 2 * (hi.toNat / 2 ^ i % 2) := by
  unfold colourIndex
  rw [BitVec.toNat_ofNat, getLsbD_toNat, getLsbD_toNat]
  omega

section
variable (img : Image) (m : Mapper) (y : Nat) (p : Ppu) (s : Nat)

/-- Column `col` of sprite `n` has a pixel on line `s`, before the background is asked (R191). -/
def SpriteShows (n col : Nat) : Prop :=
  let j := (p.oamByte n 3).toNat + col
  j < 256 ∧ p.mask.getLsbD 4 = true ∧ (8 ≤ j ∨ p.mask.getLsbD 2 = true) ∧ spriteIndex img m y p s n col ≠ 0

/-- Sprite `n` covers a pixel whose background index is `bg` (R191): it is in front, or the background is transparent. -/
def SpriteCovers (n : Nat) (bg : BitVec 2) : Prop := (p.oamByte n 2).getLsbD 5 = false ∨ bg = 0

/-- The pixel of sprite `n` at column `col` (R191). -/
def spritePixel (n col : Nat) : Pixel :=
  p.resolve (p.pal.read (0x10 + 4 * (bitField 2 0 (p.oamByte n 2)).toNat + (spriteIndex img m y p s n col).toNat))

theorem drawColumn_hidden {n col : Nat} (d : LineDraw) (h : ¬ SpriteShows img m y p s n col) :
    drawColumn img m y p s n d col = d := by
  unfold drawColumn
  dsimp only
  split
  · rfl
  split
  · rfl
  split
  · rfl
  rename_i h1 h2 h3
  refine absurd ⟨by omega, ?_, ?_, h3⟩ h
  · revert h2; cases p.mask.getLsbD 4 <;> simp
  · revert h2; by_cases h8 : 8 ≤ (p.oamByte n 3).toNat + col <;> cases p.mask.getLsbD 2 <;> simp [h8]

/-- A column that shows: the flag may be set, the pixel is the sprite's where the sprite covers the background. -/
theorem drawColumn_shown {n col : Nat} (d : LineDraw) (h : SpriteShows img m y p s n col) :
    let j := (p.oamByte n 3).toNat + col
    let t := drawColumn img m y p s n d col
    t.idx = d.idx ∧ (t.s0 = true ↔ d.s0 = true ∨ (n = 0 ∧ p.mask.getLsbD 3 = true ∧ d.idx.getD j 0 ≠ 0)) ∧
    (SpriteCovers p n (d.idx.getD j 0) → t.px = d.px.set j (spritePixel img m y p s n col)) ∧
    (¬ SpriteCovers p n (d.idx.getD j 0) → t.px = d.px) := by
  obtain ⟨h1, h2, h3, h4⟩ := h
  unfold drawColumn SpriteCovers
  dsimp only
  rw [if_neg (by omega), if_neg ?_, if_neg h4]
  · generalize d.idx.getD ((p.oamByte n 3).toNat + col) 0 = bg
    refine ⟨rfl, ?_, fun hc => ?_, fun hc => ?_⟩
    · rw [h2]
      simp only [Bool.or_eq_true, Bool.and_eq_true, beq_iff_eq, bne_iff_ne, and_true, and_assoc]
      constructor
      · rintro (h | ⟨ha, hb, hc⟩)
        · exact .inl h
        · exact .inr ⟨ha, hc, hb⟩
      · rintro (h | ⟨ha, hb, hc⟩)
        · exact .inl h
        · exact .inr ⟨ha, hc, hb⟩
    · refine if_pos ?_
      rcases hc with hc | hc <;> rw [hc] <;> simp
    · refine if_neg ?_
      simp only [not_or, Bool.not_eq_false] at hc
      rw [hc.1]; simpa using hc.2
  · rw [h2]
    rcases h3 with h3 | h3
    · simp [show ¬ (p.oamByte n 3).toNat + col < 8 by omega]
    · simp [h3]

/-- One sprite's first `k` columns: the indices stay, a pixel is the sprite's where it shows and covers, and the flag is set where
entry 0 shows on an opaque background. -/
theorem drawColumns (n : Nat) (d : LineDraw) (k : Nat) :
    let t := (List.range k).foldl (drawColumn img m y p s n) d
    let x := (p.oamByte n 3).toNat
    t.idx = d.idx ∧ t.px.length = d.px.length ∧
    (∀ col < k, SpriteShows img m y p s n col → SpriteCovers p n (d.idx.getD (x + col) 0) → x + col < d.px.length →
      t.px[x + col]? = some (spritePixel img m y p s n col)) ∧
    (∀ j, (∀ col < k, j = x + col → ¬ (SpriteShows img m y p s n col ∧ SpriteCovers p n (d.idx.getD j 0))) →
      t.px[j]? = d.px[j]?) ∧
    (t.s0 = true ↔ d.s0 = true ∨ (n = 0 ∧ p.mask.getLsbD 3 = true ∧
      ∃ col < k, SpriteShows img m y p s n col ∧ d.idx.getD (x + col) 0 ≠ 0)) := by
  induction k with
  | zero => exact ⟨rfl, rfl, fun _ h => absurd h (by omega), fun _ _ => rfl, by simp⟩
  | succ k ih =>
    dsimp only at ih ⊢
    rw [List.range_succ, List.foldl_append, List.foldl_cons, List.foldl_nil]
    generalize (List.range k).foldl (drawColumn img m y p s n) d = u at ih
    obtain ⟨i1, i2, i3, i4, i5⟩ := ih
    have lt : ∀ {col}, col < k + 1 → col < k ∨ col = k := by omega
    by_cases hs : SpriteShows img m y p s n k
    · obtain ⟨c1, c2, c3, c4⟩ := drawColumn_shown img m y p s u hs
      rw [i1] at c1 c2 c3 c4
      generalize drawColumn img m y p s n u k = w at c1 c2 c3 c4
      refine ⟨c1, ?_, ?_, ?_, ?_⟩
      · by_cases hc : SpriteCovers p n (d.idx.getD ((p.oamByte n 3).toNat + k) 0)
        · rw [c3 hc, List.length_set, i2]
        · rw [c4 hc, i2]
      · intro col hk hsc hf hl
        rcases lt hk with hk | rfl
        · by_cases hc : SpriteCovers p n (d.idx.getD ((p.oamByte n 3).toNat + k) 0)
          · rw [c3 hc, List.getElem?_set_ne (by omega)]; exact i3 col hk hsc hf hl
          · rw [c4 hc]; exact i3 col hk hsc hf hl
        · rw [c3 hf, List.getElem?_set_self (by rw [i2]; exact hl)]
      · intro j hj
        rw [← i4 j fun col hc => hj col (by omega)]
        by_cases hc : SpriteCovers p n (d.idx.getD ((p.oamByte n 3).toNat + k) 0)
        · rw [c3 hc, List.getElem?_set_ne]
          rintro rfl
          exact hj k (by omega) rfl ⟨hs, hc⟩
        · rw [c4 hc]
      · rw [c2, i5]
        constructor
        · rintro ((h | ⟨h1, h2, col, hc, h3⟩) | ⟨h1, h2, h3⟩)
          · exact .inl h
          · exact .inr ⟨h1, h2, col, by omega, h3⟩
          · exact .inr ⟨h1, h2, k, by omega, hs, h3⟩
        · rintro (h | ⟨h1, h2, col, hc, h3, h4⟩)
          · exact .inl (.inl h)
          · rcases lt hc with hc | rfl
            · exact .inl (.inr ⟨h1, h2, col, hc, h3, h4⟩)
            · exact .inr ⟨h1, h2, h4⟩
    · rw [drawColumn_hidden img m y p s u hs]
      refine ⟨i1, i2, ?_, fun j hj => i4 j fun col hc => hj col (by omega), ?_⟩
      · intro col hk hsc hf hl
        rcases lt hk with hk | rfl
        · exact i3 col hk hsc hf hl
        · exact absurd hsc hs
      · rw [i5]
        constructor
        · rintro (h | ⟨h1, h2, col, hc, h3⟩)
          · exact .inl h
          · exact .inr ⟨h1, h2, col, by omega, h3⟩
        · rintro (h | ⟨h1, h2, col, hc, h3, h4⟩)
          · exact .inl h
          · rcases lt hc with hc | rfl
            · exact .inr ⟨h1, h2, col, hc, h3, h4⟩
            · exact absurd h3 hs

/-- The sprites of a list, the last drawn first (R191, R192): a pixel is that of the first sprite that shows and covers there, and the
flag is set where entry 0 is listed and shows on an opaque background. -/
theorem drawList (l : List Nat) (d : LineDraw) (hl : d.px.length = 256) :
    let t := l.reverse.foldl (drawSprite img m y p s) d
    t.idx = d.idx ∧ t.px.length = 256 ∧
    (∀ j, (∀ n ∈ l, ∀ col < 8, j = (p.oamByte n 3).toNat + col →
        ¬ (SpriteShows img m y p s n col ∧ SpriteCovers p n (d.idx.getD j 0))) → t.px[j]? = d.px[j]?) ∧
    (∀ pre n post, l = pre ++ n :: post → ∀ col < 8, SpriteShows img m y p s n col →
      SpriteCovers p n (d.idx.getD ((p.oamByte n 3).toNat + col) 0) →
      (∀ n' ∈ pre, ∀ col' < 8, (p.oamByte n 3).toNat + col = (p.oamByte n' 3).toNat + col' →
        ¬ (SpriteShows img m y p s n' col' ∧ SpriteCovers p n' (d.idx.getD ((p.oamByte n 3).toNat + col) 0))) →
      t.px[(p.oamByte n 3).toNat + col]? = some (spritePixel img m y p s n col)) ∧
    (t.s0 = true ↔ d.s0 = true ∨ (0 ∈ l ∧ p.mask.getLsbD 3 = true ∧
      ∃ col < 8, SpriteShows img m y p s 0 col ∧ d.idx.getD ((p.oamByte 0 3).toNat + col) 0 ≠ 0)) := by
  induction l with
  | nil => exact ⟨rfl, hl, fun _ _ => rfl, fun pre n post h => absurd h (by simp), by simp⟩
  | cons n rest ih =>
    dsimp only at ih ⊢
    rw [List.reverse_cons, List.foldl_append, List.foldl_cons, List.foldl_nil]
    generalize rest.reverse.foldl (drawSprite img m y p s) d = u at ih
    obtain ⟨i1, i2, i3, i4, i5⟩ := ih
    obtain ⟨c1, c2, c3, c4, c5⟩ := drawColumns img m y p s n u 8
    rw [i1] at c1 c3 c4 c5
    rw [i2] at c2 c3
    rw [show (List.range 8).foldl (drawColumn img m y p s n) u = drawSprite img m y p s u n from rfl] at c1 c2 c3 c4 c5
    generalize drawSprite img m y p s u n = w at c1 c2 c3 c4 c5
    refine ⟨c1, c2, ?_, ?_, ?_⟩
    · intro j hj
      rw [c4 j (hj n List.mem_cons_self)]
      exact i3 j fun n' hn' => hj n' (List.mem_cons_of_mem _ hn')
    · intro pre n' post e col hc hs hf hp
      cases pre with
      | nil =>
        cases e
        exact c3 col hc hs hf hs.1
      | cons k pre =>
        cases e
        rw [c4 _ (hp n List.mem_cons_self)]
        exact i4 pre n' post rfl col hc hs hf fun k hk => hp k (List.mem_cons_of_mem _ hk)
    · rw [c5, i5]
      constructor
      · rintro ((h | ⟨h1, h2⟩) | ⟨rfl, h2⟩)
        · exact .inl h
        · exact .inr ⟨List.mem_cons_of_mem _ h1, h2⟩
        · exact .inr ⟨List.mem_cons_self, h2⟩
      · rintro (h | ⟨h1, h2⟩)
        · exact .inl (.inl h)
        · rcases List.mem_cons.mp h1 with rfl | h1
          · exact .inr ⟨rfl, h2⟩
          · exact .inl (.inr ⟨h1, h2⟩)

end

end Sys2Proof.Machine
end

