-- ==== Sys2Proof/Tests/Slice0.lean ====
section
/-! SUPPORT. Tests: decoding by the opcode map, the spec's test vectors on single operations and steps, the checks' refusals, and a
witness for the hypotheses of every obligation. Every expected result is from 95_test_vectors.md, from an example of the rule
named, or from the encoding tables. -/

set_option maxRecDepth 8000

namespace Sys2Proof.Tests

open Sys2Proof Sys2Proof.Machine

/-- Row 0x of the opcode map (30_encoding.md R69), operand bytes 0x34, 0x12 (R67). -/
theorem test_decode_row0 :
    (decode [0x00] = .ok (.brk, [])) ∧
    (decode [0x01, 0x34] = .ok (.oraIndx 0x34, [])) ∧
    (decode [0x05, 0x34] = .ok (.oraZp 0x34, [])) ∧
    (decode [0x06, 0x34] = .ok (.aslZp 0x34, [])) ∧
    (decode [0x08] = .ok (.php, [])) ∧
    (decode [0x09, 0x34] = .ok (.oraImm 0x34, [])) ∧
    (decode [0x0A] = .ok (.aslAcc, [])) ∧
    (decode [0x0D, 0x34, 0x12] = .ok (.oraAbs 0x1234, [])) ∧
    (decode [0x0E, 0x34, 0x12] = .ok (.aslAbs 0x1234, [])) := by
  and_intros <;> rfl

/-- Row 1x of the opcode map (30_encoding.md R69), operand bytes 0x34, 0x12 (R67). -/
theorem test_decode_row1 :
    (decode [0x10, 0x34] = .ok (.bpl 0x34, [])) ∧
    (decode [0x11, 0x34] = .ok (.oraIndy 0x34, [])) ∧
    (decode [0x15, 0x34] = .ok (.oraZpx 0x34, [])) ∧
    (decode [0x16, 0x34] = .ok (.aslZpx 0x34, [])) ∧
    (decode [0x18] = .ok (.clc, [])) ∧
    (decode [0x19, 0x34, 0x12] = .ok (.oraAbsy 0x1234, [])) ∧
    (decode [0x1D, 0x34, 0x12] = .ok (.oraAbsx 0x1234, [])) ∧
    (decode [0x1E, 0x34, 0x12] = .ok (.aslAbsx 0x1234, [])) := by
  and_intros <;> rfl

/-- Row 2x of the opcode map (30_encoding.md R69), operand bytes 0x34, 0x12 (R67). -/
theorem test_decode_row2 :
    (decode [0x20, 0x34, 0x12] = .ok (.jsr 0x1234, [])) ∧
    (decode [0x21, 0x34] = .ok (.andIndx 0x34, [])) ∧
    (decode [0x24, 0x34] = .ok (.bitZp 0x34, [])) ∧
    (decode [0x25, 0x34] = .ok (.andZp 0x34, [])) ∧
    (decode [0x26, 0x34] = .ok (.rolZp 0x34, [])) ∧
    (decode [0x28] = .ok (.plp, [])) ∧
    (decode [0x29, 0x34] = .ok (.andImm 0x34, [])) ∧
    (decode [0x2A] = .ok (.rolAcc, [])) ∧
    (decode [0x2C, 0x34, 0x12] = .ok (.bitAbs 0x1234, [])) ∧
    (decode [0x2D, 0x34, 0x12] = .ok (.andAbs 0x1234, [])) ∧
    (decode [0x2E, 0x34, 0x12] = .ok (.rolAbs 0x1234, [])) := by
  and_intros <;> rfl

/-- Row 3x of the opcode map (30_encoding.md R69), operand bytes 0x34, 0x12 (R67). -/
theorem test_decode_row3 :
    (decode [0x30, 0x34] = .ok (.bmi 0x34, [])) ∧
    (decode [0x31, 0x34] = .ok (.andIndy 0x34, [])) ∧
    (decode [0x35, 0x34] = .ok (.andZpx 0x34, [])) ∧
    (decode [0x36, 0x34] = .ok (.rolZpx 0x34, [])) ∧
    (decode [0x38] = .ok (.sec, [])) ∧
    (decode [0x39, 0x34, 0x12] = .ok (.andAbsy 0x1234, [])) ∧
    (decode [0x3D, 0x34, 0x12] = .ok (.andAbsx 0x1234, [])) ∧
    (decode [0x3E, 0x34, 0x12] = .ok (.rolAbsx 0x1234, [])) := by
  and_intros <;> rfl

/-- Row 4x of the opcode map (30_encoding.md R69), operand bytes 0x34, 0x12 (R67). -/
theorem test_decode_row4 :
    (decode [0x40] = .ok (.rti, [])) ∧
    (decode [0x41, 0x34] = .ok (.eorIndx 0x34, [])) ∧
    (decode [0x45, 0x34] = .ok (.eorZp 0x34, [])) ∧
    (decode [0x46, 0x34] = .ok (.lsrZp 0x34, [])) ∧
    (decode [0x48] = .ok (.pha, [])) ∧
    (decode [0x49, 0x34] = .ok (.eorImm 0x34, [])) ∧
    (decode [0x4A] = .ok (.lsrAcc, [])) ∧
    (decode [0x4C, 0x34, 0x12] = .ok (.jmpAbs 0x1234, [])) ∧
    (decode [0x4D, 0x34, 0x12] = .ok (.eorAbs 0x1234, [])) ∧
    (decode [0x4E, 0x34, 0x12] = .ok (.lsrAbs 0x1234, [])) := by
  and_intros <;> rfl

/-- Row 5x of the opcode map (30_encoding.md R69), operand bytes 0x34, 0x12 (R67). -/
theorem test_decode_row5 :
    (decode [0x50, 0x34] = .ok (.bvc 0x34, [])) ∧
    (decode [0x51, 0x34] = .ok (.eorIndy 0x34, [])) ∧
    (decode [0x55, 0x34] = .ok (.eorZpx 0x34, [])) ∧
    (decode [0x56, 0x34] = .ok (.lsrZpx 0x34, [])) ∧
    (decode [0x58] = .ok (.cli, [])) ∧
    (decode [0x59, 0x34, 0x12] = .ok (.eorAbsy 0x1234, [])) ∧
    (decode [0x5D, 0x34, 0x12] = .ok (.eorAbsx 0x1234, [])) ∧
    (decode [0x5E, 0x34, 0x12] = .ok (.lsrAbsx 0x1234, [])) := by
  and_intros <;> rfl

/-- Row 6x of the opcode map (30_encoding.md R69), operand bytes 0x34, 0x12 (R67). -/
theorem test_decode_row6 :
    (decode [0x60] = .ok (.rts, [])) ∧
    (decode [0x61, 0x34] = .ok (.adcIndx 0x34, [])) ∧
    (decode [0x65, 0x34] = .ok (.adcZp 0x34, [])) ∧
    (decode [0x66, 0x34] = .ok (.rorZp 0x34, [])) ∧
    (decode [0x68] = .ok (.pla, [])) ∧
    (decode [0x69, 0x34] = .ok (.adcImm 0x34, [])) ∧
    (decode [0x6A] = .ok (.rorAcc, [])) ∧
    (decode [0x6C, 0x34, 0x12] = .ok (.jmpInd 0x1234, [])) ∧
    (decode [0x6D, 0x34, 0x12] = .ok (.adcAbs 0x1234, [])) ∧
    (decode [0x6E, 0x34, 0x12] = .ok (.rorAbs 0x1234, [])) := by
  and_intros <;> rfl

/-- Row 7x of the opcode map (30_encoding.md R69), operand bytes 0x34, 0x12 (R67). -/
theorem test_decode_row7 :
    (decode [0x70, 0x34] = .ok (.bvs 0x34, [])) ∧
    (decode [0x71, 0x34] = .ok (.adcIndy 0x34, [])) ∧
    (decode [0x75, 0x34] = .ok (.adcZpx 0x34, [])) ∧
    (decode [0x76, 0x34] = .ok (.rorZpx 0x34, [])) ∧
    (decode [0x78] = .ok (.sei, [])) ∧
    (decode [0x79, 0x34, 0x12] = .ok (.adcAbsy 0x1234, [])) ∧
    (decode [0x7D, 0x34, 0x12] = .ok (.adcAbsx 0x1234, [])) ∧
    (decode [0x7E, 0x34, 0x12] = .ok (.rorAbsx 0x1234, [])) := by
  and_intros <;> rfl

/-- Row 8x of the opcode map (30_encoding.md R69), operand bytes 0x34, 0x12 (R67). -/
theorem test_decode_row8 :
    (decode [0x81, 0x34] = .ok (.staIndx 0x34, [])) ∧
    (decode [0x84, 0x34] = .ok (.styZp 0x34, [])) ∧
    (decode [0x85, 0x34] = .ok (.staZp 0x34, [])) ∧
    (decode [0x86, 0x34] = .ok (.stxZp 0x34, [])) ∧
    (decode [0x88] = .ok (.dey, [])) ∧
    (decode [0x8A] = .ok (.txa, [])) ∧
    (decode [0x8C, 0x34, 0x12] = .ok (.styAbs 0x1234, [])) ∧
    (decode [0x8D, 0x34, 0x12] = .ok (.staAbs 0x1234, [])) ∧
    (decode [0x8E, 0x34, 0x12] = .ok (.stxAbs 0x1234, [])) := by
  and_intros <;> rfl

/-- Row 9x of the opcode map (30_encoding.md R69), operand bytes 0x34, 0x12 (R67). -/
theorem test_decode_row9 :
    (decode [0x90, 0x34] = .ok (.bcc 0x34, [])) ∧
    (decode [0x91, 0x34] = .ok (.staIndy 0x34, [])) ∧
    (decode [0x94, 0x34] = .ok (.styZpx 0x34, [])) ∧
    (decode [0x95, 0x34] = .ok (.staZpx 0x34, [])) ∧
    (decode [0x96, 0x34] = .ok (.stxZpy 0x34, [])) ∧
    (decode [0x98] = .ok (.tya, [])) ∧
    (decode [0x99, 0x34, 0x12] = .ok (.staAbsy 0x1234, [])) ∧
    (decode [0x9A] = .ok (.txs, [])) ∧
    (decode [0x9D, 0x34, 0x12] = .ok (.staAbsx 0x1234, [])) := by
  and_intros <;> rfl

/-- Row Ax of the opcode map (30_encoding.md R69), operand bytes 0x34, 0x12 (R67). -/
theorem test_decode_rowA :
    (decode [0xA0, 0x34] = .ok (.ldyImm 0x34, [])) ∧
    (decode [0xA1, 0x34] = .ok (.ldaIndx 0x34, [])) ∧
    (decode [0xA2, 0x34] = .ok (.ldxImm 0x34, [])) ∧
    (decode [0xA4, 0x34] = .ok (.ldyZp 0x34, [])) ∧
    (decode [0xA5, 0x34] = .ok (.ldaZp 0x34, [])) ∧
    (decode [0xA6, 0x34] = .ok (.ldxZp 0x34, [])) ∧
    (decode [0xA8] = .ok (.tay, [])) ∧
    (decode [0xA9, 0x34] = .ok (.ldaImm 0x34, [])) ∧
    (decode [0xAA] = .ok (.tax, [])) ∧
    (decode [0xAC, 0x34, 0x12] = .ok (.ldyAbs 0x1234, [])) ∧
    (decode [0xAD, 0x34, 0x12] = .ok (.ldaAbs 0x1234, [])) ∧
    (decode [0xAE, 0x34, 0x12] = .ok (.ldxAbs 0x1234, [])) := by
  and_intros <;> rfl

/-- Row Bx of the opcode map (30_encoding.md R69), operand bytes 0x34, 0x12 (R67). -/
theorem test_decode_rowB :
    (decode [0xB0, 0x34] = .ok (.bcs 0x34, [])) ∧
    (decode [0xB1, 0x34] = .ok (.ldaIndy 0x34, [])) ∧
    (decode [0xB4, 0x34] = .ok (.ldyZpx 0x34, [])) ∧
    (decode [0xB5, 0x34] = .ok (.ldaZpx 0x34, [])) ∧
    (decode [0xB6, 0x34] = .ok (.ldxZpy 0x34, [])) ∧
    (decode [0xB8] = .ok (.clv, [])) ∧
    (decode [0xB9, 0x34, 0x12] = .ok (.ldaAbsy 0x1234, [])) ∧
    (decode [0xBA] = .ok (.tsx, [])) ∧
    (decode [0xBC, 0x34, 0x12] = .ok (.ldyAbsx 0x1234, [])) ∧
    (decode [0xBD, 0x34, 0x12] = .ok (.ldaAbsx 0x1234, [])) ∧
    (decode [0xBE, 0x34, 0x12] = .ok (.ldxAbsy 0x1234, [])) := by
  and_intros <;> rfl

/-- Row Cx of the opcode map (30_encoding.md R69), operand bytes 0x34, 0x12 (R67). -/
theorem test_decode_rowC :
    (decode [0xC0, 0x34] = .ok (.cpyImm 0x34, [])) ∧
    (decode [0xC1, 0x34] = .ok (.cmpIndx 0x34, [])) ∧
    (decode [0xC4, 0x34] = .ok (.cpyZp 0x34, [])) ∧
    (decode [0xC5, 0x34] = .ok (.cmpZp 0x34, [])) ∧
    (decode [0xC6, 0x34] = .ok (.decZp 0x34, [])) ∧
    (decode [0xC8] = .ok (.iny, [])) ∧
    (decode [0xC9, 0x34] = .ok (.cmpImm 0x34, [])) ∧
    (decode [0xCA] = .ok (.dex, [])) ∧
    (decode [0xCC, 0x34, 0x12] = .ok (.cpyAbs 0x1234, [])) ∧
    (decode [0xCD, 0x34, 0x12] = .ok (.cmpAbs 0x1234, [])) ∧
    (decode [0xCE, 0x34, 0x12] = .ok (.decAbs 0x1234, [])) := by
  and_intros <;> rfl

/-- Row Dx of the opcode map (30_encoding.md R69), operand bytes 0x34, 0x12 (R67). -/
theorem test_decode_rowD :
    (decode [0xD0, 0x34] = .ok (.bne 0x34, [])) ∧
    (decode [0xD1, 0x34] = .ok (.cmpIndy 0x34, [])) ∧
    (decode [0xD5, 0x34] = .ok (.cmpZpx 0x34, [])) ∧
    (decode [0xD6, 0x34] = .ok (.decZpx 0x34, [])) ∧
    (decode [0xD8] = .ok (.cld, [])) ∧
    (decode [0xD9, 0x34, 0x12] = .ok (.cmpAbsy 0x1234, [])) ∧
    (decode [0xDD, 0x34, 0x12] = .ok (.cmpAbsx 0x1234, [])) ∧
    (decode [0xDE, 0x34, 0x12] = .ok (.decAbsx 0x1234, [])) := by
  and_intros <;> rfl

/-- Row Ex of the opcode map (30_encoding.md R69), operand bytes 0x34, 0x12 (R67). -/
theorem test_decode_rowE :
    (decode [0xE0, 0x34] = .ok (.cpxImm 0x34, [])) ∧
    (decode [0xE1, 0x34] = .ok (.sbcIndx 0x34, [])) ∧
    (decode [0xE4, 0x34] = .ok (.cpxZp 0x34, [])) ∧
    (decode [0xE5, 0x34] = .ok (.sbcZp 0x34, [])) ∧
    (decode [0xE6, 0x34] = .ok (.incZp 0x34, [])) ∧
    (decode [0xE8] = .ok (.inx, [])) ∧
    (decode [0xE9, 0x34] = .ok (.sbcImm 0x34, [])) ∧
    (decode [0xEA] = .ok (.nop, [])) ∧
    (decode [0xEC, 0x34, 0x12] = .ok (.cpxAbs 0x1234, [])) ∧
    (decode [0xED, 0x34, 0x12] = .ok (.sbcAbs 0x1234, [])) ∧
    (decode [0xEE, 0x34, 0x12] = .ok (.incAbs 0x1234, [])) := by
  and_intros <;> rfl

/-- Row Fx of the opcode map (30_encoding.md R69), operand bytes 0x34, 0x12 (R67). -/
theorem test_decode_rowF :
    (decode [0xF0, 0x34] = .ok (.beq 0x34, [])) ∧
    (decode [0xF1, 0x34] = .ok (.sbcIndy 0x34, [])) ∧
    (decode [0xF5, 0x34] = .ok (.sbcZpx 0x34, [])) ∧
    (decode [0xF6, 0x34] = .ok (.incZpx 0x34, [])) ∧
    (decode [0xF8] = .ok (.sed, [])) ∧
    (decode [0xF9, 0x34, 0x12] = .ok (.sbcAbsy 0x1234, [])) ∧
    (decode [0xFD, 0x34, 0x12] = .ok (.sbcAbsx 0x1234, [])) ∧
    (decode [0xFE, 0x34, 0x12] = .ok (.incAbsx 0x1234, [])) := by
  and_intros <;> rfl

/-! The instruction vectors of 95_test_vectors.md, each one CPU step from its common start state. -/

/-- The common start state of 95_test_vectors.md: reset, `code` at 0x8000, PC there, the IRQ line at 0. -/
def start (code : List Byte) : State :=
  { State.reset with
    cpu := { Cpu.reset with pc := 0x8000 }
    image := { Image.blank with prgRom := Memory.ofBytesFrom 0 code }
    env := { Env.reset with irqIn := [false] } }

/-- The start state of a vector that gives A, X, Y. -/
def startAxy (a x y : Byte) (code : List Byte) : State :=
  { start code with cpu := { (start code).cpu with a := a, x := x, y := y } }

/-- The flags of the status byte 0x20 + `p`'s low bits, as the vectors' column P writes them. -/
def withP (p : Byte) (s : State) : State := s.setFlags (Flags.unpack p)

/-- A byte of CPU RAM given by a vector. -/
def poke (a : Nat) (b : Byte) (s : State) : State := s.setRam (s.ram.write a b)

/-- The state after one CPU step. -/
def after (s : State) : State :=
  match cpuStep s with
  | .next t => t
  | .fault _ => s
  | .refused _ => s

/-- A, the status byte with B = 0, and the cycles counted. -/
def apn (s : State) : Byte × Byte × Nat := (s.cpu.a, s.cpu.flags.pack false, s.cpu.cycles)

/-- PC, SP and the cycles counted. -/
def psn (s : State) : Word × Byte × Nat := (s.cpu.pc, s.cpu.sp, s.cpu.cycles)

/-- V1. -/
theorem test_lda_zero : apn (after (start [0xA9, 0x00])) = (0x00, 0x26, 2) := by decide
/-- V3: the page cross costs a cycle. -/
theorem test_lda_absx_cross : apn (after (poke 0x310 0x44 (startAxy 0 0x20 0 [0xBD, 0xF0, 0x02]))) = (0x44, 0x24, 5) := by decide
/-- V5: a store pays no penalty. -/
theorem test_sta_absx :
    let t := after (startAxy 0x66 0x20 0 [0x9D, 0xF0, 0x02])
    (t.ram.read 0x310, t.cpu.cycles) = (0x66, 5) := by decide
/-- V6: RAM is mirrored. -/
theorem test_sta_mirror : peek 0x0000 (after (startAxy 0x77 0 0 [0x8D, 0x00, 0x08])) = 0x77 := by decide
/-- V7: the pointer's high byte comes from 0x0000. -/
theorem test_indx_wraps :
    apn (after (poke 0x234 0x5A (poke 0x100 0x07 (poke 0 0x02 (poke 0xFF 0x34 (start [0xA1, 0xFF])))))) = (0x5A, 0x24, 6) := by decide
/-- V8. -/
theorem test_indy_cross :
    apn (after (poke 0x300 0x9C (poke 0x11 0x02 (poke 0x10 0xFF (startAxy 0 0 1 [0xB1, 0x10]))))) = (0x9C, 0xA4, 6) := by decide
/-- V10: zero page,Y wraps. -/
theorem test_stx_zpy : (after (startAxy 0 0xAB 0x20 [0x96, 0xF0])).ram.read 0x10 = 0xAB := by decide
/-- R95's example: Y = 0x22, X = 1, `STY $FF,X` writes 0x0000. -/
theorem test_sty_zpx : (after (startAxy 0 1 0x22 [0x94, 0xFF])).ram.read 0 = 0x22 := by decide
/-- R91's and R92's examples. -/
theorem test_ldx_ldy :
    (after (start [0xA2, 0x00])).cpu.flags.z = true ∧ (after (start [0xA0, 0x80])).cpu.y = 0x80 ∧
    (after (start [0xA0, 0x80])).cpu.flags.n = true := by decide
/-- V11: TXS writes no flag. -/
theorem test_txs : (after (start [0x9A])).cpu.sp = 0x00 ∧ (after (start [0x9A])).cpu.flags.pack false = 0x24 := by decide
/-- V12. -/
theorem test_tsx : (after (start [0xBA])).cpu.x = 0xFD ∧ (after (start [0xBA])).cpu.flags.n = true := by decide
/-- The examples of R96, R97, R99, R101. -/
theorem test_transfers :
    (after (startAxy 0 5 0 [0xAA])).cpu.x = 0 ∧ (after (startAxy 0xFF 0 0 [0xA8])).cpu.y = 0xFF ∧
    (after (startAxy 0 0x7F 0 [0x8A])).cpu.a = 0x7F ∧ (after (startAxy 0 0 0x80 [0x98])).cpu.a = 0x80 := by decide

/-- V13: 0x50 + 0x50 overflows. -/
theorem test_adc_overflow : apn (after (startAxy 0x50 0 0 [0x69, 0x50])) = (0xA0, 0xE4, 2) := by decide
/-- V15: 0x80 + 0xFF. -/
theorem test_adc_carry : apn (after (startAxy 0x80 0 0 [0x69, 0xFF])) = (0x7F, 0x65, 2) := by decide
/-- V19: 0x50 - 0xB0. -/
theorem test_sbc_overflow : apn (after (withP 0x05 (startAxy 0x50 0 0 [0xE9, 0xB0]))) = (0xA0, 0xE4, 2) := by decide
/-- V21: 5 - 3 with a borrow. -/
theorem test_sbc_borrow : apn (after (startAxy 5 0 0 [0xE9, 0x03])) = (0x01, 0x25, 2) := by decide
/-- The examples of R106, R107, R108. -/
theorem test_logic :
    (after (startAxy 0xF0 0 0 [0x29, 0x3C])).cpu.a = 0x30 ∧ (after (startAxy 1 0 0 [0x09, 0x80])).cpu.a = 0x81 ∧
    (after (startAxy 0xAA 0 0 [0x49, 0xAA])).cpu.a = 0 := by decide
/-- V27. -/
theorem test_bit : apn (after (poke 0x10 0xC0 (startAxy 1 0 0 [0x24, 0x10]))) = (0x01, 0xE6, 3) := by decide
/-- V25, V26. -/
theorem test_cmp :
    apn (after (startAxy 0 0 0 [0xC9, 0x80])) = (0x00, 0xA4, 2) ∧ apn (after (startAxy 0x90 0 0 [0xC9, 0x10])) = (0x90, 0xA5, 2) := by
  decide
/-- The examples of R111, R112. -/
theorem test_cpx_cpy :
    (after (startAxy 0 5 0 [0xE0, 0x06])).cpu.flags.pack false = 0xA4 ∧
    (after (startAxy 0 0 0xFF [0xC0, 0x00])).cpu.flags.pack false = 0xA5 := by decide

/-- V28, V29, V30. -/
theorem test_shift_accumulator :
    apn (after (startAxy 0x80 0 0 [0x0A])) = (0x00, 0x27, 2) ∧ apn (after (withP 0x05 (startAxy 1 0 0 [0x6A]))) = (0x80, 0xA5, 2) ∧
    apn (after (startAxy 0x80 0 0 [0x2A])) = (0x00, 0x27, 2) := by decide
/-- V31. -/
theorem test_lsr_zp :
    let t := after (poke 0x10 0x03 (start [0x46, 0x10]))
    (t.ram.read 0x10, t.cpu.flags.c, t.cpu.cycles) = (0x01, true, 5) := by decide
/-- V32: absolute indexing does not wrap in the page, and a read-modify-write pays no penalty. -/
theorem test_ror_absx :
    let t := after (poke 0x100 0x02 (withP 0x05 (startAxy 0 1 0 [0x7E, 0xFF, 0x00])))
    (t.ram.read 0x100, t.cpu.flags.c, t.cpu.flags.n, t.cpu.cycles) = (0x81, false, true, 7) := by decide
/-- V33. -/
theorem test_inc_wraps :
    let t := after (poke 0x10 0xFF (start [0xE6, 0x10]))
    (t.ram.read 0x10, t.cpu.flags.z, t.cpu.flags.c, t.cpu.cycles) = (0x00, true, false, 5) := by decide
/-- R114's example: [0x0300] = 0 gives 0xFF. -/
theorem test_dec_wraps : (after (start [0xCE, 0x00, 0x03])).ram.read 0x300 = 0xFF := by decide
/-- V34, V35, and the examples of R115, R118. -/
theorem test_register_counts :
    (after (start [0xCA])).cpu.x = 0xFF ∧ (after (startAxy 0 0 0x7F [0xC8])).cpu.y = 0x80 ∧
    (after (startAxy 0 0x7F 0 [0xE8])).cpu.x = 0x80 ∧ (after (startAxy 0 0 0x80 [0x88])).cpu.y = 0x7F := by decide

/-- V36: the pointer's high byte comes from its own page. -/
theorem test_jmp_indirect :
    psn (after (poke 0x300 0x80 (poke 0x200 0x90 (start [0x6C, 0xFF, 0x02])))) = (0x9000, 0xFD, 5) := by decide
/-- R123's example. -/
theorem test_jmp : psn (after (start [0x4C, 0x00, 0xC0])) = (0xC000, 0xFD, 3) := by decide
/-- V37. -/
theorem test_jsr :
    let t := after (start [0x20, 0x00, 0x90])
    psn t = (0x9000, 0xFB, 6) ∧ t.ram.read 0x1FD = 0x80 ∧ t.ram.read 0x1FC = 0x02 := by decide
/-- V38's RTS, from the stack V37 leaves. -/
theorem test_rts :
    let s := poke 0x1FD 0x80 (poke 0x1FC 0x02 (start [0x60]))
    psn (after { s with cpu := { s.cpu with sp := 0xFB } }) = (0x8003, 0xFD, 6) := by decide
/-- V39, V40, V41, V42: taken to another page, not taken, taken, backwards over the page. -/
theorem test_branches :
    psn (after { withP 0x26 (start (List.replicate 0xFF 0xEA ++ [0xF0, 0xFD])) with
      cpu := { (withP 0x26 (start [])).cpu with pc := 0x80FF } }) = (0x80FE, 0xFD, 4) ∧
    psn (after (withP 0x26 (start [0xD0, 0x05]))) = (0x8002, 0xFD, 2) ∧
    psn (after (start [0xD0, 0x05])) = (0x8007, 0xFD, 3) ∧
    psn (after (withP 0x64 (start [0x70, 0x80]))) = (0x7F82, 0xFD, 4) := by decide
/-- The other five branches, taken: R127's example, and the same offset under each condition. -/
theorem test_branch_conditions :
    (after (start [0x90, 0x04])).cpu.pc = 0x8006 ∧ (after (withP 0x25 (start [0xB0, 0x04]))).cpu.pc = 0x8006 ∧
    (after (withP 0xA4 (start [0x30, 0x04]))).cpu.pc = 0x8006 ∧ (after (start [0x10, 0x04])).cpu.pc = 0x8006 ∧
    (after (start [0x50, 0x04])).cpu.pc = 0x8006 := by decide
/-- V43, with the vector at 0x9000 in the last PRG page. -/
theorem test_brk :
    let s := start ([0x00, 0xEA])
    let t := after (withP 0x20 { s with image := { s.image with prgRom := (s.image.prgRom.write 0x3FFF 0x90) } })
    psn t = (0x9000, 0xFA, 7) ∧ t.cpu.flags.i = true ∧
    (t.ram.read 0x1FD, t.ram.read 0x1FC, t.ram.read 0x1FB) = (0x80, 0x02, 0x30) := by decide
/-- V44's RTI, from the stack V43 leaves. -/
theorem test_rti :
    let s := poke 0x1FD 0x80 (poke 0x1FC 0x02 (poke 0x1FB 0x30 (start [0x40])))
    let t := after { s with cpu := { s.cpu with sp := 0xFA } }
    psn t = (0x8002, 0xFD, 6) ∧ t.cpu.flags.pack false = 0x20 := by decide

/-- V45. -/
theorem test_php :
    let t := after (withP 0xA5 (start [0x08]))
    t.ram.read 0x1FD = 0xB5 ∧ psn t = (0x8001, 0xFC, 3) := by decide
/-- V46. -/
theorem test_plp :
    let t := after (poke 0x1FE 0xFF (start [0x28]))
    t.cpu.flags.pack false = 0xEF ∧ psn t = (0x8001, 0xFE, 4) := by decide
/-- V47: the push wraps inside page 1. -/
theorem test_pha_wraps :
    let s := startAxy 0x5D 0 0 [0x48]
    let t := after { s with cpu := { s.cpu with sp := 0x00 } }
    t.ram.read 0x100 = 0x5D ∧ psn t = (0x8001, 0xFF, 3) := by decide
/-- V48: the pull wraps inside page 1. -/
theorem test_pla_wraps :
    let s := poke 0x100 0x80 (start [0x68])
    let t := after { s with cpu := { s.cpu with sp := 0xFF } }
    apn t = (0x80, 0xA4, 4) ∧ t.cpu.sp = 0x00 := by decide
/-- The examples of R141 to R147. -/
theorem test_flag_instructions :
    (after (withP 0x01 (start [0x18]))).cpu.flags.c = false ∧ (after (start [0x38])).cpu.flags.c = true ∧
    (after (start [0x58])).cpu.flags.i = false ∧ (after (withP 0x00 (start [0x78]))).cpu.flags.i = true ∧
    (after (withP 0x08 (start [0xD8]))).cpu.flags.d = false ∧ (after (start [0xF8])).cpu.flags.d = true ∧
    (after (withP 0x40 (start [0xB8]))).cpu.flags.v = false := by decide
/-- R148's example. -/
theorem test_nop : psn (after (start [0xEA])) = (0x8001, 0xFD, 2) := by decide

/-- V49: the NMI is taken whatever I holds; its vector is at 0x3FFA of the page. -/
theorem test_nmi :
    let s := start [0xEA]
    let t := after { s with cpu := { s.cpu with nmiPending := true }
                            image := { s.image with prgRom := s.image.prgRom.write 0x3FFB 0x91 } }
    psn t = (0x9100, 0xFA, 7) ∧ t.cpu.nmiPending = false ∧
    (t.ram.read 0x1FD, t.ram.read 0x1FC, t.ram.read 0x1FB) = (0x80, 0x00, 0x24) := by decide
/-- V50: an IRQ is masked by I. -/
theorem test_irq_masked :
    psn (after { start [0xEA] with env := { Env.reset with irqIn := [true] } }) = (0x8001, 0xFD, 2) := by decide
/-- V51: an IRQ with I = 0. -/
theorem test_irq :
    let s := withP 0x20 (start [0xEA])
    let t := after { s with env := { Env.reset with irqIn := [true] }
                            image := { s.image with prgRom := s.image.prgRom.write 0x3FFF 0x90 } }
    psn t = (0x9000, 0xFA, 7) ∧ t.cpu.flags.i = true ∧ t.ram.read 0x1FB = 0x20 := by decide
/-- V53: an invalid opcode halts the machine, counts no cycle and moves no device. -/
theorem test_invalid_opcode :
    let t := match step (start [0x02]) with
      | .next t => t
      | .fault _ => State.reset
      | .refused _ => State.reset
    t.cpu.halted = some { op := 0x02, addr := 0x8000 } ∧ psn t = (0x8000, 0xFD, 0) ∧ t.ppu = Ppu.reset ∧ t.apu = Apu.reset := by decide

/-- A whole step: 2 cycles of NOP give the picture unit 6 ticks and the audio unit 2 (R217, R218). -/
theorem test_step_ticks :
    let t := match step (start [0xEA]) with
      | .next t => t
      | .fault _ => State.reset
      | .refused _ => State.reset
    (t.ppu.cycle, t.ppu.scanline, t.apu.fs, t.apu.sc, t.cpu.cycles) = (6, -1, 2, 2, 2) := by decide
/-- The very next step after `withFetchWord` runs the word: `LDA #$05` of 30_encoding.md. -/
theorem test_withFetchWord :
    (match step (State.reset.withFetchWord 16 0x05A9) with
      | .next t => t.cpu.a
      | .fault _ => 0
      | .refused _ => 0) = 0x05 := by decide
/-- Words as the opcode table numbers them. -/
theorem test_decodeTableWord :
    decodeTableWord 16 0x05A9 = some (.ldaImm 0x05) ∧ decodeTableWord 24 0x02008D = some (.staAbs 0x0200) ∧
    decodeTableWord 8 0x02 = none ∧ decodeTableWord 8 0xA9 = some (.ldaImm 0x00) := by decide
/-- `State.reset` is what a power-on of the blank cartridge leaves (R222, R223). -/
theorem test_powerOn_blank : powerOn .blank .mapper0 .default = State.reset := by decide

/-! The launch parameters' check refuses ill-formed terms: one for each of its conditions. -/

theorem smoke_default_wf : Params.default.wf = true := by decide
theorem smoke_spriteYOffset : Params.wf { Params.default with spriteYOffset := 2 } = false := by decide
theorem smoke_seq_wrap : Params.wf { Params.default with seq4 := { events := [], wrap := 0 } } = false := by decide
theorem smoke_seq_event_at_wrap : Params.wf { Params.default with seq5 := { events := [(10, .quarter)], wrap := 10 } } = false := by
  decide
theorem smoke_seq_event_zero : Params.wf { Params.default with seq4 := { events := [(0, .quarter)], wrap := 10 } } = false := by
  decide
theorem smoke_noise_length : Params.wf { Params.default with noisePeriods := List.replicate 15 4 } = false := by decide
theorem smoke_noise_zero : Params.wf { Params.default with noisePeriods := 0 :: List.replicate 15 4 } = false := by decide
theorem smoke_dmc_length : Params.wf { Params.default with dmcRates := List.replicate 17 4 } = false := by decide
theorem smoke_dmc_zero : Params.wf { Params.default with dmcRates := List.replicate 15 4 ++ [0] } = false := by decide
/-- No operand value of an instruction is reserved (R71), so no instruction is ill formed; a byte with no entry is no instruction. -/
theorem smoke_instr : (Instr.jmpInd 0xFFFF).wf = true ∧ opcodeForm 0x02 = none := by decide

/-! The bus, cartridge, picture, audio and controller vectors of 95_test_vectors.md. -/

/-- Bus writes one after the other. -/
def writes (l : List (Word × Byte)) (s : State) : State := l.foldl (fun s w => busWrite 0 w.1 w.2 s) s

/-- V54, V55: OAM DMA charges by the parity of `cycles + base`. -/
theorem test_dma_parity :
    (busWrite 4 0x4014 0x50 { start [] with cpu := { Cpu.reset with cycles := 8 } }).cpu.extra = 513 ∧
    (busWrite 4 0x4014 0x50 { start [] with cpu := { Cpu.reset with cycles := 11 } }).cpu.extra = 514 := by decide
/-- V56. -/
theorem test_unmapped : peek 0x5000 (start []) = 0 ∧ peek 0x4018 (start []) = 0 := by decide
/-- V57, on the shift register: A and Start, then CTRL_AFTER_8. -/
theorem test_controller :
    let s := { start [] with pads := { Pads.reset with pad0 := { buttons := 0x09, csr := 0 } } }
    let t := writes [(0x4016, 0x01), (0x4016, 0x00)] s
    (List.range 9).map (fun k => (afterReads 0x4016 k t).pads.pad0.csr.getLsbD 0)
      = [true, false, false, true, false, false, false, false, true] := by decide
/-- V59, V60, V61, V62. -/
theorem test_load_errors :
    load .default [0x4E, 0x45, 0x53, 0x00] = .error .badSignature ∧
    load .default ([0x4E, 0x45, 0x53, 0x1A, 0] ++ List.replicate 11 0) = .error .noPrg ∧
    load .default ([0x4E, 0x45, 0x53, 0x1A, 2] ++ List.replicate 11 0) = .error .truncated ∧
    load .default ([0x4E, 0x45, 0x53, 0x1A, 1, 0, 0x40] ++ List.replicate 9 0) = .error (.unsupportedMapper 4) := by
  and_intros <;> rfl
/-- V63, V64, V65. -/
theorem test_header :
    mapperId 0x10 0x00 = 1 ∧ headerMirroring 0x01 = .vertical ∧ headerMirroring 0x00 = .horizontal ∧
    headerMirroring 0x08 = .fourScreen ∧ headerMirroring 0x09 = .fourScreen ∧ trainerLength 0x04 = 512 := by decide

/-- A mapper 1 cartridge of `nPrg` pages, whose page `p` begins with byte `p`. -/
def mmc1 (nPrg nChr : Nat) (r : Mmc1) : State :=
  { start [] with
    image := { Image.blank with
      nPrg := nPrg, nChr := nChr
      prgRom := (List.range nPrg).foldl (fun m p => m.write (0x4000 * p) (BitVec.ofNat 8 p)) []
      chrRom := (List.range (2 * nChr)).foldl (fun m b => m.write (0x1000 * b) (BitVec.ofNat 8 (0x30 + b))) [] }
    mapper := { (start []).mapper with regs := .mapper1 r } }

/-- V67: five writes select page 6; control 0x0C fixes the last page. -/
theorem test_mmc1_prg :
    let t := writes [(0xE000, 0), (0xE000, 1), (0xE000, 1), (0xE000, 0), (0xE000, 0)] (mmc1 8 0 .reset)
    t.mapper.regs = .mapper1 { Mmc1.reset with prg := 0x06 } ∧ peek 0x8000 t = 6 ∧ peek 0xC000 t = 7 := by decide
/-- V68: control 0x0A is vertical, PRG mode 2. -/
theorem test_mmc1_control :
    let t := writes [(0x8000, 0), (0x8000, 1), (0x8000, 0), (0x8000, 1), (0x8000, 0)] (mmc1 8 0 { Mmc1.reset with prg := 6 })
    t.mapper.regs = .mapper1 { Mmc1.reset with prg := 6, control := 0x0A } ∧ peek 0x8000 t = 0 ∧ peek 0xC000 t = 6 ∧
    mirroringOf t.image t.mapper.regs = .vertical := by decide
/-- E2: bit 7 restores the sentinel and control. -/
theorem test_mmc1_reset :
    (writes [(0x8000, 0), (0x8000, 1), (0x8000, 0x80)] (mmc1 8 0 { Mmc1.reset with control := 0 })).mapper.regs
      = .mapper1 .reset := by decide
/-- V69: two 4 KB CHR banks. -/
theorem test_mmc1_chr :
    let s := mmc1 1 2 { Mmc1.reset with control := 0x1C, chr0 := 3, chr1 := 0 }
    pictureByte s 0x0000 = 0x33 ∧ pictureByte s 0x1000 = 0x30 := by decide

/-- The scroll registers, with the toggle. -/
def scroll (s : State) : Loopy × BitVec 3 × Bool × Loopy := (s.ppu.t, s.ppu.x, s.ppu.w, s.ppu.v)

/-- V70 to V72. -/
theorem test_scroll_writes :
    scroll (writes [(0x2000, 0x00), (0x2005, 0x7D)] (start [])) = (0x000F, 5, true, 0x0000) ∧
    scroll (writes [(0x2000, 0x00), (0x2005, 0x7D), (0x2005, 0x5E)] (start [])) = (0x616F, 5, false, 0x0000) := by decide
/-- V73 to V75. -/
theorem test_address_writes :
    let l : List (Word × Byte) := [(0x2000, 0x00), (0x2005, 0x7D), (0x2005, 0x5E), (0x2006, 0x3D), (0x2006, 0xF0)]
    scroll (writes l (start [])) = (0x3DF0, 5, false, 0x3DF0) ∧
    scroll (writes (l ++ [(0x2000, 0x00)]) (start [])) = (0x31F0, 5, false, 0x3DF0) := by decide
/-- V76: reads below the palette are one late. -/
theorem test_buffered_read :
    let s := writes [(0x2006, 0x20), (0x2006, 0x00), (0x2007, 0x55), (0x2007, 0x66), (0x2006, 0x20), (0x2006, 0x00)] (start [])
    (List.range 3).map (fun k => peek 0x2007 (afterReads 0x2007 k s)) = [0x00, 0x55, 0x66] ∧
    (afterReads 0x2007 3 s).ppu.v = 0x2003 := by decide
/-- E3, V78: palette reads are immediate, and 0x3F10 is 0x3F00. -/
theorem test_palette_alias :
    let s := writes [(0x2006, 0x3F), (0x2006, 0x10), (0x2007, 0x2C), (0x2006, 0x3F), (0x2006, 0x00)] (start [])
    peek 0x2007 s = 0x2C := by decide
/-- V77, V79: horizontal and vertical mirroring. -/
theorem test_mirroring :
    let s := writes [(0x2006, 0x20), (0x2006, 0x00), (0x2007, 0x55)] (start [])
    pictureByte s 0x2400 = 0x55 ∧ pictureByte s 0x2800 = 0 ∧
    pictureByte { s with image := { s.image with mirroring := .vertical } } 0x2800 = 0x55 := by decide
/-- V80, but for the value's undriven bits. -/
theorem test_status_read :
    let s := { start [] with ppu := { Ppu.reset with vblank := true, s0hit := true, ovf := true, w := true } }
    let t := (busRead 0x2002 s).2
    (t.ppu.vblank, t.ppu.s0hit, t.ppu.ovf, t.ppu.w) = (false, true, true, false) := by decide
/-- V81 to V85. -/
theorem test_incY :
    [0x3000, 0x73A0, 0x7BA0, 0x73E0, 0x70A0].map Loopy.incY = [0x4000, 0x0800, 0x0000, 0x0000, 0x00C0] := by decide
/-- V86, V87. -/
theorem test_copy : Loopy.copyX 0x7FFF 0 = 0x041F ∧ Loopy.copyY 0x7FFF 0 = 0x7BE0 := by decide

/-- The picture unit and the cartridge of V88 to V93. -/
def bgPpu : Ppu :=
  { Ppu.reset with mask := 0x0A, ntRam := [(0x002, 0x01), (0x3C0, 0xE4)], pal := [(7, 0x27)] }
/-- Pattern bytes [0010] and [0018] are 0x80. -/
def bgImage : Image := { Image.blank with chrRom := [(0x10, 0x80), (0x18, 0x80)] }
/-- A picture-unit pixel with no grayscale and no emphasis. -/
def px (entry : BitVec 6) : Pixel := { entry := entry, gray := false, emphasis := 0 }

/-- V88, V89, V90. -/
theorem test_background :
    let m := (start []).mapper
    backgroundPixel bgImage m bgPpu 16 = (3, px 0x27) ∧ backgroundPixel bgImage m bgPpu 17 = (0, px 0) ∧
    backgroundPixel bgImage m { bgPpu with x := 3 } 13 = (3, px 0x27) := by decide
/-- V93: the hidden left column. -/
theorem test_background_left :
    backgroundPixel bgImage (start []).mapper { bgPpu with mask := 0x08, v := 2 } 0 = (0, px 0) := by decide

/-- E5: nine sprites on line 10. -/
theorem test_evaluate :
    let rows : List Byte := List.replicate 9 0x09 ++ List.replicate 55 0xFF
    let p := { Ppu.reset with mask := 0x18, oam := rows.zipIdx.map fun r => (4 * r.2, r.1) }
    evaluateLine 1 p 10 = ([0, 1, 2, 3, 4, 5, 6, 7], true) ∧ evaluateLine 1 p 9 = ([], false) := by decide
/-- V98: an 8 by 16 sprite's bottom tile. -/
theorem test_tall_sprite : Ppu.spriteRowAddr { Ppu.reset with ctrl := 0x20 } 0x03 10 = 0x1032 := by decide
/-- V96: horizontal flip leaves column 7 opaque. -/
theorem test_sprite_flip :
    let p := { Ppu.reset with mask := 0x1E, oam := [(0, 0x09), (1, 0x02), (2, 0x41), (3, 0x14)] }
    let img := { Image.blank with chrRom := [(0x20, 0x80)] }
    (List.range 8).map (fun c => (spriteIndex img (start []).mapper 1 p 10 0 c).toNat) = [0, 0, 0, 0, 0, 0, 0, 1] := by decide

/-- V94, V95, V97: a sprite over an opaque background, in front, behind, and at the right edge; the sprite-zero flag. -/
theorem test_sprite_draw :
    let img := { Image.blank with chrRom := [(0x20, 0xFF)] }
    let draw := fun (at' x : Byte) =>
      let p := { Ppu.reset with mask := 0x1E, oam := [(0, 0x09), (1, 0x02), (2, at'), (3, x)], pal := [(0x15, 0x2A)] }
      drawSprite img (start []).mapper 1 p 10 { idx := List.replicate 256 1, px := List.replicate 256 (px 0), s0 := false } 0
    (draw 0x01 0x14).px.getD 20 (px 1) = px 0x2A ∧ (draw 0x01 0x14).px.getD 28 (px 1) = px 0 ∧ (draw 0x01 0x14).s0 = true ∧
    (draw 0x21 0x14).px.getD 20 (px 1) = px 0 ∧ (draw 0x21 0x14).s0 = true ∧
    (draw 0x01 0xFC).px.getD 255 (px 1) = px 0x2A ∧ (draw 0x01 0xFC).px.length = 256 := by decide

/-- V101: length loads of an enabled channel. -/
theorem test_length_load :
    [0x08, 0x00, 0xF8, 0x18].map (fun d => (writes [(0x4015, 0x01), (0x4003, d)] (start [])).apu.pulse1.len)
      = [254, 10, 30, 2] := by decide
/-- V102 to V107: sweep targets and muting. -/
theorem test_sweep :
    Pulse.target true { Pulse.reset with period := 0x100, sweep := 0x01 } = 0x180 ∧
    Pulse.target true { Pulse.reset with period := 0x100, sweep := 0x09 } = 0x07F ∧
    Pulse.target false { Pulse.reset with period := 0x100, sweep := 0x09 } = 0x080 ∧
    Pulse.mute false { Pulse.reset with period := 0x7FF, sweep := 0x00 } = true ∧
    Pulse.mute true { Pulse.reset with period := 0x007, sweep := 0x00 } = true ∧
    Pulse.mute true { Pulse.reset with period := 0x008, sweep := 0x0B } = false := by decide
/-- V108, V109: the first noise steps. -/
theorem test_noise : (List.range 5).map (fun k => Nat.repeat (noiseNext false) (k + 1) 1) = [0x4000, 0x2000, 0x1000, 0x0800, 0x0400] ∧
    (List.range 5).map (fun k => Nat.repeat (noiseNext true) (k + 1) 1) = [0x4000, 0x2000, 0x1000, 0x0800, 0x0400] := by decide
/-- V110. -/
theorem test_envelope :
    (List.range 10).map (fun k => (Nat.repeat (Envelope.quarter 0x02) (k + 1) { Envelope.reset with start := true }).decay.toNat)
      = [15, 15, 15, 14, 14, 14, 13, 13, 13, 12] := by decide
/-- V111. -/
theorem test_envelope_loop :
    (List.range 18).map (fun k => (Nat.repeat (Envelope.quarter 0x20) (k + 1) { Envelope.reset with start := true }).decay.toNat)
      = [15, 14, 13, 12, 11, 10, 9, 8, 7, 6, 5, 4, 3, 2, 1, 0, 15, 14] := by decide
/-- V112, V113: the timers' steps. -/
theorem test_timers :
    (List.range 14).map (fun k => (Nat.repeat Pulse.tick k { Pulse.reset with period := 2 }).q.toNat)
      = [0, 1, 1, 1, 1, 1, 1, 2, 2, 2, 2, 2, 2, 3] ∧
    (List.range 11).map (fun k => (Nat.repeat Triangle.tick k { Apu.reset.triangle with period := 2, lc := 1, len := 1 }).q.toNat)
      = [0, 1, 1, 1, 2, 2, 2, 3, 3, 3, 4] := by decide
/-- V116: the 0x4017 write clocks the length counter at once. -/
theorem test_sequencer_write :
    (writes [(0x4015, 0x01), (0x4003, 0x18), (0x4017, 0x00)] (start [])).apu.pulse1.len = 1 := by decide

/-! A witness for the hypotheses of every obligation that has any, and for each of its clauses: concrete states and operands that
meet them together, at the boundaries of their ranges. -/

/-- OverflowIsSignedOverflow: V set and V clear both happen, at the ends of the signed range. -/
theorem witness_overflow :
    (after (startAxy 0x7F 0 0 [0x69, 0x01])).cpu.flags.v = true ∧ (after (startAxy 0x7F 0 0 [0x69, 0x00])).cpu.flags.v = false := by
  decide
/-- DecimalFlagIgnored; V23. -/
theorem witness_decimal :
    (Instr.adcImm 0x01 = .adcImm 0x01 ∨ Instr.adcImm 0x01 = .sbcImm 0x01) ∧
    (after (withP 0x08 (startAxy 0x09 0 0 [0x69, 0x01]))).cpu.a = 0x0A := by decide
/-- Stack statements: a canonical RAM with a byte in it; SP at both ends of the page. -/
theorem witness_ram : (poke 0x1FD 0x80 (start [])).ram.wf = true ∧ stackCell (start []) 0 = .ram 0x1FD ∧
    stackCell { start [] with cpu := { Cpu.reset with sp := 0 } } 255 = .ram 0x1FF := by decide
/-- BranchesFollowCondition: each condition true and false. -/
theorem witness_branch :
    (start []).cpu.flags.c = false ∧ (withP 0xC3 (start [])).cpu.flags.c = true ∧ (withP 0xC3 (start [])).cpu.flags.z = true ∧
    (withP 0xC3 (start [])).cpu.flags.n = true ∧ (withP 0xC3 (start [])).cpu.flags.v = true ∧ (start []).cpu.flags.z = false := by
  decide
/-- BrkEntersThroughVector, BrkThenRtiReturns: both settings of BRK_MASKED_BY_I. -/
theorem witness_brk :
    (start []).params.brkMaskedByI = false ∧ (start []).ram.wf = true ∧
    (let s := { start [] with params := { Params.default with brkMaskedByI := true } }
     s.params.brkMaskedByI = true ∧ s.cpu.flags.i = true) := by decide
/-- DecodeAndEncodeAgree: both directions. -/
theorem witness_decode : (Instr.ldaAbs 0xFFFF).wf = true ∧ decode [0xAD, 0xFF, 0xFF, 0xEA] = .ok (.ldaAbs 0xFFFF, [0xEA]) :=
  ⟨rfl, rfl⟩
/-- InvalidOpcodeHalts: the first and the last of the 105, fetched from the cartridge. -/
theorem witness_invalid :
    let s := start [0x02, 0xFF]
    s.cpu.halted = none ∧ s.cpu.nmiPending = false ∧ irqTaken s = false ∧ (peek s.cpu.pc s).toNat ∈ invalidOpcodes ∧
    (peek (s.cpu.pc + 1) s).toNat ∈ invalidOpcodes ∧ invalidOpcodes.length = 105 := by decide
/-- EffectiveAddresses: a page cross, none, and a sum past 0xFFFF. -/
theorem witness_index :
    let s := startAxy 0 1 0 []
    MemMode.ea (.absx 0xFFFF) s = 0x0000 ∧ ValueMode.penalty (.mem (.absx 0xFFFF)) s = 1 ∧
    ValueMode.penalty (.mem (.absx 0x12FE)) s = 0 := by decide
/-- StepRunsDecodedInstruction: bytes from the cartridge, and from both ends of the address space. -/
theorem witness_step :
    let s := start [0x8D, 0x00, 0x02]
    s.cpu.halted = none ∧ s.cpu.nmiPending = false ∧ irqTaken s = false ∧
    (∀ k < 3, (s.cpu.pc + BitVec.ofNat 16 k).toNat < 0x2000 ∨ 0x4018 ≤ (s.cpu.pc + BitVec.ofNat 16 k).toNat) := by decide
theorem witness_step_decodes :
    decode (fetchBytes (encode (.staAbs 0x0200)).length (stepStart (start [0x8D, 0x00, 0x02]))).1 = .ok (.staAbs 0x0200, []) := rfl
theorem witness_step_ram :
    let s := { start [] with cpu := { Cpu.reset with pc := 0x1FFF } }
    irqTaken s = false ∧ (∀ k < 1, (s.cpu.pc + BitVec.ofNat 16 k).toNat < 0x2000 ∨ 0x4018 ≤ (s.cpu.pc + BitVec.ofNat 16 k).toNat) ∧
    encode .brk = [peek s.cpu.pc s] := by decide
/-- StepAnswersUntilHalted: a halted machine and a running one. -/
theorem witness_halted :
    { (start []).cpu with halted := some { op := 0x02, addr := 0x8000 } }.halted = some { op := 0x02, addr := 0x8000 } ∧
    (start []).cpu.halted = none := by decide
/-- A driving loop's start: the machine and no snapshot. -/
def session (s : State) : Session := { machine := s, saved := [] }
/-- StepAnswersUntilHalted, the driving loop (R217): it stops on a halted machine and on END_CONDITION before the turn's inputs;
else the inputs come first, then one step. An input that restores a halted machine ends the turn, and the next restore is refused. -/
theorem witness_drive :
    let s := start [0xEA]
    let halted := { s with cpu := { s.cpu with halted := some { op := 0x02, addr := 0x8000 } } }
    let turn := [HostInput.setButton 0 3 true, .getSaveState]
    drive (fun _ => true) [turn] (session s) = .next (session s) ∧
    drive (fun _ => false) [turn] (session halted) = .next (session halted) ∧
    drive (fun _ => false) [[.setSaveState halted.getSaveState, .setSaveState s.getSaveState]] (session s) = .next (session halted) ∧
    (match drive (fun _ => false) [turn] (session s) with
      | .next h => (h.machine.cpu.pc, h.machine.pads.pad0.buttons, h.saved.map fun n => (n.cpu.pc, n.pads.pad0.buttons))
      | .fault _ => (0, 0, [])
      | .refused _ => (0, 0, [])) = (0x8001, 0x08, [(0x8000, 0x08)]) := by
  and_intros <;> first | rfl | decide
/-- InterruptsTakenInPriorityOrder: an NMI with an IRQ waiting (V52), and an IRQ alone. -/
theorem witness_interrupts :
    (let s := { withP 0x20 (start []) with env := { Env.reset with irqIn := [true] } }
     s.cpu.halted = none ∧ s.cpu.nmiPending = false ∧ s.cpu.flags.i = false ∧ s.irqLevel = true ∧
     { s.cpu with nmiPending := true }.nmiPending = true) := by decide

/-- The start state with the picture unit at a position. -/
def atPosition (line : Int) (c : Nat) (p : Ppu) : State := { start [] with ppu := { p with scanline := line, cycle := c } }

/-- VblankSignalsNmi: the tick that signals, the tick that clears, the ticks beside them. -/
theorem witness_vblank :
    (let s := atPosition 241 1 { Ppu.reset with ctrl := 0x80 }
     s.ppu.ctrl.getLsbD 7 = true ∧ s.cpu.halted = none ∧ (pictureTick s).cpu.nmiPending = true) ∧
    (pictureTick (atPosition (-1) 1 { Ppu.reset with vblank := true })).ppu.vblank = false ∧
    (pictureTick (atPosition 241 2 { Ppu.reset with ctrl := 0x80 })).cpu.nmiPending = false ∧
    (pictureTick (atPosition 241 0 { Ppu.reset with ctrl := 0x80 })).ppu.vblank = false := by decide

/-- A well-formed state that is not the reset state: code in the cartridge, the IRQ line driven. -/
theorem start_wf : (start [0xEA]).Wf where
  params := by decide
  image := by constructor <;> decide
  ram := by decide
  mapper := ⟨by decide, by decide, trivial⟩
  ppu := Ppu.reset_wf (by decide) (by decide) (by decide)
  apu := Apu.reset_wf (by decide)
  pads := fun h => by cases h
/-- StepKeepsInvariant: a state with the invariant, whose step answers a next state. -/
theorem witness_invariant : (start [0xEA]).Inv ∧ (match step (start [0xEA]) with
    | .next _ => true
    | .fault _ => false
    | .refused _ => false) = true :=
  ⟨⟨start_wf, rfl, fun h e => by cases e⟩, by decide⟩

/-- An image file: one PRG page, CHR-RAM, mapper 1, then `body`. -/
def imageFile (body : List Byte) : List Byte :=
  [0x4E, 0x45, 0x53, 0x1A, 1, 0, 0x10, 0, 0, 0, 0, 0, 0, 0, 0, 0] ++ body
theorem imageFile_loads (body : List Byte) (h : body.length = 0x4000) : ∃ s, load .default (imageFile body) = .ok s := by
  have hl : (imageFile body).length = 16400 := by simp [imageFile, h]
  have h4 : (imageFile body).getD 4 0 = 1 := rfl
  have h5 : (imageFile body).getD 5 0 = 0 := rfl
  have h6 : (imageFile body).getD 6 0 = 0x10 := rfl
  have h7 : (imageFile body).getD 7 0 = 0 := rfl
  have hm : mapperOf (mapperId 0x10 0) = .ok (.mapper1 .reset) := rfl
  have hp : parseImage none (imageFile body) = .ok (buildImage 1 0 0x10 none body, .mapper1 .reset) := by
    unfold parseImage
    rw [if_neg (by simp [imageFile]), if_neg (by omega)]
    simp only [h4, h5, h6, h7, hm, hl]
    rfl
  exact ⟨_, by unfold load; rw [show LaunchParams.default.prgRamPresent = none from rfl, hp]⟩
/-- LoadedMachineHasInvariant, LoadChecksAndReadsImage: launch parameters, memory contents and an image that loads. -/
theorem witness_load :
    LaunchParams.default.params.wf = true ∧ LaunchParams.default.initMem.Fits ∧
    ∃ s, load .default (imageFile (List.replicate 0x4000 0xEA)) = .ok s :=
  ⟨by decide, ⟨by decide, by decide, by decide, by decide, by decide, by decide⟩, imageFile_loads _ (List.length_replicate ..)⟩

/-- RamIsMirrored: the last mirror's last byte. -/
theorem witness_mirror : (start []).ram.wf = true ∧ (0x1FFF : Word).toNat < 0x2000 := by decide
/-- UndecodedReadsZero: the ends of its two ranges. -/
theorem witness_undecoded :
    0x4018 ≤ (0x4018 : Word).toNat ∧ (0x5FFF : Word).toNat < 0x6000 ∧
    ((0x7FFF : Word).toNat < 0x8000 ∧ (start []).image.prgRamPresent = false) := by decide
/-- ReadSideEffects, PictureRegisterReads, PictureRegisterWrites: each register, at its first address and its last mirror. -/
theorem witness_registers :
    isPictureReg 0 0x2000 ∧ isPictureReg 1 0x2001 ∧ isPictureReg 2 0x2002 ∧ isPictureReg 3 0x2003 ∧ isPictureReg 4 0x2004 ∧
    isPictureReg 5 0x2005 ∧ isPictureReg 6 0x2006 ∧ isPictureReg 7 0x2007 ∧ isPictureReg 0 0x3FF8 ∧ isPictureReg 7 0x3FFF ∧
    ¬ isPictureReg 7 0x4007 := by unfold isPictureReg; decide
/-- PictureRegisterReads: below the palette, at its edge, in it; the next address still below, and not. -/
theorem witness_data_address :
    let p := fun v : Loopy => { Ppu.reset with v := v }
    (p 0x3EFE).advance.v = 0x3EFF ∧ (p 0x3EFF).advance.v = 0x3F00 ∧ (p 0x7FFF).advance.v = 0x0000 ∧
    { p 0x7FF0 with ctrl := 0x04 }.advance.v = 0x0010 := by decide
/-- A picture unit about to write at `v`, the cartridge with `n` CHR pages. -/
def dataWrite (v : Loopy) (n : Nat) : State :=
  let s := { start [] with ppu := { Ppu.reset with v := v }, image := { Image.blank with nChr := n } }
  busWrite 0 0x3FFF 9 s
/-- PictureRegisterReads, the write clauses, each at its range's ends: CHR-RAM, CHR-ROM, nametables, palette; canonical memories. -/
theorem witness_data_write :
    ((start []).mapper.chrRam.wf = true ∧ (start []).ppu.ntRam.wf = true ∧ (start []).ppu.pal.wf = true) ∧
    pictureByte (dataWrite 0x0000 0) 0x0000 = 9 ∧ pictureByte (dataWrite 0x1FFF 0) 0x1FFF = 9 ∧
    pictureByte (dataWrite 0x1FFF 1) 0x1FFF = 0 ∧ (dataWrite 0x1FFF 1).mapper.chrRam = [] ∧
    pictureByte (dataWrite 0x2000 1) 0x2000 = 9 ∧ pictureByte (dataWrite 0x7EFF 0) 0x3EFF = 9 ∧
    pictureByte (dataWrite 0x3F00 0) 0x3F00 = 9 ∧ pictureByte (dataWrite 0x3FFF 1) 0x3FFF = 9 ∧
    pictureByte (dataWrite 0x3F10 0) 0x3F00 = 9 := by decide
/-- PictureRegisterReads: the cells, by R180 and R62: one 4 KB bank of CHR-RAM each way, and each mirrored table. -/
theorem witness_cells :
    chrRamCell .mapper0 0x1FFF = 0x1FFF ∧
    chrRamCell (.mapper1 { Mmc1.reset with control := 0x1C, chr0 := 3, chr1 := 2 }) 0x0FFF = 0x1FFF ∧
    chrRamCell (.mapper1 { Mmc1.reset with control := 0x1C, chr0 := 3, chr1 := 2 }) 0x1000 = 0x0000 ∧
    chrRamCell (.mapper1 { Mmc1.reset with chr0 := 3 }) 0x1001 = 0x1001 ∧
    ntRamCell .horizontal 0x2400 = 0x000 ∧ ntRamCell .horizontal 0x3EFF = 0x6FF ∧ ntRamCell .vertical 0x2C01 = 0x401 := by decide
/-- BusWriteReachesOneTarget: a write in each range moves what it should. -/
theorem witness_bus_write :
    (busWrite 0 0x0801 7 (start [])).ram.read 1 = 7 ∧ (busWrite 0 0x2000 0x80 (start [])).ppu.ctrl = 0x80 ∧
    (busWrite 0 0x4000 0x3F (start [])).apu.pulse1.reg = 0x3F ∧ (busWrite 0 0x4016 1 (start [])).pads.strobe = true ∧
    (busWrite 0 0x8000 1 (mmc1 8 0 .reset)).mapper.regs = .mapper1 { Mmc1.reset with sr := 0x18 } := by decide
/-- OamDmaCopiesPage: OAM in form, and pages at the edges of RAM and the cartridge. -/
theorem witness_dma : (start []).ppu.oam.wf = true ∧ ((0x1F : Byte).toNat < 0x20 ∨ 0x41 ≤ (0x1F : Byte).toNat) ∧
    ((0x41 : Byte).toNat < 0x20 ∨ 0x41 ≤ (0x41 : Byte).toNat) ∧ ¬ ((0x40 : Byte).toNat < 0x20 ∨ 0x41 ≤ (0x40 : Byte).toNat) := by
  decide
/-- CartridgeWindows: mapper 0, mapper 1 in each PRG mode at the windows' edges, and PRG-RAM present. -/
theorem witness_cartridge :
    (start []).mapper.regs = .mapper0 ∧ 0x8000 ≤ (0x8000 : Word).toNat ∧
    (let s := fun c => mmc1 8 0 { Mmc1.reset with control := c, prg := 3 }
     [peek 0x8000 (s 0x00), peek 0xC000 (s 0x04), peek 0x8000 (s 0x08), peek 0xC000 (s 0x08), peek 0x8000 (s 0x0C), peek 0xC000 (s 0x0C)]
       = [2, 3, 0, 3, 3, 7]) ∧
    (let s := { start [] with image := { Image.blank with prgRamPresent := true } }
     s.image.prgRamPresent = true ∧ s.mapper.prgRam.wf = true ∧ peek 0x7FFF (busWrite 0 0x7FFF 9 s) = 9) := by decide
/-- MapperOneLoadsSerially: the sentinel in place, a byte with bit 7 and bytes without. -/
theorem witness_mmc1 :
    (mmc1 8 0 .reset).mapper.regs = .mapper1 .reset ∧ Mmc1.reset.sr = 0x10 ∧ Mmc1.reset.sr.getLsbD 0 = false ∧
    (0x80 : Byte).getLsbD 7 = true ∧ (∀ d ∈ [(0x00 : Byte), 0x7F, 0x01, 0x00, 0x00], d.getLsbD 7 = false) ∧
    (0x11 : BitVec 5).getLsbD 0 = true ∧ (∀ a ∈ [(0x8000 : Word), 0xA000, 0xC000, 0xE000, 0xFFFF], 0x8000 ≤ a.toNat) :=
  ⟨rfl, rfl, rfl, rfl, by simp, rfl, by simp⟩
/-- PictureBusDecode: both mappers and both CHR modes. -/
theorem witness_picture_bus :
    (start []).mapper.regs = .mapper0 ∧ (mmc1 1 2 .reset).mapper.regs = .mapper1 .reset ∧ Mmc1.reset.control.toNat / 16 = 0 ∧
    (0x1F : BitVec 5).toNat / 16 = 1 ∧ pictureByte (mmc1 1 2 { Mmc1.reset with chr0 := 3 }) 0x0000 = 0x32 := by decide
/-- LoopyUpdates: rendering on and off, at the edges of the cycles that move `v`. -/
theorem witness_loopy :
    let p := { Ppu.reset with mask := 0x08, t := 0x7FFF, v := 0x3000 }
    (pictureTick (atPosition 239 256 p)).ppu.v = 0x4000 ∧ (pictureTick (atPosition 0 257 p)).ppu.v = 0x341F ∧
    (pictureTick (atPosition (-1) 280 p)).ppu.v = 0x7BE0 ∧ (pictureTick (atPosition (-1) 304 p)).ppu.v = 0x7BE0 ∧
    (pictureTick (atPosition (-1) 305 p)).ppu.v = 0x3000 ∧ (pictureTick (atPosition 0 280 p)).ppu.v = 0x3000 ∧
    (pictureTick (atPosition 240 256 p)).ppu.v = 0x3000 ∧
    (pictureTick (atPosition 0 256 { p with mask := 0 })).ppu.v = 0x3000 := by decide
/-- FrameTiming, SaveStateRestoresMachine: a well-formed state; the last position of a frame is followed by the first. -/
theorem witness_frame :
    (start [0xEA]).Wf ∧ (atPosition 260 340 Ppu.reset).ppu.position = 89341 ∧
    (pictureTick (atPosition 260 340 Ppu.reset)).ppu.position = 0 ∧ (pictureTick (atPosition 260 340 Ppu.reset)).ppu.frame = 1 ∧
    (pictureTick (atPosition 260 340 { Ppu.reset with fb := [(7, [])] })).env.out = [.frame [(7, [])]] ∧
    (pictureTick (atPosition 260 339 Ppu.reset)).env.out = [] ∧
    (match step { start [0xEA] with apu := { Apu.reset with sc := 18 } } with
      | .next t => (t.cpu.cycles, t.apu.sc, t.samplesOut)
      | .fault _ => (0, 0, 0)
      | .refused _ => (0, 0, 0)) = (2, 0, 1) :=
  ⟨start_wf, by decide, by decide, by decide, by decide, by decide, by decide⟩
/-- LineSelectsSprites: background alone, sprites alone, neither. -/
theorem witness_mask :
    (0x08 : Byte).getLsbD 3 = true ∧ (0x10 : Byte).getLsbD 4 = true ∧ (0xE7 : Byte).getLsbD 3 = false ∧ (0xE7 : Byte).getLsbD 4 = false := by
  decide
/-- The picture bus of V94 to V100: pattern row [0020] given, [0028] = 00. -/
def patterns (row : Byte) (a : Nat) : Byte := if a = 0x20 then row else 0
/-- OAM of two sprites on line 10: tile 02 at X = 14, with their attributes. -/
def twoSprites (at0 at1 : Byte) : Ppu :=
  { Ppu.reset with
    mask := 0x1E, oam := [(0, 0x09), (1, 0x02), (2, at0), (3, 0x14), (4, 0x09), (5, 0x02), (6, at1), (7, 0x14)] }
/-- LineSelectsSprites, its terms by V88, V94, V96, V97: a background pixel, a sprite's first and last column and those beside them. -/
theorem witness_pixels :
    backgroundAt (ppuRead bgImage (start []).mapper bgPpu) bgPpu 16 = (3, 7) ∧
    backgroundAt (ppuRead bgImage (start []).mapper bgPpu) bgPpu 17 = (0, 0) ∧
    [19, 20, 27, 28].map (fun j => (spriteAt (patterns 0xFF) 1 10 (twoSprites 0x01 0x01) 0 j).1) = [0, 1, 1, 0] ∧
    (spriteAt (patterns 0xFF) 1 10 (twoSprites 0x01 0x01) 0 20).2 = 0x15 ∧
    [20, 27].map (fun j => (spriteAt (patterns 0x80) 1 10 (twoSprites 0x41 0x01) 0 j).1) = [0, 1] := by decide
/-- LineSelectsSprites: the shown sprite, by V95 and V100: a hidden sprite is passed over, in front of a transparent pixel it is not. -/
theorem witness_shown :
    let b := fun a => if 0x2000 ≤ a then 0x02 else patterns 0xFF a
    shownSprite b 1 10 (twoSprites 0x20 0x00) [0, 1] 20 = some 1 ∧ shownSprite b 1 10 (twoSprites 0x20 0x20) [0, 1] 20 = none ∧
    shownSprite (patterns 0xFF) 1 10 (twoSprites 0x20 0x00) [0, 1] 20 = some 0 ∧ shownSprite b 1 10 (twoSprites 0 0) [0, 1] 28 = none := by
  decide
/-- LineSelectsSprites, the ticks: the ends of the lines that are rendered, the tick that clears, and those beside them. -/
theorem witness_line_ticks :
    let p := { Ppu.reset with ovf := true, s0hit := true }
    (pictureTick (atPosition 0 0 p)).ppu.ovf = true ∧ (pictureTick (atPosition 239 0 p)).ppu.s0hit = true ∧
    (pictureTick (atPosition 240 0 p)).ppu.ovf = true ∧ (pictureTick (atPosition (-1) 0 p)).ppu.s0hit = true ∧
    (pictureTick (atPosition (-1) 1 p)).ppu.ovf = false ∧ (pictureTick (atPosition (-1) 1 p)).ppu.s0hit = false ∧
    (pictureTick (atPosition 0 1 p)).ppu.ovf = true := by decide
/-- AudioEnableAndStatus: each DMC case, and a disabled channel. -/
theorem witness_audio_enable :
    (0x0F : Byte).getLsbD 4 = false ∧ (0x10 : Byte).getLsbD 4 = true ∧ Apu.reset.dmc.bytesRemaining = 0 ∧
    (writes [(0x4015, 0x10)] (start [])).apu.dmc.bytesRemaining = 1 ∧ Apu.reset.pulse1.enabled = false := by decide
/-- AudioEnableAndStatus, R196's registers at their last values: a period's two halves, the level, the sample's address and length; a
length load of each enabled channel; of a disabled one only the period's high bits are written, of the disabled noise nothing. -/
theorem witness_audio_writes :
    (writes [(0x4015, 0x01), (0x4002, 0x34), (0x4003, 0xFD)] (start [])).apu.pulse1.period = 0x534 ∧
    (writes [(0x4011, 0xFF)] (start [])).apu.dmc.level = 0x7F ∧ (writes [(0x4012, 0xFF)] (start [])).apu.dmc.sampleAddr = 0xFFC0 ∧
    (writes [(0x4013, 0xFF)] (start [])).apu.dmc.sampleLen = 0xFF1 ∧
    (writes [(0x4015, 0x0F), (0x400F, 0x08)] (start [])).apu.noise.len = 254 ∧
    (writes [(0x4015, 0x02), (0x4007, 0x08)] (start [])).apu.pulse2.env.start = true ∧
    (writes [(0x4015, 0x04), (0x400B, 0x08)] (start [])).apu.triangle.lr = true ∧
    (let s := { start [] with apu := { Apu.reset with pulse1 := { Pulse.reset with period := 0x7FF, q := 3 } } }
     writes [(0x4003, 0x0A), (0x400F, 0x08)] s = s.setApu { s.apu with pulse1 := { s.apu.pulse1 with period := 0x2FF } } ∧
     writes [(0x400B, 0x0F)] s = s.setApu { s.apu with triangle := { s.apu.triangle with period := 0x700 } }) := by decide
/-- FrameSequencer: each count of each clause. -/
theorem witness_sequencer :
    [7456, 22370, 14912, 29828, 29829, 37280, 37281].map (fun k => ({ Apu.reset with fs := k }).fs + 1)
      = [7457, 22371, 14913, 29829, 29830, 37281, 37282] ∧ ({ Apu.reset with fiveStep := true }).fiveStep = true ∧
    ({ Apu.reset with fs := 29829 }).sequencerTick .default = Apu.reset ∧
    ({ Apu.reset with fs := 37281, fiveStep := true }).sequencerTick .default = { Apu.reset with fiveStep := true } := by decide
/-- QuarterAndHalfEvents: each case of the envelope and of the sweep. -/
theorem witness_units :
    (Envelope.quarter 0x23 { Envelope.reset with start := true }).div = 3 ∧
    (Envelope.quarter 0x23 Envelope.reset).decay = 15 ∧ (Envelope.quarter 0x23 { Envelope.reset with div := 2, decay := 4 }).div = 1 ∧
    (Pulse.sweepHalf true { Pulse.reset with period := 0x100, sweep := 0x81 }).period = 0x180 ∧
    (Pulse.sweepHalf true { Pulse.reset with period := 0x007, sweep := 0x81 }).period = 0x007 ∧
    (Pulse.sweepHalf true { Pulse.reset with sweepDiv := 3 }).sweepDiv = 2 := by decide
/-- AudioTimers: timers at 0, the default tables, the sample counter at both ends. -/
theorem witness_timers :
    Pulse.reset.ct = 0 ∧ Apu.reset.triangle.ct = 0 ∧ Apu.reset.noise.ct = 0 ∧ periodsWf defaultNoisePeriods = true ∧
    Apu.reset.noise.sr ≠ 0 ∧ (start []).apu.sc < 20 ∧
    (audioTicks 1 { start [] with apu := { Apu.reset with sc := 19 } }).samplesOut = 1 := by decide
/-- AudioTimers, the sample by R205, R207, R208, R211: each reason for silence, and each channel sounding. -/
theorem witness_sample :
    let p := { Pulse.reset with period := 8, len := 1, reg := 0x9B, q := 1 }
    pulseOut true p = 11 ∧ pulseOut true { p with len := 0 } = 0 ∧ pulseOut true { p with period := 7 } = 0 ∧
    pulseOut true { p with q := 0 } = 0 ∧ pulseOut true { p with reg := 0x80, env := { Envelope.reset with decay := 6 } } = 6 ∧
    [0, 15, 16, 31].map (fun q => triangleOut { Apu.reset.triangle with len := 1, q := q }) = [15, 0, 0, 15] ∧
    noiseOut { Apu.reset.noise with len := 1, reg := 0x1F, sr := 2 } = 15 ∧ noiseOut { Apu.reset.noise with len := 1, reg := 0x1F } = 0 ∧
    Params.default.wf = true ∧ (start []).apu.sc < 20 ∧ 0x8000 ≤ (start []).apu.dmc.curAddr.toNat := by decide
/-- AudioTimers, the DMC by R209: a timer above 0; at 0 with bits left, with an empty and with a full buffer; the level at its ends. -/
theorem witness_dmc_clock :
    let c := { Apu.reset.dmc with ct := 0, bitsLeft := 2, level := 126, dsr := 0x03, silence := false }
    ({ c with ct := 5 }.tick defaultDmcRates).ct = 4 ∧
    ((c.tick defaultDmcRates).level, (c.tick defaultDmcRates).dsr, (c.tick defaultDmcRates).bitsLeft) = (126, 0x01, 1) ∧
    ({ c with level := 125 }.tick defaultDmcRates).level = 127 ∧ ({ c with level := 1, dsr := 0 }.tick defaultDmcRates).level = 1 ∧
    ({ c with bitsLeft := 1, bufEmpty := true }.tick defaultDmcRates).silence = true ∧
    ({ c with bitsLeft := 1, bufEmpty := false, buf := 0x55 }.tick defaultDmcRates).dsr = 0x55 := by decide
/-- AudioTimers, the sample reader by R209: the address wraps to 0x8000; a looping sample restarts at its end. -/
theorem witness_dmc_fetch :
    let c := { Apu.reset.dmc with bufEmpty := true, bytesRemaining := 2, curAddr := 0xFFFF, sampleAddr := 0xC040, sampleLen := 17 }
    let run := fun c : Dmc => (sampleReader { start [0xAB] with apu := { Apu.reset with dmc := c } }).apu.dmc
    c.bytesRemaining ≠ 0 ∧ 0x8000 ≤ c.curAddr.toNat ∧ (run c).curAddr = 0x8000 ∧ (run c).bytesRemaining = 1 ∧
    (run { c with curAddr := 0x8000 }).buf = 0xAB ∧ (run { c with bytesRemaining := 1 }).bytesRemaining = 0 ∧
    (run { c with bytesRemaining := 1, reg := 0x40 }).curAddr = 0xC040 ∧
    (run { c with bytesRemaining := 1, reg := 0x40 }).bytesRemaining = 17 := by decide
/-- ControllersShiftOutButtons: a byte that sets the strobe and one that clears it; ports and buttons in and out of range. -/
theorem witness_controllers :
    (0x01 : Byte).getLsbD 0 = true ∧ (0xFE : Byte).getLsbD 0 = false ∧ ((start []).setButton 1 7 true).isSome = true ∧
    ((start []).setButton 2 0 true).isNone = true ∧ ((start []).setButton 0 8 true).isNone = true := by decide
/-- SaveStateRestoresMachine: two mappers, and snapshots of a wrong size. -/
theorem witness_snapshot :
    (mmc1 8 0 .reset).mapper.regs = .mapper1 .reset ∧ (start []).mapper.regs = .mapper0 ∧
    (start []).mapper.regs.sameVariant (start [0xEA]).mapper.regs = true ∧
    Memory.isArray 0x800 [(0x800, 1)] = false ∧ Memory.isArray 0x100 [(0x100, 1)] = false ∧
    Memory.isArray 0x2000 [(0x2000, 1)] = false := by decide
/-- SaveStateRestoresMachine: a snapshot of the shape, and one refused for each part of it. -/
theorem witness_shape : SameShape (start []).getSaveState (start []) ∧
    (let s := start []
     let n := s.getSaveState
     let fits := fun m : Snapshot => (s.setSaveState m).isSome
     fits n = true ∧ fits { n with hasPrgRam := true } = false ∧ fits { n with hasChrRam := true } = false ∧
     fits { n with mapper := (mmc1 1 0 .reset).mapper } = false ∧ fits { n with ram := [(0, 0)] } = false ∧
     fits { n with ppu := { n.ppu with sprites := List.range 8 } } = true ∧
     fits { n with ppu := { n.ppu with sprites := List.range 9 } } = false ∧
     fits { n with ppu := { n.ppu with sprites := [64] } } = false ∧
     fits { n with ppu := { n.ppu with fb := [(0, [])] } } = false ∧
     let dead := { n.cpu with halted := some { op := 0x02, addr := 0x8000 } }
     fits { n with cpu := dead } = true ∧ (State.setSaveState n { s with cpu := dead }).isNone = true) :=
  ⟨⟨.inl ⟨rfl, rfl⟩, by decide, by decide, by decide, by decide, by decide, by decide, by decide, by decide, by decide, by decide,
    by decide, by decide⟩, by decide⟩

end Sys2Proof.Tests
end

section
/-! PROOFS. Every step keeps the machine invariant (R20, R21, R24, R150): the CPU step keeps its three parts, and the device ticks
touch nothing of the CPU that the invariant speaks of. -/

namespace Sys2Proof.Machine

/-! ## What a CPU step and a machine step answer, read backwards -/

/-- A machine that takes a CPU step was not halted (R149). -/
theorem cpuStep_not_halted {s t : State} (e : cpuStep s = .next t) : s.cpu.halted = none := by
  unfold cpuStep at e
  split at e
  · cases e
  · assumption

/-- No CPU step leaves an extra cycle pending (R21). -/
theorem cpuStep_extra {s t : State} (e : cpuStep s = .next t) : t.cpu.extra = 0 := by
  obtain ⟨u, hu, hextra, -⟩ := cpuStep_next s (cpuStep_not_halted e)
  cases e.symm.trans hu
  exact hextra

/-- A machine step is a CPU step and then some number of device ticks (R217). -/
theorem step_next {s t : State} (e : step s = .next t) : ∃ u n, cpuStep s = .next u ∧ t = deviceTicks n u := by
  unfold step at e
  split at e
  case h_1 u hu => cases e; exact ⟨u, _, hu, rfl⟩
  case h_2 => cases e
  case h_3 => cases e

/-! ## The halt record -/

/-- A machine not halted halts only at an invalid opcode, with PC put back at it: no instruction halts (R150). -/
theorem runInstruction_halted {s t : State} (hs : s.cpu.halted = none) (e : runInstruction s = .next t) {h : BadOpcode}
    (ht : t.cpu.halted = some h) : t.cpu.pc = h.addr := by
  have not_exec : ∀ {i : Instr} {u : State}, u.cpu.halted = none → exec i u ≠ .next t := by
    intro i u hu ei
    obtain ⟨hkeep, -⟩ := exec_next_counts ei
    rw [hkeep, hu] at ht
    cases ht
  unfold runInstruction at e
  dsimp only at e
  split at e
  · cases e; cases ht; rfl
  · exact absurd e (not_exec (by simp [fetchByte_cpu, hs]))
  · exact absurd e (not_exec (by simp [fetchByte_cpu, hs]))
  · exact absurd e (not_exec (by simp [fetchByte_cpu, hs]))

/-- After a CPU step that halted the machine, PC stands at the opcode that did (R150): an interrupt entry halts nothing. -/
theorem cpuStep_halted {s t : State} (e : cpuStep s = .next t) {h : BadOpcode} (ht : t.cpu.halted = some h) :
    t.cpu.pc = h.addr := by
  have hs := cpuStep_not_halted e
  have hstart : (stepStart s).cpu.halted = none := by simpa [stepStart] using hs
  have not_entry : ∀ {k : IntKind} {u : State}, u.cpu.halted = none → t ≠ takeInterrupt k u := by
    rintro k u hu rfl
    obtain ⟨-, -, hkeep⟩ := takeInterrupt_cpu k u
    rw [hkeep, hu] at ht
    cases ht
  unfold cpuStep at e
  rw [hs] at e
  dsimp only at e
  split at e
  · cases e; exact absurd rfl (not_entry hstart)
  split at e
  · cases e; exact absurd rfl (not_entry hstart)
  · exact runInstruction_halted hstart e ht

/-! ## The invariant -/

/-- A CPU step establishes the two parts that speak of the CPU, from any state. -/
theorem State.Wf.inv_of_cpuStep {s t : State} (h : s.Wf) (e : cpuStep s = .next t) : t.Inv where
  wf := closed_wf.cpuStep h e
  extra := cpuStep_extra e
  halted _ := cpuStep_halted e

theorem State.Inv.deviceTicks {s : State} (h : s.Inv) (n : Nat) : (deviceTicks n s).Inv := by
  have hframe := deviceTicks_frame n s
  refine ⟨h.wf.deviceTicks n, hframe.extra.trans h.extra, fun b hb => ?_⟩
  rw [hframe.pc]
  exact h.halted b (hframe.halted.symm.trans hb)

/-- A step from any well-formed state answers a state with the invariant. -/
theorem State.Wf.inv_of_step {s t : State} (h : s.Wf) (e : step s = .next t) : t.Inv := by
  obtain ⟨u, n, hu, rfl⟩ := step_next e
  exact (h.inv_of_cpuStep hu).deviceTicks n

/-- Settles O37: the CPU step keeps well-formedness (`closed_wf`) and establishes the rest, and the device ticks keep both. -/
theorem stepKeepsInvariant : Obligations.StepKeepsInvariant :=
  fun _ _ h e => h.wf.inv_of_step e

end Sys2Proof.Machine
end

section
/-! PROOFS. The bus (R27 to R33, R41, R42): what each access reaches and what it leaves alone. Every statement comes from one equation
per class of addresses (`busRead_*`, `BusWriteCase`). -/

namespace Sys2Proof.Machine

/-! ## Reads by address -/

theorem busRead_pictureReg {n : Nat} {a : Word} (h : isPictureReg n a) (s : State) : busRead a s = pictureRead n s := by
  obtain ⟨hlow, hhigh, rfl⟩ := h
  simp only [busRead, show ¬ a.toNat < 0x2000 by omega, hhigh, if_true, if_false]

/-- Where the cartridge decodes neither ROM nor PRG-RAM, it reads 0 and a write leaves it alone (R30, R50). -/
theorem cart_undecoded {img : Image} {a : Nat} (h : a < 0x6000 ∨ (a < 0x8000 ∧ img.prgRamPresent = false)) (m : Mapper) (d : Byte) :
    cartRead img m a = 0 ∧ cartWrite img a d m = m := by
  have hrom : ¬ 0x8000 ≤ a := by omega
  have hram : (decide (0x6000 ≤ a) && img.prgRamPresent) = false := by
    rcases h with h | ⟨-, h⟩
    · simp [show ¬ 0x6000 ≤ a by omega]
    · simp [h]
  simp [cartRead, cartWrite, hrom, hram]

/-- From 0x4018 on a read is the cartridge's, also where nothing is decoded (R30, R31). -/
theorem busRead_high {a : Word} (h : 0x4018 ≤ a.toNat) (s : State) : busRead a s = (cartRead s.image s.mapper a.toNat, s) := by
  by_cases hcart : 0x4020 ≤ a.toNat
  · exact busRead_cart hcart s
  · obtain ⟨hzero, -⟩ := cart_undecoded (img := s.image) (a := a.toNat) (.inl (by omega)) s.mapper 0
    simp only [hzero, busRead, show ¬ a.toNat < 0x2000 by omega, show ¬ a.toNat < 0x4000 by omega, show ¬ a.toNat < 0x4015 by omega,
      show ¬ a.toNat = 0x4015 by omega, show ¬ a.toNat = 0x4016 by omega, show ¬ a.toNat = 0x4017 by omega,
      show a.toNat < 0x4020 by omega, if_true, if_false]

theorem peek_ram {a : Word} (h : a.toNat < 0x2000) (s : State) : peek a s = s.ram.read (a.toNat % 0x800) := by
  rw [peek, busRead_ram h]

/-- Outside the registers of 0x2000 to 0x4017 a read does not see the picture unit. -/
theorem peek_setPpu {a : Word} (h : a.toNat < 0x2000 ∨ 0x4018 ≤ a.toNat) (p : Ppu) (s : State) : peek a (s.setPpu p) = peek a s := by
  rcases h with h | h
  · rw [peek_ram h, peek_ram h, State.setPpu_ram]
  · rw [peek, peek, busRead_high h, busRead_high h, State.setPpu_image, State.setPpu_mapper]

theorem busRead_oamaddr (a : Word) (s : State) : (busRead a s).2.ppu.oamaddr = s.ppu.oamaddr := by
  rcases busRead_ppu a s with h | ⟨-, h⟩ | ⟨-, h⟩ <;> rw [h] <;> rfl

/-! ## What a read leaves alone -/

/-- The picture unit keeps its state under every read but PPUSTATUS's and PPUDATA's (R31). -/
theorem busRead_ppu_eq {a : Word} (h2 : ¬ isPictureReg 2 a) (h7 : ¬ isPictureReg 7 a) (s : State) : (busRead a s).2.ppu = s.ppu := by
  rcases busRead_ppu a s with h | ⟨h, -⟩ | ⟨h, -⟩
  · exact h
  · exact absurd h h2
  · exact absurd h h7

/-- The ports keep their state under every read but their own (R31). -/
theorem busRead_pads_eq {a : Word} (h6 : a ≠ 0x4016) (h7 : a ≠ 0x4017) (s : State) : (busRead a s).2.pads = s.pads := by
  rcases busRead_pads a s with h | ⟨h, -⟩ | ⟨h, -⟩
  · exact h
  · exact absurd h h6
  · exact absurd h h7

/-- A port read changes nothing of the port but its shift register (R215). -/
theorem Pad.shift_eq (after8 strobe : Bool) (p : Pad) : ∃ c, p.shift after8 strobe = { p with csr := c } := by
  unfold Pad.shift
  split
  · exact ⟨p.csr, rfl⟩
  · exact ⟨_, rfl⟩

/-- The reads that draw no free value and have no side effect: CPU RAM, all above the registers, OAMDATA (R31). -/
theorem busRead_state_eq {a : Word} (h : a.toNat < 0x2000 ∨ 0x4018 ≤ a.toNat ∨ isPictureReg 4 a) (s : State) :
    (busRead a s).2 = s := by
  rcases h with h | h | h
  · rw [busRead_ram h]
  · rw [busRead_high h]
  · rw [busRead_pictureReg h]; rfl

/-! ## Writes by address -/

/-- Everything a bus write can be, one case per target of the decode (R27 to R32); from 0x4018 on the cartridge's, also where nothing
is decoded. -/
inductive BusWriteCase (base : Nat) (a : Word) (d : Byte) (s : State) : State → Prop
  | ram (h : a.toNat < 0x2000) : BusWriteCase base a d s (s.setRam (s.ram.write (a.toNat % 0x800) d))
  | picture (hlow : 0x2000 ≤ a.toNat) (hhigh : a.toNat < 0x4000) : BusWriteCase base a d s (pictureWrite (a.toNat % 8) d s)
  | dma (h : a = 0x4014) : BusWriteCase base a d s (oamDma base d s)
  | ports (h : a = 0x4016) : BusWriteCase base a d s (s.setPads (s.pads.write d))
  | audio (hlow : 0x4000 ≤ a.toNat) (hhigh : a.toNat < 0x4018) (hdma : a ≠ 0x4014) (hports : a ≠ 0x4016) :
      BusWriteCase base a d s (audioWrite a.toNat d s)
  | cart (h : 0x4018 ≤ a.toNat) : BusWriteCase base a d s (s.setMapper (cartWrite s.image a.toNat d s.mapper))

theorem busWrite_dma (base : Nat) (d : Byte) (s : State) : busWrite base 0x4014 d s = oamDma base d s := rfl

theorem busWrite_high (base : Nat) {a : Word} (h : 0x4018 ≤ a.toNat) (d : Byte) (s : State) :
    busWrite base a d s = s.setMapper (cartWrite s.image a.toNat d s.mapper) := by
  simp only [busWrite, show ¬ a.toNat < 0x2000 by omega, show ¬ a.toNat < 0x4000 by omega, show ¬ a.toNat = 0x4014 by omega,
    show ¬ a.toNat = 0x4016 by omega, show ¬ a.toNat < 0x4018 by omega, if_false]
  split
  · obtain ⟨-, hkeep⟩ := cart_undecoded (img := s.image) (a := a.toNat) (.inl (by omega)) s.mapper d
    rw [hkeep]; rfl
  · rfl

theorem busWrite_case (base : Nat) (a : Word) (d : Byte) (s : State) : BusWriteCase base a d s (busWrite base a d s) := by
  by_cases hdma : a = 0x4014
  · subst hdma; exact .dma rfl
  by_cases hports : a = 0x4016
  · subst hports; exact .ports rfl
  have n4 : ¬ a.toNat = 0x4014 := fun h => hdma (BitVec.eq_of_toNat_eq h)
  have n6 : ¬ a.toNat = 0x4016 := fun h => hports (BitVec.eq_of_toNat_eq h)
  rcases Nat.lt_or_ge a.toNat 0x2000 with hram | hlow
  · rw [busWrite_ram base hram]; exact .ram hram
  rcases Nat.lt_or_ge a.toNat 0x4018 with hhigh | hcart
  · simp only [busWrite, show ¬ a.toNat < 0x2000 by omega, n4, n6, hhigh, if_true, if_false]
    split
    case isTrue h => exact .picture hlow h
    case isFalse h => exact .audio (by omega) hhigh hdma hports
  · rw [busWrite_high base hcart]; exact .cart hcart

/-- A picture register write reaches the picture unit, through PPUDATA the cartridge, and through PPUCTRL the NMI latch (R171, R178). -/
theorem pictureWrite_frame (n : Nat) (d : Byte) (s : State) :
    (pictureWrite n d s).ram = s.ram ∧ (pictureWrite n d s).apu = s.apu ∧ (pictureWrite n d s).pads = s.pads ∧
    (pictureWrite n d s).env = s.env ∧ (n ≠ 7 → (pictureWrite n d s).mapper = s.mapper) ∧
    (n ≠ 0 → (pictureWrite n d s).cpu = s.cpu) := by
  unfold pictureWrite
  split
  case h_1 => unfold writeCtrl; split <;> simp
  case h_7 => simp [writeData]
  all_goals simp

namespace BusWriteCase

variable {base : Nat} {a : Word} {d : Byte} {s t : State}

theorem ram_eq (h : BusWriteCase base a d s t) (ha : 0x2000 ≤ a.toNat) : t.ram = s.ram := by
  cases h with
  | ram hlt => omega
  | picture =>
    obtain ⟨hram, -⟩ := pictureWrite_frame (a.toNat % 8) d s
    exact hram
  | dma => simp [oamDma]
  | ports | audio | cart => rfl

theorem ppu_eq (h : BusWriteCase base a d s t) (hpic : ¬ (0x2000 ≤ a.toNat ∧ a.toNat < 0x4000)) (hdma : a ≠ 0x4014) :
    t.ppu = s.ppu := by
  cases h with
  | picture hlow hhigh => exact absurd ⟨hlow, hhigh⟩ hpic
  | dma ha => exact absurd ha hdma
  | ram | ports | audio | cart => rfl

theorem apu_eq (h : BusWriteCase base a d s t)
    (ha : ¬ (0x4000 ≤ a.toNat ∧ a.toNat < 0x4018) ∨ a = 0x4014 ∨ a = 0x4016) : t.apu = s.apu := by
  cases h with
  | picture =>
    obtain ⟨-, hapu, -⟩ := pictureWrite_frame (a.toNat % 8) d s
    exact hapu
  | dma => simp [oamDma]
  | audio hlow hhigh hdma hports =>
    rcases ha with hout | h4 | h6
    · exact absurd ⟨hlow, hhigh⟩ hout
    · exact absurd h4 hdma
    · exact absurd h6 hports
  | ram | ports | cart => rfl

theorem pads_eq (h : BusWriteCase base a d s t) (hdma : a ≠ 0x4014) (hports : a ≠ 0x4016) : t.pads = s.pads := by
  cases h with
  | picture =>
    obtain ⟨-, -, hpads, -⟩ := pictureWrite_frame (a.toNat % 8) d s
    exact hpads
  | dma ha => exact absurd ha hdma
  | ports ha => exact absurd ha hports
  | ram | audio | cart => rfl

theorem mapper_eq (h : BusWriteCase base a d s t) (hdata : ¬ isPictureReg 7 a) (ha : a.toNat < 0x4020) : t.mapper = s.mapper := by
  cases h with
  | picture hlow hhigh =>
    obtain ⟨-, -, -, -, hmapper, -⟩ := pictureWrite_frame (a.toNat % 8) d s
    exact hmapper fun hn => hdata ⟨hlow, hhigh, hn⟩
  | dma => simp [oamDma]
  | cart =>
    obtain ⟨-, hkeep⟩ := cart_undecoded (img := s.image) (a := a.toNat) (.inl (by omega)) s.mapper d
    exact hkeep
  | ram | ports | audio => rfl

theorem env_eq (h : BusWriteCase base a d s t) (hdma : a ≠ 0x4014) : t.env = s.env := by
  cases h with
  | picture =>
    obtain ⟨-, -, -, henv, -⟩ := pictureWrite_frame (a.toNat % 8) d s
    exact henv
  | dma ha => exact absurd ha hdma
  | ram | ports | audio | cart => rfl

theorem nmiPending_eq (h : BusWriteCase base a d s t) (hctrl : ¬ isPictureReg 0 a) : t.cpu.nmiPending = s.cpu.nmiPending := by
  cases h with
  | picture hlow hhigh =>
    obtain ⟨-, -, -, -, -, hcpu⟩ := pictureWrite_frame (a.toNat % 8) d s
    rw [hcpu fun hn => hctrl ⟨hlow, hhigh, hn⟩]
  | dma => simp [oamDma]
  | ram | ports | audio | cart => rfl

end BusWriteCase

/-- A write changes no register, no flag and no halt record. -/
theorem busWrite_cpuFrame (base : Nat) (a : Word) (d : Byte) (s : State) : CpuFrame [] [] s (busWrite base a d s) := by
  refine ⟨fun r _ => ?_, fun f _ => ?_, busWrite_halted ..⟩
  · cases r <;> simp [State.reg]
  · cases f <;> simp [State.flag]

/-! ## The bytes of an OAM DMA -/

theorem pageByte_toNat (page : Byte) {i : Nat} (hi : i < 256) : (pageByte page i).toNat = 256 * page.toNat + i := by
  rw [pageByte, mkWord_toNat, BitVec.toNat_ofNat, Nat.mod_eq_of_lt hi, Nat.add_comm]

theorem pageByte_eq (page : Byte) {i : Nat} (hi : i < 256) : pageByte page i = BitVec.ofNat 16 (256 * page.toNat + i) := by
  have hpage := page.isLt
  apply BitVec.eq_of_toNat_eq
  rw [pageByte_toNat page hi, BitVec.toNat_ofNat]
  omega

theorem dmaBytes_oamaddr (page : Byte) (k : Nat) (s : State) : (dmaBytes page k s).ppu.oamaddr = s.ppu.oamaddr := by
  induction k with
  | zero => rfl
  | succ k ih => exact (busRead_oamaddr ..).trans ih

/-- Byte `k` of a DMA: the bus read, and its byte stored at the OAMADDR the DMA began with, plus `k` (R41). -/
theorem dmaBytes_succ (page : Byte) (k : Nat) (s : State) :
    dmaBytes page (k + 1) s =
      let r := busRead (pageByte page k) (dmaBytes page k s)
      r.2.setPpu { r.2.ppu with oam := r.2.ppu.oam.write ((s.ppu.oamaddr.toNat + k) % 256) r.1 } := by
  simp only [dmaBytes, dmaByte, busRead_oamaddr, dmaBytes_oamaddr, BitVec.toNat_add, BitVec.toNat_ofNat, Nat.add_mod_mod, Nat.reducePow]

/-- A page that lies wholly in CPU RAM or in cartridge space, where a read has no side effect (R31). -/
def PlainPage (page : Byte) : Prop := page.toNat < 0x20 ∨ 0x41 ≤ page.toNat

theorem PlainPage.byte {page : Byte} (h : PlainPage page) {i : Nat} (hi : i < 256) :
    (pageByte page i).toNat < 0x2000 ∨ 0x4018 ≤ (pageByte page i).toNat := by
  rw [pageByte_toNat page hi]
  unfold PlainPage at h
  omega

/-- From a plain page the first `k` bytes change OAM alone, and put the page's bytes there in order from OAMADDR on, wrapping (R41). -/
theorem dmaBytes_of_plainPage {page : Byte} (hpage : PlainPage page) {s : State} (hwf : s.ppu.oam.wf = true) {k : Nat} (hk : k ≤ 256) :
    ∃ m : Memory, dmaBytes page k s = s.setPpu { s.ppu with oam := m } ∧ m.wf = true ∧
      ∀ i < k, m.read ((s.ppu.oamaddr.toNat + i) % 256) = peek (pageByte page i) s := by
  induction k with
  | zero => exact ⟨s.ppu.oam, rfl, hwf, fun i hi => by omega⟩
  | succ k ih =>
    obtain ⟨m, heq, hm, hread⟩ := ih (by omega)
    have hplain := hpage.byte (i := k) (by omega)
    refine ⟨m.write ((s.ppu.oamaddr.toNat + k) % 256) (peek (pageByte page k) s), ?_, Memory.wf_write hm _ _, fun i hi => ?_⟩
    · rw [dmaBytes_succ, heq, busRead_plain hplain, peek_setPpu hplain]; rfl
    · rcases Nat.lt_succ_iff_lt_or_eq.mp hi with hlt | rfl
      · rw [Memory.read_write_ne _ _ (by omega)]
        exact hread i hlt
      · exact Memory.read_write_self hm _ _

/-! ## The statements about memory -/

/-- Settles O42, from the equation of a RAM write and the memory's read-after-write laws. -/
theorem ramIsMirrored : Obligations.RamIsMirrored := by
  intro s base a d hwf ha
  refine ⟨busRead_ram ha s, ⟨_, busWrite_ram base ha d s, fun a' ha' => ?_⟩, fun img regs l => by rw [powerOn_eq]; rfl⟩
  rw [busWrite_ram base ha, peek_ram ha', peek_ram ha', State.setRam_ram]
  split
  case isTrue h => rw [h]; exact Memory.read_write_self hwf _ _
  case isFalse h => exact Memory.read_write_ne _ _ h

/-- Settles O43: from 0x4018 on the bus is the cartridge's, which decodes none of these addresses. -/
theorem undecodedReadsZero : Obligations.UndecodedReadsZero := by
  intro s base a d hlow ha
  obtain ⟨hread, hwrite⟩ := cart_undecoded ha s.mapper d
  rw [busRead_high hlow, busWrite_high base hlow, hread, hwrite]
  exact ⟨rfl, rfl⟩

/-- Settles O44, from what a read can do to each part of the state. -/
theorem readSideEffects : Obligations.ReadSideEffects := by
  intro s a
  refine ⟨busRead_cpu a s, busRead_ram_eq a s, busRead_mapper a s, busRead_apu a s, ⟨busRead_image a s, busRead_params a s⟩,
    busRead_env a s, fun c _ => busRead_byteAt a s c, fun h => ?status, fun h => ?data, fun h2 h7 => busRead_ppu_eq h2 h7 s,
    fun h => ?port0, fun h => ?port1, fun h6 h7 => busRead_pads_eq h6 h7 s, fun h => busRead_state_eq h s⟩
  case status => rw [busRead_pictureReg h]; rfl
  case data => rw [busRead_pictureReg h]; exact ⟨_, _, rfl⟩
  case port0 =>
    obtain ⟨c, hc⟩ := Pad.shift_eq s.params.ctrlAfter8 s.pads.strobe s.pads.pad0
    subst h
    exact ⟨c, congrArg (fun p => { s.pads with pad0 := p }) hc⟩
  case port1 =>
    obtain ⟨c, hc⟩ := Pad.shift_eq s.params.ctrlAfter8 s.pads.strobe s.pads.pad1
    subst h
    exact ⟨c, congrArg (fun p => { s.pads with pad1 := p }) hc⟩

/-- Settles O45, by the target of the address: each part of the state has a frame lemma over `BusWriteCase`. -/
theorem busWriteReachesOneTarget : Obligations.BusWriteReachesOneTarget := by
  intro s base a d
  have h := busWrite_case base a d s
  exact ⟨busWrite_byteAt base a d s, ⟨busWrite_image .., busWrite_params ..⟩, busWrite_cpuFrame .., busWrite_pc ..,
    busWrite_cycles .., fun hdma => by rw [busWrite_extra, if_neg hdma, Nat.add_zero],
    h.nmiPending_eq, h.ram_eq, h.ppu_eq, h.apu_eq, h.pads_eq, h.mapper_eq, h.env_eq, (busWrite_outputs ..).out⟩

/-- Settles O46: the states after each byte are `dmaBytes`, by induction on the number of bytes copied. -/
theorem oamDmaCopiesPage : Obligations.OamDmaCopiesPage := by
  intro s base v
  rw [busWrite_dma]
  refine ⟨⟨fun i => dmaBytes v i s, rfl, fun i hi => ?_, rfl⟩, dmaBytes_oamaddr v 256 s, fun hwf hpage => ?_⟩
  · rw [← pageByte_eq v hi]
    exact dmaBytes_succ v i s
  · obtain ⟨m, heq, -, hread⟩ := dmaBytes_of_plainPage hpage hwf (Nat.le_refl 256)
    refine ⟨m, congrArg (State.addExtra (dmaStall base s)) heq, fun i hi => ?_⟩
    rw [← pageByte_eq v hi]
    exact hread i hi

end Sys2Proof.Machine
end

section
/-! PROOFS. The cartridge (R45 to R61): what the CPU reaches through it, mapper 1's serial load, and the load of an image file. The
bus statements come from one equation per window; the load comes from `ParseCase`, which says once what a header check can answer. -/

namespace Sys2Proof.Machine

/-! ## The windows of the CPU bus -/

theorem busRead_rom {a : Word} (h : 0x8000 ≤ a.toNat) (s : State) :
    busRead a s = (s.image.prgRom.read (prgIndex s.image s.mapper.regs a.toNat), s) := by
  rw [busRead_high (by omega), cartRead, if_pos h]

theorem busWrite_rom (base : Nat) {a : Word} (h : 0x8000 ≤ a.toNat) (d : Byte) (s : State) :
    busWrite base a d s = s.setMapper { s.mapper with regs := s.mapper.regs.write a.toNat d } := by
  rw [busWrite_high base (by omega), cartWrite, if_pos h]

section
variable {s : State} {a : Word} (hlow : 0x6000 ≤ a.toNat) (hhigh : a.toNat < 0x8000) (hpresent : s.image.prgRamPresent = true)
include hlow hhigh hpresent

theorem busRead_prgRam : busRead a s = (s.mapper.prgRam.read (a.toNat - 0x6000), s) := by
  rw [busRead_high (by omega), cartRead, if_neg (by omega), if_pos (by simp [hlow, hpresent])]

theorem busWrite_prgRam (base : Nat) (d : Byte) :
    busWrite base a d s = s.setMapper { s.mapper with prgRam := s.mapper.prgRam.write (a.toNat - 0x6000) d } := by
  rw [busWrite_high base (by omega), cartWrite, if_neg (by omega), if_pos (by simp [hlow, hpresent])]

/-- PRG-RAM reads back what was written (R50). -/
theorem peek_busWrite_prgRam (hwf : s.mapper.prgRam.wf = true) (base : Nat) (d : Byte) : peek a (busWrite base a d s) = d := by
  rw [peek, busRead_prgRam (s := busWrite base a d s) hlow hhigh (by rw [busWrite_image, hpresent]),
    busWrite_prgRam hlow hhigh hpresent]
  exact Memory.read_write_self hwf _ _

end

/-- The PRG mode as a number: bits 3 and 2 of `control` (R60). -/
theorem Mmc1.prgMode_eq (r : Mmc1) : r.prgMode = r.control.toNat / 4 % 4 := bitField_toNat 2 2 r.control

/-- R61's table: modes 0 and 1 agree. -/
theorem Mmc1.prgPage_eq (nPrg : Nat) (r : Mmc1) (a : Nat) : r.prgPage nPrg a =
    if r.prgMode = 2 then (if a < 0xC000 then 0 else r.prgBank)
    else if r.prgMode = 3 then (if a < 0xC000 then r.prgBank else nPrg - 1)
    else (if a < 0xC000 then r.prgBank / 2 * 2 else r.prgBank / 2 * 2 + 1) := by
  unfold Mmc1.prgPage
  split
  case h_1 h => rw [if_pos h]
  case h_2 h => rw [if_neg (by omega : ¬ r.prgMode = 2), if_pos h]
  case h_3 h2 h3 => rw [if_neg h2, if_neg h3]

/-- Settles O47, from the equations of the two windows and R61's table. -/
theorem cartridgeWindows : Obligations.CartridgeWindows := by
  intro s base a d page
  refine ⟨fun hregs ha => ⟨?mapper0Read, ?mapper0Write⟩, fun r hregs ha => ?mapper1, fun hlow hhigh hpresent =>
    ⟨busRead_prgRam hlow hhigh hpresent, busWrite_prgRam hlow hhigh hpresent base d,
      fun hwf => peek_busWrite_prgRam hlow hhigh hpresent hwf base d⟩⟩
  case mapper0Read => rw [busRead_rom ha, hregs, prgIndex, Nat.mul_comm]
  case mapper0Write =>
    rw [busWrite_rom base ha, hregs, MapperRegs.write, ← hregs]
    rfl
  case mapper1 =>
    have hread : busRead a s = (page (r.prgPage s.image.nPrg a.toNat % s.image.nPrg), s) := by
      rw [busRead_rom ha, hregs, prgIndex, Nat.mul_comm]
    rw [hread, Mmc1.prgPage_eq, Mmc1.prgMode_eq]
    refine ⟨fun hmode => ?_, fun hmode => ?_, fun hmode => ?_⟩
    · rw [if_neg (by omega), if_neg (by omega)]; rfl
    · rw [if_pos hmode]; rfl
    · rw [if_neg (by omega), if_pos hmode]; rfl

/-! ## Mapper 1's serial load -/

/-- A register write on mapper 1 changes its registers alone (R58). -/
theorem busWrite_setMmc1 (base : Nat) {a : Word} (h : 0x8000 ≤ a.toNat) (d : Byte) (s : State) (r : Mmc1) :
    busWrite base a d (s.setMmc1 r) = s.setMmc1 (r.write a.toNat d) :=
  busWrite_rom base h d (s.setMmc1 r)

theorem State.setMmc1_self {s : State} {r : Mmc1} (h : s.mapper.regs = .mapper1 r) : s.setMmc1 r = s := by
  rw [State.setMmc1, ← h]; rfl

/-- A bit shifted in moves the others down by one (R58). -/
theorem Mmc1.shiftIn_toNat (d : Byte) (r : Mmc1) : (r.shiftIn d).toNat = r.sr.toNat / 2 + 16 * (d.toNat % 2) := by
  have hsr := r.sr.isLt
  have hbit : (d.getLsbD 0).toNat = d.toNat % 2 := by rw [getLsbD_toNat, Nat.pow_zero, Nat.div_one]
  have htop : (BitVec.ofNat 5 (d.toNat % 2) <<< 4).toNat = 2 ^ 4 * (d.toNat % 2) := by
    simp only [BitVec.toNat_shiftLeft, BitVec.toNat_ofNat, Nat.shiftLeft_eq]
    omega
  have hlow : (r.sr >>> 1).toNat = r.sr.toNat / 2 := BitVec.toNat_ushiftRight ..
  rw [Mmc1.shiftIn, hbit, BitVec.toNat_or, htop, hlow, Nat.or_comm, ← Nat.two_pow_add_eq_or_of_lt (by omega), Nat.add_comm]

/-- The model's choice of the register by address ranges is R59's, by address bits 14 and 13. -/
theorem Mmc1.load_eq_loaded {a : Nat} (hlow : 0x8000 ≤ a) (hhigh : a < 0x10000) (v : BitVec 5) (r : Mmc1) :
    { r.load a v with sr := 0x10 } = r.loaded a v := by
  have hbits : a / 0x2000 = 4 ∨ a / 0x2000 = 5 ∨ a / 0x2000 = 6 ∨ a / 0x2000 = 7 := by omega
  unfold Mmc1.load Mmc1.loaded
  rcases hbits with h | h | h | h <;> rw [h]
  · rw [if_pos (by omega)]; rfl
  · rw [if_neg (by omega), if_pos (by omega)]; rfl
  · rw [if_neg (by omega), if_neg (by omega), if_pos (by omega)]; rfl
  · rw [if_neg (by omega), if_neg (by omega), if_neg (by omega)]; rfl

/-- A load puts the sentinel back, whatever the shift register held. -/
theorem Mmc1.loaded_withSr (r : Mmc1) (q : BitVec 5) (a : Nat) (v : BitVec 5) : { r with sr := q }.loaded a v = r.loaded a v := by
  unfold Mmc1.loaded
  split <;> rfl

theorem Mmc1.write_reset {d : Byte} (hd : d.getLsbD 7 = true) (a : Nat) (r : Mmc1) :
    r.write a d = { r with sr := 0x10, control := 0x0C } := if_pos hd

theorem Mmc1.write_serial {a : Nat} (hlow : 0x8000 ≤ a) (hhigh : a < 0x10000) {d : Byte} (hd : d.getLsbD 7 = false) (r : Mmc1) :
    r.write a d = if r.sr.getLsbD 0 then r.loaded a (r.shiftIn d) else { r with sr := r.shiftIn d } := by
  rw [Mmc1.write, hd, Mmc1.load_eq_loaded hlow hhigh]
  rfl

/-- The shift register `q` holds `k` bits, their value `v`, first-written lowest, above the sentinel in bit `4 - k` (R58). -/
def Collected (k v : Nat) (q : BitVec 5) : Prop := q.toNat = 2 ^ (4 - k) * (1 + 2 * v)

/-- Only a fourth collected bit brings the sentinel to bit 0. -/
theorem Collected.sentinel {k v : Nat} {q : BitVec 5} (hk : k ≤ 4) (h : Collected k v q) : q.getLsbD 0 = decide (k = 4) := by
  rw [BitVec.getLsbD, h, Nat.testBit_zero]
  congr 1
  rcases Nat.lt_or_eq_of_le hk with hlt | rfl
  · obtain ⟨j, hj⟩ : ∃ j, 4 - k = j + 1 := ⟨3 - k, by omega⟩
    rw [hj, Nat.pow_succ, Nat.mul_assoc, Nat.mul_left_comm, Nat.mul_mod_right]
    simp [Nat.ne_of_lt hlt]
  · simp

section
variable {k v a : Nat} {d : Byte} {r : Mmc1} (hlow : 0x8000 ≤ a) (hhigh : a < 0x10000) (hd : d.getLsbD 7 = false)
include hlow hhigh hd

/-- Each of the first four writes collects its bit and does nothing else (R58). -/
theorem Collected.write (hk : k < 4) (h : Collected k v r.sr) :
    ∃ q, r.write a d = { r with sr := q } ∧ Collected (k + 1) (v + 2 ^ k * (d.toNat % 2)) q := by
  have hs := h.sentinel (by omega)
  refine ⟨r.shiftIn d, ?_, ?_⟩
  · rw [Mmc1.write_serial hlow hhigh hd, hs, if_neg (by simp; omega)]
  · have hone : 2 ^ (4 - k) = 2 * 2 ^ (3 - k) := by rw [← Nat.pow_succ']; congr 1; omega
    have hall : 2 ^ (3 - k) * 2 ^ k = 8 := by rw [← Nat.pow_add, show 3 - k + k = 3 by omega]
    unfold Collected at h ⊢
    rw [Mmc1.shiftIn_toNat, h, hone, Nat.mul_assoc, Nat.mul_div_cancel_left _ (by decide), show 4 - (k + 1) = 3 - k by omega]
    calc 2 ^ (3 - k) * (1 + 2 * v) + 16 * (d.toNat % 2)
        = 2 ^ (3 - k) * (1 + 2 * v) + 2 * (2 ^ (3 - k) * 2 ^ k) * (d.toNat % 2) := by rw [hall]
      _ = 2 ^ (3 - k) * (1 + 2 * (v + 2 ^ k * (d.toNat % 2))) := by
        simp only [Nat.mul_add, Nat.mul_one, Nat.mul_assoc, Nat.mul_left_comm 2, Nat.add_assoc]

/-- The fifth write loads the five bits (R58, R59). -/
theorem Collected.write_commits (h : Collected 4 v r.sr) :
    r.write a d = r.loaded a (BitVec.ofNat 5 (v + 2 ^ 4 * (d.toNat % 2))) := by
  have hq : r.shiftIn d = BitVec.ofNat 5 (v + 2 ^ 4 * (d.toNat % 2)) := by
    have hlt := (r.shiftIn d).isLt
    apply BitVec.eq_of_toNat_eq
    unfold Collected at h
    rw [Mmc1.shiftIn_toNat, h] at hlt ⊢
    rw [BitVec.toNat_ofNat]
    omega
  rw [Mmc1.write_serial hlow hhigh hd, h.sentinel (by decide), hq, if_pos (by decide)]

end

/-- Settles O48: a single write by `Mmc1.write_reset` and `Mmc1.write_serial`, five by what the shift register has collected after each. -/
theorem mapperOneLoadsSerially : Obligations.MapperOneLoadsSerially := by
  intro s r base hregs
  rw [← State.setMmc1_self hregs]
  refine ⟨fun a d ha hd => ?reset, fun a d ha hd => ⟨r.shiftIn d, Mmc1.shiftIn_toNat d r, ?serial⟩,
    fun a0 a1 a2 a3 a4 d0 d1 d2 d3 d4 hsr ha hd => ?five⟩
  case reset => rw [busWrite_setMmc1 base ha, Mmc1.write_reset hd]; rfl
  case serial => rw [busWrite_setMmc1 base ha, Mmc1.write_serial ha a.isLt hd]; rfl
  case five =>
    simp only [List.forall_mem_cons] at ha hd
    obtain ⟨ha0, ha1, ha2, ha3, ha4, -⟩ := ha
    obtain ⟨hd0, hd1, hd2, hd3, hd4, -⟩ := hd
    have h0 : Collected 0 0 r.sr := by rw [hsr]; rfl
    obtain ⟨q1, e1, h1⟩ := h0.write ha0 a0.isLt hd0 (by decide)
    obtain ⟨q2, e2, h2⟩ := Collected.write (r := { r with sr := q1 }) ha1 a1.isLt hd1 (by decide) h1
    obtain ⟨q3, e3, h3⟩ := Collected.write (r := { r with sr := q2 }) ha2 a2.isLt hd2 (by decide) h2
    obtain ⟨q4, e4, h4⟩ := Collected.write (r := { r with sr := q3 }) ha3 a3.isLt hd3 (by decide) h3
    have e5 := Collected.write_commits (r := { r with sr := q4 }) ha4 a4.isLt hd4 h4
    rw [busWrite_setMmc1 base ha0, e1, busWrite_setMmc1 base ha1, e2, busWrite_setMmc1 base ha2, e3, busWrite_setMmc1 base ha3, e4,
      busWrite_setMmc1 base ha4, e5, Mmc1.loaded_withSr, Nat.zero_add, Nat.pow_zero, Nat.one_mul]
    rfl

/-! ## Loading an image file -/

theorem getLsbD_eq_decide (b : Byte) (i : Nat) : b.getLsbD i = decide (b.toNat / 2 ^ i % 2 = 1) :=
  Nat.testBit_eq_decide_div_mod_eq

theorem trainerLength_eq (b6 : Byte) : trainerLength b6 = if b6.toNat / 4 % 2 = 1 then 512 else 0 := by
  simp only [trainerLength, getLsbD_eq_decide, decide_eq_true_eq, Nat.reducePow]

theorem headerMirroring_eq (b6 : Byte) :
    headerMirroring b6 = if b6.toNat / 8 % 2 = 1 then .fourScreen else if b6.toNat % 2 = 1 then .vertical else .horizontal := by
  simp only [headerMirroring, getLsbD_eq_decide, decide_eq_true_eq, Nat.reducePow, Nat.div_one]

/-- The mapper id joins the two high nybbles (R48). -/
theorem mapperId_eq (b6 b7 : Byte) : mapperId b6 b7 = b7.toNat / 16 * 16 + b6.toNat / 16 := by
  have h6 := b6.isLt
  have hhigh : (b7 &&& 0xF0#8).toNat = 2 ^ 4 * (b7.toNat / 16) := by revert b7; decide
  have hlow : (b6 >>> 4).toNat = b6.toNat / 16 := by rw [BitVec.toNat_ushiftRight, Nat.shiftRight_eq_div_pow]
  rw [mapperId, BitVec.toNat_or, hhigh, hlow, ← Nat.two_pow_add_eq_or_of_lt (by omega), Nat.mul_comm]

/-- Which mapper an id selects (R48): two ids do. -/
theorem mapperOf_cases (id : Nat) :
    (id = 0 ∧ mapperOf id = .ok .mapper0) ∨ (id = 1 ∧ mapperOf id = .ok (.mapper1 .reset)) ∨
    (2 ≤ id ∧ mapperOf id = .error (.unsupportedMapper id)) := by
  match id with
  | 0 => exact .inl ⟨rfl, rfl⟩
  | 1 => exact .inr (.inl ⟨rfl, rfl⟩)
  | k + 2 => exact .inr (.inr ⟨by omega, rfl⟩)

theorem mapperOf_ok {id : Nat} {regs : MapperRegs} (h : mapperOf id = .ok regs) :
    (id = 0 ∧ regs = .mapper0) ∨ (id = 1 ∧ regs = .mapper1 .reset) := by
  rcases mapperOf_cases id with ⟨hid, h'⟩ | ⟨hid, h'⟩ | ⟨-, h'⟩ <;> cases h.symm.trans h'
  · exact .inl ⟨hid, rfl⟩
  · exact .inr ⟨hid, rfl⟩

/-- The file begins with the signature (R45). -/
def Signed (file : List Byte) : Prop :=
  (file.getD 0 0).toNat = 0x4E ∧ (file.getD 1 0).toNat = 0x45 ∧ (file.getD 2 0).toNat = 0x53 ∧ (file.getD 3 0).toNat = 0x1A

theorem signed_iff (file : List Byte) : Signed file ↔ file.take 4 = [0x4E, 0x45, 0x53, 0x1A] := by
  match file with
  | [] | [_] | [_, _] | [_, _, _] => simp [Signed]
  | b0 :: b1 :: b2 :: b3 :: rest => simp [Signed, ← BitVec.toNat_inj]

section
variable (file : List Byte)

/-- The mapper id a file's header gives (R48). -/
def headerMapper : Nat := mapperId (file.getD 6 0) (file.getD 7 0)

/-- Where a file's PRG-ROM begins (R46). -/
def prgStart : Nat := 16 + trainerLength (file.getD 6 0)

/-- Where a file's CHR-ROM begins (R46). -/
def chrStart : Nat := prgStart file + 0x4000 * (file.getD 4 0).toNat

/-- The length a file must have (R46). -/
def imageEnd : Nat := chrStart file + 0x2000 * (file.getD 5 0).toNat

/-- The image a file holds (R45 to R47, R50). -/
def fileImage (present : Option Bool) : Image :=
  buildImage (file.getD 4 0).toNat (file.getD 5 0).toNat (file.getD 6 0) present (file.drop 16)

/-- Everything a check of the file can answer, each answer with what it implies (R45 to R48); in which order the model looks is not
said (log entry 16). -/
inductive ParseCase (present : Option Bool) : Except LoadError (Image × MapperRegs) → Prop
  | badSignature (h : ¬ Signed file) : ParseCase present (.error .badSignature)
  | noPrg (h : (file.getD 4 0).toNat = 0) : ParseCase present (.error .noPrg)
  | unsupportedMapper (h : 2 ≤ headerMapper file) : ParseCase present (.error (.unsupportedMapper (headerMapper file)))
  | truncated (h : file.length < imageEnd file) : ParseCase present (.error .truncated)
  | accepted (regs : MapperRegs) (hsigned : Signed file) (hprg : (file.getD 4 0).toNat ≠ 0)
      (hregs : mapperOf (headerMapper file) = .ok regs) (hlength : imageEnd file ≤ file.length) :
      ParseCase present (.ok (fileImage file present, regs))

theorem parseImage_case (present : Option Bool) : ParseCase file present (parseImage present file) := by
  unfold parseImage
  split
  case isTrue h => exact .badSignature fun hs => h ((signed_iff file).mp hs)
  case isFalse hsigned =>
    split
    case isTrue h => exact .truncated (by simp only [imageEnd, chrStart, prgStart]; omega)
    case isFalse =>
      dsimp only
      split
      case isTrue h => exact .noPrg h
      case isFalse hprg =>
        split
        case h_1 e he =>
          rcases mapperOf_cases (headerMapper file) with ⟨-, h⟩ | ⟨-, h⟩ | ⟨hid, h⟩ <;> cases he.symm.trans h
          exact .unsupportedMapper hid
        case h_2 regs hregs =>
          split
          case isTrue h => exact .truncated h
          case isFalse h => exact .accepted regs ((signed_iff file).mpr (Decidable.not_not.mp hsigned)) hprg hregs (Nat.not_lt.mp h)

end

/-- Byte `k` of a region of a file, read from the memory it was placed in (R46). -/
theorem read_ofBytesFrom_region (bs : List Byte) (at' : Nat) {len k : Nat} (h : k < len) :
    (Memory.ofBytesFrom 0 ((bs.drop at').take len)).read k = bs.getD (at' + k) 0 := by
  have hread := Memory.read_ofBytesFrom 0 ((bs.drop at').take len) k
  rw [Nat.zero_add] at hread
  rw [hread, List.getD_eq_getElem?_getD, List.getElem?_take_of_lt h, List.getElem?_drop, List.getD_eq_getElem?_getD]
  rfl

section
variable (file : List Byte) (present : Option Bool) {k : Nat}

theorem fileImage_prgRom (h : k < 0x4000 * (file.getD 4 0).toNat) :
    (fileImage file present).prgRom.read k = file.getD (prgStart file + k) 0 := by
  simp only [fileImage, buildImage, List.drop_drop]
  exact read_ofBytesFrom_region file (prgStart file) h

theorem fileImage_chrRom (h : k < 0x2000 * (file.getD 5 0).toNat) :
    (fileImage file present).chrRom.read k = file.getD (chrStart file + k) 0 := by
  simp only [fileImage, buildImage, List.drop_drop]
  exact read_ofBytesFrom_region file (chrStart file) h

theorem fileImage_prgRamPresent :
    (fileImage file present).prgRamPresent = present.getD (decide ((file.getD 6 0).toNat / 2 % 2 = 1)) := by
  rw [← Nat.pow_one 2, ← getLsbD_eq_decide]; rfl

end

@[simp] theorem powerOn_image (img : Image) (regs : MapperRegs) (l : LaunchParams) : (powerOn img regs l).image = img := by
  rw [powerOn_eq]; rfl

@[simp] theorem powerOn_mapper_regs (img : Image) (regs : MapperRegs) (l : LaunchParams) :
    (powerOn img regs l).mapper.regs = regs := by
  rw [powerOn_eq]; rfl

section
variable {l : LaunchParams} {file : List Byte}

/-- A refusal is one the check of the file answers (R49). -/
theorem parseCase_of_load_error {e : LoadError} (h : load l file = .error e) : ParseCase file l.prgRamPresent (.error e) := by
  have hcase := parseImage_case file l.prgRamPresent
  unfold load at h
  split at h
  case h_1 e' hp => cases h; rwa [hp] at hcase
  case h_2 => cases h

/-- A load answers the power-on state of what the check of the file accepts (R222). -/
theorem parseCase_of_load_ok {s : State} (h : load l file = .ok s) :
    ∃ img regs, ParseCase file l.prgRamPresent (.ok (img, regs)) ∧ s = powerOn img regs l := by
  have hcase := parseImage_case file l.prgRamPresent
  unfold load at h
  split at h
  case h_1 => cases h
  case h_2 img regs hp => cases h; exact ⟨img, regs, hp ▸ hcase, rfl⟩

end

/-- Settles O41: each clause reads off `ParseCase` what the answer the load gave implies. -/
theorem loadChecksAndReadsImage : Obligations.LoadChecksAndReadsImage := by
  intro l file b signed id start size
  have hid : headerMapper file = id := mapperId_eq ..
  have hstart : prgStart file = start := congrArg (16 + ·) (trainerLength_eq _)
  have hchr : chrStart file = start + 0x4000 * b 4 := congrArg (· + 0x4000 * b 4) hstart
  have hsize : imageEnd file = size := congrArg (· + 0x2000 * b 5) hchr
  refine ⟨⟨?accepted, ?loads⟩, fun h => ?badSignature, fun h => ?noPrg, fun h => ?truncated,
    fun k h => ?unsupported, fun s h => ?image⟩
  case accepted =>
    rintro ⟨s, h⟩
    obtain ⟨img, regs, hcase, -⟩ := parseCase_of_load_ok h
    cases hcase with
    | accepted _ hsigned hprg hregs hlength =>
      have hlt : id < 2 := by rcases mapperOf_ok hregs with ⟨h, -⟩ | ⟨h, -⟩ <;> omega
      exact ⟨hsigned, hprg, hlt, hsize ▸ hlength⟩
  case loads =>
    rintro ⟨hsigned, hprg, hlt, hlength⟩
    cases h : load l file with
    | ok s => exact ⟨s, rfl⟩
    | error e =>
      cases parseCase_of_load_error h with
      | badSignature hn => exact absurd hsigned hn
      | noPrg hn => exact absurd hn hprg
      | unsupportedMapper hn => omega
      | truncated hn => omega
  case badSignature => cases parseCase_of_load_error h with | badSignature hn => exact hn
  case noPrg => cases parseCase_of_load_error h with | noPrg hn => exact hn
  case truncated => cases parseCase_of_load_error h with | truncated hn => exact hsize ▸ hn
  case unsupported => cases parseCase_of_load_error h with | unsupportedMapper hn => exact ⟨hid, hid ▸ hn⟩
  case image =>
    obtain ⟨img, regs, hcase, rfl⟩ := parseCase_of_load_ok h
    rw [powerOn_image, powerOn_mapper_regs, ← hid, ← hchr, ← hstart]
    cases hcase with
    | accepted _ hsigned hprg hregs hlength =>
      refine ⟨rfl, rfl, fun k => fileImage_prgRom file _, fun k => fileImage_chrRom file _, headerMirroring_eq _,
        fileImage_prgRamPresent file _, ?_⟩
      rcases mapperOf_ok hregs with ⟨h0, rfl⟩ | ⟨h1, rfl⟩
      · exact .inl ⟨h0, rfl⟩
      · exact .inr ⟨h1, _, rfl⟩

end Sys2Proof.Machine
end

section
/-! PROOFS. The encoding (R65 to R71, R150): decoding and encoding agree, the bytes without an entry, the step that fetches one. -/

namespace Sys2Proof.Laws.RoundTrip

/-- Every instruction decodes back: the lemmas of the family, in the order of the constructors. -/
theorem statement (i : Instr) : Statement i :=
  i.casesOn
    ldaIndx ldaZp ldaImm ldaAbs ldaIndy ldaZpx ldaAbsy ldaAbsx ldxImm ldxZp ldxAbs ldxZpy ldxAbsy ldyImm ldyZp ldyAbs ldyZpx
    ldyAbsx staIndx staZp staAbs staIndy staZpx staAbsy staAbsx stxZp stxAbs stxZpy styZp styAbs styZpx tax tay tsx txa txs tya
    adcIndx adcZp adcImm adcAbs adcIndy adcZpx adcAbsy adcAbsx sbcIndx sbcZp sbcImm sbcAbs sbcIndy sbcZpx sbcAbsy sbcAbsx
    andIndx andZp andImm andAbs andIndy andZpx andAbsy andAbsx oraIndx oraZp oraImm oraAbs oraIndy oraZpx oraAbsy oraAbsx
    eorIndx eorZp eorImm eorAbs eorIndy eorZpx eorAbsy eorAbsx bitZp bitAbs cmpIndx cmpZp cmpImm cmpAbs cmpIndy cmpZpx cmpAbsy
    cmpAbsx cpxImm cpxZp cpxAbs cpyImm cpyZp cpyAbs incZp incAbs incZpx incAbsx decZp decAbs decZpx decAbsx inx iny dex dey
    aslZp aslAcc aslAbs aslZpx aslAbsx lsrZp lsrAcc lsrAbs lsrZpx lsrAbsx rolZp rolAcc rolAbs rolZpx rolAbsx rorZp rorAcc
    rorAbs rorZpx rorAbsx jmpAbs jmpInd jsr rts bcc bcs beq bmi bne bpl bvc bvs brk rti pha php pla plp clc sec cli sei cld sed
    clv nop

end Sys2Proof.Laws.RoundTrip

namespace Sys2Proof

/-! ## The length of an encoding -/

/-- A form has at most two operand bytes (R65). -/
theorem Form.operandBytes_le (f : Form) : f.operandBytes ≤ 2 := by
  cases f <;> simp [operandBytes]

/-- A completed form has taken its operand bytes and no others (R67). -/
theorem Form.length_of_complete {f : Form} {op : Byte} {bytes rest : List Byte} {i : Instr}
    (h : f.complete op bytes = .ok (i, rest)) : bytes.length = f.operandBytes + rest.length := by
  unfold complete at h
  split at h <;> cases h <;> simp only [operandBytes, List.length_cons] <;> omega

/-- Bytes that decode to an instruction begin with an opcode byte that has an entry, and its form takes what it needs (R66). -/
theorem decode_ok {bytes rest : List Byte} {i : Instr} (h : decode bytes = .ok (i, rest)) :
    ∃ op tl f, bytes = op :: tl ∧ opcodeForm op = some f ∧ f.complete op tl = .ok (i, rest) := by
  unfold decode at h
  split at h
  case h_1 => cases h
  case h_2 op tl =>
    split at h
    case h_1 => cases h
    case h_2 f hf => exact ⟨op, tl, f, rfl, hf, h⟩

/-- An instruction that decodes is encoded in one opcode byte and at most two operand bytes (R65). -/
theorem encode_length_of_decode {bytes rest : List Byte} {i : Instr} (h : decode bytes = .ok (i, rest)) :
    1 ≤ (encode i).length ∧ (encode i).length ≤ 3 := by
  have hbytes := congrArg List.length (Machine.decode_encodes bytes rest i h)
  obtain ⟨op, tl, f, rfl, -, hf⟩ := decode_ok h
  have htaken := Form.length_of_complete hf
  have hoperand := f.operandBytes_le
  simp only [List.length_cons, List.length_append] at hbytes
  omega

/-- Settles O29: an encoding decodes back by the family `RoundTrip`, and what decodes is an encoding by the rows of the table. -/
theorem decodeAndEncodeAgree : Obligations.DecodeAndEncodeAgree :=
  ⟨fun i rest hwf => Laws.RoundTrip.statement i hwf rest,
    fun bytes rest i h => ⟨Machine.decode_encodes bytes rest i h, encode_length_of_decode h⟩⟩

/-- Settles O31: each word is decoded by its opcode's row. -/
theorem decodingOfWrittenWords : Obligations.DecodingOfWrittenWords :=
  ⟨rfl, rfl, rfl, rfl, rfl, rfl, rfl, rfl, rfl, rfl, rfl, rfl, rfl⟩

/-! ## The bytes without an entry -/

/-- The look-up fails exactly where no row has the opcode (R66). -/
theorem findForm_eq_none_iff {op : Byte} {rows : List OpcodeRow} : findForm op rows = none ↔ ∀ r ∈ rows, r.op ≠ op := by
  induction rows with
  | nil => simp [findForm]
  | cons r rest ih =>
    by_cases h : r.op = op
    · simp [findForm, h]
    · simp [findForm, h, ih]

/-- The opcode bytes of the table's rows (R69). -/
def definedOpcodes : List Nat := opcodeTable.map fun r => r.op.toNat

theorem opcodeForm_eq_none_iff {op : Byte} : opcodeForm op = none ↔ op.toNat ∉ definedOpcodes := by
  simp [opcodeForm, findForm_eq_none_iff, definedOpcodes, BitVec.toNat_inj]

/-- A byte is refused as an invalid opcode exactly where it has no entry: a form that lacks operand bytes is refused as that. -/
theorem decode_eq_invalidOpcode_iff {op : Byte} {rest : List Byte} :
    decode (op :: rest) = .error (.invalidOpcode op) ↔ opcodeForm op = none := by
  refine ⟨fun h => ?_, fun h => decode_invalid h rest⟩
  unfold decode at h
  dsimp only at h
  split at h
  case h_1 hnone => exact hnone
  case h_2 f hf =>
    unfold Form.complete at h
    split at h <;> cases h

namespace Machine

set_option maxRecDepth 4000 in
/-- R70's list, byte for byte: in the order of the bytes, those that no row has. -/
theorem invalidOpcodes_eq_filter : invalidOpcodes = (List.range 256).filter fun n => !definedOpcodes.contains n := by
  decide

theorem mem_invalidOpcodes_iff {op : Byte} : op.toNat ∈ invalidOpcodes ↔ opcodeForm op = none := by
  rw [opcodeForm_eq_none_iff, invalidOpcodes_eq_filter]
  simp [op.isLt]

/-! ## The step that fetches one -/

/-- No step of a halted machine (R149); that it answers a fault is log entry 9. -/
theorem step_of_halted {s : State} {h : BadOpcode} (hs : s.cpu.halted = some h) : step s = .fault (.invalidOpcode h.op h.addr) := by
  unfold step cpuStep
  rw [hs]

/-- A fetch of a byte without an entry: the machine halted there, with the fetch's own read done and PC back at the byte (R150). -/
theorem runInstruction_of_none {s : State} (h : opcodeForm (peek s.cpu.pc s) = none) :
    runInstruction s = .next ((busRead s.cpu.pc s).2.halt { op := peek s.cpu.pc s, addr := s.cpu.pc }) := by
  have hform : opcodeForm (fetchByte s).1 = none := h
  unfold runInstruction
  dsimp only
  rw [hform]
  rfl

section
variable (a : Word) (s : State) (c : Cpu) (e : Env)

/-- What a read does to the picture unit does not depend on the CPU or on the environment's record (R31). -/
theorem busRead_ppu_withCpuEnv : (busRead a { s with cpu := c, env := e }).2.ppu = (busRead a s).2.ppu := by
  by_cases h2 : isPictureReg 2 a
  · rw [busRead_pictureReg h2, busRead_pictureReg h2]; rfl
  by_cases h7 : isPictureReg 7 a
  · rw [busRead_pictureReg h7, busRead_pictureReg h7]; rfl
  · rw [busRead_ppu_eq h2 h7, busRead_ppu_eq h2 h7]

/-- Nor does what it does to the ports. -/
theorem busRead_pads_withCpuEnv : (busRead a { s with cpu := c, env := e }).2.pads = (busRead a s).2.pads := by
  by_cases h6 : a = 0x4016
  · subst h6; rfl
  by_cases h7 : a = 0x4017
  · subst h7; rfl
  · rw [busRead_pads_eq h6 h7, busRead_pads_eq h6 h7]

end

/-- The machine a step leaves that fetched the byte at PC and found no entry for it (R150). -/
def State.haltedAtPc (s : State) : State :=
  (busRead s.cpu.pc (stepStart s)).2.halt { op := peek s.cpu.pc s, addr := s.cpu.pc }

theorem State.haltedAtPc_cpu (s : State) : s.haltedAtPc.cpu =
    { s.cpu with extra := 0, halted := some { op := peek s.cpu.pc s, addr := s.cpu.pc } } := by
  simp [haltedAtPc, halt, stepStart, clearExtra]

/-- The step that fetches a byte without an entry: it counts no cycle, so no device ticks (R150, R217). -/
theorem step_of_none {s : State} (hrun : s.cpu.halted = none) (hnmi : s.cpu.nmiPending = false) (hirq : irqTaken s = false)
    (hform : opcodeForm (peek s.cpu.pc s) = none) : step s = .next s.haltedAtPc := by
  have hpc : (stepStart s).cpu.pc = s.cpu.pc := by simp [stepStart]
  have hfetch : runInstruction (stepStart s) = .next s.haltedAtPc := by
    rw [runInstruction_of_none] <;> rw [hpc, peek_stepStart]
    · rfl
    · exact hform
  have hstep := step_run hrun hnmi hirq hfetch
  rw [s.haltedAtPc_cpu, Nat.sub_self] at hstep
  exact hstep

/-- Everything but the CPU after that step: what the fetch's own read left. -/
theorem State.haltedAtPc_frame (s : State) : MemFrame NoCell s s.haltedAtPc ∧ s.haltedAtPc.mapper = s.mapper ∧
    s.haltedAtPc.apu = s.apu ∧ s.haltedAtPc.ppu = (busRead s.cpu.pc s).2.ppu ∧
    s.haltedAtPc.pads = (busRead s.cpu.pc s).2.pads ∧ s.haltedAtPc.env.out = s.env.out ∧ LaunchFrame s s.haltedAtPc := by
  obtain ⟨e, hstart, -, hout⟩ := stepStart_eq s
  unfold haltedAtPc
  rw [hstart]
  refine ⟨fun cell _ => (busRead_byteAt _ _ cell).trans ?_, busRead_mapper .., busRead_apu .., busRead_ppu_withCpuEnv ..,
    busRead_pads_withCpuEnv .., (busRead_outputs ..).out.trans hout, busRead_image .., busRead_params ..⟩
  cases cell <;> rfl

/-- Settles O30: the list is that of the bytes no row has, and the machine such a fetch leaves is `haltedAtPc`. -/
theorem invalidOpcodeHalts : Obligations.InvalidOpcodeHalts := by
  refine ⟨fun op rest => mem_invalidOpcodes_iff.trans decode_eq_invalidOpcode_iff.symm, fun s hrun hnmi hirq hop => ?_⟩
  obtain ⟨hmem, hmapper, hapu, hppu, hpads, hout, hlaunch⟩ := s.haltedAtPc_frame
  exact ⟨s.haltedAtPc, step_of_none hrun hnmi hirq (mem_invalidOpcodes_iff.mp hop), s.haltedAtPc_cpu, hmem, hmapper, hapu, hppu,
    hpads, hout, hlaunch, step_of_halted (congrArg Cpu.halted s.haltedAtPc_cpu)⟩

end Machine

end Sys2Proof
end

section
/-! PROOFS. The addressing modes (R73 to R88): each mode's base address and index as numbers, and a step that fetches and runs one
instruction (R149, R217). -/

namespace Sys2Proof.Machine

/-! ## Effective addresses -/

/-- What `cross` compares, in numbers: the page is the address divided by 256 (R34). -/
theorem MemMode.cross_eq_true_iff (m : MemMode) (s : State) :
    m.cross s = true ↔ (m.base s).toNat / 256 ≠ (m.ea s).toNat / 256 := by
  rw [cross, bne_iff_ne, ne_eq, ← BitVec.toNat_inj, hiByte_toNat, hiByte_toNat]

/-- A mode indexes what its base address and its index are as numbers: the sum wraps at 16 bits (R81, R82, R85, R88). -/
theorem indexes_of_base_index {m : MemMode} {s : State} {base index : Nat} (hbase : (m.base s).toNat = base)
    (hindex : (m.index s).toNat = index) : Indexes m base index s := by
  have hea : (m.ea s).toNat = (base + index) % 0x10000 := by
    rw [MemMode.ea, BitVec.toNat_add, hbase, hindex]
  refine ⟨hea, ?_⟩
  have hcross := m.cross_eq_true_iff s
  rw [hbase, hea] at hcross
  simp only [ValueMode.penalty, hcross, ite_not]

/-- A zero-page sum wraps inside the zero page (R78, R79, R84). -/
theorem zext16_add_toNat (b c : Byte) : (zext16 (b + c)).toNat = (b.toNat + c.toNat) % 256 := by
  rw [zext16_toNat, BitVec.toNat_add]

/-- The zero page is the first page of CPU RAM (R28, R43). -/
theorem peek_zeroPage (b : Byte) (s : State) : peek (zext16 b) s = s.ram.read b.toNat := by
  have hb := b.isLt
  have ha := zext16_toNat b
  rw [peek_ram (by omega), ha, Nat.mod_eq_of_lt (by omega)]

theorem zpPointer_toNat (b : Byte) (s : State) : (zpPointer b s).toNat = zeroPagePointer s b.toNat := by
  rw [zpPointer, mkWord_toNat, peek_zeroPage, peek_zeroPage, BitVec.toNat_add]
  rfl

theorem zpPointer_add_toNat (b c : Byte) (s : State) :
    (zpPointer (b + c) s).toNat = zeroPagePointer s ((b.toNat + c.toNat) % 256) := by
  rw [zpPointer_toNat, BitVec.toNat_add]

/-- Settles O32: each mode's base address and index, read off as numbers. -/
theorem effectiveAddresses : Obligations.EffectiveAddresses := by
  intro s b w
  have hx := zext16_toNat s.cpu.x
  have hy := zext16_toNat s.cpu.y
  refine ⟨?zp, ?zpx, ?zpy, ?abs, ?absx, ?absy, ?indx, ?indy⟩
  case zp => exact indexes_of_base_index (zext16_toNat b) rfl
  case zpx => exact indexes_of_base_index (zext16_add_toNat b s.cpu.x) rfl
  case zpy => exact indexes_of_base_index (zext16_add_toNat b s.cpu.y) rfl
  case abs => exact indexes_of_base_index rfl rfl
  case absx => exact indexes_of_base_index rfl hx
  case absy => exact indexes_of_base_index rfl hy
  case indx => exact indexes_of_base_index (zpPointer_add_toNat b s.cpu.x s) rfl
  case indy => exact indexes_of_base_index (zpPointer_toNat b s) hy

/-! ## The step that fetches and runs an instruction -/

theorem stepStart_cpu (s : State) : (stepStart s).cpu = { s.cpu with extra := 0 } := by
  obtain ⟨e, hstart, -⟩ := stepStart_eq s
  rw [hstart]

/-- Fetched at the start of a step from where a read has no effect, the bytes are those at PC and only PC moves (R73). -/
theorem fetchBytes_stepStart_plain {n : Nat} {s : State}
    (h : ∀ k < n, (s.cpu.pc + BitVec.ofNat 16 k).toNat < 0x2000 ∨ 0x4018 ≤ (s.cpu.pc + BitVec.ofNat 16 k).toNat) :
    fetchBytes n (stepStart s) = ((List.range n).map fun k => peek (s.cpu.pc + BitVec.ofNat 16 k) s,
      (stepStart s).setPc (s.cpu.pc + BitVec.ofNat 16 n)) := by
  have hpc : (stepStart s).cpu.pc = s.cpu.pc := by rw [stepStart_cpu]
  rw [fetchBytes_plain n _ (by rwa [hpc]), hpc]
  simp only [peek_stepStart]

/-- Settles O33: the fetch is `fetchBytes`, and the step runs what it decodes to, which answers a next state (`exec_retires`). -/
theorem stepRunsDecodedInstruction : Obligations.StepRunsDecodedInstruction := by
  intro s i hrun hnmi hirq n f hdecode
  refine ⟨?cpu, fetchBytes_stepStart_plain, ?runs⟩
  case cpu => exact (fetchBytes_cpu n (stepStart s)).trans (by rw [stepStart_cpu])
  case runs =>
    obtain ⟨u, base, hexec, -⟩ := exec_retires i f.2
    exact ⟨u.retire base, hexec, step_run hrun hnmi hirq ((runInstruction_eq hdecode).trans hexec)⟩

end Sys2Proof.Machine
end

section
/-! PROOFS. Loads, stores and transfers (R90 to R101), and that every instruction completes (R89, R151). A register is written by
`State.setReg`, which is the model's setter of that register; what each update of the CPU leaves alone is said once. -/

namespace Sys2Proof.Machine

/-! ## A register's update, by the register's name -/

/-- `v` in register `r`. -/
def Cpu.setReg (r : Reg) (v : Byte) (c : Cpu) : Cpu :=
  { c with
    a := if r = .a then v else c.a
    x := if r = .x then v else c.x
    y := if r = .y then v else c.y
    sp := if r = .sp then v else c.sp }

/-- `v` in register `r`: the model's `setA`, `setX`, `setY` or `setSp` (`setReg_eq`). -/
def State.setReg (r : Reg) (v : Byte) (s : State) : State := { s with cpu := s.cpu.setReg r v }

theorem State.setReg_eq :
    setReg .a = setA ∧ setReg .x = setX ∧ setReg .y = setY ∧ setReg .sp = setSp := ⟨rfl, rfl, rfl, rfl⟩

@[simp] theorem State.reg_setReg_self (r : Reg) (v : Byte) (s : State) : (s.setReg r v).reg r = v := by
  cases r <;> rfl

theorem State.reg_setReg_ne {r q : Reg} (h : q ≠ r) (v : Byte) (s : State) : (s.setReg r v).reg q = s.reg q := by
  cases q <;> exact if_neg h.symm

/-! ## Z and N -/

/-- `SetZN` in numbers: bit 7 is set from 128 on (R17). -/
theorem znOf_of_flags {r : Byte} {f : Flags} {t : State} (h : t.cpu.flags = f.setZN r) : ZnOf r t := by
  have hneg : r.getLsbD 7 = decide (128 ≤ r.toNat) := (BitVec.msb_eq_getLsbD_last r).symm.trans (BitVec.msb_eq_decide r)
  rw [ZnOf, h]
  exact ⟨rfl, hneg⟩

/-! ## What the updates that end a meaning leave of the CPU -/

section
variable {regs : List Reg} {flags : List Flag} {s t : State}

/-- Nothing of the CPU but what the frame does not speak of (PC, the counters, the NMI latch) has changed. -/
theorem CpuFrame.of_cpu (ha : t.cpu.a = s.cpu.a) (hx : t.cpu.x = s.cpu.x) (hy : t.cpu.y = s.cpu.y) (hsp : t.cpu.sp = s.cpu.sp)
    (hflags : t.cpu.flags = s.cpu.flags) (hhalted : t.cpu.halted = s.cpu.halted) : CpuFrame regs flags s t := by
  refine ⟨fun r _ => ?_, fun f _ => ?_, hhalted⟩
  · cases r <;> assumption
  · cases f <;> simp only [State.flag, hflags]

theorem CpuFrame.setReg (h : CpuFrame regs flags s t) {r : Reg} (hr : r ∈ regs) (v : Byte) :
    CpuFrame regs flags s (t.setReg r v) := by
  obtain ⟨hregs, hflags, hhalted⟩ := h
  refine ⟨fun q hq => ?_, hflags, hhalted⟩
  rw [State.reg_setReg_ne fun (e : q = r) => hq (e ▸ hr)]
  exact hregs q hq

theorem CpuFrame.setZN (h : CpuFrame regs flags s t) (hz : .z ∈ flags) (hn : .n ∈ flags) (v : Byte) :
    CpuFrame regs flags s (t.setZN v) := by
  obtain ⟨hregs, hflags, hhalted⟩ := h
  refine ⟨hregs, fun f hf => ?_, hhalted⟩
  cases f
  case z => exact absurd hz hf
  case n => exact absurd hn hf
  all_goals exact hflags _ hf

theorem CpuFrame.retire (h : CpuFrame regs flags s t) (n : Nat) : CpuFrame regs flags s (t.retire n) := h

end

/-! ## One form of each kind -/

section
variable {i : Instr} {op : Byte} {base : Nat} {s : State}

/-- A form whose meaning is a load into `r` (R90 to R92). -/
theorem loads_of_exec {r : Reg} {m : ValueMode} (hencode : encode i = op :: m.operandBytes)
    (hexec : exec i s = loadReg (State.setReg r) m base s) : Loads r m i op base s := by
  refine ⟨hencode, _, hexec.trans (loadReg_eq ..), State.reg_setReg_self .., znOf_of_flags rfl, ?frame⟩
  have hread : CpuFrame [r] [.z, .n] s { m.after s with cpu := { s.cpu with extra := s.cpu.extra + m.penalty s } } :=
    .of_cpu rfl rfl rfl rfl rfl rfl
  exact readsOnly_intro (((hread.setReg (by simp) _).setZN (by simp) (by simp) _).retire base) rfl rfl rfl rfl

/-- A form whose meaning is one write of `r` to the effective address (R93 to R95). -/
theorem stores_of_exec {r : Reg} {m : MemMode} (hencode : encode i = op :: m.operandBytes)
    (hexec : exec i s = .next ((busWrite base (m.ea s) (s.reg r) s).retire base)) : Stores r m i op base s :=
  ⟨hencode, _, hexec, storesByte_intro rfl rfl (fun _ => rfl) (busWrite_cpuFrame ..)⟩

/-- A form whose meaning copies `src` to `dst` and performs `SetZN` (R96 to R99, R101). -/
theorem transfers_of_exec {src dst : Reg} (hencode : encode i = [op])
    (hexec : exec i s = .next (((s.setReg dst (s.reg src)).setZN (s.reg src)).retire 2)) : Transfers src dst i op s := by
  refine ⟨hencode, _, hexec, State.reg_setReg_self .., znOf_of_flags rfl, rfl, ?frame⟩
  have hsame : CpuFrame [dst] [.z, .n] s s := .of_cpu rfl rfl rfl rfl rfl rfl
  exact registersOnly_intro (((hsame.setReg (by simp) _).setZN (by simp) (by simp) _).retire 2) rfl rfl rfl

end

/-- TXS writes SP and no flag (R100). -/
theorem execTxs_frame (s : State) : RegistersOnly [.sp] [] 2 s ((s.setSp s.cpu.x).retire 2) := by
  have hsame : CpuFrame [.sp] [] s s := .of_cpu rfl rfl rfl rfl rfl rfl
  exact registersOnly_intro ((hsame.setReg (r := .sp) (by simp) s.cpu.x).retire 2) rfl rfl rfl

/-! ## The statements -/

/-- Settles O28: every meaning retires (`exec_retires`), what retires has counted, and every instruction keeps the launch
configuration (`closed_launch`). -/
theorem noInstructionStops : Obligations.NoInstructionStops := by
  intro i s
  obtain ⟨u, n, hexec, -⟩ := exec_retires i s
  obtain ⟨hhalted, hextra, hcycles⟩ := exec_next_counts hexec
  have hlaunch := (closed_launch s).exec i ⟨rfl, rfl⟩ hexec
  exact ⟨u.retire n, hexec, hhalted, hlaunch, hcycles, hextra⟩

/-- Settles O1: each form's meaning is a load of its register in its mode, at its base count. -/
theorem loadsSetRegisterAndZN : Obligations.LoadsSetRegisterAndZN := by
  intro s b w
  refine ⟨?_, ?_, ?_, ?_, ?_, ?_, ?_, ?_, ?_, ?_, ?_, ?_, ?_, ?_, ?_, ?_, ?_, ?_⟩ <;>
    exact loads_of_exec rfl rfl

/-- Settles O2: each form's meaning is one bus write of its register at its mode's effective address. -/
theorem storesWriteEffectiveAddress : Obligations.StoresWriteEffectiveAddress := by
  intro s b w
  refine ⟨?_, ?_, ?_, ?_, ?_, ?_, ?_, ?_, ?_, ?_, ?_, ?_, ?_⟩ <;> exact stores_of_exec rfl rfl

/-- Settles O3: five meanings copy a register and perform `SetZN`; TXS copies only. -/
theorem transfersCopyRegister : Obligations.TransfersCopyRegister := fun s =>
  ⟨transfers_of_exec rfl rfl, transfers_of_exec rfl rfl, transfers_of_exec rfl rfl, transfers_of_exec rfl rfl,
    transfers_of_exec rfl rfl, rfl, (s.setSp s.cpu.x).retire 2, rfl, rfl, rfl, execTxs_frame s⟩

end Sys2Proof.Machine
end

section
/-! PROOFS. Arithmetic, logic, compares and counts (R102 to R118). What each shared operation does is said once, for every form
whose meaning it is; the obligations say which form is which. -/

namespace Sys2Proof.Machine

/-! ## Bytes as numbers -/

/-- Bit 7 is set from 128 on. -/
theorem getLsbD_seven (r : Byte) : r.getLsbD 7 = decide (128 ≤ r.toNat) :=
  (BitVec.msb_eq_getLsbD_last r).symm.trans (BitVec.msb_eq_decide r)

/-- A byte read as a signed number: from 128 on, less 256. -/
theorem toInt_eq_ite (b : Byte) : b.toInt = if b.toNat < 128 then (b.toNat : Int) else b.toNat - 256 := by
  have h := BitVec.toInt_eq_toNat_cond b
  split at h <;> split <;> omega

/-- A one's complement (R105), as the statements write it. -/
theorem xor_ff_eq (m : Byte) : m ^^^ 0xFF = 255 - m :=
  BitVec.xor_allOnes.trans (BitVec.allOnes_sub_eq_not m).symm

theorem xor_ff_toNat (m : Byte) : (m ^^^ 0xFF).toNat = 255 - m.toNat :=
  (congrArg BitVec.toNat BitVec.xor_allOnes).trans BitVec.toNat_not

/-- A count, as a number before it wraps (R113, R114). -/
theorem add_ofNat_eq (b : Byte) (k : Nat) : b + BitVec.ofNat 8 k = BitVec.ofNat 8 (b.toNat + k) := by
  rw [BitVec.ofNat_add, BitVec.ofNat_toNat, BitVec.setWidth_eq]

/-- A difference mod 256 (R110). -/
theorem sub_eq_ofNat (r m : Byte) : r - m = BitVec.ofNat 8 (r.toNat + 256 - m.toNat) := by
  apply BitVec.eq_of_toNat_eq
  have hm := m.isLt
  rw [BitVec.toNat_sub, BitVec.toNat_ofNat]
  omega

/-! ## The sum of ADC, and its overflow -/

theorem adcResult_toNat (a m : Byte) (c : Bool) : (adcResult a m c).toNat = (a.toNat + m.toNat + c.toNat) % 256 :=
  BitVec.toNat_ofNat ..

/-- V in numbers: both inputs on one side of 128, the result on the other (R104). -/
theorem adcOverflow_eq (a m : Byte) (c : Bool) : adcOverflow a m c =
    decide ((a.toNat < 128 ↔ m.toNat < 128) ∧ ¬ (a.toNat < 128 ↔ (adcResult a m c).toNat < 128)) := by
  unfold adcOverflow
  rw [BitVec.getLsbD_and, BitVec.getLsbD_xor, BitVec.getLsbD_xor, getLsbD_seven, getLsbD_seven, getLsbD_seven, Bool.eq_iff_iff]
  simp only [Bool.and_eq_true, bne_iff_ne, ne_eq, decide_eq_decide, decide_eq_true_eq]
  omega

/-- V says that the exact signed sum does not fit in 8 bits. -/
theorem adcOverflow_eq_signed (a m : Byte) (c : Bool) :
    adcOverflow a m c = decide (a.toInt + m.toInt + c.toNat < -128 ∨ 127 < a.toInt + m.toInt + c.toNat) := by
  have ha := a.isLt
  have hm := m.isLt
  have hc := c.toNat_le
  rw [adcOverflow_eq, decide_eq_decide, adcResult_toNat, toInt_eq_ite, toInt_eq_ite]
  split <;> split <;> omega

/-- A result without overflow is the exact signed sum. -/
theorem adcResult_toInt {a m : Byte} {c : Bool} (h : adcOverflow a m c = false) :
    (adcResult a m c).toInt = a.toInt + m.toInt + c.toNat := by
  have ha := a.isLt
  have hm := m.isLt
  have hc := c.toNat_le
  rw [adcOverflow_eq, decide_eq_false_iff_not, adcResult_toNat] at h
  rw [toInt_eq_ite (adcResult a m c), toInt_eq_ite a, toInt_eq_ite m, adcResult_toNat]
  split <;> split <;> split <;> omega

/-- Adding the one's complement and C subtracts the operand and the borrow, as signed numbers (R105). -/
theorem add_toInt_xor_ff (a m : Byte) (c : Bool) :
    a.toInt + (m ^^^ 0xFF).toInt + c.toNat = a.toInt - m.toInt - (1 - c.toNat) := by
  have hm := m.isLt
  rw [toInt_eq_ite (m ^^^ 0xFF), toInt_eq_ite m, xor_ff_toNat]
  split <;> split <;> omega

/-- The sum of SBC leaves the byte where no borrow was needed (R105). -/
theorem lt_adcSum_xor_ff_iff (a m : Byte) (c : Bool) :
    0xFF < adcSum a (m ^^^ 0xFF) c ↔ m.toNat + (1 - c.toNat) ≤ a.toNat := by
  have hm := m.isLt
  have hc := c.toNat_le
  rw [adcSum, xor_ff_toNat]
  omega

/-! ## The flags an operation may write -/

section
variable {regs : List Reg} {flags : List Flag} {s t : State}

/-- New flags that differ from the old in the listed ones only. -/
theorem CpuFrame.setFlags (h : CpuFrame regs flags s t) {f : Flags} (hf : ∀ q ∉ flags, (t.setFlags f).flag q = t.flag q) :
    CpuFrame regs flags s (t.setFlags f) := by
  obtain ⟨hregs, hflags, hhalted⟩ := h
  exact ⟨hregs, fun q hq => (hf q hq).trans (hflags q hq), hhalted⟩

/-- ADC writes neither I nor D (R104). -/
theorem flag_setFlags_adc (a m : Byte) (t : State) :
    ∀ q ∉ [Flag.c, .z, .v, .n], (t.setFlags (t.cpu.flags.adc a m)).flag q = t.flag q := by
  intro q hq
  cases q
  case i | d => rfl
  all_goals exact absurd (by decide) hq

/-- A compare writes none of I, D and V (R110 to R112). -/
theorem flag_setFlags_compare (r m : Byte) (t : State) :
    ∀ q ∉ [Flag.c, .z, .n], (t.setFlags (t.cpu.flags.compare r m)).flag q = t.flag q := by
  intro q hq
  cases q
  case i | d | v => rfl
  all_goals exact absurd (by decide) hq

/-- BIT writes none of C, I and D (R109). -/
theorem flag_setFlags_bitTest (a m : Byte) (t : State) :
    ∀ q ∉ [Flag.z, .v, .n], (t.setFlags (t.cpu.flags.bitTest a m)).flag q = t.flag q := by
  intro q hq
  cases q
  case c | i | d => rfl
  all_goals exact absurd (by decide) hq

/-- Reading an operand changes no register and no flag. -/
theorem cpuFrame_readValue (m : ValueMode) (s : State) : CpuFrame regs flags s (readValue m s).2 := by
  rw [readValue_eq]
  exact .of_cpu rfl rfl rfl rfl rfl rfl

end

/-! ## One form of each kind -/

section
variable {i : Instr} {op : Byte} {base : Nat} {m : ValueMode} {mm : MemMode} {r : Reg} {s : State}

/-- A form that adds `v`, the operand after `g`, and C to A. -/
theorem addsToA_of_adcWith {g : Byte → Byte} {v : Byte} (hv : v = g (m.value s)) (hencode : encode i = op :: m.operandBytes)
    (hexec : exec i s = .next ((adcWith v (readValue m s).2).retire base)) : AddsToA g m i op base s := by
  subst hv
  have hframe : CpuFrame [.a] [.c, .z, .v, .n] s ((adcWith (g (m.value s)) (readValue m s).2).retire base) :=
    (((cpuFrame_readValue m s).setReg (r := .a) (by simp) _).setFlags (flag_setFlags_adc _ _ _)).retire base
  rw [readValue_eq] at hexec hframe
  exact ⟨hencode, _, hexec, adcResult_toNat .., rfl, adcOverflow_eq .., znOf_of_flags rfl,
    readsOnly_intro hframe rfl rfl rfl rfl⟩

/-- A form whose meaning is ADC (R104). -/
theorem addsToA_of_addOp (hencode : encode i = op :: m.operandBytes) (hexec : exec i s = addOp m base s) :
    AddsToA id m i op base s :=
  addsToA_of_adcWith (by rw [readValue_eq]; rfl) hencode hexec

/-- A form whose meaning is SBC (R105). -/
theorem addsToA_of_subOp (hencode : encode i = op :: m.operandBytes) (hexec : exec i s = subOp m base s) :
    AddsToA (255 - ·) m i op base s :=
  addsToA_of_adcWith (by rw [readValue_eq, xor_ff_eq]) hencode hexec

/-- A form whose meaning is AND, ORA or EOR (R106 to R108). -/
theorem combines_of_logicOp {f : Byte → Byte → Byte} (hencode : encode i = op :: m.operandBytes)
    (hexec : exec i s = logicOp f m base s) : Combines f m i op base s := by
  have hframe (v : Byte) : CpuFrame [.a] [.z, .n] s ((((readValue m s).2.setReg .a v).setZN v).retire base) :=
    (((cpuFrame_readValue m s).setReg (by simp) v).setZN (by simp) (by simp) v).retire base
  rw [readValue_eq] at hframe
  exact ⟨hencode, _, hexec.trans (logicOp_eq ..), rfl, znOf_of_flags rfl, readsOnly_intro (hframe _) rfl rfl rfl rfl⟩

/-- A form whose meaning is BIT (R109). -/
theorem testsBits_of_bitOp (hencode : encode i = op :: m.operandBytes) (hexec : exec i s = bitOp m base s) :
    TestsBits m i op base s := by
  have hframe := ((cpuFrame_readValue (regs := []) m s).setFlags (flag_setFlags_bitTest s.cpu.a (m.value s) _)).retire base
  rw [readValue_eq] at hframe
  exact ⟨hencode, _, hexec.trans (bitOp_eq ..), rfl, rfl, rfl, readsOnly_intro hframe rfl rfl rfl rfl⟩

/-- A form whose meaning is a compare of `r` (R110 to R112). -/
theorem compares_of_compareReg {get : Cpu → Byte} (hget : ∀ t : State, get t.cpu = t.reg r)
    (hencode : encode i = op :: m.operandBytes) (hexec : exec i s = compareReg get m base s) : Compares r m i op base s := by
  have hframe := ((cpuFrame_readValue (regs := []) m s).setFlags (flag_setFlags_compare (s.reg r) (m.value s) _)).retire base
  rw [readValue_eq] at hframe
  have hextra (n : Nat) : get { s.cpu with extra := n } = get s.cpu := by
    rw [hget s, hget { s with cpu := { s.cpu with extra := n } }]
    cases r <;> rfl
  have hanswer := hexec.trans (compareReg_eq get m base s hextra)
  rw [hget s] at hanswer
  refine ⟨hencode, _, hanswer, rfl, ?zn, readsOnly_intro hframe rfl rfl rfl rfl⟩
  rw [← sub_eq_ofNat]
  exact znOf_of_flags rfl

/-- A form whose meaning is INC or DEC, by a delta that is `k` mod 256 (R113, R114). -/
theorem countsMemory_of_modifyMem {k : Nat} (hencode : encode i = op :: mm.operandBytes)
    (hexec : exec i s = modifyMem (BitVec.ofNat 8 k) mm base s) : CountsMemory (· + k) mm i op base s := by
  refine ⟨hencode, _, hexec, ?_⟩
  dsimp only
  rw [peek, ← add_ofNat_eq]
  have hwrite (v : Byte) : CpuFrame [] [.z, .n] s (busWrite base (mm.ea s) v (busRead (mm.ea s) s).2) := by
    refine .of_cpu ?_ ?_ ?_ ?_ ?_ ?_ <;> simp
  exact ⟨znOf_of_flags rfl, storesByte_intro (busRead_cpu ..) (busRead_ram_eq ..) (busRead_byteAt _ _)
    (((hwrite _).setZN (by simp) (by simp) _).retire base)⟩

/-- A form whose meaning counts `r`, by a delta that is `k` mod 256 (R115 to R118). -/
theorem countsRegister_of_exec {k : Nat} (hencode : encode i = [op])
    (hexec : exec i s = .next (((s.setReg r (s.reg r + BitVec.ofNat 8 k)).setZN (s.reg r + BitVec.ofNat 8 k)).retire 2)) :
    CountsRegister r (· + k) i op s := by
  have hcount : (s.reg r + BitVec.ofNat 8 k).toNat = ((s.reg r).toNat + k) % 256 := by
    rw [add_ofNat_eq, BitVec.toNat_ofNat]
  have hsame : CpuFrame [r] [.z, .n] s s := .of_cpu rfl rfl rfl rfl rfl rfl
  have hreg (v : Byte) : (((s.setReg r v).setZN v).retire 2).reg r = v := State.reg_setReg_self ..
  refine ⟨hencode, _, hexec, ?_, ?_, rfl,
    registersOnly_intro (((hsame.setReg (by simp) _).setZN (by simp) (by simp) _).retire 2) rfl rfl rfl⟩
  · rw [hreg, hcount]
  · rw [hreg]
    exact znOf_of_flags rfl

end

/-- D is not looked at, and not written (R103). -/
theorem adcWith_setDecimal (v : Byte) (d : Bool) (s : State) : adcWith v (s.setFlags { s.cpu.flags with d := d })
    = (adcWith v s).setFlags { (adcWith v s).cpu.flags with d := d } := rfl

/-! ## The statements -/

/-- Settles O6: V is overflow of the signed sum (`adcOverflow_eq_signed`), and SBC's sum is the difference less the borrow
(`add_toInt_xor_ff`). -/
theorem overflowIsSignedOverflow : Obligations.OverflowIsSignedOverflow := by
  intro s v
  refine ⟨⟨_, rfl, adcOverflow_eq_signed .., adcResult_toInt⟩, _, rfl, ?overflow, fun h => ?exact, ?noBorrow⟩
  case overflow =>
    rw [← add_toInt_xor_ff]
    exact adcOverflow_eq_signed ..
  case exact =>
    rw [← add_toInt_xor_ff]
    exact adcResult_toInt h
  case noBorrow => exact decide_eq_decide.mpr (lt_adcSum_xor_ff_iff ..)

/-- Settles O4: each form's meaning is ADC of its mode, at its base count. -/
theorem adcAddsWithCarry : Obligations.AdcAddsWithCarry := by
  intro s b w
  refine ⟨?_, ?_, ?_, ?_, ?_, ?_, ?_, ?_⟩ <;> exact addsToA_of_addOp rfl rfl

/-- Settles O5: each form's meaning is SBC of its mode, at its base count. -/
theorem sbcSubtractsWithBorrow : Obligations.SbcSubtractsWithBorrow := by
  intro s b w
  refine ⟨?_, ?_, ?_, ?_, ?_, ?_, ?_, ?_⟩ <;> exact addsToA_of_subOp rfl rfl

/-- Settles O7: both meanings are `adcWith`, of the operand or of its one's complement. -/
theorem decimalFlagIgnored : Obligations.DecimalFlagIgnored := by
  rintro s d v i (rfl | rfl)
  case inl => exact ⟨_, rfl, congrArg (fun t : State => Host.Outcome.next (t.retire 2)) (adcWith_setDecimal v d s)⟩
  case inr => exact ⟨_, rfl, congrArg (fun t : State => Host.Outcome.next (t.retire 2)) (adcWith_setDecimal (v ^^^ 0xFF) d s)⟩

/-- Settles O8: each form's meaning is its operation of A and the operand, in its mode, at its base count. -/
theorem logicCombinesAccumulator : Obligations.LogicCombinesAccumulator := by
  intro s b w
  refine ⟨?_, ?_, ?_, ?_, ?_, ?_, ?_, ?_, ?_, ?_, ?_, ?_, ?_, ?_, ?_, ?_, ?_, ?_, ?_, ?_, ?_, ?_, ?_, ?_⟩ <;>
    exact combines_of_logicOp rfl rfl

/-- Settles O9: both meanings are BIT of their mode. -/
theorem bitTestsOperand : Obligations.BitTestsOperand := fun _ _ _ =>
  ⟨testsBits_of_bitOp rfl rfl, testsBits_of_bitOp rfl rfl⟩

/-- Settles O10: each form's meaning is a compare of its register, in its mode, at its base count. -/
theorem comparesSetCarryAndZN : Obligations.ComparesSetCarryAndZN := by
  intro s b w
  refine ⟨?_, ?_, ?_, ?_, ?_, ?_, ?_, ?_, ?_, ?_, ?_, ?_, ?_, ?_⟩ <;> exact compares_of_compareReg (fun _ => rfl) rfl rfl

/-- Settles O11: each form's meaning is one read and one write of its mode, counting by 1 or by -1, which is 255 mod 256. -/
theorem incDecCountMemory : Obligations.IncDecCountMemory := by
  intro s b w
  refine ⟨?_, ?_, ?_, ?_, ?_, ?_, ?_, ?_⟩ <;> exact countsMemory_of_modifyMem rfl rfl

/-- Settles O12: each meaning counts its register by 1 or by -1, which is 255 mod 256. -/
theorem registerCountsWrap : Obligations.RegisterCountsWrap := fun _ =>
  ⟨countsRegister_of_exec rfl rfl, countsRegister_of_exec rfl rfl, countsRegister_of_exec rfl rfl,
    countsRegister_of_exec rfl rfl⟩

end Sys2Proof.Machine
end

section
/-! PROOFS. Shifts and rotates (R119 to R122). Each byte operation meets the rule the statements write in numbers; one lemma for the
accumulator form and one for the memory forms carry a rule to a meaning. A rotate turns nine bits, A's eight and C. -/

namespace Sys2Proof.Machine

/-! ## The byte operations, as the rules of the statements -/

/-- The byte operation `f`, given the carry in, answers the result and the new carry of the rule. -/
structure ShiftRule.Describes (rule : ShiftRule) (f : Bool → Byte → Byte × Bool) : Prop where
  result (c : Bool) (v : Byte) : (f c v).1.toNat = rule.result v.toNat c.toNat
  carry (c : Bool) (v : Byte) : (f c v).2 = rule.carry v.toNat

/-- Bit 0 is set where the number is odd. -/
theorem getLsbD_zero (v : Byte) : v.getLsbD 0 = decide (v.toNat % 2 = 1) := Nat.testBit_zero _

theorem shiftLeft_one_toNat (v : Byte) : (v <<< 1).toNat = 2 * v.toNat % 256 := by
  rw [BitVec.toNat_shiftLeft, Nat.shiftLeft_eq, Nat.mul_comm]

theorem ushiftRight_one_toNat (v : Byte) : (v >>> 1).toNat = v.toNat / 2 := by
  rw [BitVec.toNat_ushiftRight, Nat.shiftRight_eq_div_pow, Nat.pow_one]

theorem aslRule_describes : aslRule.Describes fun _ => aslByte where
  result _ v := shiftLeft_one_toNat v
  carry _ v := getLsbD_seven v

theorem lsrRule_describes : lsrRule.Describes fun _ => lsrByte where
  result _ v := ushiftRight_one_toNat v
  carry _ v := getLsbD_zero v

/-- The bit shifted in at the bottom of an even byte adds 1. -/
theorem shiftLeft_one_or_toNat (c : Bool) (v : Byte) :
    (v <<< 1 ||| BitVec.ofNat 8 c.toNat).toNat = (2 * v.toNat + c.toNat) % 256 := by
  have hbit : c.toNat < 2 ^ 1 := c.toNat_lt
  have hlow : (BitVec.ofNat 8 c.toNat).toNat = c.toNat := Nat.mod_eq_of_lt (by omega)
  have heven : 2 * v.toNat % 256 = 2 ^ 1 * (v.toNat % 128) := by omega
  rw [BitVec.toNat_or, shiftLeft_one_toNat, hlow, heven, ← Nat.two_pow_add_eq_or_of_lt hbit]
  omega

/-- The bit shifted in at the top of a byte below 128 adds 128. -/
theorem ushiftRight_one_or_toNat (c : Bool) (v : Byte) :
    (v >>> 1 ||| BitVec.ofNat 8 c.toNat <<< 7).toNat = v.toNat / 2 + 128 * c.toNat := by
  have hv := v.isLt
  have hlow : v.toNat / 2 < 2 ^ 7 := by omega
  have htop : (BitVec.ofNat 8 c.toNat <<< 7).toNat = 2 ^ 7 * c.toNat := by cases c <;> rfl
  rw [BitVec.toNat_or, ushiftRight_one_toNat, htop, Nat.or_comm, ← Nat.two_pow_add_eq_or_of_lt hlow, Nat.add_comm]

theorem rolRule_describes : rolRule.Describes rolByte where
  result := shiftLeft_one_or_toNat
  carry _ v := getLsbD_seven v

theorem rorRule_describes : rorRule.Describes rorByte where
  result := ushiftRight_one_or_toNat
  carry _ v := getLsbD_zero v

/-! ## One form of each kind -/

section
variable {i : Instr} {op : Byte} {base : Nat} {m : MemMode} {s : State} {rule : ShiftRule} {f : Bool → Byte → Byte × Bool}

/-- A shift writes none of I, D and V (R119 to R122). -/
theorem flag_setFlags_shifted (r : Byte × Bool) (t : State) :
    ∀ q ∉ [Flag.c, .z, .n], (t.setFlags (t.cpu.flags.shifted r)).flag q = t.flag q := by
  intro q hq
  cases q
  case i | d | v => rfl
  all_goals exact absurd (by decide) hq

/-- A form whose meaning shifts A. -/
theorem shiftsA_of_shiftAcc (hf : rule.Describes f) (hencode : encode i = [op]) (hexec : exec i s = shiftAcc f s) :
    ShiftsA rule i op s := by
  have hsame : CpuFrame [.a] [.c, .z, .n] s s := .of_cpu rfl rfl rfl rfl rfl rfl
  have hframe (r : Byte × Bool) := ((hsame.setReg (r := .a) (by simp) r.1).setFlags (flag_setFlags_shifted r _)).retire 2
  exact ⟨hencode, _, hexec, hf.result .., hf.carry .., znOf_of_flags rfl, rfl, registersOnly_intro (hframe _) rfl rfl rfl⟩

/-- A form whose meaning is one read and one write at the effective address, of the byte shifted. -/
theorem shiftsMemory_of_shiftMem (hf : rule.Describes f) (hencode : encode i = op :: m.operandBytes)
    (hexec : exec i s = shiftMem f m base s) : ShiftsMemory rule m i op base s := by
  have hresult : BitVec.ofNat 8 (rule.result (peek (m.ea s) s).toNat s.cpu.flags.c.toNat)
      = (f s.cpu.flags.c (peek (m.ea s) s)).1 := by
    rw [← hf.result, BitVec.ofNat_toNat, BitVec.setWidth_eq]
  have hwrite (v : Byte) : CpuFrame [] [.c, .z, .n] s (busWrite base (m.ea s) v (busRead (m.ea s) s).2) := by
    refine .of_cpu ?_ ?_ ?_ ?_ ?_ ?_ <;> simp
  dsimp only [shiftMem] at hexec
  rw [busRead_cpu] at hexec
  refine ⟨hencode, _, hexec, ?_⟩
  dsimp only
  rw [hresult]
  exact ⟨hf.carry .., znOf_of_flags rfl, storesByte_intro (busRead_cpu ..) (busRead_ram_eq ..) (busRead_byteAt _ _)
    (((hwrite _).setFlags (flag_setFlags_shifted _ _)).retire base)⟩

end

/-! ## Rotating A and C over and over -/

/-- A and C, which a rotate of A turns together. -/
def State.aAndCarry (s : State) : Byte × Bool := (s.cpu.a, s.cpu.flags.c)

/-- What one shift of A makes of A and C. -/
def throughCarry (f : Bool → Byte → Byte × Bool) (p : Byte × Bool) : Byte × Bool := f p.2 p.1

/-- One more application may come first or last. -/
theorem repeat_apply {α : Type} (g : α → α) (n : Nat) (x : α) : Nat.repeat g n (g x) = Nat.repeat g (n + 1) x := by
  induction n with
  | zero => rfl
  | succ n ih => exact congrArg g ih

/-- Executed `n` times over, a shift of A completes each time and makes of A and C what `n` applications make. -/
theorem execTimes_of_shiftAcc {i : Instr} {f : Bool → Byte → Byte × Bool} (hexec : ∀ s, exec i s = shiftAcc f s) (n : Nat)
    (s : State) : ∃ t, execTimes i n s = some t ∧ t.aAndCarry = Nat.repeat (throughCarry f) n s.aAndCarry := by
  induction n generalizing s with
  | zero => exact ⟨s, rfl, rfl⟩
  | succ n ih =>
    unfold execTimes
    rw [hexec, shiftAcc, ← repeat_apply]
    exact ih _

/-- Bit `i` of the ring of nine a rotate turns, counted modulo 9: bits 0 to 7 of A, then C. -/
def ringBit (p : Byte × Bool) (i : Nat) : Bool := (BitVec.cons p.2 p.1).getLsbD (i % 9)

theorem ringBit_of_lt (p : Byte × Bool) {i : Nat} (h : i < 8) : ringBit p i = p.1.getLsbD i := by
  rw [ringBit, Nat.mod_eq_of_lt (by omega), BitVec.getLsbD_cons, if_neg (by omega)]

theorem ringBit_eight (p : Byte × Bool) : ringBit p 8 = p.2 := by
  rw [ringBit, BitVec.getLsbD_cons, if_pos rfl]

theorem ringBit_mod (p : Byte × Bool) (i : Nat) : ringBit p (i % 9) = ringBit p i := by
  rw [ringBit, Nat.mod_mod, ringBit]

/-- The ring's bits determine A and C. -/
theorem eq_of_ringBit_eq {p q : Byte × Bool} (h : ∀ i, ringBit p i = ringBit q i) : p = q := by
  refine Prod.ext (BitVec.eq_of_getLsbD_eq fun i hi => ?_) ?_
  · rw [← ringBit_of_lt p hi, ← ringBit_of_lt q hi, h]
  · rw [← ringBit_eight p, ← ringBit_eight q, h]

theorem rolByte_getLsbD_zero (c : Bool) (v : Byte) : (rolByte c v).1.getLsbD 0 = c := by
  cases c <;> simp [rolByte]

theorem rolByte_getLsbD_succ (c : Bool) (v : Byte) {i : Nat} (h : i < 7) : (rolByte c v).1.getLsbD (i + 1) = v.getLsbD i := by
  have hi : i < 8 := by omega
  have hin : i + 1 < 8 := by omega
  cases c <;> simp [rolByte, hin, BitVec.getLsbD_eq_getElem hi]

/-- ROL turns the ring by one place (R121): C comes in at bit 0, bit 7 goes to C, every other bit moves up. -/
theorem ringBit_rol (p : Byte × Bool) (i : Nat) : ringBit (throughCarry rolByte p) (i + 1) = ringBit p i := by
  rw [← ringBit_mod _ (i + 1), ← ringBit_mod p i]
  obtain h | h | h : i % 9 = 8 ∨ i % 9 = 7 ∨ i % 9 < 7 := by omega
  case inl =>
    have hnext : (i + 1) % 9 = 0 := by omega
    rw [h, hnext, ringBit_eight, ringBit_of_lt _ (by omega)]
    exact rolByte_getLsbD_zero ..
  case inr.inl =>
    have hnext : (i + 1) % 9 = 8 := by omega
    rw [h, hnext, ringBit_eight, ringBit_of_lt _ (by omega)]
    rfl
  case inr.inr =>
    have hnext : (i + 1) % 9 = i % 9 + 1 := by omega
    rw [hnext, ringBit_of_lt _ (by omega), ringBit_of_lt _ (by omega)]
    exact rolByte_getLsbD_succ _ _ h

theorem ringBit_rol_repeat (n : Nat) (p : Byte × Bool) (i : Nat) :
    ringBit (Nat.repeat (throughCarry rolByte) n p) (i + n) = ringBit p i := by
  induction n with
  | zero => rfl
  | succ n ih => exact (ringBit_rol _ (i + n)).trans ih

/-- Nine turns of a ring of nine are none (R121). -/
theorem rol_nine (p : Byte × Bool) : Nat.repeat (throughCarry rolByte) 9 p = p := by
  refine eq_of_ringBit_eq fun i => ?_
  have hperiod (q : Byte × Bool) : ringBit q (i + 9) = ringBit q i := by rw [ringBit, Nat.add_mod_right, ringBit]
  rw [← hperiod, ringBit_rol_repeat]

/-- ROR undoes ROL: the bit that went to C comes back at bit 7, and C's comes back out of bit 0 (R122). -/
theorem ror_leftInverse_rol : Function.LeftInverse (throughCarry rorByte) (throughCarry rolByte) := by
  rintro ⟨v, c⟩
  have hv := v.isLt
  refine Prod.ext (BitVec.eq_of_toNat_eq ?_) ?_
  · dsimp only [throughCarry]
    rw [rorRule_describes.result, rolRule_describes.result, rolRule_describes.carry]
    have hc := c.toNat_le
    dsimp only [rorRule, rolRule]
    by_cases h : 128 ≤ v.toNat
    · rw [decide_eq_true h, Bool.toNat_true]
      omega
    · rw [decide_eq_false h, Bool.toNat_false]
      omega
  · dsimp only [throughCarry]
    rw [rorRule_describes.carry, rolRule_describes.result]
    dsimp only [rorRule, rolRule]
    cases c <;> simp

theorem repeat_leftInverse {α : Type} {g h : α → α} (hinv : Function.LeftInverse g h) (n : Nat) :
    Function.LeftInverse (Nat.repeat g n) (Nat.repeat h n) := by
  intro x
  induction n with
  | zero => rfl
  | succ n ih =>
    rw [← repeat_apply g, Nat.repeat, hinv, ih]

/-- Nine turns backwards are none, since nine forwards are. -/
theorem ror_nine (p : Byte × Bool) : Nat.repeat (throughCarry rorByte) 9 p = p := by
  have hundone := repeat_leftInverse ror_leftInverse_rol 9 p
  rwa [rol_nine] at hundone

/-- Where nine applications give the pair back, nine executions restore A and C. -/
theorem execTimes_nine_restores {i : Instr} {f : Bool → Byte → Byte × Bool} (hexec : ∀ s, exec i s = shiftAcc f s)
    (hnine : ∀ p, Nat.repeat (throughCarry f) 9 p = p) (s : State) :
    ∃ t, execTimes i 9 s = some t ∧ t.cpu.a = s.cpu.a ∧ t.cpu.flags.c = s.cpu.flags.c := by
  obtain ⟨t, hrun, hpair⟩ := execTimes_of_shiftAcc hexec 9 s
  rw [hnine] at hpair
  exact ⟨t, hrun, congrArg Prod.fst hpair, congrArg Prod.snd hpair⟩

/-! ## The statements -/

/-- Settles O13: each form's meaning is its byte operation of A or of the byte at its mode's effective address. -/
theorem shiftsMoveOneBit : Obligations.ShiftsMoveOneBit := fun _ _ _ =>
  ⟨shiftsA_of_shiftAcc aslRule_describes rfl rfl, shiftsA_of_shiftAcc lsrRule_describes rfl rfl,
    shiftsMemory_of_shiftMem aslRule_describes rfl rfl, shiftsMemory_of_shiftMem aslRule_describes rfl rfl,
    shiftsMemory_of_shiftMem aslRule_describes rfl rfl, shiftsMemory_of_shiftMem aslRule_describes rfl rfl,
    shiftsMemory_of_shiftMem lsrRule_describes rfl rfl, shiftsMemory_of_shiftMem lsrRule_describes rfl rfl,
    shiftsMemory_of_shiftMem lsrRule_describes rfl rfl, shiftsMemory_of_shiftMem lsrRule_describes rfl rfl⟩

/-- Settles O14: each form's meaning is its byte operation of A or of the byte at its mode's effective address, with the carry in;
and nine turns of the ring of A and C are none. -/
theorem rotatesPassThroughCarry : Obligations.RotatesPassThroughCarry := fun _ _ _ =>
  ⟨shiftsA_of_shiftAcc rolRule_describes rfl rfl, shiftsA_of_shiftAcc rorRule_describes rfl rfl,
    shiftsMemory_of_shiftMem rolRule_describes rfl rfl, shiftsMemory_of_shiftMem rolRule_describes rfl rfl,
    shiftsMemory_of_shiftMem rolRule_describes rfl rfl, shiftsMemory_of_shiftMem rolRule_describes rfl rfl,
    shiftsMemory_of_shiftMem rorRule_describes rfl rfl, shiftsMemory_of_shiftMem rorRule_describes rfl rfl,
    shiftsMemory_of_shiftMem rorRule_describes rfl rfl, shiftsMemory_of_shiftMem rorRule_describes rfl rfl,
    execTimes_nine_restores (fun _ => rfl) rol_nine _, execTimes_nine_restores (fun _ => rfl) ror_nine _⟩

end Sys2Proof.Machine
end

section
/-! PROOFS. Control transfer (R123 to R136). The stack's cells are said in the terms of its pushes and pulls; what pushes leave is
said once for any list of writes; the two round trips follow from what each of their two instructions leaves. -/

namespace Sys2Proof.Machine

/-! ## Frames of two changes, one after the other -/

section
variable {regs regs' : List Reg} {flags flags' : List Flag} {s t u : State}

theorem CpuFrame.mono (h : CpuFrame regs flags s t) (hr : regs ⊆ regs') (hf : flags ⊆ flags') :
    CpuFrame regs' flags' s t := by
  obtain ⟨hregs, hflags, hhalted⟩ := h
  exact ⟨fun r hn => hregs r fun hm => hn (hr hm), fun f hn => hflags f fun hm => hn (hf hm), hhalted⟩

theorem CpuFrame.trans (h : CpuFrame regs flags s t) (k : CpuFrame regs flags t u) : CpuFrame regs flags s u := by
  obtain ⟨hregs, hflags, hhalted⟩ := h
  obtain ⟨kregs, kflags, khalted⟩ := k
  exact ⟨fun r hr => (kregs r hr).trans (hregs r hr), fun f hf => (kflags f hf).trans (hflags f hf), khalted.trans hhalted⟩

theorem CpuFrame.refl (s : State) : CpuFrame regs flags s s := .of_cpu rfl rfl rfl rfl rfl rfl

/-- A listed register or flag that holds its old value again need not be listed. -/
theorem CpuFrame.restored (h : CpuFrame regs flags s t) (hr : ∀ r ∈ regs, t.reg r = s.reg r)
    (hf : ∀ f ∈ flags, t.flag f = s.flag f) : CpuFrame [] [] s t := by
  obtain ⟨hregs, hflags, hhalted⟩ := h
  refine ⟨fun r _ => ?_, fun f _ => ?_, hhalted⟩
  · exact if hm : r ∈ regs then hr r hm else hregs r hm
  · exact if hm : f ∈ flags then hf f hm else hflags f hm

theorem RestFrame.trans (h : RestFrame s t) (k : RestFrame t u) : RestFrame s u := by
  obtain ⟨hmapper, hppu, hapu, hpads, hnmi, henv, himage, hparams⟩ := h
  obtain ⟨kmapper, kppu, kapu, kpads, knmi, kenv, kimage, kparams⟩ := k
  exact ⟨kmapper.trans hmapper, kppu.trans hppu, kapu.trans hapu, kpads.trans hpads, knmi.trans hnmi, kenv.trans henv,
    kimage.trans himage, kparams.trans hparams⟩

/-- A change that stores no byte keeps what the change before it kept. -/
theorem MemFrame.trans_noCell {stored : Cell → Prop} (h : MemFrame stored s t) (k : MemFrame NoCell t u) :
    MemFrame stored s u :=
  fun c hc => (k c id).trans (h c hc)

/-- The counts of two CPU steps add up, since the first leaves no extra cycle pending (R21). -/
theorem Costs.trans {m n : Nat} (h : Costs m s t) (k : Costs n t u) : Costs (m + n) s u := by
  obtain ⟨hcycles, hextra⟩ := h
  obtain ⟨kcycles, kextra⟩ := k
  exact ⟨by omega, kextra⟩

/-- A meaning that pushes, and then one that touches registers and flags only. -/
theorem PushesOnly.trans_registersOnly {cells : List Cell} {m n : Nat} (h : PushesOnly regs flags cells m s t)
    (k : RegistersOnly regs flags n t u) : PushesOnly regs flags cells (m + n) s u := by
  obtain ⟨hcpu, hrest, hmem, hcosts⟩ := h
  obtain ⟨kcpu, ⟨-, krest⟩, kmem, kcosts⟩ := k
  exact ⟨hcpu.trans kcpu, hrest.trans krest, hmem.trans_noCell kmem, hcosts.trans kcosts⟩

end

/-! ## The stack's cells -/

/-- A byte counted down, as a number: counted up by the rest of 256. -/
theorem sub_ofNat_toNat (b : Byte) {k : Nat} (hk : k < 256) : (b - BitVec.ofNat 8 k).toNat = (b.toNat + (256 - k)) % 256 := by
  rw [BitVec.toNat_sub, BitVec.toNat_ofNat, Nat.mod_eq_of_lt hk, Nat.add_comm]

/-- The cell a pull reads: SP counted up inside page 1 (R19). -/
theorem stackCell_eq_add (s : State) (k : Nat) : stackCell s k = .ram (0x100 + (s.cpu.sp + BitVec.ofNat 8 k).toNat) := by
  rw [BitVec.toNat_add, BitVec.toNat_ofNat, Nat.add_mod_mod]
  rfl

/-- The cell the first push writes (R18). -/
theorem stackCell_zero (s : State) : stackCell s 0 = .ram (0x100 + s.cpu.sp.toNat) :=
  congrArg (fun n => Cell.ram (0x100 + n)) (Nat.mod_eq_of_lt s.cpu.sp.isLt)

/-- The cell a push after `k` others writes: SP counted down inside page 1 (R18). -/
theorem stackCell_eq_sub (s : State) {k : Nat} (hk : k < 256) :
    stackCell s (256 - k) = .ram (0x100 + (s.cpu.sp - BitVec.ofNat 8 k).toNat) := by
  rw [sub_ofNat_toNat _ hk]
  rfl

/-- Where SP has moved by `n`, a cell is counted from the new SP (R18, R19). -/
theorem stackCell_of_sp {s t : State} {n : Nat} (h : t.cpu.sp.toNat = (s.cpu.sp.toNat + n) % 256) (k : Nat) :
    stackCell t k = stackCell s (n + k) := by
  simp only [stackCell, h, Nat.mod_add_mod, Nat.add_assoc]

/-- A whole turn of the page comes back to the same cell. -/
theorem stackCell_256 (s : State) : stackCell s 256 = stackCell s 0 :=
  congrArg (fun n => Cell.ram (0x100 + n)) (Nat.add_mod_right ..)

/-- SP is back where it was when its two moves make a whole turn of the page. -/
theorem sp_restored {s t u : State} {m n : Nat} (hst : t.cpu.sp.toNat = (s.cpu.sp.toNat + m) % 256)
    (htu : u.cpu.sp.toNat = (t.cpu.sp.toNat + n) % 256) (hturn : m + n = 256) : u.cpu.sp = s.cpu.sp := by
  apply BitVec.eq_of_toNat_eq
  have := s.cpu.sp.isLt
  omega

/-! ## Writes of CPU RAM, one after the other -/

/-- The bytes of `ws` written, each at its address, in order. -/
def Memory.writes (m : Memory) (ws : List (Nat × Byte)) : Memory := ws.foldl (fun m w => m.write w.1 w.2) m

theorem Memory.read_writes_of_not_mem {ws : List (Nat × Byte)} {a : Nat} (h : a ∉ ws.map Prod.fst) (m : Memory) :
    (m.writes ws).read a = m.read a := by
  induction ws generalizing m with
  | nil => rfl
  | cons w ws ih =>
    rw [List.map_cons, List.mem_cons, not_or] at h
    obtain ⟨hne, hrest⟩ := h
    exact (ih hrest _).trans (Memory.read_write_ne _ _ hne)

/-- Of writes at different addresses each is read back. -/
theorem Memory.read_writes_of_mem {ws : List (Nat × Byte)} (hnodup : (ws.map Prod.fst).Nodup) {a : Nat} {v : Byte}
    (h : (a, v) ∈ ws) {m : Memory} (hm : m.wf = true) : (m.writes ws).read a = v := by
  induction ws generalizing m with
  | nil => cases h
  | cons w ws ih =>
    obtain ⟨hfirst, hrest⟩ := List.nodup_cons.mp hnodup
    cases h with
    | head => exact (read_writes_of_not_mem hfirst _).trans (read_write_self hm _ _)
    | tail _ h => exact ih hrest h (wf_write hm _ _)

/-- The addresses of up to three pushes, the most that an instruction performs (R18, R157). -/
def pushAddrs (sp : Byte) : List Nat := [0x100 + sp.toNat, 0x100 + (sp - 1).toNat, 0x100 + (sp - 2).toNat]

theorem pushAddrs_nodup (sp : Byte) : (pushAddrs sp).Nodup := by
  have h := sp.isLt
  have h1 : (sp - 1).toNat = (sp.toNat + 255) % 256 := sub_ofNat_toNat sp (k := 1) (by omega)
  have h2 : (sp - 2).toNat = (sp.toNat + 254) % 256 := sub_ofNat_toNat sp (k := 2) (by omega)
  simp only [pushAddrs, List.nodup_cons, List.mem_cons, List.not_mem_nil, List.nodup_nil, or_false, not_or, not_false_eq_true,
    and_true]
  omega

section
variable {regs : List Reg} {flags : List Flag} {s : State} {ws : List (Nat × Byte)} {c : Cpu}

/-- What is unchanged where bytes of CPU RAM are written and otherwise only the CPU changes. -/
theorem writes_frame (hnmi : c.nmiPending = s.cpu.nmiPending) :
    RestFrame s { s with ram := s.ram.writes ws, cpu := c } ∧
    MemFrame (· ∈ ws.map fun w => Cell.ram w.1) s { s with ram := s.ram.writes ws, cpu := c } := by
  refine ⟨⟨rfl, rfl, rfl, rfl, hnmi, rfl, rfl, rfl⟩, fun cell hcell => ?_⟩
  cases cell
  case ram i =>
    refine Memory.read_writes_of_not_mem (fun hi => hcell ?_) _
    obtain ⟨w, hw, rfl⟩ := List.mem_map.mp hi
    exact List.mem_map.mpr ⟨w, hw, rfl⟩
  all_goals rfl

/-- Where at most three bytes are pushed, each is found where it was pushed. -/
theorem byteAt_pushed (hws : (ws.map Prod.fst).Sublist (pushAddrs s.cpu.sp)) (hwf : s.ram.wf = true) {a : Nat} {v : Byte}
    (h : (a, v) ∈ ws) :
    State.byteAt { s with ram := s.ram.writes ws, cpu := c } (.ram a) = v :=
  Memory.read_writes_of_mem ((pushAddrs_nodup s.cpu.sp).sublist hws) h hwf

/-- What an answer leaves that pushes and otherwise touches the CPU alone. -/
theorem pushesOnly_intro {n : Nat} (hframe : CpuFrame regs flags s { s with ram := s.ram.writes ws, cpu := c })
    (hnmi : c.nmiPending = s.cpu.nmiPending) (hcy : c.cycles = s.cpu.cycles + n + s.cpu.extra) (hex : c.extra = 0) :
    PushesOnly regs flags (ws.map fun w => Cell.ram w.1) n s { s with ram := s.ram.writes ws, cpu := c } := by
  obtain ⟨hrest, hmem⟩ := writes_frame (ws := ws) hnmi
  exact ⟨hframe, hrest, hmem, hcy.trans (Nat.add_right_comm ..), hex⟩

end

/-! ## Status bytes as numbers -/

theorem pack_toNat (brk : Bool) (f : Flags) : (f.pack brk).toNat = statusNumber brk f := by
  have hc := f.c.toNat_le
  have hz := f.z.toNat_le
  have hi := f.i.toNat_le
  have hd := f.d.toNat_le
  have hv := f.v.toNat_le
  have hn := f.n.toNat_le
  have hb := brk.toNat_le
  rw [Flags.pack, byteOfBits, BitVec.toNat_ofNat, statusNumber, Bool.toNat_true]
  omega

theorem flagsOf_iff {p : Byte} {t : State} : FlagsOf p t ↔ t.cpu.flags = Flags.unpack p := by
  refine ⟨fun ⟨hc, hz, hi, hd, hv, hn⟩ => ?_, fun h => ?_⟩
  · rw [Flags.unpack, ← hc, ← hz, ← hi, ← hd, ← hv, ← hn]
  · rw [FlagsOf, h]
    exact ⟨rfl, rfl, rfl, rfl, rfl, rfl⟩

/-! ## JSR and RTS -/

theorem add_one_toNat (w : Word) : (w + 1).toNat = (w.toNat + 1) % 0x10000 := BitVec.toNat_add ..

theorem sub_one_toNat (w : Word) : (w - 1).toNat = (w.toNat + 0xFFFF) % 0x10000 :=
  (BitVec.toNat_sub ..).trans (by rw [Nat.add_comm]; rfl)

/-- JSR (R124): the whole state it leaves. -/
theorem exec_jsr_eq (w : Word) (s : State) : exec (.jsr w) s = .next { s with
    ram := s.ram.writes
      [(0x100 + s.cpu.sp.toNat, hiByte (s.cpu.pc - 1)), (0x100 + (s.cpu.sp - 1).toNat, loByte (s.cpu.pc - 1))]
    cpu := { s.cpu with sp := s.cpu.sp - 2, pc := w, cycles := s.cpu.cycles + 6 + s.cpu.extra, extra := 0 } } := by
  change Host.Outcome.next _ = _
  rw [pushWord_eq]
  rfl

/-- RTS (R125): the whole state it leaves. -/
theorem exec_rts_eq (s : State) : exec .rts s = .next { s with cpu := { s.cpu with
    sp := s.cpu.sp + 2
    pc := mkWord (s.byteAt (stackCell s 1)) (s.byteAt (stackCell s 2)) + 1
    cycles := s.cpu.cycles + 6 + s.cpu.extra, extra := 0 } } := by
  change Host.Outcome.next _ = _
  rw [pullWord_eq, stackCell_eq_add, stackCell_eq_add]
  rfl

/-- Settles O16: JSR writes the two bytes of `PC_next - 1` where it pushes them. -/
theorem jsrPushesReturnAddress : Obligations.JsrPushesReturnAddress := by
  intro s w
  refine ⟨rfl, _, exec_jsr_eq w s, ?_⟩
  dsimp only
  rw [stackCell_zero, stackCell_eq_sub s (k := 1) (by omega), ← sub_one_toNat, ← hiByte_toNat, ← loByte_toNat]
  exact ⟨rfl, sub_ofNat_toNat s.cpu.sp (k := 2) (by omega),
    fun hwf => ⟨congrArg BitVec.toNat (byteAt_pushed (by simp [pushAddrs]) hwf (by simp)),
      congrArg BitVec.toNat (byteAt_pushed (by simp [pushAddrs]) hwf (by simp))⟩,
    pushesOnly_intro ((CpuFrame.refl s).setReg (List.mem_singleton_self .sp) _) rfl rfl rfl⟩

/-- Settles O17: RTS changes SP, PC and the counters alone. -/
theorem rtsReturnsPastPulledAddress : Obligations.RtsReturnsPastPulledAddress := by
  intro s
  have hpc := add_one_toNat (mkWord (s.byteAt (stackCell s 1)) (s.byteAt (stackCell s 2)))
  rw [mkWord_toNat] at hpc
  exact ⟨rfl, _, exec_rts_eq s, hpc, BitVec.toNat_add ..,
    registersOnly_intro ((CpuFrame.refl s).setReg (List.mem_singleton_self .sp) _) rfl rfl rfl⟩

/-- Settles O18: RTS pulls what JSR pushed (O16, O17), from the cells it was pushed to. -/
theorem jsrThenRtsReturns : Obligations.JsrThenRtsReturns := by
  intro s w hwf
  obtain ⟨-, t, hjsr, -, htsp, hbytes, hpushes⟩ := jsrPushesReturnAddress s w
  obtain ⟨-, u, hrts, hupc, husp, hpulls⟩ := rtsReturnsPastPulledAddress t
  obtain ⟨hhigh, hlow⟩ := hbytes hwf
  rw [stackCell_of_sp htsp, stackCell_of_sp htsp, stackCell_256, hlow, hhigh] at hupc
  obtain ⟨hcpu, hrest, hmem, hcosts⟩ := hpushes.trans_registersOnly hpulls
  have hsp := sp_restored htsp husp rfl
  refine ⟨t, u, hjsr, hrts, ?pc, hcpu.restored (List.forall_mem_singleton.mpr hsp) (List.forall_mem_nil _), hrest, hmem, hcosts⟩
  case pc =>
    apply BitVec.eq_of_toNat_eq
    have := s.cpu.pc.isLt
    omega

/-! ## JMP -/

/-- The address of the pointer's second byte: the low byte counts on inside the pointer's page (R83). -/
theorem pointerHigh_eq (w : Word) :
    mkWord (loByte w + 1) (hiByte w) = BitVec.ofNat 16 (w.toNat / 256 * 256 + (w.toNat + 1) % 256) := by
  apply BitVec.eq_of_toNat_eq
  have hlow : (loByte w + 1).toNat = (w.toNat % 256 + 1) % 256 := (BitVec.toNat_add ..).trans (by rw [loByte_toNat]; rfl)
  rw [mkWord_toNat, hlow, hiByte_toNat, BitVec.toNat_ofNat]
  omega

/-- The two reads of JMP indirect, the low byte's first (R83). -/
theorem indirectTarget_eq (w : Word) (s : State) : indirectTarget w s =
    let lo := busRead w s
    let hi := busRead (BitVec.ofNat 16 (w.toNat / 256 * 256 + (w.toNat + 1) % 256)) lo.2
    (mkWord lo.1 hi.1, hi.2) := by
  rw [← pointerHigh_eq]
  rfl

theorem indirectTarget_cpu (w : Word) (s : State) : (indirectTarget w s).2.cpu = s.cpu :=
  (busRead_cpu ..).trans (busRead_cpu ..)

theorem indirectTarget_byteAt (w : Word) (s : State) (c : Cell) : (indirectTarget w s).2.byteAt c = s.byteAt c :=
  (busRead_byteAt ..).trans (busRead_byteAt ..)

/-- JMP indirect (R123): the whole state it leaves. -/
theorem exec_jmpInd_eq (w : Word) (s : State) : exec (.jmpInd w) s = .next { (indirectTarget w s).2 with cpu := { s.cpu with
    pc := (indirectTarget w s).1, cycles := s.cpu.cycles + 5 + s.cpu.extra, extra := 0 } } := by
  rw [← indirectTarget_cpu w s]
  rfl

/-- Settles O15: JMP indirect's reads are those of `indirectTarget`, and no read stores a byte. -/
theorem jmpGoesToTarget : Obligations.JmpGoesToTarget := by
  intro s w
  refine ⟨⟨rfl, _, rfl, rfl, registersOnly_intro (.refl s) rfl rfl rfl⟩, rfl, _, exec_jmpInd_eq w s, ?_⟩
  have hcpu := indirectTarget_cpu w s
  have hbytes := indirectTarget_byteAt w s
  rw [indirectTarget_eq] at hcpu hbytes ⊢
  refine ⟨mkWord_toNat .., .of_cpu rfl rfl rfl rfl rfl rfl, ⟨rfl, rfl, rfl, rfl, rfl, ?nmi, rfl, rfl, rfl⟩, ?mem,
    Nat.add_right_comm .., rfl⟩
  case nmi => exact (congrArg Cpu.nmiPending hcpu).symm
  case mem =>
    intro c _
    rw [← hbytes c]
    cases c <;> rfl

/-! ## Branches -/

/-- The target of a branch as a number: the signed offset added mod 2^16 (R86). -/
theorem branchTarget_toNat (off : Byte) (s : State) :
    ((branchTarget off s).toNat : Int) = ((s.cpu.pc.toNat : Int) + off.toInt) % 0x10000 := by
  have hoff : (sext8 off).toNat = (off.toInt % 0x10000).toNat := BitVec.toNat_ofInt ..
  rw [branchTarget, BitVec.toNat_add, hoff]
  omega

/-- What `branchCross` compares, in numbers (R86). -/
theorem branchCross_eq_true_iff (off : Byte) (s : State) :
    branchCross off s = true ↔ s.cpu.pc.toNat / 256 ≠ (branchTarget off s).toNat / 256 := by
  rw [branchCross, bne_iff_ne, ne_eq, ← BitVec.toNat_inj, hiByte_toNat, hiByte_toNat]

/-- The cost of a taken branch: 3, or 4 to another page (R126). -/
theorem branchCost_eq (off : Byte) (s : State) : 2 + (if branchCross off s then 2 else 1)
    = if (s.cpu.pc.toNat / 256 : Int) = ((branchTarget off s).toNat : Int) / 256 then 3 else 4 := by
  have hpage : (s.cpu.pc.toNat / 256 : Int) = ((branchTarget off s).toNat : Int) / 256
      ↔ s.cpu.pc.toNat / 256 = (branchTarget off s).toNat / 256 := by omega
  simp only [branchCross_eq_true_iff, hpage, ne_eq, ite_not]
  split <;> rfl

/-- A form whose meaning is a branch on `cond` (R126). -/
theorem branches_of_branchIf {cond : Bool} {off : Byte} {i : Instr} {op : Byte} {s : State} (hencode : encode i = [op, off])
    (hexec : exec i s = branchIf cond off s) : Branches cond off i op s := by
  refine ⟨hencode, _, hexec.trans (branchIf_eq ..), fun hcond => ?taken, fun hcond => ?notTaken⟩
  case taken =>
    rw [if_pos hcond, ← branchTarget_toNat]
    refine ⟨rfl, registersOnly_intro (.refl s) rfl ?cycles rfl⟩
    case cycles =>
      rw [← branchCost_eq]
      dsimp only
      omega
  case notTaken =>
    rw [hcond, if_neg Bool.false_ne_true]
    exact ⟨rfl, registersOnly_intro (.refl s) rfl rfl rfl⟩

/-- Settles O19: each form's meaning is a branch on its condition. -/
theorem branchesFollowCondition : Obligations.BranchesFollowCondition := fun _ _ =>
  ⟨branches_of_branchIf rfl rfl, branches_of_branchIf rfl rfl, branches_of_branchIf rfl rfl, branches_of_branchIf rfl rfl,
    branches_of_branchIf rfl rfl, branches_of_branchIf rfl rfl, branches_of_branchIf rfl rfl, branches_of_branchIf rfl rfl⟩

/-! ## BRK and RTI -/

/-- An entry writes I alone (R157). -/
theorem flag_setFlags_i (b : Bool) (t : State) :
    ∀ q ∉ [Flag.i], (t.setFlags { t.cpu.flags with i := b }).flag q = t.flag q := by
  intro q hq
  cases q
  case i => exact absurd (by decide) hq
  all_goals rfl

/-- An entry as three writes of CPU RAM and a new CPU (R157). -/
theorem enterInterrupt_eq_writes (k : IntKind) (ret : Word) (s : State) : enterInterrupt k ret s = { s with
    ram := s.ram.writes [(0x100 + s.cpu.sp.toNat, hiByte ret), (0x100 + (s.cpu.sp - 1).toNat, loByte ret),
      (0x100 + (s.cpu.sp - 2).toNat, s.cpu.flags.pack k.brkBit)]
    cpu := { s.cpu with
      sp := s.cpu.sp - 3, flags := { s.cpu.flags with i := true }
      pc := mkWord (cartRead s.image s.mapper k.vector.toNat) (cartRead s.image s.mapper (k.vector.toNat + 1)) } } :=
  enterInterrupt_eq k ret s

/-- What an entry leaves, whatever the event and the address to return to (R157). -/
theorem enterInterrupt_entered (k : IntKind) (ret : Word) (s : State) :
    Entered k.brkBit k.vector.toNat ret.toNat s (enterInterrupt k ret s) := by
  rw [enterInterrupt_eq_writes, Entered, stackCell_zero, stackCell_eq_sub s (k := 1) (by omega),
    stackCell_eq_sub s (k := 2) (by omega), ← pack_toNat, ← hiByte_toNat, ← loByte_toNat]
  refine ⟨mkWord_toNat .., rfl, sub_ofNat_toNat s.cpu.sp (k := 3) (by omega), fun hwf => ⟨?_, ?_, ?_⟩, ?cpu, writes_frame rfl⟩
  case cpu => exact ((CpuFrame.refl s).setReg (List.mem_singleton_self .sp) (s.cpu.sp - 3)).setFlags (flag_setFlags_i true _)
  all_goals exact congrArg BitVec.toNat (byteAt_pushed (by simp [pushAddrs]) hwf (by simp))

/-- BRK where the parameter masks it (R135): PC moves past the byte after it. -/
theorem exec_brk_masked {s : State} (h : s.params.brkMaskedByI = true ∧ s.cpu.flags.i = true) :
    exec .brk s = .next ((s.setPc (s.cpu.pc + 1)).retire entryCycles) :=
  if_pos (Bool.and_eq_true_iff.mpr h)

/-- BRK where it is taken (R135): an entry that returns past the byte after it. -/
theorem exec_brk_taken {s : State} (h : ¬ (s.params.brkMaskedByI = true ∧ s.cpu.flags.i = true)) :
    exec .brk s = .next ((enterInterrupt .brk (s.cpu.pc + 1) s).retire entryCycles) :=
  if_neg (mt Bool.and_eq_true_iff.mp h)

/-- Settles O21: by cases on whether BRK_MASKED_BY_I masks it; where not, it is an entry (`enterInterrupt_entered`). -/
theorem brkEntersThroughVector : Obligations.BrkEntersThroughVector := by
  intro s
  refine ⟨rfl, ?_⟩
  dsimp only
  rw [← add_one_toNat]
  by_cases hmasked : s.params.brkMaskedByI = true ∧ s.cpu.flags.i = true
  case pos =>
    obtain ⟨hcpu, hdevices, hmem, hcosts⟩ : RegistersOnly [] [] entryCycles s ((s.setPc (s.cpu.pc + 1)).retire entryCycles) :=
      registersOnly_intro (.refl s) rfl rfl rfl
    exact ⟨_, exec_brk_masked hmasked, hcosts, fun _ => ⟨rfl, hcpu, hdevices, hmem⟩, absurd hmasked⟩
  case neg =>
    refine ⟨_, exec_brk_taken hmasked, ?costs, (absurd · hmasked), fun _ => enterInterrupt_entered .brk (s.cpu.pc + 1) s⟩
    rw [enterInterrupt_eq_writes]
    exact ⟨Nat.add_right_comm .., rfl⟩

/-- RTI (R136): the whole state it leaves. -/
theorem exec_rti_eq (s : State) : exec .rti s = .next { s with cpu := { s.cpu with
    sp := s.cpu.sp + 3
    flags := Flags.unpack (s.byteAt (stackCell s 1))
    pc := mkWord (s.byteAt (stackCell s 2)) (s.byteAt (stackCell s 3))
    cycles := s.cpu.cycles + 6 + s.cpu.extra, extra := 0 } } := by
  change Host.Outcome.next _ = _
  rw [returnFromInterrupt_eq, stackCell_eq_add, stackCell_eq_add, stackCell_eq_add]
  rfl

/-- The six flags (R13). -/
def allFlags : List Flag := [.c, .z, .i, .d, .v, .n]

theorem mem_allFlags (f : Flag) : f ∈ allFlags := by
  cases f <;> decide

/-- Settles O22: RTI changes SP, the flags, PC and the counters alone, and the next IRQ recognition looks at the new flags. -/
theorem rtiRestoresFlagsAndPc : Obligations.RtiRestoresFlagsAndPc := by
  intro s
  refine ⟨rfl, _, exec_rti_eq s, flagsOf_iff.mpr rfl, mkWord_toNat .., BitVec.toNat_add .., rfl,
    registersOnly_intro ?cpu rfl rfl rfl⟩
  case cpu =>
    exact ((CpuFrame.refl s).setReg (List.mem_singleton_self .sp) (s.cpu.sp + 3)).setFlags
      (f := Flags.unpack (s.byteAt (stackCell s 1))) fun q hq => absurd (mem_allFlags q) hq

/-- Settles O23: RTI pulls what BRK pushed (O21, O22), from the cells it was pushed to. -/
theorem brkThenRtiReturns : Obligations.BrkThenRtiReturns := by
  intro s hwf hparam
  obtain ⟨-, t, hbrk, hcosts, -, hentered⟩ := brkEntersThroughVector s
  obtain ⟨-, -, htsp, hbytes, hcpu, hrest, hmem⟩ := hentered (by simp [hparam])
  obtain ⟨hhigh, hlow, hstatus⟩ := hbytes hwf
  obtain ⟨-, u, hrti, hflags, hupc, husp, -, hpulls⟩ := rtiRestoresFlagsAndPc t
  have hcells := stackCell_of_sp htsp
  rw [hcells] at hflags
  rw [hcells, hcells, stackCell_256, hlow, hhigh] at hupc
  have hpacked : t.byteAt (stackCell s 254) = s.cpu.flags.pack true :=
    BitVec.eq_of_toNat_eq (hstatus.trans (pack_toNat ..).symm)
  have hrestored : u.cpu.flags = s.cpu.flags := by
    rw [flagsOf_iff.mp hflags, hpacked, Flags.unpack_pack]
  have hentry : PushesOnly [.sp] allFlags [stackCell s 0, stackCell s 255, stackCell s 254] 7 s t :=
    ⟨hcpu.mono (List.Subset.refl _) fun f _ => mem_allFlags f, hrest, hmem, hcosts⟩
  obtain ⟨hcpu, hrest, hmem, hcosts⟩ := hentry.trans_registersOnly hpulls
  have hsp := sp_restored htsp husp rfl
  refine ⟨t, u, hbrk, hrti, ?pc, hcpu.restored (List.forall_mem_singleton.mpr hsp) fun f _ => ?flag, hrest, hmem, hcosts⟩
  case pc =>
    apply BitVec.eq_of_toNat_eq
    rw [add_one_toNat]
    omega
  case flag => cases f <;> simp only [State.flag, hrestored]

end Sys2Proof.Machine
end

section
/-! PROOFS. The stack bytes, the flag instructions and NOP (R137 to R148). A push is a write of CPU RAM, said with the writes of
the control transfers; a flag is written by `Flags.setFlag`, one lemma for all seven forms. -/

namespace Sys2Proof.Machine

/-! ## PHA and PHP -/

/-- What a form leaves whose meaning pushes `v` (R18, R137, R138). -/
theorem pushesByte_of_exec {i : Instr} {v : Byte} {s : State} (hexec : exec i s = .next ((push 3 v s).retire 3)) :
    ∃ t, exec i s = .next t ∧ t.cpu.pc = s.cpu.pc ∧ t.cpu.sp.toNat = (s.cpu.sp.toNat + 255) % 256 ∧
      (s.ram.wf = true → t.byteAt (stackCell s 0) = v) ∧ PushesOnly [.sp] [] [stackCell s 0] 3 s t := by
  have hwrites : (push 3 v s).retire 3 = { s with
      ram := s.ram.writes [(0x100 + s.cpu.sp.toNat, v)]
      cpu := { s.cpu with sp := s.cpu.sp - 1, cycles := s.cpu.cycles + 3 + s.cpu.extra, extra := 0 } } := by
    rw [push_eq]
    rfl
  rw [stackCell_zero]
  exact ⟨_, hexec.trans (congrArg _ hwrites), rfl, sub_ofNat_toNat s.cpu.sp (k := 1) (by omega),
    byteAt_pushed (by simp [pushAddrs]) (h := by simp),
    pushesOnly_intro ((CpuFrame.refl s).setReg (List.mem_singleton_self .sp) _) rfl rfl rfl⟩

/-- Settles O24: both meanings push one byte; PHP's is the flags packed with bits 4 and 5 set (`pack_toNat`). -/
theorem pushesStoreByte : Obligations.PushesStoreByte := by
  intro s
  obtain ⟨t, hphp, hpc, hsp, hbyte, hframe⟩ := pushesByte_of_exec (i := .php) (s := s) rfl
  exact ⟨⟨rfl, pushesByte_of_exec rfl⟩, rfl, t, hphp, hpc, hsp,
    fun hwf => (congrArg BitVec.toNat (hbyte hwf)).trans (pack_toNat ..), hframe⟩

/-! ## PLA and PLP -/

/-- PLA (R139): the whole state it leaves. -/
theorem exec_pla_eq (s : State) : exec .pla s = .next { s with cpu := { s.cpu with
    a := s.byteAt (stackCell s 1), sp := s.cpu.sp + 1, flags := s.cpu.flags.setZN (s.byteAt (stackCell s 1))
    cycles := s.cpu.cycles + 4 + s.cpu.extra, extra := 0 } } := by
  change Host.Outcome.next _ = _
  rw [pull_eq, stackCell_eq_add]
  rfl

/-- PLP (R140): the whole state it leaves. -/
theorem exec_plp_eq (s : State) : exec .plp s = .next { s with cpu := { s.cpu with
    sp := s.cpu.sp + 1, flags := Flags.unpack (s.byteAt (stackCell s 1))
    cycles := s.cpu.cycles + 4 + s.cpu.extra, extra := 0 } } := by
  change Host.Outcome.next _ = _
  rw [pull_eq, stackCell_eq_add]
  rfl

/-- Settles O25: both change SP and the counters; PLA A with Z and N besides, PLP the flags, which the next IRQ recognition looks
at. -/
theorem pullsLoadByte : Obligations.PullsLoadByte := by
  intro s
  refine ⟨⟨rfl, _, exec_pla_eq s, rfl, BitVec.toNat_add .., rfl, znOf_of_flags rfl, registersOnly_intro ?pla rfl rfl rfl⟩,
    rfl, _, exec_plp_eq s, rfl, BitVec.toNat_add .., flagsOf_iff.mpr rfl, rfl, registersOnly_intro ?plp rfl rfl rfl⟩
  case pla =>
    exact (((CpuFrame.refl s).setReg (r := .sp) (by simp) (s.cpu.sp + 1)).setReg (r := .a) (by simp)
      (s.byteAt (stackCell s 1))).setZN (by simp) (by simp) _
  case plp =>
    exact ((CpuFrame.refl s).setReg (List.mem_singleton_self .sp) (s.cpu.sp + 1)).setFlags
      (f := Flags.unpack (s.byteAt (stackCell s 1))) fun q hq => absurd (mem_allFlags q) hq

/-! ## The flag instructions and NOP -/

/-- `v` in flag `q`. -/
def Flags.setFlag (q : Flag) (v : Bool) (f : Flags) : Flags where
  c := if q = .c then v else f.c
  z := if q = .z then v else f.z
  i := if q = .i then v else f.i
  d := if q = .d then v else f.d
  v := if q = .v then v else f.v
  n := if q = .n then v else f.n

theorem State.flag_setFlag_self (q : Flag) (v : Bool) (s : State) : (s.setFlags (s.cpu.flags.setFlag q v)).flag q = v := by
  cases q <;> rfl

theorem State.flag_setFlag_ne {q p : Flag} (h : p ≠ q) (v : Bool) (s : State) :
    (s.setFlags (s.cpu.flags.setFlag q v)).flag p = s.flag p := by
  cases p <;> exact if_neg h.symm

/-- A form whose meaning writes one flag (R141 to R147). -/
theorem writesFlag_of_flagOp {q : Flag} {v : Bool} {i : Instr} {op : Byte} {s : State} (hencode : encode i = [op])
    (hexec : exec i s = flagOp (Flags.setFlag q v) s) : WritesFlag q v i op s := by
  refine ⟨hencode, _, hexec, State.flag_setFlag_self q v s, rfl, registersOnly_intro ?frame rfl rfl rfl, ?irq⟩
  case frame =>
    exact (CpuFrame.refl s).setFlags fun p hp => State.flag_setFlag_ne (mt List.mem_singleton.mpr hp) v s
  case irq =>
    change (!(s.setFlags (s.cpu.flags.setFlag q v)).flag .i && s.irqLevel) = _
    split
    next h => rw [← h, State.flag_setFlag_self]
    next h =>
      rw [State.flag_setFlag_ne (Ne.symm h)]
      rfl

/-- Settles O26: each form's meaning writes its one flag. -/
theorem flagInstructionsWriteOneFlag : Obligations.FlagInstructionsWriteOneFlag := fun _ =>
  ⟨writesFlag_of_flagOp rfl rfl, writesFlag_of_flagOp rfl rfl, writesFlag_of_flagOp rfl rfl, writesFlag_of_flagOp rfl rfl,
    writesFlag_of_flagOp rfl rfl, writesFlag_of_flagOp rfl rfl, writesFlag_of_flagOp rfl rfl⟩

/-- Settles O27: NOP's meaning only counts its cycles. -/
theorem nopOnlyAdvances : Obligations.NopOnlyAdvances := fun s =>
  ⟨rfl, s.retire 2, rfl, rfl, registersOnly_intro (.refl s) rfl rfl rfl⟩

end Sys2Proof.Machine
end

section
/-! PROOFS. Interrupt entry (R154, R156 to R158), the step that takes one, and the driving loop (R217): an entry is said once for the
three events, and the loop by what one turn does. -/

namespace Sys2Proof.Machine

/-! ## An interrupt entry as a step of its own -/

theorem takeInterrupt_costs (k : IntKind) (s : State) : Costs 7 s (takeInterrupt k s) := by
  obtain ⟨hextra, hcycles, -⟩ := takeInterrupt_cpu k s
  exact ⟨hcycles.trans (Nat.add_right_comm ..), hextra⟩

/-- Settles O20: what an entry leaves is `enterInterrupt_entered`, for each event with its own vector and bit 4. -/
theorem interruptEntryEffect : Obligations.InterruptEntryEffect := by
  intro s ret
  refine ⟨enterInterrupt_entered .nmi ret s, enterInterrupt_entered .irq ret s, enterInterrupt_entered .brk ret s,
    fun k => ?_, fun k => takeInterrupt_costs k s⟩
  rw [enterInterrupt_eq_writes]
  exact ⟨rfl, rfl⟩

theorem irqTaken_iff (s : State) : irqTaken s = true ↔ s.cpu.flags.i = false ∧ s.irqLevel = true := by
  simp [irqTaken]

/-- An entry sets I, which masks the next IRQ (R154). -/
theorem irqTaken_takeInterrupt (k : IntKind) (s : State) : irqTaken (takeInterrupt k s) = false := by
  obtain ⟨-, hi, -⟩ := enterInterrupt_entered k s.cpu.pc s
  simp [irqTaken, takeInterrupt, hi]

theorem cpuStep_of_nmi {s : State} (hrun : s.cpu.halted = none) (hnmi : s.cpu.nmiPending = true) :
    cpuStep s = .next (takeInterrupt .nmi ((stepStart s).setNmi false)) := by
  simp [cpuStep, hrun, hnmi]

theorem cpuStep_of_irq {s : State} (hrun : s.cpu.halted = none) (hnmi : s.cpu.nmiPending = false) (hirq : irqTaken s = true) :
    cpuStep s = .next (takeInterrupt .irq (stepStart s)) := by
  simp [cpuStep, hrun, hnmi, hirq]

/-- A step whose CPU step is an entry from `b`, a start of the step: it returns to the PC before the step, and its 7 cycles are
ticked (R158, R217). -/
theorem step_of_takeInterrupt {k : IntKind} {s b : State} {nmi : Bool} (hstep : cpuStep s = .next (takeInterrupt k b))
    (hcpu : b.cpu = { s.cpu with extra := 0, nmiPending := nmi }) :
    ∃ u, step s = .next (deviceTicks 7 u) ∧ Entered k.brkBit k.vector.toNat s.cpu.pc.toNat b u ∧ Costs 7 b u ∧
      irqTaken u = false := by
  have hcosts := takeInterrupt_costs k b
  have hpc : b.cpu.pc = s.cpu.pc := by rw [hcpu]
  have hcount : (takeInterrupt k b).cpu.cycles - s.cpu.cycles = 7 := by
    obtain ⟨hcycles, -⟩ := hcosts
    rw [hcycles, hcpu]
    exact Nat.add_sub_cancel_left ..
  refine ⟨takeInterrupt k b, ?step, ?entered, hcosts, irqTaken_takeInterrupt k b⟩
  case step =>
    unfold step
    rw [hstep]
    dsimp only
    rw [hcount]
  case entered =>
    rw [← hpc]
    exact enterInterrupt_entered k b.cpu.pc b

/-- Settles O35: the CPU step is the NMI's entry or else the IRQ's, from the step's start with the latch cleared or as it stands. -/
theorem interruptsTakenInPriorityOrder : Obligations.InterruptsTakenInPriorityOrder := by
  intro s hrun
  have hstart := stepStart_cpu s
  refine ⟨fun hnmi => ?nmi, fun hnmi hi hlevel => ?irq, irqTaken_iff s⟩
  case nmi =>
    exact step_of_takeInterrupt (cpuStep_of_nmi hrun hnmi) (congrArg (fun c => { c with nmiPending := false }) hstart)
  case irq =>
    exact step_of_takeInterrupt (cpuStep_of_irq hrun hnmi ((irqTaken_iff s).mpr ⟨hi, hlevel⟩)) hstart

/-! ## The step and the driving loop -/

/-- A machine that is not halted has a next state, of the same launch (R149, R150, R25): the device ticks keep what the CPU step
leaves of the CPU's counters. -/
theorem step_answers {s : State} (hrun : s.cpu.halted = none) :
    ∃ t, step s = .next t ∧ LaunchFrame s t ∧ t.cpu.extra = 0 ∧
      (t.cpu.halted = none → s.cpu.cycles + 2 ≤ t.cpu.cycles) ∧ (t.cpu.halted ≠ none → t.cpu.cycles = s.cpu.cycles) := by
  obtain ⟨u, hu, hextra, hcounts, hhalts⟩ := cpuStep_next s hrun
  have hlaunch : LaunchFrame s u := (closed_launch s).cpuStep ⟨rfl, rfl⟩ hu
  have hticks := deviceTicks_frame (u.cpu.cycles - s.cpu.cycles) u
  refine ⟨deviceTicks (u.cpu.cycles - s.cpu.cycles) u, ?step, hlaunch.trans ⟨hticks.image, hticks.params⟩,
    hticks.extra.trans hextra, ?counts⟩
  case step =>
    unfold step
    rw [hu]
  case counts =>
    rw [hticks.halted, hticks.cycles]
    exact ⟨hcounts, hhalts⟩

section
variable {stop : Session → Bool} {h h' : Session}

/-- The loop's test ends it before the turn's inputs (R217). -/
theorem drive_ends (hend : h.machine.cpu.halted ≠ none ∨ stop h = true) (turns : List (List HostInput)) :
    drive stop turns h = .next h := by
  cases turns with
  | nil => rfl
  | cons l rest =>
    rw [← Option.isSome_iff_ne_none, ← Bool.or_eq_true] at hend
    exact if_pos hend

/-- Past its test the loop takes the turn and goes on from the session it leaves (R217). -/
theorem drive_of_turn (hrun : h.machine.cpu.halted = none) (hgo : stop h = false) {l : List HostInput}
    (hturn : h.turn l = .next h') (turns : List (List HostInput)) : drive stop (l :: turns) h = drive stop turns h' := by
  simp [drive, hrun, hgo, hturn]

end

/-- A turn always ends, in a session whose machine is of the same launch. -/
theorem Session.turn_answers (l : List HostInput) (h : Session) :
    ∃ h', h.turn l = .next h' ∧ LaunchFrame h.machine h'.machine := by
  obtain ⟨hinputs, -⟩ := h.inputs_frame l
  by_cases hrun : (h.inputs l).machine.cpu.halted = none
  case pos =>
    obtain ⟨t, ht, hlaunch, -⟩ := step_answers hrun
    exact ⟨_, turn_runs ht, hinputs.trans hlaunch⟩
  case neg => exact ⟨_, turn_halted hrun, hinputs⟩

/-- The loop always ends, by induction on its turns. -/
theorem drive_answers (stop : Session → Bool) (turns : List (List HostInput)) (h : Session) :
    ∃ h', drive stop turns h = .next h' ∧ LaunchFrame h.machine h'.machine := by
  induction turns generalizing h with
  | nil => exact ⟨h, rfl, rfl, rfl⟩
  | cons l turns ih =>
    by_cases hend : h.machine.cpu.halted ≠ none ∨ stop h = true
    case pos => exact ⟨h, drive_ends hend _, rfl, rfl⟩
    case neg =>
      obtain ⟨hrun, hgo⟩ : h.machine.cpu.halted = none ∧ stop h = false := by simpa using hend
      obtain ⟨u, hturn, hlaunch⟩ := h.turn_answers l
      obtain ⟨h', hdrive, hrest⟩ := ih u
      exact ⟨h', (drive_of_turn hrun hgo hturn turns).trans hdrive, hlaunch.trans hrest⟩

/-- Settles O34: a step by `step_of_halted` and `step_answers`, the loop by the turn it takes, and a turn that ends in a halted
machine by the next test. -/
theorem stepAnswersUntilHalted : Obligations.StepAnswersUntilHalted := by
  intro s
  refine ⟨fun _ => step_of_halted, step_answers, fun stop turns l h => ?loop⟩
  obtain ⟨-, hkept⟩ := h.inputs_frame l
  refine ⟨(drive_ends · turns), fun hrun hgo => ⟨fun t ht => ?runs, fun hhalted => ?halted⟩, drive_answers stop turns h, hkept⟩
  case runs => exact drive_of_turn hrun hgo (Session.turn_runs ht) turns
  case halted => exact (drive_of_turn hrun hgo (Session.turn_halted hhalted) turns).trans (drive_ends (.inl hhalted) turns)

end Sys2Proof.Machine
end
section
/-! PROOFS. Reset and power-on (R222, R223): every part of the power-on state is what it is given or a reset value, so the invariant
comes from the parts' own lemmas, and a load's image is in form by the way it is built. -/

namespace Sys2Proof.Machine

/-! ## The invariant at power-on -/

theorem Image.blank_wf : Image.blank.Wf where
  nPrg := by decide
  prgRom := Memory.isArray_nil _
  chrRom := Memory.isArray_nil _

/-- A power-on has the invariant: each part is a reset value or what the launch gives (R223). -/
theorem powerOn_inv {img : Image} {regs : MapperRegs} {l : LaunchParams} (himg : img.Wf) (hregs : regs.Wf)
    (hparams : l.params.wf = true) (hmem : l.initMem.Fits) : (powerOn img regs l).Inv := by
  obtain ⟨hram, hprg, hchr, hnt, hpal, hoam⟩ := hmem
  rw [powerOn_eq]
  exact {
    wf := {
      params := hparams
      image := himg
      ram := hram
      mapper := ⟨hprg, hchr, hregs⟩
      ppu := Ppu.reset_wf hnt hpal hoam
      apu := Apu.reset_wf hparams
      pads := fun h => by cases h }
    extra := rfl
    halted := fun _ h => by cases h }

theorem powerOn_halted (img : Image) (regs : MapperRegs) (l : LaunchParams) : (powerOn img regs l).cpu.halted = none := by
  rw [powerOn_eq]; rfl

/-- `State.reset` is the power-on of the blank cartridge under the default parameters (log entry 3). -/
theorem powerOn_blank : powerOn .blank .mapper0 .default = State.reset := by
  rw [powerOn_eq]; rfl

/-- Settles O38: the power-on of the blank cartridge has the invariant. -/
theorem resetHasInvariant : Obligations.ResetHasInvariant := by
  unfold Obligations.ResetHasInvariant
  rw [← powerOn_blank]
  have hmem : LaunchParams.default.initMem.Fits := ⟨rfl, rfl, rfl, rfl, rfl, rfl⟩
  exact powerOn_inv Image.blank_wf trivial (by decide) hmem

/-! ## The invariant after a load -/

/-- The image of an accepted file is in form: each ROM is cut to its size (R46). -/
theorem fileImage_wf {file : List Byte} (hprg : (file.getD 4 0).toNat ≠ 0) (present : Option Bool) : (fileImage file present).Wf where
  nPrg := Nat.pos_of_ne_zero hprg
  prgRom := Memory.isArray_ofBytes _ (List.length_take_le ..)
  chrRom := Memory.isArray_ofBytes _ (List.length_take_le ..)

/-- A mapper starts with its sentinel in place (R57). -/
theorem mapperOf_wf {id : Nat} {regs : MapperRegs} (h : mapperOf id = .ok regs) : regs.Wf := by
  rcases mapperOf_ok h with ⟨-, rfl⟩ | ⟨-, rfl⟩
  · trivial
  · exact (by decide : (0x10 : BitVec 5) ≠ 0)

/-- Settles O39: a load answers the power-on of an accepted file, which has the invariant; it steps because it is not halted, and every
step keeps the invariant. -/
theorem loadedMachineHasInvariant : Obligations.LoadedMachineHasInvariant := by
  intro l file s hparams hmem hload
  obtain ⟨img, regs, hcase, rfl⟩ := parseCase_of_load_ok hload
  cases hcase with
  | accepted _ _ hprg hregs _ =>
    have hinv := powerOn_inv (fileImage_wf hprg l.prgRamPresent) (mapperOf_wf hregs) hparams hmem
    have hrun := powerOn_halted (fileImage file l.prgRamPresent) regs l
    obtain ⟨t, ht, -⟩ := step_answers hrun
    exact ⟨hinv, hrun, t, ht, stepKeepsInvariant _ t hinv ht⟩

/-! ## The power-on state -/

/-- Settles O40: PC is the vector's two bytes as a number; every other part is read off the power-on state. -/
theorem powerOnState : Obligations.PowerOnState := by
  intro img regs l s r
  have hs : s = (powerOnBase img regs l).setPc (mkWord (cartRead img (powerOnBase img regs l).mapper 0xFFFC)
      (cartRead img (powerOnBase img regs l).mapper 0xFFFD)) := powerOn_eq img regs l
  rw [hs]
  exact ⟨mkWord_toNat _ _, rfl, rfl, rfl, rfl, rfl, rfl, rfl, rfl, rfl, rfl, rfl, rfl⟩

end Sys2Proof.Machine
end

section
/-! PROOFS. The picture bus and the picture registers (R170 to R181): one equation per window of the picture bus, one per register. -/

namespace Sys2Proof.Machine

/-! ## The windows of the picture bus -/

/-- The picture bus is 14 bits wide (R179). -/
theorem ppuRead_mod (img : Image) (m : Mapper) (p : Ppu) (a : Nat) : ppuRead img m p (a % 0x4000) = ppuRead img m p a := by
  simp only [ppuRead, Nat.mod_mod]

theorem ppuRead_pattern {a : Nat} (h : a < 0x2000) (img : Image) (m : Mapper) (p : Ppu) : ppuRead img m p a = chrRead img m a := by
  simp only [ppuRead, Nat.mod_eq_of_lt (show a < 0x4000 by omega), h, if_true]

theorem ppuRead_nametable {a : Nat} (hlow : 0x2000 ≤ a) (hhigh : a < 0x3F00) (img : Image) (m : Mapper) (p : Ppu) :
    ppuRead img m p a = p.ntRam.read (nametableCell (mirroringOf img m.regs) a) := by
  simp only [ppuRead, Nat.mod_eq_of_lt (show a < 0x4000 by omega), show ¬ a < 0x2000 by omega, hhigh, if_true, if_false]

theorem ppuRead_palette {a : Nat} (hlow : 0x3F00 ≤ a) (hhigh : a < 0x4000) (img : Image) (m : Mapper) (p : Ppu) :
    ppuRead img m p a = p.pal.read (paletteAlias (a % 0x20)) := by
  simp only [ppuRead, Nat.mod_eq_of_lt hhigh, show ¬ a < 0x2000 by omega, show ¬ a < 0x3F00 by omega, if_false]

theorem paletteAlias_eq_aliased (i : Nat) : paletteAlias i = aliased i := by
  simp [paletteAlias, aliased]

/-- The page table of R180, as a list. -/
theorem nametablePage_eq (m : Mirroring) {q : Nat} (h : q < 4) : nametablePage m q = (mirrorPages m).getD q 0 := by
  have hq : q = 0 ∨ q = 1 ∨ q = 2 ∨ q = 3 := by omega
  rcases hq with rfl | rfl | rfl | rfl <;> cases m <;> rfl

theorem nametableCell_eq_ntRamCell (m : Mirroring) (a : Nat) : nametableCell m a = ntRamCell m a := by
  simp only [nametableCell, ntRamCell]
  rw [nametablePage_eq m (by omega)]
  omega

/-- Logical nametable `q`, at offset `o`, by its page; the mirror of it at 0x3000 is the same cell (R179, R180). -/
theorem ntRamCell_at (m : Mirroring) {q o a : Nat} (hq : q < 4) (ho : o < 0x400)
    (ha : a = 0x2000 + 0x400 * q + o ∨ a = 0x3000 + 0x400 * q + o) : ntRamCell m a = 0x400 * (mirrorPages m).getD q 0 + o := by
  have htable : (a - 0x2000) % 0x1000 / 0x400 = q := by omega
  have hoffset : (a - 0x2000) % 0x400 = o := by omega
  rw [ntRamCell, htable, hoffset]

/-! ## Pattern memory -/

theorem chrRead_eq_chrByte (s : State) (a : Nat) : chrRead s.image s.mapper a = chrByte s (chrIndex s.image s.mapper.regs a) := rfl

/-- Bit 4 of mapper 1's `control`, the CHR mode, as a number (R60). -/
theorem Mmc1.chrMode_eq (r : Mmc1) : r.control.getLsbD 4 = decide (r.control.toNat / 16 = 1) := by
  have h := r.control.isLt
  rw [BitVec.getLsbD, Nat.testBit_eq_decide_div_mod_eq]
  congr 1
  rw [eq_iff_iff]
  omega

/-- The bank of a pattern address in each CHR mode (R62). -/
theorem Mmc1.chrBank_eq (r : Mmc1) (a : Nat) : r.chrBank a =
    if r.control.toNat / 16 = 1 then (if a < 0x1000 then r.chr0.toNat else r.chr1.toNat)
    else (if a < 0x1000 then r.chr0.toNat / 2 * 2 else r.chr0.toNat / 2 * 2 + 1) := by
  simp only [Mmc1.chrBank, Mmc1.chrMode_eq, decide_eq_true_eq]

theorem pictureByte_mmc1 {s : State} {r : Mmc1} (hregs : s.mapper.regs = .mapper1 r) {a : Nat} (h : a < 0x2000) :
    pictureByte s a = chrByte s (0x1000 * (r.chrBank a % s.image.chrBanks) + a % 0x1000) := by
  rw [pictureByte, ppuRead_pattern h, chrRead_eq_chrByte, hregs, chrIndex, Nat.mul_comm]

theorem pictureByte_chrRom {s : State} {a : Nat} (h : a < 0x2000) (hrom : s.image.nChr ≠ 0) :
    pictureByte s a = s.image.chrRom.read (chrIndex s.image s.mapper.regs a) := by
  rw [pictureByte, ppuRead_pattern h, chrRead, if_neg hrom]

/-- With CHR-RAM the mapper reaches the cell of `chrRamCell` (R52, R56, R62). -/
theorem chrIndex_eq_chrRamCell {img : Image} (h : img.nChr = 0) (regs : MapperRegs) {a : Nat} (ha : a < 0x2000) :
    chrIndex img regs a = chrRamCell regs a := by
  cases regs with
  | mapper0 => rfl
  | mapper1 r =>
    have hmode := r.control.isLt
    simp only [chrIndex, chrRamCell, Image.chrBanks, h, Mmc1.chrBank_eq, if_true]
    grind

theorem pictureByte_chrRam {s : State} {a : Nat} (h : a < 0x2000) (hram : s.image.nChr = 0) :
    pictureByte s a = s.mapper.chrRam.read (chrRamCell s.mapper.regs a) := by
  rw [pictureByte, ppuRead_pattern h, chrRead, if_pos hram, chrIndex_eq_chrRamCell hram _ h]

/-- Mapper 1's mirroring mode, as a number (R60). -/
theorem mirroringBits_eq (c : BitVec 5) : (bitField 2 0 c).toNat = c.toNat % 4 := by
  simp [bitField_toNat]

/-- Settles O49, window by window. -/
theorem pictureBusDecode : Obligations.PictureBusDecode := by
  intro s
  refine ⟨ppuRead_mod _ _ _, fun hregs => ⟨by rw [hregs]; rfl, fun a ha => ?mapper0⟩, fun r hregs => ⟨?mirroring, fun a ha => ?mapper1⟩,
    fun q hq o ho => ?nametable, fun k hk => ?palette⟩
  case mapper0 => rw [pictureByte, ppuRead_pattern ha, chrRead_eq_chrByte, hregs, chrIndex]
  case mirroring =>
    rw [hregs, ← mirroringBits_eq]
    rfl
  case mapper1 =>
    intro nB bank
    have hoffset : a % 0x1000 = a := Nat.mod_eq_of_lt ha
    have hoffset' : (0x1000 + a) % 0x1000 = a := by omega
    rw [pictureByte_mmc1 hregs (by omega), pictureByte_mmc1 hregs (by omega), Mmc1.chrBank_eq, Mmc1.chrBank_eq, hoffset, hoffset',
      if_pos ha, if_pos ha, if_neg (show ¬ 0x1000 + a < 0x1000 by omega), if_neg (show ¬ 0x1000 + a < 0x1000 by omega)]
    refine ⟨fun hmode => ?_, fun hmode => ?_⟩
    · simp only [hmode, Nat.zero_ne_one, if_false]; exact ⟨rfl, rfl⟩
    · simp only [hmode, if_true]; exact ⟨rfl, rfl⟩
  case nametable =>
    refine ⟨?_, fun hbelow => ?_⟩
    · rw [pictureByte, ppuRead_nametable (by omega) (by omega), nametableCell_eq_ntRamCell, ntRamCell_at _ hq ho (.inl rfl)]
    · rw [pictureByte, ppuRead_nametable (by omega) (by omega), nametableCell_eq_ntRamCell, ntRamCell_at _ hq ho (.inr rfl)]
  case palette =>
    rw [pictureByte, ppuRead_palette (by omega) (by omega), paletteAlias_eq_aliased, show (0x3F00 + k) % 0x20 = k % 0x20 by omega]

/-! ## Register writes -/

theorem busWrite_pictureReg (base : Nat) {n : Nat} {a : Word} (h : isPictureReg n a) (d : Byte) (s : State) :
    busWrite base a d s = pictureWrite n d s := by
  obtain ⟨hlow, hhigh, rfl⟩ := h
  simp only [busWrite, show ¬ a.toNat < 0x2000 by omega, hhigh, if_true, if_false]

/-- PPUCTRL on the whole machine (R171). -/
theorem writeCtrl_eq (d : Byte) (s : State) : writeCtrl d s = { s with
    ppu := s.ppu.writeCtrl d
    cpu := { s.cpu with nmiPending := s.cpu.nmiPending ||
      (s.params.nmiOnEnableInVblank && s.ppu.vblank && !s.ppu.ctrl.getLsbD 7 && d.getLsbD 7) } } := by
  have hsignals : (s.params.nmiOnEnableInVblank && !s.ppu.ctrl.getLsbD 7 && d.getLsbD 7 && s.ppu.vblank)
      = (s.params.nmiOnEnableInVblank && s.ppu.vblank && !s.ppu.ctrl.getLsbD 7 && d.getLsbD 7) := by ac_rfl
  rw [writeCtrl, hsignals]
  cases s.params.nmiOnEnableInVblank && s.ppu.vblank && !s.ppu.ctrl.getLsbD 7 && d.getLsbD 7 with
  | true => simp [State.setPpu, State.setNmi]
  | false => simp [State.setPpu]

/-- A field copied from bit `src` of a value to bit `lo` of another, bit by bit. -/
theorem copiedField_getLsbD {w u n src lo k : Nat} (hk : k < w) (d : BitVec u) (v : BitVec w) :
    (setBitField lo (bitField n src d) v).getLsbD k = if lo ≤ k ∧ k < lo + n then d.getLsbD (src + (k - lo)) else v.getLsbD k := by
  rw [setBitField_getLsbD, bitField_getLsbD, decide_eq_true hk, Bool.true_and]
  split
  case isTrue h => rw [decide_eq_true (by omega), Bool.true_and]
  case isFalse => rfl

/-- PPUCTRL's two nametable bits in `t` (R171). -/
theorem Ppu.writeCtrl_t_getLsbD (d : Byte) (p : Ppu) {k : Nat} (hk : k < 15) :
    (p.writeCtrl d).t.getLsbD k = if k = 10 ∨ k = 11 then d.getLsbD (k - 10) else p.t.getLsbD k := by
  rw [Ppu.writeCtrl, copiedField_getLsbD hk]
  grind

theorem Ppu.writeScroll_first {p : Ppu} (hw : p.w = false) (d : Byte) :
    p.writeScroll d = { p with t := setBitField 0 (bitField 5 3 d) p.t, x := bitField 3 0 d, w := true } := by
  simp [Ppu.writeScroll, hw]

theorem Ppu.writeScroll_second {p : Ppu} (hw : p.w = true) (d : Byte) :
    p.writeScroll d = { p with t := setBitField 5 (bitField 5 3 d) (setBitField 12 (bitField 3 0 d) p.t), w := false } := by
  simp [Ppu.writeScroll, hw]

theorem Ppu.writeAddr_first {p : Ppu} (hw : p.w = false) (d : Byte) :
    p.writeAddr d = { p with t := setBitField 14 (0 : BitVec 1) (setBitField 8 (bitField 6 0 d) p.t), w := true } := by
  simp [Ppu.writeAddr, hw]

theorem Ppu.writeAddr_second {p : Ppu} (hw : p.w = true) (d : Byte) :
    p.writeAddr d = { p with t := setBitField 0 d p.t, v := setBitField 0 d p.t, w := false } := by
  simp [Ppu.writeAddr, hw]

/-- Settles O50: a write reaches its register by `busWrite_pictureReg`; the bits of `t` are copied fields. -/
theorem pictureRegisterWrites : Obligations.PictureRegisterWrites := by
  intro s base a d t p
  refine ⟨fun h => ⟨(p.writeCtrl d).t, fun k hk => p.writeCtrl_t_getLsbD d hk, ?ctrl⟩, fun h => busWrite_pictureReg base h d s,
    fun h => busWrite_pictureReg base h d s, fun h => busWrite_pictureReg base h d s,
    fun h => ⟨p.oamaddr + 1, BitVec.toNat_add .., busWrite_pictureReg base h d s, busRead_pictureReg h s⟩,
    fun h => ⟨(p.writeScroll d).t, fun hw => ?scroll1, fun hw => ?scroll2⟩,
    fun h => ⟨(p.writeAddr d).t, fun hw => ?addr1, fun hw => ?addr2⟩⟩
  case ctrl => exact (busWrite_pictureReg base h d s).trans (writeCtrl_eq d s)
  case scroll1 =>
    rw [Ppu.writeScroll_first hw]
    refine ⟨fun k hk => ?_, bitField 3 0 d, by simp [bitField_toNat], ?_⟩
    · rw [copiedField_getLsbD hk]; grind
    · rw [show t = s.setPpu (p.writeScroll d) from busWrite_pictureReg base h d s, Ppu.writeScroll_first hw]
  case scroll2 =>
    rw [Ppu.writeScroll_second hw]
    refine ⟨fun k hk => ?_, ?_⟩
    · rw [copiedField_getLsbD hk, copiedField_getLsbD hk]; grind
    · rw [show t = s.setPpu (p.writeScroll d) from busWrite_pictureReg base h d s, Ppu.writeScroll_second hw]
  case addr1 =>
    rw [Ppu.writeAddr_first hw]
    refine ⟨fun k hk => ?_, ?_⟩
    · rw [setBitField_getLsbD, copiedField_getLsbD hk]; grind
    · rw [show t = s.setPpu (p.writeAddr d) from busWrite_pictureReg base h d s, Ppu.writeAddr_first hw]
  case addr2 =>
    rw [Ppu.writeAddr_second hw]
    refine ⟨fun k hk => ?_, ?_⟩
    · rw [setBitField_getLsbD]; grind
    · rw [show t = s.setPpu (p.writeAddr d) from busWrite_pictureReg base h d s, Ppu.writeAddr_second hw]

/-! ## PPUSTATUS and PPUDATA -/

/-- Bits drawn under a mask leave the others alone. -/
theorem getLsbD_or_masked {mask : Byte} {i : Nat} (h : mask.getLsbD i = false) (x draw : Byte) :
    (x ||| (draw &&& mask)).getLsbD i = x.getLsbD i := by
  rw [BitVec.getLsbD_or, BitVec.getLsbD_and, h, Bool.and_false, Bool.or_false]

/-- The status byte (R173): the three flags, and the draw's low five bits. -/
theorem Ppu.status_bits (draw : Byte) (p : Ppu) :
    (p.status draw).getLsbD 7 = p.vblank ∧ (p.status draw).getLsbD 6 = p.s0hit ∧ (p.status draw).getLsbD 5 = p.ovf ∧
    (p.status draw).toNat % 32 = draw.toNat % 32 := by
  obtain ⟨h7, h6, h5, -⟩ := byteOfBits_getLsbD p.vblank p.s0hit p.ovf false false false false false
  have hflags : (byteOfBits p.vblank p.s0hit p.ovf false false false false false).toNat % 2 ^ 5 = 0 := by
    generalize p.vblank = b7, p.s0hit = b6, p.ovf = b5
    revert b7 b6 b5; decide
  have hdraw : (draw &&& 0x1F).toNat % 2 ^ 5 = draw.toNat % 2 ^ 5 := by revert draw; decide
  refine ⟨?_, ?_, ?_, ?_⟩
  · exact (getLsbD_or_masked rfl _ _).trans h7
  · exact (getLsbD_or_masked rfl _ _).trans h6
  · exact (getLsbD_or_masked rfl _ _).trans h5
  · rw [show 32 = 2 ^ 5 from rfl, Ppu.status, BitVec.toNat_or, Nat.or_mod_two_pow, hflags, hdraw, Nat.zero_or]

/-- `v` moves by 1 or 32 (R178). -/
theorem Ppu.advance_advancedV (p : Ppu) : AdvancedV p p.advance.v := by
  simp only [AdvancedV, Ppu.advance, BitVec.toNat_add]
  split <;> rfl

theorem busRead_data_below {a : Word} (h : isPictureReg 7 a) {s : State} (hx : s.ppu.dataAddr < 0x3F00) :
    busRead a s = (s.ppu.rbuf, s.setPpu { s.ppu with rbuf := pictureByte s s.ppu.dataAddr, v := s.ppu.advance.v }) := by
  rw [busRead_pictureReg h]
  simp [pictureRead, readDataByte, readDataEffect, hx, Ppu.advance, pictureByte]

theorem busRead_data_palette {a : Word} (h : isPictureReg 7 a) {s : State} (hx : 0x3F00 ≤ s.ppu.dataAddr) :
    busRead a s = (pictureByte s s.ppu.dataAddr,
      s.setPpu { s.ppu with rbuf := pictureByte s (s.ppu.dataAddr - 0x1000), v := s.ppu.advance.v }) := by
  rw [busRead_pictureReg h]
  simp [pictureRead, readDataByte, readDataEffect, Nat.not_lt.mpr hx, Ppu.advance, pictureByte]

theorem cellWritten_write {c : Prop} (hc : c) (k : Nat) (d : Byte) (m : Memory) : CellWritten c k d m (m.write k d) :=
  ⟨fun _ => ⟨fun hwf => Memory.read_write_self hwf k d, fun _ hj => Memory.read_write_ne m d hj⟩, fun hn => absurd hc hn⟩

theorem cellWritten_kept {c : Prop} (hc : ¬ c) (k : Nat) (d : Byte) (m : Memory) : CellWritten c k d m m :=
  ⟨fun h => absurd h hc, fun _ => rfl⟩

/-- A machine with other bytes in the memories PPUDATA reaches, and another `v`. -/
def State.withPictureMemories (s : State) (v : Loopy) (nt pal chr : Memory) : State :=
  { s with ppu := { s.ppu with ntRam := nt, pal := pal, v := v }, mapper := { s.mapper with chrRam := chr } }

/-- A PPUDATA write stores in at most one cell, by the window of its address (R178, R179). -/
theorem writeData_stores (d : Byte) (s : State) :
    let x := s.ppu.dataAddr
    ∃ nt pal chr, writeData d s = s.withPictureMemories s.ppu.advance.v nt pal chr ∧
      CellWritten (x < 0x2000 ∧ s.image.nChr = 0) (chrRamCell s.mapper.regs x) d s.mapper.chrRam chr ∧
      CellWritten (0x2000 ≤ x ∧ x < 0x3F00) (ntRamCell (mirroringOf s.image s.mapper.regs) x) d s.ppu.ntRam nt ∧
      CellWritten (0x3F00 ≤ x) (aliased (x % 0x20)) d s.ppu.pal pal := by
  intro x
  have hx : x % 0x4000 = x := Nat.mod_mod ..
  have hwrite : writeData d s = (s.setPpu (ppuWriteMem s.image s.mapper x d s.ppu).advance).setMapper
    (ppuWriteCart s.image x d s.mapper) := rfl
  rw [hwrite]
  unfold ppuWriteMem ppuWriteCart
  simp only [hx]
  rcases Nat.lt_or_ge x 0x2000 with hpattern | hlow
  · by_cases hram : s.image.nChr = 0
    · refine ⟨_, _, _, ?_, cellWritten_write ⟨hpattern, hram⟩ .., cellWritten_kept (by omega) .., cellWritten_kept (by omega) ..⟩
      rw [if_pos hpattern, if_pos hpattern, chrWrite, if_pos hram, chrIndex_eq_chrRamCell hram _ hpattern]
      rfl
    · refine ⟨_, _, _, ?_, cellWritten_kept (fun h => hram h.2) .., cellWritten_kept (by omega) .., cellWritten_kept (by omega) ..⟩
      rw [if_pos hpattern, if_pos hpattern, chrWrite, if_neg hram]
      rfl
  rcases Nat.lt_or_ge x 0x3F00 with htable | hpalette
  · refine ⟨_, _, _, ?_, cellWritten_kept (by omega) .., cellWritten_write ⟨hlow, htable⟩ .., cellWritten_kept (by omega) ..⟩
    rw [if_neg (by omega), if_pos htable, if_neg (by omega), nametableCell_eq_ntRamCell]
    rfl
  · refine ⟨_, _, _, ?_, cellWritten_kept (by omega) .., cellWritten_kept (by omega) .., cellWritten_write hpalette ..⟩
    rw [if_neg (by omega), if_neg (by omega), if_neg (by omega), paletteAlias_eq_aliased]
    rfl

/-- The picture address of a written cell reads back the byte (R178, R179). -/
theorem pictureByte_withPictureMemories {s : State} {v : Loopy} {nt pal chr : Memory} {x : Nat} {d : Byte} (hx : x < 0x4000)
    (hchr : CellWritten (x < 0x2000 ∧ s.image.nChr = 0) (chrRamCell s.mapper.regs x) d s.mapper.chrRam chr)
    (hnt : CellWritten (0x2000 ≤ x ∧ x < 0x3F00) (ntRamCell (mirroringOf s.image s.mapper.regs) x) d s.ppu.ntRam nt)
    (hpal : CellWritten (0x3F00 ≤ x) (aliased (x % 0x20)) d s.ppu.pal pal)
    (wchr : s.mapper.chrRam.wf = true) (wnt : s.ppu.ntRam.wf = true) (wpal : s.ppu.pal.wf = true)
    (hstores : 0x2000 ≤ x ∨ s.image.nChr = 0) : pictureByte (s.withPictureMemories v nt pal chr) x = d := by
  rcases Nat.lt_or_ge x 0x2000 with hpattern | hlow
  · have hram : s.image.nChr = 0 := hstores.resolve_left (by omega)
    exact (pictureByte_chrRam (s := s.withPictureMemories v nt pal chr) hpattern hram).trans ((hchr.1 ⟨hpattern, hram⟩).1 wchr)
  rcases Nat.lt_or_ge x 0x3F00 with htable | hpalette
  · rw [pictureByte, ppuRead_nametable hlow htable, nametableCell_eq_ntRamCell]
    exact (hnt.1 ⟨hlow, htable⟩).1 wnt
  · rw [pictureByte, ppuRead_palette hpalette hx, paletteAlias_eq_aliased]
    exact (hpal.1 hpalette).1 wpal

/-- Settles O51: the status byte by its bits, a PPUDATA read by the two sides of the palette's edge, a PPUDATA write by its cell. -/
theorem pictureRegisterReads : Obligations.PictureRegisterReads := by
  intro s base a d r t p x
  refine ⟨fun h => ?status, fun h => ⟨p.advance.v, p.advance_advancedV, fun hx => ?below, fun hx => busRead_data_palette h hx⟩,
    fun h => ?write⟩
  case status =>
    obtain ⟨hvblank, hs0hit, hovf, hdraw⟩ := p.status_bits (Config.undefRead s.env.undefDraws)
    have hr : r = (p.status s.drawUndef.1, s.drawUndef.2.setPpu p.statusRead) := busRead_pictureReg h s
    rw [hr]
    exact ⟨hvblank, hs0hit, hovf, hdraw, rfl⟩
  case below =>
    have hr : r = (p.rbuf, s.setPpu { p with rbuf := pictureByte s x, v := p.advance.v }) := busRead_data_below h hx
    refine ⟨hr, fun hnext => ?_⟩
    rw [hr, peek, busRead_data_below (s := s.setPpu { p with rbuf := pictureByte s x, v := p.advance.v }) h hnext]
    rfl
  case write =>
    obtain ⟨nt, pal, chr, hwrite, hchr, hnt, hpal⟩ := writeData_stores d s
    have ht : t = s.withPictureMemories p.advance.v nt pal chr := (busWrite_pictureReg base h d s).trans hwrite
    refine ⟨p.advance.v, nt, pal, chr, p.advance_advancedV, ht, hchr, hnt, hpal, fun wchr wnt wpal => ⟨fun hstores => ?_,
      fun hpattern hrom => ?_⟩⟩
    · rw [ht]
      exact pictureByte_withPictureMemories (Nat.mod_lt _ (by decide)) hchr hnt hpal wchr wnt wpal hstores
    · rw [ht]
      exact (pictureByte_chrRom (s := s.withPictureMemories p.advance.v nt pal chr) hpattern hrom).trans (pictureByte_chrRom hpattern hrom).symm

end Sys2Proof.Machine
end

section
/-! PROOFS. The picture unit's ticks (R183 to R187, R194): what a position's events can be is said once, as `PictureEventCase`; the
statements about single ticks read it, and the frame's length is counted tick by tick. -/

namespace Sys2Proof.Machine

/-! ## The events of a position -/

/-- The positions at which `v` moves (R184, R185). -/
def MovesV (p : Ppu) : Prop :=
  p.rendering = true ∧ p.scanline ≤ 239 ∧
    (p.cycle = 256 ∨ p.cycle = 257 ∨ (p.scanline = -1 ∧ 280 ≤ p.cycle ∧ p.cycle ≤ 304))

/-- The positions at which a line is rendered (R184). -/
def RendersLine (p : Ppu) : Prop := 0 ≤ p.scanline ∧ p.scanline ≤ 239 ∧ p.cycle = 0

/-- Everything the events of a position can be (R184); the other positions have none. -/
inductive PictureEventCase (s : State) : State → Prop
  | render (h : RendersLine s.ppu) : PictureEventCase s
      (s.setPpu (renderLine s.image s.mapper s.params.spriteYOffset s.ppu.scanline.toNat s.ppu))
  | clear (hline : s.ppu.scanline = -1) (hcycle : s.ppu.cycle = 1) : PictureEventCase s (s.setPpu (clearStatus s.ppu))
  | vblank (hline : s.ppu.scanline = 241) (hcycle : s.ppu.cycle = 1) : PictureEventCase s (vblankStart s)
  | incY (h : MovesV s.ppu) (hcycle : s.ppu.cycle = 256) :
      PictureEventCase s (s.setPpu { s.ppu with v := Loopy.incY s.ppu.v })
  | copyX (h : MovesV s.ppu) (hcycle : s.ppu.cycle = 257) :
      PictureEventCase s (s.setPpu { s.ppu with v := Loopy.copyX s.ppu.t s.ppu.v })
  | copyY (h : MovesV s.ppu) (hline : s.ppu.scanline = -1) (hlow : 280 ≤ s.ppu.cycle) (hhigh : s.ppu.cycle ≤ 304) :
      PictureEventCase s (s.setPpu { s.ppu with v := Loopy.copyY s.ppu.t s.ppu.v })
  | none (hrender : ¬ RendersLine s.ppu) (hclear : ¬ (s.ppu.scanline = -1 ∧ s.ppu.cycle = 1))
      (hvblank : ¬ (s.ppu.scanline = 241 ∧ s.ppu.cycle = 1)) (hmoves : ¬ MovesV s.ppu) : PictureEventCase s s

theorem pictureEvents_case (s : State) : PictureEventCase s (pictureEvents s) := by
  unfold pictureEvents
  dsimp only
  split
  case isTrue h0 =>
    split
    case isTrue h => exact .render ⟨h.1, h.2, h0⟩
    case isFalse h =>
      exact .none (fun hr => h ⟨hr.1, hr.2.1⟩) (by omega) (by omega) (fun hm => by obtain ⟨-, -, hm⟩ := hm; omega)
  case isFalse h0 =>
  have hrender : ¬ RendersLine s.ppu := fun hr => h0 hr.2.2
  split
  case isTrue h1 =>
    have hmoves : ¬ MovesV s.ppu := fun hm => by obtain ⟨-, -, hm⟩ := hm; omega
    split
    case isTrue hline => exact .clear hline h1
    case isFalse hclear =>
      split
      case isTrue hline => exact .vblank hline h1
      case isFalse hvblank => exact .none hrender (fun h => hclear h.1) (fun h => hvblank h.1) hmoves
  case isFalse h1 =>
  have hnone : ¬ MovesV s.ppu → PictureEventCase s s := .none hrender (fun h => h1 h.2) (fun h => h1 h.2)
  split
  case isTrue hoff =>
    refine hnone fun hm => ?_
    obtain ⟨hon, hline, -⟩ := hm
    simp only [hon, Bool.not_true, Bool.false_or, decide_eq_true_eq] at hoff
    omega
  case isFalse hon =>
  obtain ⟨hrendering, hline⟩ : s.ppu.rendering = true ∧ s.ppu.scanline ≤ 239 := by simpa using hon
  split
  case isTrue h256 => exact .incY ⟨hrendering, hline, .inl h256⟩ h256
  case isFalse h256 =>
  split
  case isTrue h257 => exact .copyX ⟨hrendering, hline, .inr (.inl h257)⟩ h257
  case isFalse h257 =>
  split
  case isTrue h260 => exact hnone fun hm => by obtain ⟨-, -, hm⟩ := hm; omega
  case isFalse h260 =>
  split
  case isTrue h => exact .copyY ⟨hrendering, hline, .inr (.inr h)⟩ h.1 h.2.1 h.2.2
  case isFalse h => exact hnone fun hm => by obtain ⟨-, -, hm⟩ := hm; omega

/-- The position's advance touches the position, `frame` and the output trace alone (R183, R194). -/
theorem advancePosition_eq (s : State) : ∃ c l f e,
    advancePosition s = { s with ppu := { s.ppu with cycle := c, scanline := l, frame := f }, env := e } := by
  unfold advancePosition
  dsimp only
  split
  · split
    · exact ⟨_, _, _, _, rfl⟩
    · exact ⟨_, _, _, _, rfl⟩
  · exact ⟨_, _, _, _, rfl⟩

theorem advancePosition_of_ne {s : State} (h : s.ppu.cycle ≠ 340) :
    advancePosition s = s.setPpu { s.ppu with cycle := s.ppu.cycle + 1 } := by
  unfold advancePosition
  exact if_neg (by omega)

/-- What a tick leaves of the CPU, `v` and the status flags is what the position's events leave. -/
theorem pictureTick_events (s : State) : (pictureTick s).cpu = (pictureEvents s).cpu ∧
    (pictureTick s).ppu.v = (pictureEvents s).ppu.v ∧ (pictureTick s).ppu.vblank = (pictureEvents s).ppu.vblank ∧
    (pictureTick s).ppu.ovf = (pictureEvents s).ppu.ovf ∧ (pictureTick s).ppu.s0hit = (pictureEvents s).ppu.s0hit := by
  obtain ⟨c, l, f, e, h⟩ := advancePosition_eq (pictureEvents s)
  rw [pictureTick, h]
  exact ⟨rfl, rfl, rfl, rfl, rfl⟩

/-! ## Vertical blank -/

theorem vblankStart_eq (s : State) : vblankStart s = { s with
    ppu := { s.ppu with vblank := true }, cpu := { s.cpu with nmiPending := s.cpu.nmiPending || s.ppu.ctrl.getLsbD 7 } } := by
  unfold vblankStart
  cases s.ppu.ctrl.getLsbD 7 with
  | true => simp [State.setPpu, State.setNmi]
  | false => simp [State.setPpu]

/-- The tick that starts vertical blank (R187). -/
theorem pictureTick_vblank {s : State} (hline : s.ppu.scanline = 241) (hcycle : s.ppu.cycle = 1) : pictureTick s = { s with
    ppu := { s.ppu with vblank := true, cycle := 2 }
    cpu := { s.cpu with nmiPending := s.cpu.nmiPending || s.ppu.ctrl.getLsbD 7 } } := by
  have hevents : pictureEvents s = vblankStart s := by simp [pictureEvents, hcycle, hline]
  rw [pictureTick, hevents, vblankStart_eq, advancePosition_of_ne (by simp [hcycle])]
  simp [State.setPpu, hcycle]

/-- The tick that clears the three status flags (R184). -/
theorem pictureTick_clear {s : State} (hline : s.ppu.scanline = -1) (hcycle : s.ppu.cycle = 1) :
    pictureTick s = { s with ppu := { s.ppu with vblank := false, s0hit := false, ovf := false, cycle := 2 } } := by
  have hevents : pictureEvents s = s.setPpu (clearStatus s.ppu) := by simp [pictureEvents, hcycle, hline]
  rw [pictureTick, hevents, advancePosition_of_ne (by simp [clearStatus, hcycle])]
  simp [State.setPpu, clearStatus, hcycle]

/-- The step after an NMI was signalled takes it (R155, R158, R217). -/
theorem step_of_nmi {s : State} (hrun : s.cpu.halted = none) (hnmi : s.cpu.nmiPending = true) :
    step s = .next (deviceTicks 7 (takeInterrupt .nmi ((stepStart s).setNmi false))) := by
  have hcycles : (takeInterrupt .nmi ((stepStart s).setNmi false)).cpu.cycles = s.cpu.cycles + 7 := by
    obtain ⟨-, h, -⟩ := takeInterrupt_cpu .nmi ((stepStart s).setNmi false)
    rw [h]
    simp [State.setNmi, stepStart_cpu]
  unfold step
  rw [cpuStep_of_nmi hrun hnmi]
  dsimp only
  rw [hcycles, Nat.add_sub_cancel_left]

theorem renderLine_vblank (img : Image) (m : Mapper) (y s : Nat) (p : Ppu) : (renderLine img m y s p).vblank = p.vblank := by
  obtain ⟨_, _, _, _, _, h⟩ := renderLine_eq img m y s p
  rw [h]

/-- A picture register write leaves the vertical-blank flag alone (R170). -/
theorem pictureWrite_vblank (n : Nat) (d : Byte) (s : State) : (pictureWrite n d s).ppu.vblank = s.ppu.vblank := by
  unfold pictureWrite
  split
  case h_1 => rw [writeCtrl_eq]; rfl
  case h_5 => simp only [State.setPpu_ppu, Ppu.writeScroll]; split <;> rfl
  case h_6 => simp only [State.setPpu_ppu, Ppu.writeAddr]; split <;> rfl
  case h_7 =>
    obtain ⟨nt, pal, chr, h, -⟩ := writeData_stores d s
    rw [h]
    rfl
  all_goals rfl

theorem BusWriteCase.vblank_eq {base : Nat} {a : Word} {d : Byte} {s t : State} (h : BusWriteCase base a d s t) (hdma : a ≠ 0x4014) :
    t.ppu.vblank = s.ppu.vblank := by
  cases h with
  | picture => exact pictureWrite_vblank ..
  | dma h => exact absurd h hdma
  | ram | ports | audio | cart => rfl

namespace PictureEventCase

variable {s t : State}

theorem cpu_eq (h : PictureEventCase s t) (hvblank : ¬ (s.ppu.scanline = 241 ∧ s.ppu.cycle = 1)) : t.cpu = s.cpu := by
  cases h with
  | vblank hline hcycle => exact absurd ⟨hline, hcycle⟩ hvblank
  | render | clear | incY | copyX | copyY | none => rfl

theorem vblank_eq (h : PictureEventCase s t) (hvblank : ¬ (s.ppu.scanline = 241 ∧ s.ppu.cycle = 1))
    (hclear : ¬ (s.ppu.scanline = -1 ∧ s.ppu.cycle = 1)) : t.ppu.vblank = s.ppu.vblank := by
  cases h with
  | render => exact renderLine_vblank ..
  | clear hline hcycle => exact absurd ⟨hline, hcycle⟩ hclear
  | vblank hline hcycle => exact absurd ⟨hline, hcycle⟩ hvblank
  | incY | copyX | copyY | none => rfl

end PictureEventCase

/-- Settles O36, from the events' cases and the bus accesses' effects on the picture unit. -/
theorem vblankSignalsNmi : Obligations.VblankSignalsNmi := by
  intro s
  obtain ⟨hcpu, -, hvblank, -⟩ := pictureTick_events s
  refine ⟨fun hline hcycle => ⟨pictureTick_vblank hline hcycle, fun hctrl hrun => ?nmi⟩, pictureTick_clear,
    fun hnot => ⟨?cpu, fun hnotClear => ?kept⟩, fun a h2 => ?read, fun base a d hdma => ?write⟩
  case nmi =>
    rw [pictureTick_vblank hline hcycle]
    exact step_of_nmi hrun (by simp [hctrl])
  case cpu => exact hcpu.trans ((pictureEvents_case s).cpu_eq hnot)
  case kept => exact hvblank.trans ((pictureEvents_case s).vblank_eq hnot hnotClear)
  case read =>
    rcases busRead_ppu a s with h | ⟨h, -⟩ | ⟨-, h⟩
    · rw [h]
    · exact absurd h h2
    · rw [h]; rfl
  case write => exact (busWrite_case base a d s).vblank_eq hdma

/-! ## The three updates of `v` -/

theorem Loopy.fineY_toNat (v : Loopy) : (Loopy.fineY v).toNat = v.toNat / 0x1000 := by
  have hv := v.isLt
  simp only [Loopy.fineY, bitField_toNat, Nat.reducePow]
  omega

theorem Loopy.coarseY_toNat (v : Loopy) : (Loopy.coarseY v).toNat = v.toNat / 0x20 % 32 := by
  simp only [Loopy.coarseY, bitField_toNat, Nat.reducePow]

/-- `ntY` flipped, as the one-bit field it is stored in. -/
theorem Loopy.ntY_flipped (v : Loopy) : (BitVec.ofBool (!Loopy.ntY v)).toNat = 1 - v.toNat / 0x800 % 2 := by
  have hbit : Loopy.ntY v = decide (v.toNat / 2 ^ 11 % 2 = 1) := Nat.testBit_eq_decide_div_mod_eq
  rw [hbit]
  rcases Nat.mod_two_eq_zero_or_one (v.toNat / 0x800) with h | h <;> simp [h]

/-- `v` with fine Y cleared: the first part of every step of `IncY` past the tile's last row. -/
theorem Loopy.clearFineY_toNat (v : Loopy) : (setBitField 12 (0 : BitVec 3) v).toNat = v.toNat % 0x1000 := by
  have hv := v.isLt
  rw [setBitField_toNat _ _ _ (by decide)]
  simp only [Nat.reducePow, Nat.reduceAdd, BitVec.ofNat_eq_ofNat, BitVec.toNat_ofNat]
  omega

/-- `IncY` (R185), field by field. -/
theorem Loopy.incY_toNat (v : Loopy) :
    let fine := v.toNat / 0x1000
    let ntY := v.toNat / 0x800 % 2
    let cy := v.toNat / 0x20 % 32
    let field := fun f n c => v.toNat % 0x20 + 0x20 * c + 0x400 * (v.toNat / 0x400 % 2) + 0x800 * n + 0x1000 * f
    (Loopy.incY v).toNat =
      if fine < 7 then field (fine + 1) ntY cy
      else if cy = 29 then field 0 (1 - ntY) 0
      else if cy = 31 then field 0 ntY 0
      else field 0 ntY (cy + 1) := by
  intro fine ntY cy field
  have hv := v.isLt
  have hcoarse : (Loopy.coarseY (setBitField 12 (0 : BitVec 3) v)).toNat = cy := by
    rw [Loopy.coarseY_toNat, Loopy.clearFineY_toNat]; omega
  have hflip : (BitVec.ofBool (!Loopy.ntY (setBitField 12 (0 : BitVec 3) v))).toNat = 1 - ntY := by
    rw [Loopy.ntY_flipped, Loopy.clearFineY_toNat]; omega
  unfold Loopy.incY
  rw [Loopy.fineY_toNat]
  dsimp only
  rw [hcoarse]
  split
  case isTrue hfine =>
    rw [setBitField_toNat _ _ _ (by decide), BitVec.toNat_add, Loopy.fineY_toNat]
    simp only [Nat.reducePow, Nat.reduceAdd, BitVec.ofNat_eq_ofNat, BitVec.toNat_ofNat, fine, ntY, cy, field] at hfine ⊢
    omega
  case isFalse =>
  split
  case isTrue =>
    rw [setBitField_toNat _ _ _ (by decide), setBitField_toNat _ _ _ (by decide), hflip, Loopy.clearFineY_toNat]
    simp only [Nat.reducePow, Nat.reduceAdd, BitVec.ofNat_eq_ofNat, BitVec.toNat_ofNat, ntY, field]
    omega
  case isFalse =>
  split
  case isTrue =>
    rw [setBitField_toNat _ _ _ (by decide), Loopy.clearFineY_toNat]
    simp only [Nat.reducePow, Nat.reduceAdd, BitVec.ofNat_eq_ofNat, BitVec.toNat_ofNat, ntY, field]
    omega
  case isFalse h31 =>
    rw [setBitField_toNat _ _ _ (by decide), BitVec.toNat_add, hcoarse, Loopy.clearFineY_toNat]
    simp only [Nat.reducePow, Nat.reduceAdd, BitVec.ofNat_eq_ofNat, BitVec.toNat_ofNat, ntY, cy, field] at h31 ⊢
    omega

theorem Loopy.copyX_getLsbD (t v : Loopy) {k : Nat} (hk : k < 15) :
    (Loopy.copyX t v).getLsbD k = if k < 5 ∨ k = 10 then t.getLsbD k else v.getLsbD k := by
  rw [Loopy.copyX, copiedField_getLsbD hk, copiedField_getLsbD hk]
  grind

theorem Loopy.copyY_getLsbD (t v : Loopy) {k : Nat} (hk : k < 15) :
    (Loopy.copyY t v).getLsbD k = if (5 ≤ k ∧ k < 10) ∨ 11 ≤ k then t.getLsbD k else v.getLsbD k := by
  rw [Loopy.copyY, copiedField_getLsbD hk, copiedField_getLsbD hk]
  grind

theorem renderLine_v (img : Image) (m : Mapper) (y s : Nat) (p : Ppu) : (renderLine img m y s p).v = p.v := by
  obtain ⟨_, _, _, _, _, h⟩ := renderLine_eq img m y s p
  rw [h]

/-- Where no update is due, no event moves `v` (R185). -/
theorem PictureEventCase.v_eq {s t : State} (h : PictureEventCase s t) (hnot : ¬ MovesV s.ppu) : t.ppu.v = s.ppu.v := by
  cases h with
  | render => exact renderLine_v ..
  | vblank => rw [vblankStart_eq]
  | incY hm | copyX hm | copyY hm => exact absurd hm hnot
  | clear | none => rfl

/-- Where an update is due, `v` takes the one of the cycle (R185). -/
theorem PictureEventCase.v_of_movesV {s t : State} (h : PictureEventCase s t) (hm : MovesV s.ppu) : t.ppu.v =
    if s.ppu.cycle = 256 then Loopy.incY s.ppu.v else if s.ppu.cycle = 257 then Loopy.copyX s.ppu.t s.ppu.v
    else Loopy.copyY s.ppu.t s.ppu.v := by
  obtain ⟨-, -, hcycle⟩ := id hm
  cases h with
  | render hr => obtain ⟨-, -, h0⟩ := hr; omega
  | clear | vblank => omega
  | incY _ h256 => rw [if_pos h256]; rfl
  | copyX _ h257 => rw [if_neg (by omega), if_pos h257]; rfl
  | copyY => rw [if_neg (by omega), if_neg (by omega)]; rfl
  | none _ _ _ hnot => exact absurd hm hnot

theorem pictureTick_v_of_movesV {s : State} (hm : MovesV s.ppu) : (pictureTick s).ppu.v =
    if s.ppu.cycle = 256 then Loopy.incY s.ppu.v else if s.ppu.cycle = 257 then Loopy.copyX s.ppu.t s.ppu.v
    else Loopy.copyY s.ppu.t s.ppu.v := by
  obtain ⟨-, hv, -⟩ := pictureTick_events s
  exact hv.trans ((pictureEvents_case s).v_of_movesV hm)

theorem pictureTick_v_of_not_movesV {s : State} (hnot : ¬ MovesV s.ppu) : (pictureTick s).ppu.v = s.ppu.v := by
  obtain ⟨-, hv, -⟩ := pictureTick_events s
  exact hv.trans ((pictureEvents_case s).v_eq hnot)

/-- Settles O52: the updates field by field and bit by bit, the ticks by `MovesV`. -/
theorem loopyUpdates : Obligations.LoopyUpdates := by
  refine ⟨Loopy.incY_toNat, fun t v k hk => ⟨Loopy.copyX_getLsbD t v hk, Loopy.copyY_getLsbD t v hk⟩,
    fun s => ⟨fun hrendering hline => ⟨fun h256 => ?incY, fun h257 => ?copyX, fun hpre hlow hhigh => ?copyY⟩, fun hnot => ?kept⟩⟩
  case incY => rw [pictureTick_v_of_movesV ⟨hrendering, hline, .inl h256⟩, if_pos h256]
  case copyX => rw [pictureTick_v_of_movesV ⟨hrendering, hline, .inr (.inl h257)⟩, if_neg (by omega), if_pos h257]
  case copyY =>
    rw [pictureTick_v_of_movesV ⟨hrendering, hline, .inr (.inr ⟨hpre, hlow, hhigh⟩)⟩, if_neg (by omega), if_neg (by omega)]
  case kept =>
    refine pictureTick_v_of_not_movesV fun hm => ?_
    obtain ⟨hon, hline, hcycle⟩ := hm
    rcases hnot with hoff | hnot
    · exact absurd (hon.symm.trans hoff) (by decide)
    · omega

end Sys2Proof.Machine
end

section
/-! PROOFS. The frame and the sample counter (R183, R194, R211, R217): what one tick of each device counts and puts out; many ticks and
a step follow by induction. -/

namespace Sys2Proof.Machine

/-! ## The output trace, counted -/

theorem State.framesOut_eq_of_out {s t : State} (h : t.env.out = s.env.out) : t.framesOut = s.framesOut := by
  rw [State.framesOut, State.framesOut, h]

theorem State.samplesOut_eq_of_out {s t : State} (h : t.env.out = s.env.out) : t.samplesOut = s.samplesOut := by
  rw [State.samplesOut, State.samplesOut, h]

theorem State.outputs_of_frame {s t : State} {fb : Lines Pixel} (h : t.env.out = .frame fb :: s.env.out) :
    t.framesOut = s.framesOut + 1 ∧ t.samplesOut = s.samplesOut := by
  rw [State.framesOut, State.framesOut, State.samplesOut, State.samplesOut, h]
  exact ⟨List.countP_cons_of_pos rfl, List.countP_cons_of_neg Bool.false_ne_true⟩

theorem State.outputs_of_sample {s t : State} {m : Mix} (h : t.env.out = .sample m :: s.env.out) :
    t.framesOut = s.framesOut ∧ t.samplesOut = s.samplesOut + 1 := by
  rw [State.framesOut, State.framesOut, State.samplesOut, State.samplesOut, h]
  exact ⟨List.countP_cons_of_neg Bool.false_ne_true, List.countP_cons_of_pos rfl⟩

/-! ## The picture unit's ticks -/

/-- Only a rendered line changes the frame buffer (R188). -/
theorem PictureEventCase.fb_eq {s t : State} (h : PictureEventCase s t) (hnot : ¬ RendersLine s.ppu) : t.ppu.fb = s.ppu.fb := by
  cases h with
  | render hr => exact absurd hr hnot
  | vblank => rw [vblankStart_eq]
  | clear | incY | copyX | copyY | none => rfl

/-- Only the last position of a frame puts anything out, and that is the buffer of the moment (R194). -/
theorem pictureTick_out (s : State) : (pictureTick s).env.out =
    if s.ppu.scanline = 260 ∧ s.ppu.cycle = 340 then .frame s.ppu.fb :: s.env.out else s.env.out := by
  obtain ⟨p, n, hevents, hcycle, hline, -⟩ := pictureEvents_eq s
  have hfb : s.ppu.cycle = 340 → p.fb = s.ppu.fb := fun h340 => by
    have hp : p = (pictureEvents s).ppu := by rw [hevents]
    rw [hp]
    exact (pictureEvents_case s).fb_eq fun hr => by obtain ⟨-, -, h0⟩ := hr; omega
  rw [pictureTick, hevents]
  unfold advancePosition
  dsimp only
  rw [hcycle, hline]
  by_cases h340 : s.ppu.cycle = 340
  · rw [if_pos (by omega)]
    by_cases h260 : s.ppu.scanline = 260
    · rw [if_pos (by omega), if_pos ⟨h260, h340⟩, hfb h340]; rfl
    · rw [if_neg (by omega), if_neg fun h => h260 h.1]; rfl
  · rw [if_neg (by omega), if_neg fun h => h340 h.2]; rfl

/-- The last position of a frame is the one whose tick wraps the position (R183). -/
theorem Ppu.Wf.wraps {p : Ppu} (h : p.Wf) : (p.position + 1) / frameTicks = if p.scanline = 260 ∧ p.cycle = 340 then 1 else 0 := by
  obtain ⟨-, -, -, hcycle, hlow, hhigh, -⟩ := h
  unfold Ppu.position frameTicks
  split <;> omega

/-- A tick puts out one frame for each wrap, and never a sample. -/
theorem pictureTick_counts {s : State} (h : s.ppu.Wf) :
    (pictureTick s).framesOut = s.framesOut + (s.ppu.position + 1) / frameTicks ∧ (pictureTick s).samplesOut = s.samplesOut := by
  have hout := pictureTick_out s
  rw [h.wraps]
  split at hout
  case isTrue hlast => rw [if_pos hlast]; exact State.outputs_of_frame hout
  case isFalse hlast => rw [if_neg hlast]; exact ⟨State.framesOut_eq_of_out hout, State.samplesOut_eq_of_out hout⟩

/-- `k` ticks from a well-formed state: the position, the frames counted and the frames put out (R183, R194). -/
theorem pictureTicks_counts (k : Nat) {s : State} (h : s.Wf) :
    let t := pictureTicks k s
    t.ppu.position = (s.ppu.position + k) % 89342 ∧ t.ppu.frame = s.ppu.frame + (s.ppu.position + k) / 89342 ∧
    t.framesOut = s.framesOut + (s.ppu.position + k) / 89342 ∧ t.samplesOut = s.samplesOut ∧ t.apu = s.apu := by
  induction k generalizing s with
  | zero =>
    have hlt := h.ppu.position_lt
    simp only [frameTicks] at hlt
    simp only [pictureTicks]
    exact ⟨by omega, by omega, by omega, trivial, trivial⟩
  | succ k ih =>
    obtain ⟨hpos, hframe, hframes, hsamples, hapu⟩ := ih h.pictureTick
    obtain ⟨hpos1, hframe1⟩ := pictureTick_position s h.ppu
    obtain ⟨hframes1, hsamples1⟩ := pictureTick_counts h.ppu
    obtain ⟨hapu1, -⟩ := pictureTick_other s
    simp only [frameTicks, Nat.reduceMul] at hpos1 hframe1 hframes1
    rw [hpos1] at hpos hframe hframes
    rw [hframe1] at hframe
    rw [hframes1] at hframes
    simp only [pictureTicks]
    exact ⟨by omega, by omega, by omega, hsamples.trans hsamples1, hapu.trans hapu1⟩

/-! ## The audio unit's ticks -/

/-- The sample reader is a bus read at most, which puts nothing out and leaves the picture position. -/
theorem sampleReader_ticksOnly (s : State) : TicksOnly s (sampleReader s) := by
  unfold sampleReader
  split
  case isTrue =>
    have hread := busRead_outputs s.apu.dmc.curAddr s
    exact ⟨busRead_pictureFrame .., hread.out, hread.sc⟩
  case isFalse => exact ⟨.refl _, rfl, rfl⟩

/-- An audio tick counts the sample counter and puts a sample out where it wraps (R211); the picture unit's position stays. -/
theorem audioTick_counts (s : State) : PictureFrame s.ppu (audioTick s).ppu ∧
    (s.apu.sc = 19 → (audioTick s).apu.sc = 0 ∧ ∃ m, (audioTick s).env.out = .sample m :: s.env.out) ∧
    (s.apu.sc ≠ 19 → (audioTick s).apu.sc = s.apu.sc + 1 ∧ (audioTick s).env.out = s.env.out) := by
  obtain ⟨-, hsc⟩ := Apu.sequencerTick_dmc s.params s.apu
  obtain ⟨hpicture, hout, hsc'⟩ := sampleReader_ticksOnly (s.setApu ((s.apu.sequencerTick s.params).timersTick s.params))
  unfold audioTick
  dsimp only
  generalize sampleReader (s.setApu ((s.apu.sequencerTick s.params).timersTick s.params)) = u at hpicture hout hsc' ⊢
  have hcount : u.apu.sc = s.apu.sc := hsc'.trans hsc
  have hout' : u.env.out = s.env.out := hout
  unfold sampleTick
  by_cases h19 : s.apu.sc = 19
  · rw [if_pos (by omega)]
    exact ⟨hpicture, fun _ => ⟨rfl, _, congrArg (_ :: ·) hout'⟩, fun h => absurd h19 h⟩
  · rw [if_neg (by omega)]
    exact ⟨hpicture, fun h => absurd h h19, fun _ => ⟨congrArg (· + 1) hcount, hout'⟩⟩

/-- `k` audio ticks: the sample counter, the samples put out, no frame, and the picture unit's position and counts as they were. -/
theorem audioTicks_counts (k : Nat) {s : State} (h : s.apu.sc < 20) :
    let t := audioTicks k s
    t.apu.sc = (s.apu.sc + k) % 20 ∧ t.samplesOut = s.samplesOut + (s.apu.sc + k) / 20 ∧ t.framesOut = s.framesOut ∧
    PictureFrame s.ppu t.ppu := by
  induction k generalizing s with
  | zero =>
    simp only [audioTicks]
    exact ⟨by omega, by omega, trivial, .refl _⟩
  | succ k ih =>
    obtain ⟨hpicture, hwrap, hcount⟩ := audioTick_counts s
    simp only [audioTicks]
    by_cases h19 : s.apu.sc = 19
    · obtain ⟨hsc, m, hout⟩ := hwrap h19
      obtain ⟨hframes, hsamples⟩ := State.outputs_of_sample hout
      obtain ⟨ksc, ksamples, kframes, kpicture⟩ := ih (s := audioTick s) (by omega)
      rw [hsc] at ksc ksamples
      rw [hsamples] at ksamples
      exact ⟨by omega, by omega, kframes.trans hframes, hpicture.trans kpicture⟩
    · obtain ⟨hsc, hout⟩ := hcount h19
      obtain ⟨ksc, ksamples, kframes, kpicture⟩ := ih (s := audioTick s) (by omega)
      rw [hsc] at ksc ksamples
      rw [State.samplesOut_eq_of_out hout] at ksamples
      exact ⟨by omega, by omega, kframes.trans (State.framesOut_eq_of_out hout),
        hpicture.trans kpicture⟩

/-! ## A step -/

theorem PictureFrame.position_eq {p q : Ppu} (h : PictureFrame p q) : q.position = p.position := by
  rw [Ppu.position, Ppu.position, h.scanline, h.cycle]

/-- Settles O53: a step's CPU part leaves position, counter and trace alone, so a step counts what its device ticks count. -/
theorem frameTiming : Obligations.FrameTiming := by
  intro s hwf
  refine ⟨fun k => ?ticks, pictureTick_out s, fun t ht => ?step⟩
  case ticks =>
    obtain ⟨hpos, hframe, hframes, -⟩ := pictureTicks_counts k hwf
    exact ⟨hpos, hframe, hframes⟩
  case step =>
    obtain ⟨u, hu, rfl⟩ : ∃ u, cpuStep s = .next u ∧ t = deviceTicks (u.cpu.cycles - s.cpu.cycles) u := by
      unfold step at ht
      split at ht
      case h_1 u hu => cases ht; exact ⟨u, hu, rfl⟩
      case h_2 | h_3 => cases ht
    obtain ⟨hpicture, hout, hsc⟩ := (closed_ticksOnly s).cpuStep ⟨.refl _, rfl, rfl⟩ hu
    have huwf : u.Wf := closed_wf.cpuStep hwf hu
    rw [(deviceTicks_frame _ u).cycles]
    intro n
    obtain ⟨hpos, hframe, hframes, hsamples, hapu⟩ := pictureTicks_counts (3 * n) huwf
    obtain ⟨ksc, ksamples, kframes, kpicture⟩ := audioTicks_counts n (s := pictureTicks (3 * n) u) (by rw [hapu]; exact huwf.apu.sc)
    rw [hpicture.position_eq] at hpos hframe hframes
    rw [hpicture.frame] at hframe
    rw [State.framesOut_eq_of_out hout] at hframes
    rw [hapu, hsc] at ksc ksamples
    rw [hsamples, State.samplesOut_eq_of_out hout] at ksamples
    exact ⟨kpicture.position_eq.trans hpos, kpicture.frame.trans hframe, kframes.trans hframes, ksc, ksamples⟩

end Sys2Proof.Machine
end

section
/-! PROOFS. Rendering a line (R184, R188 to R193): a background pixel and a sprite's pixel are the ones the statement defines through
the picture bus; a line's pixels and the sprite-zero flag then come from `drawList`, what drawing a list of sprites does. -/

namespace Sys2Proof.Machine

/-! ## Colours and the background -/

theorem resolve_eq_resolved (p : Ppu) (cell : Nat) : p.resolve (p.pal.read cell) = resolved p cell := by
  have hentry : bitField 6 0 (p.pal.read cell) = BitVec.ofNat 6 (p.pal.read cell).toNat :=
    BitVec.eq_of_toNat_eq (by simp [bitField_toNat])
  have hemphasis : bitField 3 5 p.mask = BitVec.ofNat 3 (p.mask.toNat / 32) := BitVec.eq_of_toNat_eq (by simp [bitField_toNat])
  rw [Ppu.resolve, resolved, hentry, hemphasis]

theorem patternIndex_lt (b : Nat → Byte) (row bit : Nat) : patternIndex b row bit < 4 := by
  unfold patternIndex
  omega

theorem colourIndex_eq_patternIndex (b : Nat → Byte) (row bit : Nat) :
    colourIndex (b row) (b (row + 8)) bit = BitVec.ofNat 2 (patternIndex b row bit) := by
  apply BitVec.eq_of_toNat_eq
  rw [colourIndex_toNat, BitVec.toNat_ofNat, Nat.mod_eq_of_lt (patternIndex_lt ..), patternIndex]

theorem ofNat_two_eq_zero_iff {n : Nat} (h : n < 4) : BitVec.ofNat 2 n = 0 ↔ n = 0 := by
  rw [← BitVec.toNat_inj, BitVec.toNat_ofNat, Nat.mod_eq_of_lt h]
  rfl

theorem Loopy.bit_toNat (v : Loopy) (i : Nat) : (v.getLsbD i).toNat = v.toNat / 2 ^ i % 2 := by
  rw [BitVec.getLsbD, Nat.testBit_eq_decide_div_mod_eq]
  rcases Nat.mod_two_eq_zero_or_one (v.toNat / 2 ^ i) with h | h <;> rw [h] <;> rfl

theorem xor_decide_toNat (a : Bool) (n : Nat) : (a ^^ decide (n % 2 = 1)).toNat = (a.toNat + n) % 2 := by
  rcases Nat.mod_two_eq_zero_or_one n with h | h <;> cases a <;> simp [h, Nat.add_mod]

/-- Where a background pixel's tile lies, in numbers: the column walks from `v` and fine x across the nametable's edge (R189). -/
theorem Ppu.tilePos_eq (p : Ppu) (px : Nat) :
    let column := p.v.toNat % 32 + (px + p.x.toNat) / 8
    p.tilePos px = {
      base := 0x2000 + 0x400 * ((p.v.toNat / 0x400 + column / 32) % 2) + 0x800 * (p.v.toNat / 0x800 % 2)
      cx := column % 32
      fx := (px + p.x.toNat) % 8 } := by
  have hcoarse : (Loopy.coarseX p.v).toNat = p.v.toNat % 32 := by simp [Loopy.coarseX, bitField_toNat]
  simp only [Ppu.tilePos, Loopy.ntX, Loopy.ntY, xor_decide_toNat, Loopy.bit_toNat, hcoarse, Nat.reducePow, TilePos.mk.injEq, and_true]
  omega

/-- A background pixel is the one of R189, read through the picture bus. -/
theorem backgroundPixel_eq (img : Image) (m : Mapper) (p : Ppu) (px : Nat) :
    let bg := backgroundAt (ppuRead img m p) p px
    backgroundPixel img m p px = (BitVec.ofNat 2 bg.1, resolved p bg.2) := by
  intro bg
  simp only [bg, backgroundPixel, backgroundAt]
  by_cases hoff : p.mask.getLsbD 3 = false ∨ (px < 8 ∧ p.mask.getLsbD 1 = false)
  · rw [if_pos (by simpa using hoff), if_pos hoff, Ppu.backdrop, resolve_eq_resolved]
    rfl
  · rw [if_neg (by simpa using hoff), if_neg hoff, Ppu.tilePos_eq, Loopy.coarseY_toNat, Loopy.fineY_toNat]
    simp only [colourIndex_eq_patternIndex, ofNat_two_eq_zero_iff (patternIndex_lt ..), BitVec.toNat_ofNat,
      Nat.mod_eq_of_lt (patternIndex_lt ..), Ppu.palette, Ppu.backdrop, paletteAlias_eq_aliased, resolve_eq_resolved, paletteId]
    exact congrArg (Prod.mk _) (apply_ite (resolved p) ..).symm

theorem backgroundAt_lt (b : Nat → Byte) (p : Ppu) (px : Nat) : (backgroundAt b p px).1 < 4 := by
  unfold backgroundAt
  split
  · decide
  · exact patternIndex_lt ..

/-- An opaque background pixel needs the background shown. -/
theorem mask_of_backgroundAt {b : Nat → Byte} {p : Ppu} {px : Nat} (h : (backgroundAt b p px).1 ≠ 0) : p.mask.getLsbD 3 = true := by
  refine Decidable.byContradiction fun hoff => h ?_
  rw [backgroundAt, if_pos (.inl (by simpa using hoff))]

/-! ## One sprite at one pixel -/

section
variable (img : Image) (m : Mapper) (y : Nat) (p : Ppu) (s : Nat)

theorem spriteIndex_toNat (n col : Nat) : (spriteIndex img m y p s n col).toNat =
    patternIndex (ppuRead img m p) (p.spriteRowAddr (p.oamByte n 1).toNat (p.spriteRow y s n))
      (if (p.oamByte n 2).getLsbD 6 then col else 7 - col) := by
  rw [spriteIndex, colourIndex_eq_patternIndex, BitVec.toNat_ofNat, Nat.mod_eq_of_lt (patternIndex_lt ..)]

/-- Sprite `n` at a pixel of its columns, where sprites are shown (R191). -/
theorem spriteAt_column (n : Nat) {col : Nat} (hcol : col < 8) :
    let px := (p.oamByte n 3).toNat + col
    (spriteAt (ppuRead img m p) y s p n px).1 =
      if p.mask.getLsbD 4 = true ∧ (8 ≤ px ∨ p.mask.getLsbD 2 = true) then (spriteIndex img m y p s n col).toNat else 0 := by
  intro px
  have hx : p.oam.read (4 * n + 3) = p.oamByte n 3 := rfl
  have hle : (p.oamByte n 3).toNat ≤ px := Nat.le_add_right ..
  have hlt : px < (p.oamByte n 3).toNat + 8 := Nat.add_lt_add_left hcol _
  have hsub : px - (p.oamByte n 3).toNat = col := Nat.add_sub_cancel_left ..
  simp only [spriteAt, hx, hle, hlt, hsub, true_and, spriteIndex_toNat]
  rfl

theorem spriteAt_snd (n px : Nat) : (spriteAt (ppuRead img m p) y s p n px).2 =
    0x10 + 4 * ((p.oamByte n 2).toNat % 4) + (spriteAt (ppuRead img m p) y s p n px).1 := rfl

/-- A sprite has a pixel on the screen exactly where one of its columns shows. -/
theorem spriteAt_ne_zero_iff (n : Nat) {px : Nat} (hpx : px < 256) : (spriteAt (ppuRead img m p) y s p n px).1 ≠ 0 ↔
    ∃ col < 8, px = (p.oamByte n 3).toNat + col ∧ SpriteShows img m y p s n col := by
  constructor
  · intro h
    by_cases hin : (p.oamByte n 3).toNat ≤ px ∧ px < (p.oamByte n 3).toNat + 8
    · obtain ⟨col, rfl⟩ := Nat.exists_eq_add_of_le hin.1
      have hcol : col < 8 := by omega
      rw [spriteAt_column img m y p s n hcol] at h
      have hshown := Decidable.byContradiction fun hno => h (if_neg hno)
      refine ⟨col, hcol, rfl, hpx, hshown.1, hshown.2, fun hzero => h ?_⟩
      rw [if_pos hshown, hzero]
      rfl
    · exact absurd (if_neg fun hshown => hin ⟨hshown.1, hshown.2.1⟩) h
  · rintro ⟨col, hcol, rfl, -, hmask, hedge, hindex⟩
    rw [spriteAt_column img m y p s n hcol, if_pos ⟨hmask, hedge⟩]
    exact fun hzero => hindex (BitVec.eq_of_toNat_eq hzero)

/-- The pixel of a column that shows is the palette cell of `spriteAt`. -/
theorem spritePixel_eq {n col : Nat} (hcol : col < 8) (h : SpriteShows img m y p s n col) :
    spritePixel img m y p s n col = resolved p (spriteAt (ppuRead img m p) y s p n ((p.oamByte n 3).toNat + col)).2 := by
  obtain ⟨-, hmask, hedge, -⟩ := h
  have hpalette : (bitField 2 0 (p.oamByte n 2)).toNat = (p.oamByte n 2).toNat % 4 := by simp [bitField_toNat]
  rw [spriteAt_snd, spriteAt_column img m y p s n hcol, if_pos ⟨hmask, hedge⟩, spritePixel, hpalette, resolve_eq_resolved]

/-! ## A drawn line -/

/-- The line the background leaves to the sprites (R189), with the sprite-zero flag as it stands. -/
def backgroundDraw : LineDraw :=
  { idx := (backgroundLine img m p).map Prod.fst, px := (backgroundLine img m p).map Prod.snd, s0 := p.s0hit }

theorem backgroundDraw_idx :
    (backgroundDraw img m p).idx = (List.range 256).map fun px => BitVec.ofNat 2 (backgroundAt (ppuRead img m p) p px).1 := by
  simp [backgroundDraw, backgroundLine, backgroundPixel_eq, Function.comp_def]

theorem backgroundDraw_px :
    (backgroundDraw img m p).px = (List.range 256).map fun px => resolved p (backgroundAt (ppuRead img m p) p px).2 := by
  simp [backgroundDraw, backgroundLine, backgroundPixel_eq, Function.comp_def]

theorem backgroundDraw_idx_getD {px : Nat} (hpx : px < 256) :
    (backgroundDraw img m p).idx.getD px 0 = BitVec.ofNat 2 (backgroundAt (ppuRead img m p) p px).1 := by
  rw [backgroundDraw_idx]
  simp [List.getD_eq_getElem?_getD, hpx]

/-- Sprite `n` shows at pixel `px` and is not hidden by the background (R191). -/
abbrev ShownAt (n px : Nat) : Prop :=
  (spriteAt (ppuRead img m p) y s p n px).1 ≠ 0 ∧
    ((p.oam.read (4 * n + 2)).getLsbD 5 = false ∨ (backgroundAt (ppuRead img m p) p px).1 = 0)

theorem shownAt_iff (n : Nat) {px : Nat} (hpx : px < 256) : ShownAt img m y p s n px ↔
    ∃ col < 8, px = (p.oamByte n 3).toNat + col ∧ SpriteShows img m y p s n col ∧
      SpriteCovers p n ((backgroundDraw img m p).idx.getD px 0) := by
  rw [ShownAt, spriteAt_ne_zero_iff img m y p s n hpx, backgroundDraw_idx_getD img m p hpx, SpriteCovers,
    ofNat_two_eq_zero_iff (backgroundAt_lt ..)]
  constructor
  · rintro ⟨⟨col, hcol, heq, hshows⟩, hcovers⟩
    exact ⟨col, hcol, heq, hshows, hcovers⟩
  · rintro ⟨col, hcol, heq, hshows, hcovers⟩
    exact ⟨⟨col, hcol, heq, hshows⟩, hcovers⟩

/-- Each pixel of a line after its sprites are drawn (R191). -/
theorem drawSprites_getElem? {px : Nat} (hpx : px < 256) : (drawSprites img m y p s (backgroundDraw img m p)).px[px]? =
    some (resolved p (pixelCell (ppuRead img m p) y s p p.sprites px)) := by
  have hlength : (backgroundDraw img m p).px.length = 256 := by rw [backgroundDraw_px]; simp
  obtain ⟨-, -, hkept, hdrawn, -⟩ := drawList img m y p s p.sprites (backgroundDraw img m p) hlength
  have hfind : shownSprite (ppuRead img m p) y s p p.sprites px = p.sprites.find? fun n => decide (ShownAt img m y p s n px) := rfl
  rw [pixelCell, hfind]
  cases h : p.sprites.find? fun n => decide (ShownAt img m y p s n px) with
  | none =>
    have hnone : ∀ n ∈ p.sprites, ¬ ShownAt img m y p s n px := by simpa using h
    refine (hkept px fun n hn col hcol heq hshown => hnone n hn ?_).trans ?_
    · exact (shownAt_iff img m y p s n hpx).mpr ⟨col, hcol, heq, hshown⟩
    · rw [backgroundDraw_px]
      simp [hpx]
  | some n =>
    obtain ⟨hn, pre, post, hsprites, hpre⟩ := List.find?_eq_some_iff_append.mp h
    obtain ⟨col, hcol, rfl, hshows, hcovers⟩ := (shownAt_iff img m y p s n hpx).mp (of_decide_eq_true hn)
    refine (hdrawn pre n post hsprites col hcol hshows hcovers fun n' hn' col' hcol' heq hshown => ?_).trans ?_
    · have hnot := hpre n' hn'
      simp only [Bool.not_eq_true', decide_eq_false_iff_not] at hnot
      exact hnot ((shownAt_iff img m y p s n' hpx).mpr ⟨col', hcol', heq, hshown⟩)
    · rw [spritePixel_eq img m y p s hcol hshows]

theorem drawSprites_px : (drawSprites img m y p s (backgroundDraw img m p)).px =
    (List.range 256).map fun px => resolved p (pixelCell (ppuRead img m p) y s p p.sprites px) := by
  have hlength : (drawSprites img m y p s (backgroundDraw img m p)).px.length = 256 := by
    rw [(drawSprites_length ..).2, backgroundDraw_px]
    simp
  refine List.ext_getElem? fun px => ?_
  rcases Nat.lt_or_ge px 256 with hpx | hpx
  · rw [drawSprites_getElem? img m y p s hpx]
    simp [hpx]
  · rw [List.getElem?_eq_none (by omega), List.getElem?_eq_none (by simpa using hpx)]

/-- The sprite-zero flag after a line's sprites are drawn (R192). -/
theorem drawSprites_s0 : (drawSprites img m y p s (backgroundDraw img m p)).s0 = true ↔ p.s0hit = true ∨ (0 ∈ p.sprites ∧
    ∃ px < 256, (spriteAt (ppuRead img m p) y s p 0 px).1 ≠ 0 ∧ (backgroundAt (ppuRead img m p) p px).1 ≠ 0) := by
  have hlength : (backgroundDraw img m p).px.length = 256 := by rw [backgroundDraw_px]; simp
  obtain ⟨-, -, -, -, hs0⟩ := drawList img m y p s p.sprites (backgroundDraw img m p) hlength
  have hopaque : ∀ {px : Nat}, px < 256 →
      ((backgroundDraw img m p).idx.getD px 0 ≠ 0 ↔ (backgroundAt (ppuRead img m p) p px).1 ≠ 0) := fun hpx => by
    rw [backgroundDraw_idx_getD img m p hpx, ne_eq, ofNat_two_eq_zero_iff (backgroundAt_lt ..)]
  refine hs0.trans (or_congr Iff.rfl (and_congr_right fun _ => ⟨?_, ?_⟩))
  · rintro ⟨-, col, hcol, hshows, hbg⟩
    have hpx := hshows.1
    exact ⟨_, hpx, (spriteAt_ne_zero_iff img m y p s 0 hpx).mpr ⟨col, hcol, rfl, hshows⟩, (hopaque hpx).mp hbg⟩
  · rintro ⟨px, hpx, hsprite, hbg⟩
    obtain ⟨col, hcol, rfl, hshows⟩ := (spriteAt_ne_zero_iff img m y p s 0 hpx).mp hsprite
    exact ⟨mask_of_backgroundAt hbg, col, hcol, hshows, (hopaque hpx).mpr hbg⟩

end

/-! ## A rendered line -/

/-- The entries a line takes in (R190), as a condition on the OAM byte. -/
theorem onLine_eq (y : Nat) (p : Ppu) (s : Nat) : p.onLine y s = fun n =>
    decide ((p.oam.read (4 * n)).toNat + y ≤ s ∧ s < (p.oam.read (4 * n)).toNat + y + if p.ctrl.getLsbD 5 then 16 else 8) := by
  funext n
  rw [Bool.decide_and]
  rfl

/-- Rendering a line leaves every other line and field alone (R188). -/
theorem renderLine_rendersOnly (img : Image) (m : Mapper) (y s : Nat) (p : Ppu) : RendersOnly s p (renderLine img m y s p) := by
  obtain ⟨bg, fb, sp, hit, ovf, h⟩ := renderLine_eq img m y s p
  rw [h]
  exact ⟨rfl, fun k hk => ⟨Lines.row_set_ne _ _ hk, Lines.row_set_ne _ _ hk⟩⟩

theorem renderLine_shown {p : Ppu} (h : p.mask.getLsbD 3 = true ∨ p.mask.getLsbD 4 = true) (img : Image) (m : Mapper) (y s : Nat) :
    renderLine img m y s p = drawnLine img m y s p := if_pos (by simpa [Ppu.rendering] using h)

theorem renderLine_blank {p : Ppu} (h3 : p.mask.getLsbD 3 = false) (h4 : p.mask.getLsbD 4 = false) (img : Image) (m : Mapper) (y s : Nat) :
    renderLine img m y s p = blankLine s p := if_neg (by rw [Ppu.rendering, h3, h4]; decide)

/-- A drawn line: its sprites are drawn by the picture unit with the new selection, over the background (R188). -/
theorem drawnLine_eq (img : Image) (m : Mapper) (y s : Nat) (p : Ppu) :
    let p1 : Ppu := { p with sprites := (evaluateLine y p s).1, ovf := (evaluateLine y p s).2 }
    let d := drawSprites img m y p1 s (backgroundDraw img m p1)
    drawnLine img m y s p = { p1 with bgidx := Lines.set p.bgidx s d.idx, fb := Lines.set p.fb s d.px, s0hit := d.s0 } := rfl

theorem renderLine_position (img : Image) (m : Mapper) (y s : Nat) (p : Ppu) : (renderLine img m y s p).cycle = p.cycle := by
  obtain ⟨_, _, _, _, _, h⟩ := renderLine_eq img m y s p
  rw [h]

/-- The tick that renders a line does nothing else (R184). -/
theorem pictureTick_render {s : State} (h : RendersLine s.ppu) : pictureTick s =
    s.setPpu { renderLine s.image s.mapper s.params.spriteYOffset s.ppu.scanline.toNat s.ppu with cycle := 1 } := by
  obtain ⟨hlow, hhigh, hcycle⟩ := h
  have hevents : pictureEvents s = s.setPpu (renderLine s.image s.mapper s.params.spriteYOffset s.ppu.scanline.toNat s.ppu) := by
    rw [pictureEvents, if_pos hcycle, if_pos ⟨hlow, hhigh⟩]
  have hkept := (renderLine_position s.image s.mapper s.params.spriteYOffset s.ppu.scanline.toNat s.ppu).trans hcycle
  rw [pictureTick, hevents, advancePosition_of_ne (by simp [hkept]), State.setPpu_ppu, hkept]
  rfl

theorem PictureEventCase.flags_eq {s t : State} (h : PictureEventCase s t) (hrender : ¬ RendersLine s.ppu)
    (hclear : ¬ (s.ppu.scanline = -1 ∧ s.ppu.cycle = 1)) : t.ppu.ovf = s.ppu.ovf ∧ t.ppu.s0hit = s.ppu.s0hit := by
  cases h with
  | render hr => exact absurd hr hrender
  | clear hline hcycle => exact absurd ⟨hline, hcycle⟩ hclear
  | vblank => rw [vblankStart_eq]; exact ⟨rfl, rfl⟩
  | incY | copyX | copyY | none => exact ⟨rfl, rfl⟩

/-- Settles O54: a shown line by its evaluation, its background and `drawSprites`, a blank one by `blankLine`; the flags' ticks by the
events' cases. -/
theorem lineSelectsSprites : Obligations.LineSelectsSprites := by
  refine ⟨fun img m off line p => ?line, fun s base a d => ?ticks⟩
  case line =>
    intro t b height found
    refine ⟨renderLine_rendersOnly .., fun hshown => ?shown, fun h3 h4 => ?blank⟩
    case shown =>
      have hevaluate : evaluateLine off p line = (found.take 8, p.ovf || decide (8 < found.length)) := by
        rw [evaluateLine_eq, onLine_eq]
      have ht : t = drawnLine img m off line p := renderLine_shown hshown ..
      rw [ht, drawnLine_eq, hevaluate]
      refine ⟨rfl, rfl, ?_, ?_, ?_⟩
      · refine (Lines.row_set_self ..).trans ?_
        rw [(drawSprites_length ..).1, backgroundDraw_idx]
        rfl
      · refine (Lines.row_set_self ..).trans ?_
        rw [drawSprites_px]
        rfl
      · exact drawSprites_s0 ..
    case blank =>
      have ht : t = blankLine line p := renderLine_blank h3 h4 ..
      rw [ht, ← resolve_eq_resolved]
      exact ⟨rfl, rfl, rfl, Lines.row_set_self .., Lines.row_set_self ..⟩
  case ticks =>
    obtain ⟨-, -, -, hovf, hs0hit⟩ := pictureTick_events s
    have hread := busRead_pictureFrame a s
    have hwrite := busWrite_pictureFrame base a d s
    refine ⟨fun hlow hhigh hcycle => pictureTick_render ⟨hlow, hhigh, hcycle⟩, fun hline hcycle => ?clear, fun hrender hclear => ?kept,
      hread.ovf, hread.s0hit, hwrite.ovf, hwrite.s0hit⟩
    case clear => rw [pictureTick_clear hline hcycle]; exact ⟨rfl, rfl⟩
    case kept =>
      obtain ⟨hovf', hs0hit'⟩ := (pictureEvents_case s).flags_eq hrender hclear
      exact ⟨hovf.trans hovf', hs0hit.trans hs0hit'⟩

end Sys2Proof.Machine
end

section
/-! PROOFS. The audio unit's registers, its frame sequencer and its quarter and half events (R196 to R206): a register write is one
equation per address, a sequencer's count one per kind of count, and each unit's clock is said in numbers. -/

namespace Sys2Proof.Machine

/-! ## Register writes -/

/-- The DMC's part of a 0x4015 write moves the reader's address and count alone (R198). -/
theorem Dmc.enable_eq (on : Bool) (c : Dmc) :
    c.enable on = { c with curAddr := (c.enable on).curAddr, bytesRemaining := (c.enable on).bytesRemaining } := by
  unfold Dmc.enable Dmc.restart
  split
  · rfl
  · split <;> rfl

theorem Dmc.enable_off (c : Dmc) : c.enable false = { c with bytesRemaining := 0 } := rfl

theorem Dmc.enable_finished {c : Dmc} (h : c.bytesRemaining = 0) : c.enable true = c.restart := if_pos h

theorem Dmc.enable_playing {c : Dmc} (h : c.bytesRemaining ≠ 0) : c.enable true = c := if_neg h

/-- The status byte (R199): five bits of the channels under the draw's top three. -/
theorem Apu.status_bits (draw : Byte) (a : Apu) :
    (a.status draw).getLsbD 0 = decide (0 < a.pulse1.len.toNat) ∧ (a.status draw).getLsbD 1 = decide (0 < a.pulse2.len.toNat) ∧
    (a.status draw).getLsbD 2 = decide (0 < a.triangle.len.toNat) ∧ (a.status draw).getLsbD 3 = decide (0 < a.noise.len.toNat) ∧
    (a.status draw).getLsbD 4 = decide (0 < a.dmc.bytesRemaining.toNat) ∧ (a.status draw).toNat / 32 = draw.toNat / 32 := by
  unfold Apu.status
  generalize decide (0 < a.pulse1.len.toNat) = b0, decide (0 < a.pulse2.len.toNat) = b1, decide (0 < a.triangle.len.toNat) = b2,
    decide (0 < a.noise.len.toNat) = b3, decide (0 < a.dmc.bytesRemaining.toNat) = b4
  obtain ⟨-, -, -, h4, h3, h2, h1, h0⟩ := byteOfBits_getLsbD false false false b4 b3 b2 b1 b0
  have hchannels : (byteOfBits false false false b4 b3 b2 b1 b0).toNat / 2 ^ 5 = 0 := by revert b4 b3 b2 b1 b0; decide
  have hdraw : (draw &&& 0xE0).toNat / 2 ^ 5 = draw.toNat / 2 ^ 5 := by revert draw; decide
  refine ⟨(getLsbD_or_masked rfl _ _).trans h0, (getLsbD_or_masked rfl _ _).trans h1, (getLsbD_or_masked rfl _ _).trans h2,
    (getLsbD_or_masked rfl _ _).trans h3, (getLsbD_or_masked rfl _ _).trans h4, ?_⟩
  rw [show 32 = 2 ^ 5 from rfl, BitVec.toNat_or, Nat.or_div_two_pow, hchannels, hdraw, Nat.zero_or]

theorem lengthLoad_lengthLoaded (d : Byte) : LengthLoaded d (lengthLoad d) := lengthLoad_toNat d

/-- A write of a pulse channel's last register (R196, R231): the period's high bits always, the rest of an enabled channel only. -/
theorem Pulse.writeReg_three_enabled {p : Pulse} (h : p.enabled = true) (d : Byte) : p.writeReg 3 d =
    { p with
      period := setBitField 8 (bitField 3 0 d) p.period, len := lengthLoad d, env := { p.env with start := true }, q := 0 } :=
  Pulse.loadLength_enabled (p := { p with period := setBitField 8 (bitField 3 0 d) p.period }) h d

theorem Pulse.writeReg_three_disabled {p : Pulse} (h : p.enabled = false) (d : Byte) :
    p.writeReg 3 d = { p with period := setBitField 8 (bitField 3 0 d) p.period } :=
  Pulse.loadLength_disabled (p := { p with period := setBitField 8 (bitField 3 0 d) p.period }) h d

/-- The same of the triangle's last register. -/
theorem Triangle.writeReg_three_enabled {c : Triangle} (h : c.enabled = true) (d : Byte) : c.writeReg 3 d =
    { c with period := setBitField 8 (bitField 3 0 d) c.period, len := lengthLoad d, lr := true } :=
  Triangle.loadLength_enabled (c := { c with period := setBitField 8 (bitField 3 0 d) c.period }) h d

theorem Triangle.writeReg_three_disabled {c : Triangle} (h : c.enabled = false) (d : Byte) :
    c.writeReg 3 d = { c with period := setBitField 8 (bitField 3 0 d) c.period } :=
  Triangle.loadLength_disabled (c := { c with period := setBitField 8 (bitField 3 0 d) c.period }) h d

/-- The four registers of a pulse channel, given which address reaches which (R196). -/
theorem pulseWritten_of_writeReg {base : Nat} {addr : Word} {d : Byte} {s : State} {p : Pulse} {put : Pulse → Apu}
    (h0 : busWrite base addr d s = s.setApu (put (p.writeReg 0 d)))
    (h1 : busWrite base (addr + 1) d s = s.setApu (put (p.writeReg 1 d)))
    (h2 : busWrite base (addr + 2) d s = s.setApu (put (p.writeReg 2 d)))
    (h3 : busWrite base (addr + 3) d s = s.setApu (put (p.writeReg 3 d))) : PulseWritten base addr d s p put := by
  refine ⟨h0, h1, ⟨_, period_low d p.period, h2⟩, _, lengthLoad d, period_high d p.period, lengthLoad_lengthLoaded d,
    fun hen => ?_, fun hen => ?_⟩
  · rw [h3, Pulse.writeReg_three_enabled hen]
  · rw [h3, Pulse.writeReg_three_disabled hen]

theorem triangleWritten (base : Nat) (d : Byte) (s : State) : TriangleWritten base d s := by
  have h3 : busWrite base 0x400B d s = s.setApu { s.apu with triangle := s.apu.triangle.writeReg 3 d } := rfl
  refine ⟨rfl, rfl, ⟨_, period_low d _, rfl⟩, _, lengthLoad d, period_high d _, lengthLoad_lengthLoaded d, fun hen => ?_, fun hen => ?_⟩
  · rw [h3, Triangle.writeReg_three_enabled hen]
  · rw [h3, Triangle.writeReg_three_disabled hen]

theorem noiseWritten (base : Nat) (d : Byte) (s : State) : NoiseWritten base d s := by
  have h3 : busWrite base 0x400F d s = s.setApu { s.apu with noise := s.apu.noise.writeReg 3 d } := rfl
  refine ⟨⟨_, noiseReg_toNat d, rfl⟩, rfl, ⟨_, noiseMode_toNat d, rfl⟩, fun hen => ⟨_, lengthLoad_lengthLoaded d, ?_⟩, fun hen => ?_⟩
  · rw [h3, Noise.writeReg, Noise.loadLength_enabled hen]
  · rw [h3, Noise.writeReg, Noise.loadLength_disabled hen]
    rfl

theorem dmcWritten (base : Nat) (d : Byte) (s : State) : DmcWritten base d s :=
  ⟨⟨_, dmcReg_toNat d, rfl⟩, ⟨bitField 7 0 d, by simp [bitField_toNat], rfl⟩, ⟨_, sampleAddr_toNat d, rfl⟩, ⟨_, sampleLen_toNat d, rfl⟩⟩

/-- Settles O55: 0x4015 by `Dmc.enable` and the length counters' masks, every other register by its channel. -/
theorem audioEnableAndStatus : Obligations.AudioEnableAndStatus := by
  intro s base d
  refine ⟨?enable, ?status, pulseWritten_of_writeReg rfl rfl rfl rfl, pulseWritten_of_writeReg rfl rfl rfl rfl,
    triangleWritten base d s, noiseWritten base d s, dmcWritten base d s⟩
  case enable =>
    intro a
    refine ⟨_, _, _, _, _, _, _, _, (a.dmc.enable (d.getLsbD 4)).curAddr, (a.dmc.enable (d.getLsbD 4)).bytesRemaining,
      ⟨rfl, rfl⟩, ⟨rfl, rfl⟩, ⟨rfl, rfl⟩, ⟨rfl, rfl⟩, fun hoff => ?_, fun hon hdone => ?_, fun hon hplays => ?_, ?_⟩
    · rw [hoff, Dmc.enable_off]; exact ⟨rfl, rfl⟩
    · rw [hon, Dmc.enable_finished hdone]; exact ⟨rfl, rfl⟩
    · rw [hon, Dmc.enable_playing hplays]; exact ⟨rfl, rfl⟩
    · rw [← Dmc.enable_eq]; rfl
  case status =>
    obtain ⟨h0, h1, h2, h3, h4, hdraw⟩ := s.apu.status_bits (Config.undefRead s.env.undefDraws)
    exact ⟨h0, h1, h2, h3, h4, hdraw, rfl⟩

/-! ## The frame sequencer -/

theorem Apu.fire_fs (ones : Bool) (e : SeqEvent) (a : Apu) : (a.fire ones e).fs = a.fs ∧ (a.fire ones e).fiveStep = a.fiveStep := by
  cases e <;> exact ⟨rfl, rfl⟩

theorem Apu.sequencerFire_of_some {ps : Params} {a : Apu} {e : SeqEvent} (h : eventAt a.fs (a.schedule ps).events = some e) :
    a.sequencerFire ps = a.fire ps.sweep1OnesComplement e := by
  unfold Apu.sequencerFire
  rw [h]

theorem Apu.sequencerFire_of_none {ps : Params} {a : Apu} (h : eventAt a.fs (a.schedule ps).events = none) :
    a.sequencerFire ps = a := by
  unfold Apu.sequencerFire
  rw [h]

section
variable {ps : Params} {a : Apu} {mode : SeqMode} {n : Nat} (hmode : a.schedule ps = mode) (hn : a.fs + 1 = n)
include hmode hn

/-- A count with an event that is not the wrap (R200). -/
theorem Apu.sequencerTick_of_event {e : SeqEvent} (hevent : eventAt n mode.events = some e) (hwrap : n ≠ mode.wrap) :
    a.sequencerTick ps = Apu.fire ps.sweep1OnesComplement e { a with fs := a.fs + 1 } := by
  subst hmode hn
  obtain ⟨hfs, hfive⟩ := Apu.fire_fs ps.sweep1OnesComplement e { a with fs := a.fs + 1 }
  rw [Apu.sequencerTick, Apu.sequencerFire_of_some (a := { a with fs := a.fs + 1 }) hevent, Apu.sequencerWrap, Apu.schedule, hfs, hfive]
  exact if_neg hwrap

/-- A count without an event: the wrap, or nothing but the count (R200). -/
theorem Apu.sequencerTick_of_wrap (hevent : eventAt n mode.events = none) (hwrap : n = mode.wrap) :
    a.sequencerTick ps = { a with fs := 0 } := by
  subst hmode hn
  rw [Apu.sequencerTick, Apu.sequencerFire_of_none (a := { a with fs := a.fs + 1 }) hevent]
  exact if_pos hwrap

theorem Apu.sequencerTick_of_count (hevent : eventAt n mode.events = none) (hwrap : n ≠ mode.wrap) :
    a.sequencerTick ps = { a with fs := a.fs + 1 } := by
  subst hmode hn
  rw [Apu.sequencerTick, Apu.sequencerFire_of_none (a := { a with fs := a.fs + 1 }) hevent]
  exact if_neg hwrap

end

/-- A count that no entry lists has no event. -/
theorem eventAt_eq_none {k : Nat} {l : List (Nat × SeqEvent)} (h : k ∉ l.map Prod.fst) : eventAt k l = none := by
  induction l with
  | nil => rfl
  | cons c rest ih =>
    simp only [List.map_cons, List.mem_cons, not_or] at h
    obtain ⟨hne, hrest⟩ := h
    exact (if_neg (Ne.symm hne)).trans (ih hrest)

/-- The default schedule's mode (R200). -/
theorem Apu.schedule_default_cases (a : Apu) :
    (a.fiveStep = false ∧ a.schedule .default = defaultSeq4) ∨ (a.fiveStep = true ∧ a.schedule .default = defaultSeq5) := by
  unfold Apu.schedule
  cases a.fiveStep with
  | false => exact .inl ⟨rfl, rfl⟩
  | true => exact .inr ⟨rfl, rfl⟩

theorem Apu.schedule_default_five {a : Apu} (h : a.fiveStep = true) : a.schedule .default = defaultSeq5 := if_pos h

/-- Settles O56: each count is an event, the wrap or a mere count in the schedule of its mode; 0x4017 is one equation. -/
theorem frameSequencer : Obligations.FrameSequencer := by
  refine ⟨fun a => ?tick, fun s base d => rfl⟩
  intro n b t
  refine ⟨fun hn => ?quarter, fun hn => ?half, fun hn => ?last4, fun hn => ?wrap4,
    fun hn h5 => Apu.sequencerTick_of_event (Apu.schedule_default_five h5) hn rfl (by decide),
    fun hn h5 => Apu.sequencerTick_of_wrap (Apu.schedule_default_five h5) hn rfl rfl, fun hn => ?other⟩
  case quarter =>
    rcases a.schedule_default_cases with ⟨-, hmode⟩ | ⟨-, hmode⟩ <;> rcases hn with hn | hn <;>
      exact Apu.sequencerTick_of_event hmode hn rfl (by decide)
  case half =>
    rcases a.schedule_default_cases with ⟨-, hmode⟩ | ⟨-, hmode⟩ <;> exact Apu.sequencerTick_of_event hmode hn rfl (by decide)
  case last4 =>
    rcases a.schedule_default_cases with ⟨h4, hmode⟩ | ⟨h5, hmode⟩
    · rw [if_neg (by simp [h4])]; exact Apu.sequencerTick_of_event hmode hn rfl (by decide)
    · rw [if_pos h5]; exact Apu.sequencerTick_of_count hmode hn rfl (by decide)
  case wrap4 =>
    rcases a.schedule_default_cases with ⟨h4, hmode⟩ | ⟨h5, hmode⟩
    · rw [if_neg (by simp [h4])]; exact Apu.sequencerTick_of_wrap hmode hn rfl rfl
    · rw [if_pos h5]; exact Apu.sequencerTick_of_count hmode hn rfl (by decide)
  case other =>
    simp only [List.mem_cons, List.not_mem_nil, or_false, not_or] at hn
    obtain ⟨h1, h2, h3, h4, h5, h6, h7⟩ := hn
    rcases a.schedule_default_cases with ⟨-, hmode⟩ | ⟨-, hmode⟩
    · exact Apu.sequencerTick_of_count hmode rfl (eventAt_eq_none fun hmem => by simp [defaultSeq4] at hmem; omega) h5
    · exact Apu.sequencerTick_of_count hmode rfl (eventAt_eq_none fun hmem => by simp [defaultSeq5] at hmem; omega) h7

/-! ## Quarter events -/

theorem Envelope.quarter_clocked (reg : Byte) (e : Envelope) : EnvelopeClocked reg e (e.quarter reg) := by
  have hperiod : (bitField 4 0 reg).toNat = reg.toNat % 16 := by simp [bitField_toNat]
  unfold EnvelopeClocked Envelope.quarter
  dsimp only
  by_cases hstart : e.start = true
  · rw [if_pos hstart]
    exact ⟨rfl, fun _ => ⟨rfl, hperiod⟩, fun h => absurd (hstart.symm.trans h) (by decide), fun h => absurd (hstart.symm.trans h) (by decide)⟩
  have hstop : e.start = false := by simpa using hstart
  rw [if_neg hstart]
  by_cases hdiv : e.div = 0
  · rw [if_pos hdiv]
    refine ⟨hstop, fun h => absurd h hstart, fun _ _ => ⟨hperiod, ?_⟩, fun _ h => absurd hdiv h⟩
    dsimp only
    split
    case isTrue hdecay =>
      have hlt := e.decay.isLt
      rw [BitVec.toNat_sub]
      simp only [BitVec.ofNat_eq_ofNat, BitVec.toNat_ofNat, Nat.reducePow]
      omega
    case isFalse hdecay =>
      split
      · rfl
      · omega
  · have hpos : e.div.toNat ≠ 0 := fun h => hdiv (BitVec.eq_of_toNat_eq h)
    have hlt := e.div.isLt
    rw [if_neg hdiv]
    refine ⟨hstop, fun h => absurd h hstart, fun _ h => absurd h hdiv, fun _ _ => ⟨rfl, ?_⟩⟩
    simp only [BitVec.toNat_sub, BitVec.ofNat_eq_ofNat, BitVec.toNat_ofNat, Nat.reducePow]
    omega

/-- A counter that stops at 0, in numbers. -/
theorem toNat_sub_one_or_self {w : Nat} (hw : 0 < w) (c : BitVec w) : (if 0 < c.toNat then c - 1 else c).toNat = c.toNat - 1 := by
  have hone : (1 : BitVec w).toNat = 1 := by
    have : 1 < 2 ^ w := Nat.one_lt_two_pow (by omega)
    simp [Nat.mod_eq_of_lt this]
  split
  case isTrue h => rw [BitVec.toNat_sub_of_le (by rw [BitVec.le_def, hone]; exact h), hone]
  case isFalse h => omega

theorem Triangle.quarter_lc (c : Triangle) :
    c.quarter.lc.toNat = if c.lr then c.reg.toNat % 128 else c.lc.toNat - 1 := by
  unfold Triangle.quarter
  dsimp only
  split
  · simp [bitField_toNat]
  · exact toNat_sub_one_or_self (by decide) _

theorem Triangle.quarter_lr (c : Triangle) : c.quarter.lr = (c.lr && c.reg.getLsbD 7) := by
  unfold Triangle.quarter
  dsimp only
  cases c.reg.getLsbD 7 <;> simp

/-! ## Half events -/

theorem lengthHalf_clocked (halt : Bool) (len : Byte) : LengthClocked halt len (lengthHalf halt len) := by
  unfold LengthClocked lengthHalf
  cases halt with
  | true => simp
  | false => simpa using toNat_sub_one_or_self (by decide) len

theorem Pulse.target_eq_sweepTarget (ones : Bool) (p : Pulse) : p.target ones = sweepTarget ones p := Pulse.target_eq ones p

theorem Pulse.mute_iff (ones : Bool) (p : Pulse) : p.mute ones = true ↔ SweepMutes ones p := by
  simp [Pulse.mute, SweepMutes, Pulse.target_eq_sweepTarget]

/-- Where the sweep updates the period, its target fits (R204; log entry 22): a mute would stop it above, and the shift keeps the
change at half the period or less. -/
theorem sweepTarget_fits {ones : Bool} {p : Pulse} (hshift : p.sweep.toNat % 8 ≠ 0) (hmute : ¬ SweepMutes ones p) :
    0 ≤ sweepTarget ones p ∧ sweepTarget ones p ≤ 0x7FF := by
  have hperiod := p.period.isLt
  obtain ⟨hlow, hhigh⟩ : 8 ≤ p.period.toNat ∧ (p.sweep.getLsbD 3 = false → sweepTarget ones p ≤ 0x7FF) := by
    simpa [SweepMutes] using hmute
  have hchange : p.period.toNat / 2 ^ (p.sweep.toNat % 8) ≤ p.period.toNat / 2 :=
    Nat.div_le_div_left (Nat.le_self_pow hshift 2) (by decide)
  cases hnegate : p.sweep.getLsbD 3 with
  | true =>
    simp only [sweepTarget, hnegate, if_true]
    generalize p.period.toNat / 2 ^ (p.sweep.toNat % 8) = change at hchange
    split <;> omega
  | false =>
    refine ⟨?_, hhigh hnegate⟩
    simp only [sweepTarget, hnegate, Bool.false_eq_true, if_false]
    generalize p.period.toNat / 2 ^ (p.sweep.toNat % 8) = change
    omega

/-- A value of 11 bits is kept by the period's register. -/
theorem ofInt_toNat_of_fits {t : Int} (hlow : 0 ≤ t) (hhigh : t ≤ 0x7FF) : ((BitVec.ofInt 11 t).toNat : Int) = t := by
  rw [BitVec.toNat_ofInt]
  omega

theorem Pulse.sweepHalf_period (ones : Bool) (p : Pulse) : ((p.sweepHalf ones).period.toNat : Int) =
    if p.sweepDiv = 0 ∧ p.sweep.getLsbD 7 = true ∧ p.sweep.toNat % 8 ≠ 0 ∧ ¬ SweepMutes ones p
    then sweepTarget ones p else p.period.toNat := by
  have hshift : bitField 3 0 p.sweep ≠ 0 ↔ p.sweep.toNat % 8 ≠ 0 := by
    rw [ne_eq, ← BitVec.toNat_inj, bitField_toNat]
    simp
  unfold Pulse.sweepHalf
  simp only [hshift, Pulse.mute_iff, Pulse.target_eq_sweepTarget]
  split
  case isTrue h =>
    obtain ⟨-, -, hshift, hmute⟩ := h
    obtain ⟨hlow, hhigh⟩ := sweepTarget_fits hshift hmute
    exact ofInt_toNat_of_fits hlow hhigh
  case isFalse => rfl

/-- The sweep's divider reloads at 0 or on request, else counts (R204). -/
theorem Pulse.sweepHalf_divider (ones : Bool) (p : Pulse) :
    (p.sweepDiv = 0 ∨ p.sweepReload = true → (p.sweepHalf ones).sweepDiv.toNat = p.sweep.toNat / 16 % 8 ∧
      (p.sweepHalf ones).sweepReload = false) ∧
    (p.sweepDiv ≠ 0 → p.sweepReload = false → (p.sweepHalf ones).sweepDiv.toNat + 1 = p.sweepDiv.toNat ∧
      (p.sweepHalf ones).sweepReload = false) := by
  unfold Pulse.sweepHalf
  dsimp only
  refine ⟨fun h => ?_, fun hdiv hreload => ?_⟩
  · rw [if_pos h, if_pos h]
    exact ⟨by simp [bitField_toNat], rfl⟩
  · have hnot : ¬ (p.sweepDiv = 0 ∨ p.sweepReload = true) := not_or.mpr ⟨hdiv, by simp [hreload]⟩
    have hpos : p.sweepDiv.toNat ≠ 0 := fun h => hdiv (BitVec.eq_of_toNat_eq h)
    have hlt := p.sweepDiv.isLt
    rw [if_neg hnot, if_neg hnot]
    refine ⟨?_, hreload⟩
    simp only [BitVec.toNat_sub, BitVec.ofNat_eq_ofNat, BitVec.toNat_ofNat, Nat.reducePow]
    omega

/-- A pulse channel's half event is its sweep's clock: the length counter has no part in the sweep. -/
theorem Pulse.half_clocked (ones : Bool) (p : Pulse) : SweepClocked ones p (p.half ones) := by
  have hdivider := Pulse.sweepHalf_divider ones { p with len := lengthHalf (p.reg.getLsbD 5) p.len }
  exact ⟨Pulse.sweepHalf_period ones { p with len := lengthHalf (p.reg.getLsbD 5) p.len }, hdivider.1, hdivider.2⟩

/-- Settles O57, unit by unit. -/
theorem quarterAndHalfEvents : Obligations.QuarterAndHalfEvents := by
  intro a ones
  refine ⟨⟨_, _, _, _, _, Envelope.quarter_clocked _ _, Envelope.quarter_clocked _ _, Envelope.quarter_clocked _ _,
    Triangle.quarter_lc _, Triangle.quarter_lr _, rfl⟩, ?half⟩
  exact ⟨_, _, _, _, _, _, _, _, _, _, lengthHalf_clocked _ _, lengthHalf_clocked _ _, lengthHalf_clocked _ _, lengthHalf_clocked _ _,
    Pulse.half_clocked ones a.pulse1, Pulse.half_clocked false a.pulse2, rfl⟩

end Sys2Proof.Machine
end

section
/-! PROOFS. The channel timers, the DMC, the sample put out and a whole audio tick (R205 to R211). A timer's period is one tick at 0 and
a countdown; a whole tick is the model's three parts, of which the sample reader's bus read has no side effect in mapper space. -/

namespace Sys2Proof.Machine

/-! ## Timer periods -/

/-- A step that counts a state down from `n` reaches 0 after `n` of them. -/
theorem repeat_countdown {α : Type} {f : α → α} {counted : Nat → α} (h : ∀ n, f (counted (n + 1)) = counted n) (n : Nat) :
    Nat.repeat f n (counted n) = counted 0 := by
  induction n with
  | zero => rfl
  | succ n ih => rw [← repeat_apply, h, ih]

theorem Pulse.tick_zero {p : Pulse} (h : p.ct = 0) : p.tick = { p with ct := 2 * p.period.toNat + 1, q := p.q + 1 } := if_pos h

/-- From a timer at 0 the duty step advances once in `2(T + 1)` ticks (R205). -/
theorem Pulse.repeat_tick {p : Pulse} (h : p.ct = 0) : Nat.repeat Pulse.tick (2 * (p.period.toNat + 1)) p = { p with q := p.q + 1 } := by
  have hcount := repeat_countdown (f := Pulse.tick) (counted := fun n => { p with ct := n, q := p.q + 1 }) (fun _ => rfl)
    (2 * p.period.toNat + 1)
  rw [show 2 * (p.period.toNat + 1) = 2 * p.period.toNat + 1 + 1 by omega, ← repeat_apply, Pulse.tick_zero h, hcount, ← h]

theorem Triangle.tick_zero {c : Triangle} (h : c.ct = 0) :
    c.tick = { c with ct := c.period.toNat, q := if 0 < c.lc.toNat ∧ 0 < c.len.toNat then c.q + 1 else c.q } := if_pos h

/-- From a timer at 0 a running triangle's step advances once in `T + 1` ticks (R207). -/
theorem Triangle.repeat_tick {c : Triangle} (h : c.ct = 0) : Nat.repeat Triangle.tick (c.period.toNat + 1) c =
    { c with q := if 0 < c.lc.toNat ∧ 0 < c.len.toNat then c.q + 1 else c.q } := by
  have hcount := repeat_countdown (f := Triangle.tick)
    (counted := fun n => { c with ct := n, q := if 0 < c.lc.toNat ∧ 0 < c.len.toNat then c.q + 1 else c.q }) (fun _ => rfl)
    c.period.toNat
  rw [← repeat_apply, Triangle.tick_zero h, hcount, ← h]

theorem Noise.tick_zero {c : Noise} (h : c.ct = 0) (table : List Nat) : c.tick table =
    { c with ct := periodOf table (bitField 4 0 c.mode).toNat - 1, sr := noiseNext (c.mode.getLsbD 7) c.sr } := if_pos h

/-- A well-formed table has no period 0 (R197). -/
theorem periodOf_pos {table : List Nat} (h : periodsWf table = true) (k : Nat) : 1 ≤ periodOf table k := by
  simp only [periodsWf, Bool.and_eq_true, List.all_eq_true, decide_eq_true_eq] at h
  obtain ⟨-, hall⟩ := h
  rw [periodOf, List.getD_eq_getElem?_getD]
  cases hk : table[k]? with
  | none => exact Nat.le_refl _
  | some n => exact hall n (List.mem_of_getElem? hk)

theorem lowNybble_toNat (b : Byte) : (bitField 4 0 b).toNat = b.toNat % 16 := by simp [bitField_toNat]

/-- From a timer at 0 the noise register advances once in its period (R208). -/
theorem Noise.repeat_tick {c : Noise} (h : c.ct = 0) {table : List Nat} (htable : periodsWf table = true) :
    Nat.repeat (Noise.tick table) (table.getD (c.mode.toNat % 16) 1) c = { c with sr := noiseNext (c.mode.getLsbD 7) c.sr } := by
  have hpos := periodOf_pos htable (c.mode.toNat % 16)
  have hcount := repeat_countdown (f := Noise.tick table)
    (counted := fun n => { c with ct := n, sr := noiseNext (c.mode.getLsbD 7) c.sr }) (fun _ => rfl)
    (periodOf table (c.mode.toNat % 16) - 1)
  rw [show table.getD (c.mode.toNat % 16) 1 = periodOf table (c.mode.toNat % 16) - 1 + 1 from (Nat.sub_add_cancel hpos).symm,
    ← repeat_apply, Noise.tick_zero h, lowNybble_toNat, hcount, ← h]

/-- The noise register's next value, bit by bit (R208). -/
theorem noiseNext_getLsbD (mode : Bool) (sr : BitVec 15) :
    (∀ k < 14, (noiseNext mode sr).getLsbD k = sr.getLsbD (k + 1)) ∧
    (noiseNext mode sr).getLsbD 14 = (sr.getLsbD 0 != (if mode then sr.getLsbD 6 else sr.getLsbD 1)) := by
  unfold noiseNext
  generalize (if mode then sr.getLsbD 6 else sr.getLsbD 1) = tap
  refine ⟨fun k hk => ?_, ?_⟩
  · rw [BitVec.getLsbD_or, BitVec.getLsbD_ushiftRight, BitVec.getLsbD_shiftLeft, decide_eq_true hk, Nat.add_comm]
    simp
  · have hshifted : (sr >>> 1).getLsbD 14 = false := by
      rw [BitVec.getLsbD_ushiftRight]
      exact BitVec.getLsbD_of_ge _ _ (by decide)
    rw [BitVec.getLsbD_or, hshifted, Bool.false_or]
    cases sr.getLsbD 0 <;> cases tap <;> rfl

/-! ## The DMC -/

theorem Dmc.tick_clocked (rates : List Nat) (c : Dmc) : DmcClocked rates c (c.tick rates) := by
  refine ⟨fun hct => if_neg hct, fun hct => ?_⟩
  have htick : c.tick rates = Dmc.outputBit { c with ct := rates.getD (c.reg.toNat % 16) 1 - 1 } := by
    rw [Dmc.tick, if_pos hct, lowNybble_toNat, periodOf]
  refine ⟨if c.silence then c.level else dmcLevel (c.dsr.getLsbD 0) c.level, c.dsr >>> 1, ?_, BitVec.toNat_ushiftRight .., ?_⟩
  · rw [apply_ite BitVec.toNat, dmcLevel_toNat]
  · intro u
    rw [htick]
    refine ⟨fun hleft => ?_, fun hlast hempty => ?_, fun hlast hfull => ?_⟩
    · exact if_neg (show ¬ c.bitsLeft - 1 = 0 by omega)
    · refine (if_pos (show c.bitsLeft - 1 = 0 by omega)).trans ?_
      exact if_pos hempty
    · refine (if_pos (show c.bitsLeft - 1 = 0 by omega)).trans ?_
      exact if_neg (by rw [hfull]; decide)

/-- The timer and the output unit leave the sample reader's fields alone. -/
theorem Dmc.tick_curAddr (rates : List Nat) (c : Dmc) : (c.tick rates).curAddr = c.curAddr := by
  unfold Dmc.tick
  split
  · unfold Dmc.outputBit
    dsimp only
    split
    · exact (Dmc.nextByte_sampleFields _).1
    · rfl
  · rfl

/-- The DMC after its sample reader, `b` being the byte at its address (R209). -/
def Dmc.fetched (b : Byte) (c : Dmc) : Dmc := if c.wantsByte then c.takeByte b else c

theorem Dmc.fetched_dmcFetched (b : Byte) (c : Dmc) : DmcFetched b c (c.fetched b) := by
  have hwants : c.wantsByte = true ↔ c.bufEmpty = true ∧ c.bytesRemaining.toNat ≠ 0 := by
    simp [Dmc.wantsByte, Nat.pos_iff_ne_zero]
  refine ⟨fun hidle => if_neg fun h => ?_, fun hempty hleft => ?_⟩
  · obtain ⟨hempty, hleft⟩ := hwants.mp h
    rcases hidle with hfull | hdone
    · exact absurd (hempty.symm.trans hfull) (by decide)
    · exact hleft (by rw [hdone]; rfl)
  · have hpos : c.bytesRemaining.toNat ≠ 0 := fun h => hleft (BitVec.eq_of_toNat_eq h)
    have hcur := c.curAddr.isLt
    have hrem := c.bytesRemaining.isLt
    refine ⟨if c.curAddr = 0xFFFF then 0x8000 else c.curAddr + 1, c.bytesRemaining - 1, ?cur, ?rem, ?taken⟩
    case cur =>
      have hlast : c.curAddr = 0xFFFF ↔ c.curAddr.toNat = 0xFFFF := by rw [← BitVec.toNat_inj]; rfl
      rw [apply_ite BitVec.toNat, add_one_toNat]
      simp only [hlast]
      split
      · rfl
      · omega
    case rem =>
      rw [BitVec.toNat_sub]
      simp only [BitVec.ofNat_eq_ofNat, BitVec.toNat_ofNat, Nat.reducePow]
      omega
    case taken =>
      intro restarts
      have hrestarts : restarts ↔ c.bytesRemaining - 1 = 0 ∧ c.reg.getLsbD 6 = true := by
        rw [← BitVec.toNat_inj]; rfl
      rw [Dmc.fetched, if_pos (hwants.mpr ⟨hempty, hpos⟩)]
      unfold Dmc.takeByte
      dsimp only
      by_cases h : restarts
      · rw [if_pos (hrestarts.mp h), if_pos h, if_pos h]; rfl
      · rw [if_neg fun hn => h (hrestarts.mpr hn), if_neg h, if_neg h]

/-! ## The sample -/

theorem Pulse.duty_eq_false_iff (p : Pulse) :
    p.duty = false ↔ (duties.getD (p.reg.toNat / 64) []).getD p.q.toNat 0 = 0 := by
  have hreg := p.reg.isLt
  have hsetting : (bitField 2 6 p.reg).toNat = p.reg.toNat / 64 := by
    rw [bitField_toNat]
    simp only [Nat.reducePow]
    omega
  have htable : ∀ (d : Fin 4) (q : BitVec 3), (dutyTable.getD d []).getD q.toNat false = false ↔ (duties.getD d []).getD q.toNat 0 = 0 := by
    decide
  rw [Pulse.duty, hsetting]
  exact htable ⟨p.reg.toNat / 64, by omega⟩ p.q

theorem Pulse.output_eq (ones : Bool) (p : Pulse) : p.output ones = pulseOut ones p := by
  have hsilent : (p.len = 0 || p.mute ones || !p.duty) = true ↔
      p.len = 0 ∨ SweepMutes ones p ∨ (duties.getD (p.reg.toNat / 64) []).getD p.q.toNat 0 = 0 := by
    rw [← Pulse.duty_eq_false_iff, ← Pulse.mute_iff]
    simp [or_assoc]
  rw [Pulse.output, pulseOut, Envelope.volume_eq, volumeOf]
  simp only [hsilent]

theorem Triangle.output_eq (c : Triangle) : c.output = triangleOut c := by
  have htable : ∀ q : BitVec 5, triangleTable.getD q.toNat 0 = if q.toNat < 16 then 15 - q.toNat else q.toNat - 16 := by decide
  rw [Triangle.output, triangleOut, htable]

theorem Noise.output_eq (c : Noise) : c.output = noiseOut c := by
  rw [Noise.output, noiseOut, Envelope.volume_eq, volumeOf]
  simp only [Bool.or_eq_true, decide_eq_true_eq]

/-- The sample an audio tick mixes is the statement's (R211). -/
theorem Apu.mix_eq (ps : Params) (a : Apu) : a.mix ps = sampleOf ps.sweep1OnesComplement a := by
  rw [Apu.mix, sampleOf, Pulse.output_eq, Pulse.output_eq, Triangle.output_eq, Noise.output_eq]

/-! ## A whole tick -/

/-- From 0x4018 on a read does not see the audio unit. -/
theorem peek_setApu {a : Word} (h : 0x4018 ≤ a.toNat) (u : Apu) (s : State) : peek a (s.setApu u) = peek a s := by
  rw [peek, peek, busRead_high h, busRead_high h, State.setApu_image, State.setApu_mapper]

/-- The sample counter's tick (R211). -/
theorem sampleTick_eq {s : State} (h : s.apu.sc < 20) : sampleTick s = { s with
    apu := { s.apu with sc := (s.apu.sc + 1) % 20 }
    env := { s.env with out := if s.apu.sc = 19 then .sample (s.apu.mix s.params) :: s.env.out else s.env.out } } := by
  unfold sampleTick
  by_cases h19 : s.apu.sc = 19
  · rw [if_pos (by omega), if_pos h19, h19]
    rfl
  · rw [if_neg (by omega), if_neg h19, Nat.mod_eq_of_lt (by omega)]
    rfl

/-- The audio unit's timers after the frame sequencer, with the DMC's sample reader, `b` being the byte at its address (R210). -/
def Apu.ticked (ps : Params) (b : Byte) (a : Apu) : Apu :=
  let u := (a.sequencerTick ps).timersTick ps
  { u with dmc := u.dmc.fetched b }

/-- An audio tick in mapper space: the timers with the sample reader, then the sample counter (R209 to R211). -/
theorem audioTick_eq {s : State} (hcur : 0x8000 ≤ s.apu.dmc.curAddr.toNat) :
    audioTick s = sampleTick (s.setApu (s.apu.ticked s.params (peek s.apu.dmc.curAddr s))) := by
  obtain ⟨hdmc, -⟩ := Apu.sequencerTick_dmc s.params s.apu
  have haddr : ((s.apu.sequencerTick s.params).timersTick s.params).dmc.curAddr = s.apu.dmc.curAddr :=
    (Dmc.tick_curAddr ..).trans (congrArg Dmc.curAddr hdmc)
  unfold audioTick Apu.ticked Dmc.fetched
  dsimp only
  rw [sampleReader_eq _ (by rw [State.setApu_apu, haddr]; exact hcur), State.setApu_apu, haddr, peek_setApu (by omega)]
  split <;> rfl

/-- Settles O58: each timer by its countdown, the DMC by its two parts, the whole tick by `audioTick_eq`. -/
theorem audioTimers : Obligations.AudioTimers := by
  refine ⟨fun p => Pulse.repeat_tick, fun c => Triangle.repeat_tick, fun c table hct htable => ?noise, fun s k hsc => ?counts,
    fun s hparams hsc hcur => ?tick, fun R _ _ _ w m => rfl⟩
  case noise =>
    obtain ⟨hlow, htop⟩ := noiseNext_getLsbD (c.mode.getLsbD 7) c.sr
    exact ⟨_, Noise.repeat_tick hct htable, hlow, htop, noiseNext_ne_zero _⟩
  case counts =>
    obtain ⟨hcount, hsamples, -⟩ := audioTicks_counts k hsc
    exact ⟨hcount, hsamples⟩
  case tick =>
    intro a t
    obtain ⟨hdmc, hsc'⟩ := Apu.sequencerTick_dmc s.params s.apu
    have hcount : (s.apu.ticked s.params (peek s.apu.dmc.curAddr s)).sc = s.apu.sc := hsc'
    have ht : t = sampleTick (s.setApu (s.apu.ticked s.params (peek s.apu.dmc.curAddr s))) := audioTick_eq hcur
    refine ⟨s.apu.dmc.tick s.params.dmcRates, _, Dmc.tick_clocked .., Dmc.fetched_dmcFetched _ _, ?_⟩
    rw [ht, sampleTick_eq (by rw [State.setApu_apu, hcount]; exact hsc)]
    simp only [State.setApu_apu, State.setApu_env, State.setApu_params, hcount, Apu.mix_eq]
    simp only [Apu.ticked, Apu.timersTick, hdmc]
    rfl

end Sys2Proof.Machine
end

section
/-! PROOFS. The controller ports (R213 to R216) and save states (R220, R221). -/

namespace Sys2Proof.Machine

/-! ## The ports shift out their buttons -/

/-- The byte a port gives carries its bit at bit 0 (R215). -/
theorem padByte_bit (bit : Bool) (draw : Byte) : (padByte bit draw).getLsbD 0 = bit := by
  rw [padByte, getLsbD_or_masked rfl]
  cases bit <;> rfl

/-- With the strobe clear a port read shifts the register down, and CTRL_AFTER_8 enters at bit 7 (R215). -/
theorem Pad.shift_getLsbD (after8 : Bool) (p : Pad) {j : Nat} (hj : j < 8) :
    (Pad.shift after8 false p).csr.getLsbD j = if j = 7 then after8 else p.csr.getLsbD (1 + j) := by
  have hshift : (Pad.shift after8 false p).csr = (p.csr >>> 1) ||| (BitVec.ofNat 8 after8.toNat <<< 7) := rfl
  rw [hshift, BitVec.getLsbD_or, BitVec.getLsbD_ushiftRight, BitVec.getLsbD_shiftLeft]
  by_cases h7 : j = 7
  · subst h7
    cases after8 <;> simp
  · simp [h7, show j < 7 by omega]

/-- What the register of a port holds `k` reads after it latched the buttons `b`: the buttons not yet given, then CTRL_AFTER_8. -/
def ShiftedOut (after8 : Bool) (b : Byte) (k : Nat) (p : Pad) : Prop :=
  ∀ j < 8, p.csr.getLsbD j = if k + j < 8 then b.getLsbD (k + j) else after8

theorem ShiftedOut.latch (after8 : Bool) (p : Pad) : ShiftedOut after8 p.buttons 0 p.latch := by
  intro j hj
  rw [Nat.zero_add, if_pos hj]
  rfl

theorem ShiftedOut.shift {after8 : Bool} {b : Byte} {k : Nat} {p : Pad} (h : ShiftedOut after8 b k p) :
    ShiftedOut after8 b (k + 1) (Pad.shift after8 false p) := by
  intro j hj
  rw [Pad.shift_getLsbD after8 p hj]
  by_cases h7 : j = 7
  · rw [if_pos h7, if_neg (by omega)]
  · rw [if_neg h7, h (1 + j) (by omega), Nat.add_assoc]

/-- Read `k` of a port that latched its buttons when the strobe was cleared (R215). -/
theorem Pad.bit_after_shifts (after8 : Bool) (k : Nat) (p : Pad) :
    (Nat.repeat (Pad.shift after8 false) k p.latch).bit false = if k < 8 then p.buttons.getLsbD k else after8 := by
  have hout : ShiftedOut after8 p.buttons k (Nat.repeat (Pad.shift after8 false) k p.latch) := by
    induction k with
    | zero => exact .latch after8 p
    | succ k ih => exact ih.shift
  exact hout 0 (by decide)

/-- While the strobe is set a read leaves its port alone, and every one gives button A (R215). -/
theorem Pad.bit_strobed (after8 : Bool) (k : Nat) (p : Pad) :
    (Nat.repeat (Pad.shift after8 true) k p.latch).bit true = p.buttons.getLsbD 0 := by
  have hkeep : Nat.repeat (Pad.shift after8 true) k p.latch = p.latch := by
    induction k with
    | zero => rfl
    | succ k ih => rw [Nat.repeat, ih]; rfl
  rw [hkeep]
  rfl

/-- `k` reads of 0x4016 shift port 0 `k` times and leave port 1 and the strobe alone. -/
theorem afterReads_pad0 (k : Nat) (s : State) : (afterReads 0x4016 k s).params = s.params ∧ (afterReads 0x4016 k s).pads =
    { s.pads with pad0 := Nat.repeat (Pad.shift s.params.ctrlAfter8 s.pads.strobe) k s.pads.pad0 } := by
  induction k with
  | zero => exact ⟨rfl, rfl⟩
  | succ k ih =>
    obtain ⟨hparams, hpads⟩ := ih
    have hread : (afterReads 0x4016 (k + 1) s).pads = { (afterReads 0x4016 k s).pads with
      pad0 := (afterReads 0x4016 k s).pads.pad0.shift (afterReads 0x4016 k s).params.ctrlAfter8 (afterReads 0x4016 k s).pads.strobe } := rfl
    exact ⟨(busRead_params ..).trans hparams, by rw [hread, hpads, hparams]; rfl⟩

/-- `k` reads of 0x4017 shift port 1 `k` times and leave port 0 and the strobe alone. -/
theorem afterReads_pad1 (k : Nat) (s : State) : (afterReads 0x4017 k s).params = s.params ∧ (afterReads 0x4017 k s).pads =
    { s.pads with pad1 := Nat.repeat (Pad.shift s.params.ctrlAfter8 s.pads.strobe) k s.pads.pad1 } := by
  induction k with
  | zero => exact ⟨rfl, rfl⟩
  | succ k ih =>
    obtain ⟨hparams, hpads⟩ := ih
    have hread : (afterReads 0x4017 (k + 1) s).pads = { (afterReads 0x4017 k s).pads with
      pad1 := (afterReads 0x4017 k s).pads.pad1.shift (afterReads 0x4017 k s).params.ctrlAfter8 (afterReads 0x4017 k s).pads.strobe } := rfl
    exact ⟨(busRead_params ..).trans hparams, by rw [hread, hpads, hparams]; rfl⟩

/-- The bit that read `k` of port 0 gives. -/
theorem peek_pad0 (k : Nat) (s : State) : (peek 0x4016 (afterReads 0x4016 k s)).getLsbD 0 =
    (Nat.repeat (Pad.shift s.params.ctrlAfter8 s.pads.strobe) k s.pads.pad0).bit s.pads.strobe := by
  have hbit : (peek 0x4016 (afterReads 0x4016 k s)).getLsbD 0 =
    (afterReads 0x4016 k s).pads.pad0.bit (afterReads 0x4016 k s).pads.strobe := padByte_bit ..
  rw [hbit, (afterReads_pad0 k s).2]

/-- The bit that read `k` of port 1 gives. -/
theorem peek_pad1 (k : Nat) (s : State) : (peek 0x4017 (afterReads 0x4017 k s)).getLsbD 0 =
    (Nat.repeat (Pad.shift s.params.ctrlAfter8 s.pads.strobe) k s.pads.pad1).bit s.pads.strobe := by
  have hbit : (peek 0x4017 (afterReads 0x4017 k s)).getLsbD 0 =
    (afterReads 0x4017 k s).pads.pad1.bit (afterReads 0x4017 k s).pads.strobe := padByte_bit ..
  rw [hbit, (afterReads_pad1 k s).2]

/-- A write to 0x4016 is the controllers' (R214). -/
theorem busWrite_pads (base : Nat) (d : Byte) (s : State) : busWrite base 0x4016 d s = s.setPads (s.pads.write d) := rfl

/-- A write that sets the strobe latches both ports (R214). -/
theorem Pads.write_on {d : Byte} (h : d.getLsbD 0 = true) (p : Pads) :
    p.write d = { pad0 := p.pad0.latch, pad1 := p.pad1.latch, strobe := true } := by
  rw [Pads.write, h, Bool.or_true, if_pos rfl]

/-- A write that clears the strobe latches both ports once more (R214). -/
theorem Pads.write_off {d : Byte} (h : d.getLsbD 0 = false) {p : Pads} (hp : p.strobe = true) :
    p.write d = { pad0 := p.pad0.latch, pad1 := p.pad1.latch, strobe := false } := by
  rw [Pads.write, h, hp, Bool.or_false, if_pos rfl]

/-! ## `setButton` -/

/-- A press sets one bit of the buttons (R216). -/
theorem Pad.press_getLsbD (id : Nat) (pressed : Bool) (p : Pad) {j : Nat} (hj : j < 8) :
    (p.press id pressed).buttons.getLsbD j = if j = id then pressed else p.buttons.getLsbD j := by
  have hpress : (p.press id pressed).buttons = setBitField id (BitVec.ofBool pressed) p.buttons := rfl
  rw [hpress, setBitField_getLsbD, decide_eq_true hj, Bool.true_and]
  by_cases h : j = id
  · subst h
    cases pressed <;> simp
  · rw [if_neg h, if_neg (by omega)]

/-- The port after a press: the button bits, and the register, which follows them while the strobe is set (R216). -/
def Pad.pressed (strobe : Bool) (id : Nat) (pressed : Bool) (p : Pad) : Pad :=
  if strobe then (p.press id pressed).latch else p.press id pressed

theorem Pad.pressed_csr (strobe : Bool) (id : Nat) (pressed : Bool) (p : Pad) :
    (p.pressed strobe id pressed).csr = if strobe then (p.pressed strobe id pressed).buttons else p.csr := by
  cases strobe <;> rfl

theorem Pad.pressed_getLsbD (strobe : Bool) (id : Nat) (pressed : Bool) (p : Pad) {j : Nat} (hj : j < 8) :
    (p.pressed strobe id pressed).buttons.getLsbD j = if j = id then pressed else p.buttons.getLsbD j := by
  cases strobe <;> exact p.press_getLsbD id pressed hj

theorem State.setButton_port0 {id : Nat} (h : id < 8) (pressed : Bool) (s : State) : s.setButton 0 id pressed =
    some (s.setPads { s.pads with pad0 := s.pads.pad0.pressed s.pads.strobe id pressed }) := by
  unfold State.setButton Pads.setButton
  rw [if_neg (by omega)]
  rfl

theorem State.setButton_port1 {id : Nat} (h : id < 8) (pressed : Bool) (s : State) : s.setButton 1 id pressed =
    some (s.setPads { s.pads with pad1 := s.pads.pad1.pressed s.pads.strobe id pressed }) := by
  unfold State.setButton Pads.setButton
  rw [if_neg (by omega)]
  rfl

/-- A port and a button in range are accepted (R216). -/
theorem State.setButton_some {port id : Nat} (hport : port < 2) (hid : id < 8) (pressed : Bool) (s : State) :
    ∃ v, s.setButton port id pressed = some v := by
  obtain rfl | rfl : port = 0 ∨ port = 1 := by omega
  · exact ⟨_, s.setButton_port0 hid pressed⟩
  · exact ⟨_, s.setButton_port1 hid pressed⟩

/-- `setButton` refuses exactly a port or a button out of range (R216). -/
theorem State.setButton_none_iff (port id : Nat) (pressed : Bool) (s : State) :
    s.setButton port id pressed = none ↔ 2 ≤ port ∨ 8 ≤ id := by
  refine ⟨fun hnone => ?_, State.setButton_none⟩
  refine Decidable.byContradiction fun hrange => ?_
  obtain ⟨v, hv⟩ := s.setButton_some (port := port) (id := id) (by omega) (by omega) pressed
  exact absurd (hnone.symm.trans hv) (by simp)

/-- Settles O59: the shift register is followed read by read (`ShiftedOut`). -/
theorem controllersShiftOutButtons : Obligations.ControllersShiftOutButtons := by
  intro s base on off k hon hoff u t
  have hu : u = s.setPads { pad0 := s.pads.pad0.latch, pad1 := s.pads.pad1.latch, strobe := true } := by
    rw [← Pads.write_on hon]; exact busWrite_pads base on s
  have ht : t = s.setPads { pad0 := s.pads.pad0.latch, pad1 := s.pads.pad1.latch, strobe := false } := by
    have hoffWrite : t = u.setPads (u.pads.write off) := busWrite_pads base off u
    rw [hoffWrite, hu, Pads.write_off hoff rfl]; rfl
  refine ⟨?shifted0, ?shifted1, ?strobed0, ?strobed1, fun port id pressed => ⟨s.setButton_none_iff port id pressed, fun v hv => ?pressed⟩,
    fun h port id pressed => ⟨fun hport hid => ?accepted, fun hrange => ?refused⟩⟩
  case shifted0 => rw [ht, peek_pad0]; exact Pad.bit_after_shifts ..
  case shifted1 => rw [ht, peek_pad1]; exact Pad.bit_after_shifts ..
  case strobed0 => rw [hu, peek_pad0]; exact Pad.bit_strobed ..
  case strobed1 => rw [hu, peek_pad1]; exact Pad.bit_strobed ..
  case pressed =>
    have hrange : port < 2 ∧ id < 8 := by
      refine Decidable.byContradiction fun hout => ?_
      rw [State.setButton_none (by omega)] at hv
      cases hv
    obtain ⟨hport, hid⟩ := hrange
    have hbit (p : Pad) : ∀ j < 8, (p.pressed s.pads.strobe id pressed).buttons.getLsbD j
        = if j = id then pressed else p.buttons.getLsbD j := fun _ hj => p.pressed_getLsbD _ _ _ hj
    obtain rfl | rfl : port = 0 ∨ port = 1 := by omega
    · obtain rfl := Option.some.inj ((s.setButton_port0 hid pressed).symm.trans hv)
      exact ⟨rfl, rfl, fun _ => ⟨rfl, Pad.pressed_csr .., hbit _⟩, fun h => absurd h (by decide)⟩
    · obtain rfl := Option.some.inj ((s.setButton_port1 hid pressed).symm.trans hv)
      exact ⟨rfl, rfl, fun h => absurd h (by decide), fun _ => ⟨rfl, Pad.pressed_csr .., hbit _⟩⟩
  case accepted =>
    obtain ⟨v, hv⟩ := h.machine.setButton_some hport hid pressed
    rw [HostInput.apply_setButton, hv]
    exact ⟨rfl, rfl⟩
  case refused =>
    show HostInput.apply h (.setButton port id pressed) = h
    rw [HostInput.apply_setButton, State.setButton_none hrange]
    rfl

/-! ## Save states -/

/-- The model's test of a snapshot's shape is `SameShape` (R221). -/
theorem Snapshot.fits_iff (n : Snapshot) (s : State) : n.fits s = true ↔ SameShape n s := by
  have hbool : ∀ a b : Bool, (a == b) = true ↔ (a = true ↔ b = true) := by decide
  have hchr : s.image.hasChrRam = true ↔ s.image.nChr = 0 := beq_iff_eq
  have hsprites : (n.ppu.sprites.all fun e => decide (e < 64)) = true ↔ ∀ e ∈ n.ppu.sprites, e < 64 := by simp
  unfold Snapshot.fits Snapshot.fitsMapper Snapshot.fitsPicture SameShape
  simp only [Bool.and_eq_true, MapperRegs.sameVariant_iff, hbool, hchr, hsprites, decide_eq_true_eq]
  constructor
  · rintro ⟨⟨⟨⟨⟨⟨hregs, hprg⟩, hchr⟩, hprgRam⟩, hchrRam⟩, ⟨⟨⟨⟨⟨hnt, hpal⟩, hoam⟩, hbgidx⟩, hfb⟩, hlength⟩, hentries⟩, hram⟩
    exact ⟨hregs, hprg, hchr, hram, hprgRam, hchrRam, hnt, hpal, hoam, hbgidx, hfb, hlength, hentries⟩
  · rintro ⟨hregs, hprg, hchr, hram, hprgRam, hchrRam, hnt, hpal, hoam, hbgidx, hfb, hlength, hentries⟩
    exact ⟨⟨⟨⟨⟨⟨hregs, hprg⟩, hchr⟩, hprgRam⟩, hchrRam⟩, ⟨⟨⟨⟨⟨hnt, hpal⟩, hoam⟩, hbgidx⟩, hfb⟩, hlength⟩, hentries⟩, hram⟩

/-- A snapshot of the shape replaces every component of a running machine (R221). -/
theorem State.setSaveState_of_sameShape {n : Snapshot} {s : State} (hrun : s.cpu.halted = none) (hshape : SameShape n s) :
    s.setSaveState n = some (n.restore s) := by
  rw [State.setSaveState, hrun, (n.fits_iff s).mpr hshape]
  rfl

/-- A halted machine refuses every snapshot (R24), a running one exactly a snapshot of another shape (R221). -/
theorem State.setSaveState_refused {n : Snapshot} {s : State} (h : s.cpu.halted ≠ none ∨ ¬ SameShape n s) :
    s.setSaveState n = none := by
  unfold State.setSaveState
  refine if_neg fun hc => ?_
  obtain ⟨hrun, hfits⟩ := Bool.and_eq_true_iff.mp hc
  rcases h with hhalted | hshape
  · exact hhalted (Option.isNone_iff_eq_none.mp hrun)
  · exact hshape ((n.fits_iff s).mp hfits)

/-- A well-formed machine's snapshot has the shape of every machine with its image and its mapper variant. -/
theorem State.Wf.sameShape {s t : State} (h : s.Wf) (himage : t.image = s.image)
    (hregs : s.mapper.regs.sameVariant t.mapper.regs = true) : SameShape s.getSaveState t := by
  refine ⟨(MapperRegs.sameVariant_iff ..).mp hregs, ?_, ?_, h.ram, h.mapper.prgRam, h.mapper.chrRam, h.ppu.ntRam, h.ppu.pal, h.ppu.oam,
    h.ppu.bgidx, h.ppu.fb, h.ppu.sprites, h.ppu.entries⟩
  · rw [himage]; rfl
  · rw [himage]; exact beq_iff_eq

theorem MapperRegs.sameVariant_self (m : MapperRegs) : m.sameVariant m = true := by cases m <;> rfl

/-- A snapshot of one mapper has not the shape of a machine with the other. -/
theorem not_sameShape_of_variant {n : Snapshot} {s : State} (h : n.mapper.regs.sameVariant s.mapper.regs = false) :
    ¬ SameShape n s := by
  intro hshape
  obtain ⟨hvariant, -⟩ := hshape
  rw [← MapperRegs.sameVariant_iff, h] at hvariant
  cases hvariant

/-- Settles O60: the test of the shape is `SameShape`, which a well-formed machine's own snapshot has. -/
theorem saveStateRestoresMachine : Obligations.SaveStateRestoresMachine := by
  refine ⟨fun s hwf hrun => ?own, fun s t hwf hrun himage hparams hregs => ?later, fun s t hs ht => ?mappers,
    fun s n => ⟨State.setSaveState_refused, State.setSaveState_of_sameShape⟩,
    fun h n => ⟨rfl, fun hrun hshape => ?input, fun hno => ?refused⟩⟩
  case own => exact State.setSaveState_of_sameShape hrun (hwf.sameShape rfl (MapperRegs.sameVariant_self _))
  case later =>
    rw [State.setSaveState_of_sameShape hrun (hwf.sameShape himage hregs), Snapshot.restore, himage, hparams]
    rfl
  case mappers =>
    obtain ⟨r, hs⟩ := hs
    refine ⟨State.setSaveState_refused (.inr (not_sameShape_of_variant ?_)),
      State.setSaveState_refused (.inr (not_sameShape_of_variant ?_))⟩
    · show s.mapper.regs.sameVariant t.mapper.regs = false
      rw [hs, ht]; rfl
    · show t.mapper.regs.sameVariant s.mapper.regs = false
      rw [hs, ht]; rfl
  case input =>
    rw [HostInput.apply_setSaveState, State.setSaveState_of_sameShape hrun hshape]
    exact ⟨rfl, rfl⟩
  case refused =>
    rw [HostInput.apply_setSaveState, State.setSaveState_refused hno]
    rfl

end Sys2Proof.Machine
end
